-- ==== Sys2Proof/Word.lean ====
section
/-! DEFINITION. The words and tables the model is built from: bytes, numbered tables, and the plain arithmetic over them. -/

namespace Sys2Proof

/-- One byte of a frame (R194). -/
abbrev Byte := BitVec 8

/-- The values of `f` at the first `k` indices, before `rest`. -/
def tabulate {α : Type} {n : Nat} (f : Fin n → α) : (k : Nat) → k ≤ n → List α → List α
  | 0, _, rest => rest
  | k + 1, h, rest => tabulate f k (Nat.le_of_succ_le h) (f ⟨k, h⟩ :: rest)

theorem tabulate_length {α : Type} {n : Nat} (f : Fin n → α) :
    ∀ (k : Nat) (h : k ≤ n) (rest : List α), (tabulate f k h rest).length = k + rest.length
  | 0, _, _ => by simp [tabulate]
  | k + 1, h, rest => by
    rw [tabulate, tabulate_length f k]
    simp only [List.length_cons]
    omega

/-- The `n` indices in ascending order. -/
def indices (n : Nat) : List (Fin n) := tabulate (fun i => i) n (Nat.le_refl n) []

/-- A table of `n` like things, numbered 0 to `n - 1` inside the model (the manual numbers most of them from 1). -/
structure Tab (α : Type) (n : Nat) where
  rows : Vector α n
  deriving DecidableEq, Repr

namespace Tab

variable {α β : Type} {n : Nat}

/-- The entry at index `i`. -/
def get (t : Tab α n) (i : Fin n) : α := t.rows.get i

/-- The table whose entry at each index is given by `f`. -/
def build (f : Fin n → α) : Tab α n :=
  ⟨⟨(tabulate f n (Nat.le_refl n) []).toArray, by simp [tabulate_length]⟩⟩

/-- The table with entry `i` replaced. -/
def set (t : Tab α n) (i : Fin n) (a : α) : Tab α n := ⟨t.rows.set i.val a i.isLt⟩

/-- The table with entry `i` changed by `f`. -/
def modify (t : Tab α n) (i : Fin n) (f : α → α) : Tab α n := t.set i (f (t.get i))

/-- The table with every entry changed by `f`. -/
def each (t : Tab α n) (f : α → β) : Tab β n := build fun i => f (t.get i)

/-- The table with the same entry everywhere. -/
def const (a : α) : Tab α n := build fun _ => a

end Tab

/-- The number the manual gives the thing at index `i` of a table numbered from 1. -/
def numberOf {n : Nat} (i : Fin n) : Nat := i.val + 1

/-- The index of the thing numbered `k` in a table of `n` numbered from 1; none outside 1 to `n`. -/
def indexOf (n k : Nat) : Option (Fin n) :=
  if h : 1 ≤ k ∧ k ≤ n then some ⟨k - 1, by omega⟩ else none

/-- The index of the thing numbered `k` in a table of `n` numbered from 0; none at or above `n`. -/
def codeOf (n k : Nat) : Option (Fin n) :=
  if h : k < n then some ⟨k, h⟩ else none

end Sys2Proof
end

