-- ==== Sys2Proof/Config.lean ====
section
/-! DEFINITION. What the CA192 fixes: sizes, fixed times and identity values. The manual leaves no value of this part open to an implementation, so no free value stands here (notes/assumptions/1.md). -/

namespace Sys2Proof.Config

/-- Claim records in the pool (R21). -/
def poolSize : Nat := 1024
/-- Completion trackers in the pool (R45). -/
def trackerPool : Nat := 32
/-- Pool trackers one port may hold (R45). -/
def trackersPerPort : Nat := 8
/-- Slots of the group member store (R54). -/
def memberSlots : Nat := 2048
/-- Slots of the preset pair store (R57). -/
def pairSlots : Nat := 3072
/-- Entries of the binding table (R88). -/
def bindingSlots : Nat := 512
/-- Entries of the deferred action queue (R122). -/
def deferredSlots : Nat := 16
/-- Notices a port's queue holds (R190). -/
def queueSlots : Nat := 16
/-- Where every 16-bit counter stops (R193). -/
def counterTop : Nat := 65535
/-- The highest level and output (00_scope, Numbers and ranges). -/
def levelTop : Nat := 1000
/-- The longest fade or release time, in tenths of a second (00_scope, Numbers and ranges). -/
def fadeTop : Nat := 36000

/-! The model counts time in microseconds: every time the manual gives is a whole number of them (notes/assumptions/2.md). -/

/-- One tenth of a second. -/
def tenth : Nat := 100000
/-- One second. -/
def second : Nat := 1000000
/-- One millisecond. -/
def milli : Nat := 1000
/-- The time one idle step lets pass (notes/assumptions/3.md). -/
def tick : Nat := 1

/-- The quiet time of a LOST port, 2 s (R180). -/
def quietTime : Nat := 2 * second
/-- The reply window of a POLL, 4 ms (R69). -/
def replyWindow : Nat := 4 * milli
/-- How long a refused action blinks its key, 3 s (R74). -/
def blinkTime : Nat := 3 * second
/-- The length of a chatter window, 2 s (R80). -/
def chatterTime : Nat := 2 * second
/-- Accepted changes a chatter window takes before the next locks the key out (R80). -/
def chatterTop : Nat := 10
/-- How long a locked-out key must be still, 5 s (R81). -/
def lockoutTime : Nat := 5 * second
/-- How long a contact reading must stand, 100 ms (R155). -/
def debounceTime : Nat := 100 * milli
/-- The rack sample period, 25 ms (R173). -/
def rackPeriod : Nat := 25 * milli

/-- The part code a PING reply carries (R188). -/
def partCode : Nat := 0x0C92
/-- The revision number a PING reply carries (R188). -/
def revision : Nat := 1
/-- The format number of a configuration image of this part (R196). -/
def imageFormat : Nat := 1

end Sys2Proof.Config
end

