-- ==== Sys2Proof/Records.lean ====
section
/-! DEFINITION. The manual's names (ports, owners, modes, keys) and the configuration records the part works from, as data. Records as stored hold typed numbers; records as a master writes them ("Raw…") hold the plain numbers of the payload, which the owning rule judges. -/

namespace Sys2Proof

/-- Circuit 1 to 192 (00_scope), by index. -/
abbrev Circuit := Fin 192
/-- Rank 0 to 7 (00_scope). -/
abbrev Rank := Fin 8
/-- Group 0 to 64 (R53). -/
abbrev GroupNo := Fin 65
/-- Preset 1 to 48 (R56), by index. -/
abbrev PresetNo := Fin 48
/-- Sequence 1 to 16 (R128), by index. -/
abbrev SequenceNo := Fin 16
/-- Player 1 to 4 (R130), by index. -/
abbrev PlayerNo := Fin 4
/-- Standby slot 1 to 4 (R109), by index. -/
abbrev SlotNo := Fin 4
/-- Field loop 1 to 4 (R66), by index. -/
abbrev LoopNo := Fin 4
/-- Station address 01 to 16 (R66), by index. -/
abbrev StationNo := Fin 16
/-- Key 1 to 8 of a station (R66), by index. -/
abbrev KeyNo := Fin 8
/-- PWM line 1 to 16 (R174), by index. -/
abbrev LineNo := Fin 16

/-- Master port A to D (00_scope). -/
inductive Port where
  | a | b | c | d
  deriving DecidableEq, Repr

namespace Port
/-- The port's place in a table of four. -/
def ix : Port → Fin 4
  | a => 0 | b => 1 | c => 2 | d => 3
/-- The four ports, A to D. -/
def all : List Port := [a, b, c, d]
/-- The port coded `n` (R194); none above 3. -/
def ofCode : Nat → Option Port
  | 0 => some a | 1 => some b | 2 => some c | 3 => some d | _ => none
end Port

/-- The ten owners of claims, in the order of R1. -/
inductive Owner where
  | port (p : Port)
  | field
  | seq (n : PlayerNo)
  | mode
  deriving DecidableEq, Repr

/-- The owners in the order of R1. -/
def Owner.all : List Owner :=
  [port .a, port .b, port .c, port .d, field, seq 0, seq 1, seq 2, seq 3, mode]

/-- Merge mode of a rank (R2). -/
inductive MergeMode where
  | ltp | htp
  deriving DecidableEq, Repr

/-- Merge mode by code (R194); none above 1. -/
def MergeMode.ofCode : Nat → Option MergeMode
  | 0 => some ltp | 1 => some htp | _ => none

/-- House mode (R146). `inShow` is SHOW, a word Lean keeps for itself. -/
inductive HouseMode where
  | work | preshow | inShow | interval | secure
  deriving DecidableEq, Repr

namespace HouseMode
/-- The mode's place in a table of five. -/
def ix : HouseMode → Fin 5
  | work => 0 | preshow => 1 | inShow => 2 | interval => 3 | secure => 4
/-- The five modes in the order of R146. -/
def all : List HouseMode := [work, preshow, inShow, interval, secure]
/-- The mode coded `n` (R194: 1 WORK to 5 SECURE); none for 0 and above 5. -/
def ofCode : Nat → Option HouseMode
  | 1 => some work | 2 => some preshow | 3 => some inShow | 4 => some interval | 5 => some secure | _ => none
end HouseMode

/-- Key edge (R76 to R78), in the order of R89. -/
inductive Edge where
  | press | tap | hold | release
  deriving DecidableEq, Repr

namespace Edge
/-- The edge's code (R194) and place in the order of R89. -/
def code : Edge → Nat
  | press => 0 | tap => 1 | hold => 2 | release => 3
/-- The edge coded `n`; none above 3. -/
def ofCode : Nat → Option Edge
  | 0 => some press | 1 => some tap | 2 => some hold | 3 => some release | _ => none
/-- The four edges in table order (R89). -/
def all : List Edge := [press, tap, hold, release]
end Edge

/-- Key address loop.station.key (R66). -/
structure KeyAddr where
  loop : LoopNo
  station : StationNo
  key : KeyNo
  deriving DecidableEq, Repr

/-- A key address as a payload gives it (R194): the loop byte and (station − 1) × 8 + (key − 1). -/
structure RawKey where
  loop : Nat
  index : Nat
  deriving DecidableEq, Repr

/-- Station type (R66). -/
inductive StationType where
  | keypad8 | switch2
  deriving DecidableEq, Repr

/-- How many keys the type has (R66). -/
def StationType.keys : StationType → Nat
  | keypad8 => 8 | switch2 => 2

/-- Station type by its code in a table entry (R194: numbered from 0 in the order of R66). -/
def StationType.ofCode : Nat → Option StationType
  | 0 => some keypad8 | 1 => some switch2 | _ => none

/-- Player mode (R130). -/
inductive PlayerMode where
  | off | single | loop
  deriving DecidableEq, Repr

/-- Player mode by code (R194); none above 2. -/
def PlayerMode.ofCode : Nat → Option PlayerMode
  | 0 => some off | 1 => some single | 2 => some loop | _ => none

/-- The two modes a run has (R132). -/
inductive RunMode where
  | single | loop
  deriving DecidableEq, Repr

/-- A run's mode as the player's mode. -/
def RunMode.toPlayer : RunMode → PlayerMode
  | single => .single | loop => .loop

/-- The run mode a player mode names; none for OFF. -/
def PlayerMode.run : PlayerMode → Option RunMode
  | off => none | single => some .single | loop => some .loop

/-- End action of a sequence (R128). -/
inductive EndAction where
  | hold | release
  deriving DecidableEq, Repr

/-- End action by code (R194); none above 1. -/
def EndAction.ofCode : Nat → Option EndAction
  | 0 => some hold | 1 => some release | _ => none

/-- Polarity of a PWM line (R174). -/
inductive Polarity where
  | activeHigh | activeLow
  deriving DecidableEq, Repr

/-- Polarity by code (R194); none above 1. -/
def Polarity.ofCode : Nat → Option Polarity
  | 0 => some activeHigh | 1 => some activeLow | _ => none

/-- Curve of a DIMMED circuit (R168). -/
inductive Curve where
  | linear | square
  deriving DecidableEq, Repr

/-- Curve by code (R194); none above 1. -/
def Curve.ofCode : Nat → Option Curve
  | 0 => some linear | 1 => some square | _ => none

/-- Route of a circuit's output (R165): the rack slot of its number, a PWM line (LOCAL), or NONE. -/
inductive Route where
  | link
  | pwm (line : LineNo)
  | unrouted
  deriving DecidableEq, Repr

/-- VALID or INVALID (R196). -/
inductive Validity where
  | valid | invalid
  deriving DecidableEq, Repr

/-- Link rate of a port (R186): 115,200 or 460,800 bit/s. -/
inductive LinkRate where
  | r115200 | r460800
  deriving DecidableEq, Repr

/-- Link rate by code (R194: in the order of R186); none above 1. -/
def LinkRate.ofCode : Nat → Option LinkRate
  | 0 => some r115200 | 1 => some r460800 | _ => none

/-- Permission of a role (R186). -/
inductive Permission where
  | cue | mode | edit | safety | admin
  deriving DecidableEq, Repr

/-- The five permissions in the order of R186. -/
def Permission.all : List Permission := [.cue, .mode, .edit, .safety, .admin]

/-- Reading of the emergency contact (R155). -/
inductive Contact where
  | normal | active | faultOpen | faultShort
  deriving DecidableEq, Repr

/-- ACTIVE, FAULT_OPEN and FAULT_SHORT are asserted, NORMAL is not (R155). -/
def Contact.asserted : Contact → Bool
  | normal => false | active => true | faultOpen => true | faultShort => true

/-- Notice kinds in the order of their codes (R189). -/
inductive NoticeKind where
  | key | preempted | restored | fadeDone | standbyEnd | deferWarning | keyLockout | station
  | mode | emergency | seq | poolFull | orphansReleased | saveDone | saveFailed | config
  deriving DecidableEq, Repr

namespace NoticeKind
/-- The sixteen kinds in the order of their codes (R189). -/
def all : List NoticeKind :=
  [key, preempted, restored, fadeDone, standbyEnd, deferWarning, keyLockout, station,
   mode, emergency, seq, poolFull, orphansReleased, saveDone, saveFailed, config]
/-- The six kinds delivered to the one port they concern, without subscription (R189). -/
def personal : NoticeKind → Bool
  | preempted | restored | fadeDone | standbyEnd | saveDone | saveFailed => true
  | key | deferWarning | keyLockout | station | mode | emergency | seq | poolFull
  | orphansReleased | config => false
end NoticeKind

/-! ## Records as stored -/

/-- A preset's definition (R56). -/
structure PresetDef where
  defaultFade : Nat
  pairs : List (Circuit × Nat)
  deriving DecidableEq, Repr

/-- What a sequence step does (R128). -/
inductive StepKind where
  | recall (preset : PresetNo)
  | release
  deriving DecidableEq, Repr

/-- A step of a sequence (R128). -/
structure SeqStep where
  kind : StepKind
  fade : Nat
  wait : Nat
  deriving DecidableEq, Repr

/-- A sequence's definition (R128). -/
structure SequenceDef where
  steps : List SeqStep
  rank : Rank
  endAction : EndAction
  releaseTime : Nat
  passLimit : Nat
  deriving DecidableEq, Repr

/-- The run request a mode hands a player on entry (R147). -/
inductive EntrySequence where
  | run (player : PlayerNo) (mode : RunMode) (sequence : SequenceNo)
  | off (player : PlayerNo)
  deriving DecidableEq, Repr

/-- A mode record (R147). -/
structure ModeRecord where
  entryPreset : Option PresetNo
  entryRank : Rank
  entryFade : Nat
  entrySequence : Option EntrySequence
  deriving DecidableEq, Repr

/-- How a circuit is driven, with the fields its kind carries (R165). -/
inductive CircuitKind where
  | dimmed (curve : Curve) (min max : Nat)
  | switched (threshold hysteresis dwell : Nat)
  deriving DecidableEq, Repr

/-- Whether the kind is SWITCHED (R165). -/
def CircuitKind.isSwitched : CircuitKind → Bool
  | dimmed _ _ _ => false | switched _ _ _ => true

/-- A circuit record (R165). -/
structure CircuitRecord where
  kind : CircuitKind
  route : Route
  base : Nat
  emergency : Option Nat
  deriving DecidableEq, Repr

/-- A port's access set (R186). -/
inductive AccessSet where
  | all
  | groups (list : List GroupNo)
  deriving DecidableEq, Repr

/-- A role record (R186): lease and orphan hold in seconds, orphan release time in tenths. -/
structure RoleRecord where
  maxRank : Rank
  access : AccessSet
  permissions : List Permission
  lease : Nat
  orphanHold : Nat
  orphanRelease : Nat
  linkRate : LinkRate
  deriving DecidableEq, Repr

/-- A field action with the fields it uses (R88). -/
inductive FieldAction where
  | on (group : GroupNo) (level fade : Nat) (rank : Rank)
  | off (group : GroupNo) (fade : Nat) (rank : Rank)
  | toggle (group : GroupNo) (level fade : Nat) (rank : Rank)
  | raise (group : GroupNo) (rank : Rank)
  | lower (group : GroupNo) (rank : Rank)
  | recall (preset : PresetNo) (fade : Nat) (rank : Rank)
  | release (group : GroupNo) (fade : Nat) (rank : Rank)
  | seqRun (player : PlayerNo) (sequence : SequenceNo) (mode : RunMode)
  | seqStop (player : PlayerNo)
  | setMode (mode : HouseMode)
  deriving DecidableEq, Repr

/-- A binding entry (R88). -/
structure Binding where
  key : KeyAddr
  edge : Edge
  gate : List HouseMode
  action : FieldAction
  deriving DecidableEq, Repr

/-- The system settings (R198): hold time in ms; raise time and defer limit in s; egress, recovery and restart
times in tenths; PWM periods in µs. -/
structure Settings where
  holdTime : Nat
  raiseTime : Nat
  deferLimit : Nat
  warningLevel : Nat
  egressTime : Nat
  recoveryTime : Nat
  restartFade : Nat
  startMode : HouseMode
  pwmPeriod : Tab Nat 16
  pwmPolarity : Tab Polarity 16
  deriving DecidableEq, Repr

/-- The live tables and settings, which are what the configuration image holds (R196). -/
structure Tables where
  ranks : Tab MergeMode 8
  /-- User groups 1 to 64 by index; an empty list is an undefined group (R53, R55). -/
  groups : Tab (List Circuit) 64
  presets : Tab (Option PresetDef) 48
  /-- In table order (R89). -/
  bindings : List Binding
  stations : Tab (Tab (Option StationType) 16) 4
  sequences : Tab (Option SequenceDef) 16
  modes : Tab ModeRecord 5
  circuits : Tab CircuitRecord 192
  roles : Tab RoleRecord 4
  settings : Settings
  deriving DecidableEq, Repr

/-- What the memory holds where the image stands (R196): the header's format number, length in bytes and CRC-32, and the
bytes of the tables and settings behind it. -/
structure StoredImage where
  format : Nat
  length : Nat
  crc : BitVec 32
  body : List Byte
  deriving DecidableEq, Repr

/-- How the read of the image ended (R196, notes/assumptions/8.md). -/
inductive ImageRead where
  /-- The memory did not answer, or broke off during the read. -/
  | failed
  /-- The whole image was read, and the memory holds what this part last left in it. -/
  | stored
  /-- The whole memory was read, which was written or exchanged outside the part and holds these bytes. -/
  | external (bytes : List Byte)
  deriving DecidableEq, Repr

/-! ## Records as a master writes them -/

/-- A group or a list of circuits (R10, R194). -/
inductive Target where
  | group (number : Nat)
  | circuits (list : List Nat)
  deriving DecidableEq, Repr

/-- The fields of PLACE (R10). -/
structure PlaceFields where
  target : Target
  level : Nat
  fade : Nat
  rank : Nat
  wait : Bool
  deriving DecidableEq, Repr

/-- The fields of RELEASE (R20). -/
structure ReleaseFields where
  target : Target
  time : Nat
  deriving DecidableEq, Repr

/-- The fields of RECALL (R64): no fade means the preset's default fade. -/
structure RecallFields where
  preset : Nat
  fade : Option Nat
  rank : Nat
  deriving DecidableEq, Repr

/-- The cue of GO, in the form of a PLACE or of a RECALL (R113). -/
inductive Cue where
  | place (f : PlaceFields)
  | recall (f : RecallFields)
  deriving DecidableEq, Repr

/-- The target of a binding entry as written: one number, or the three of SEQ_RUN (R88). -/
inductive RawBindingTarget where
  | number (n : Nat)
  | run (player sequence mode : Nat)
  deriving DecidableEq, Repr

/-- A binding entry as written (R90): the gate as a bit field, the action by code in the order of R88. -/
structure RawBinding where
  gate : Nat
  action : Nat
  target : RawBindingTarget
  level : Option Nat
  fade : Option Nat
  rank : Option Nat
  deriving DecidableEq, Repr

/-- A sequence step as written (R129). -/
structure RawStep where
  kind : Nat
  preset : Option Nat
  fade : Nat
  wait : Nat
  deriving DecidableEq, Repr

/-- A sequence as written (R129). -/
structure RawSequence where
  steps : List RawStep
  rank : Nat
  endAction : Nat
  releaseTime : Nat
  passLimit : Nat
  deriving DecidableEq, Repr

/-- An entry sequence as written (R147). -/
structure RawEntrySequence where
  player : Nat
  mode : Nat
  sequence : Option Nat
  deriving DecidableEq, Repr

/-- A mode record as written (R147). -/
structure RawModeRecord where
  entryPreset : Option Nat
  entryRank : Nat
  entryFade : Nat
  entrySequence : Option RawEntrySequence
  deriving DecidableEq, Repr

/-- A circuit record as written (R166): kind and route by code, fields of a kind as filled or empty. -/
structure RawCircuitRecord where
  kind : Nat
  route : Nat
  line : Option Nat
  base : Nat
  emergency : Option Nat
  curve : Option Nat
  min : Option Nat
  max : Option Nat
  threshold : Option Nat
  hysteresis : Option Nat
  dwell : Option Nat
  deriving DecidableEq, Repr

/-- A role record as written (R186): no list means ALL; permissions as a bit field. -/
structure RawRoleRecord where
  maxRank : Nat
  access : Option (List Nat)
  permissions : Nat
  lease : Nat
  orphanHold : Nat
  orphanRelease : Nat
  linkRate : Nat
  deriving DecidableEq, Repr

/-! ## What a frame or an event carries -/

/-- A request's payload: its fields, or bytes that are not of the form the kind requires (R185, notes/assumptions/14.md). -/
inductive Payload (α : Type) where
  | fields (f : α)
  | malformed
  deriving DecidableEq, Repr

/-- Why a frame is bad (R184). -/
inductive FrameFault where
  | length | gap | crc
  deriving DecidableEq, Repr

/-- What a failed erase leaves of the stored header (R199, notes/assumptions/11.md). -/
inductive HeaderLeft where
  | untouched
  | whole
  /-- Erased in part: what the next full reset will find of the header. -/
  | part (format length : Nat) (crc : BitVec 32)
  deriving DecidableEq, Repr

/-- The stage of a save at which the memory failed to acknowledge a write (R199). -/
inductive SaveFailure where
  | erasing (left : HeaderLeft)
  | tables
  | header
  deriving DecidableEq, Repr

end Sys2Proof
end

