-- ==== Sys2Proof/Syntax.lean ====
section
/-! DEFINITION. The commands of the CA192: one constructor per row of spec/opcode_table.json, with what each carries. -/

namespace Sys2Proof

/-- The commands of the part. A request carries its port, its tag byte and its payload; an event carries what it
happens to; numbers that a rule judges are plain numbers. -/
inductive Instr where
  /-- Power-on or the reset line (R196). -/
  | fullReset
  /-- The read of the image ends (R196). -/
  | imageTaken (read : ImageRead)
  /-- Judging and loading end (R196). -/
  | startupEnd
  /-- A bad frame on a port (R184). -/
  | badFrame (port : Port) (cause : FrameFault)
  /-- A valid frame on a LOST port (R180). -/
  | lostFrameIgnored (port : Port)
  /-- R188. -/
  | ping (port : Port) (tag : Byte) (payload : Payload Unit)
  /-- R10. -/
  | place (port : Port) (tag : Byte) (payload : Payload PlaceFields)
  /-- R20. -/
  | release (port : Port) (tag : Byte) (payload : Payload ReleaseFields)
  /-- R64. -/
  | recall (port : Port) (tag : Byte) (payload : Payload RecallFields)
  /-- R148: the mode by code. -/
  | setMode (port : Port) (tag : Byte) (payload : Payload Nat)
  /-- R112: group, lock rank, timeout in seconds. -/
  | standby (port : Port) (tag : Byte) (payload : Payload (Nat × Nat × Nat))
  /-- R113: slot number and cue. -/
  | go (port : Port) (tag : Byte) (payload : Payload (Nat × Cue))
  /-- R115: slot number. -/
  | cancel (port : Port) (tag : Byte) (payload : Payload Nat)
  /-- R132: player, sequence, mode by code, rate. -/
  | runSequence (port : Port) (tag : Byte) (payload : Payload (Nat × Nat × Nat × Nat))
  /-- R137: player, mode by code, rate. -/
  | setPlayer (port : Port) (tag : Byte) (payload : Payload (Nat × Nat × Nat))
  /-- R158. -/
  | emergencyOn (port : Port) (tag : Byte) (payload : Payload Unit)
  /-- R160. -/
  | clearEmergency (port : Port) (tag : Byte) (payload : Payload Unit)
  /-- R27: circuit number. -/
  | queryCircuit (port : Port) (tag : Byte) (payload : Payload Nat)
  /-- R73: loop and station address. -/
  | queryStation (port : Port) (tag : Byte) (payload : Payload (Nat × Nat))
  /-- R191: count. -/
  | readNotices (port : Port) (tag : Byte) (payload : Payload Nat)
  /-- R192: the set of kinds as the payload's bit field, bit 0 for the first kind. -/
  | subscribe (port : Port) (tag : Byte) (payload : Payload (BitVec 16))
  /-- R193. -/
  | readCounters (port : Port) (tag : Byte) (payload : Payload Unit)
  /-- R2. -/
  | readRankTable (port : Port) (tag : Byte) (payload : Payload Unit)
  /-- R61: group number. -/
  | readGroup (port : Port) (tag : Byte) (payload : Payload Nat)
  /-- R61: preset number and first pair index. -/
  | readPreset (port : Port) (tag : Byte) (payload : Payload (Nat × Nat))
  /-- R91: key address. -/
  | readBindings (port : Port) (tag : Byte) (payload : Payload RawKey)
  /-- R197: loop. -/
  | readStationTable (port : Port) (tag : Byte) (payload : Payload Nat)
  /-- R129: sequence number. -/
  | readSequence (port : Port) (tag : Byte) (payload : Payload Nat)
  /-- R147: mode by code. -/
  | readModeRecord (port : Port) (tag : Byte) (payload : Payload Nat)
  /-- R166: circuit number. -/
  | readCircuitRecord (port : Port) (tag : Byte) (payload : Payload Nat)
  /-- R186: port by code. -/
  | readRoleRecord (port : Port) (tag : Byte) (payload : Payload Nat)
  /-- R197: setting number, and the line number for the two line settings. -/
  | readSystemSetting (port : Port) (tag : Byte) (payload : Payload (Nat × Nat))
  /-- R2: the eight merge modes by code. -/
  | writeRankTable (port : Port) (tag : Byte) (payload : Payload (List Nat))
  /-- R55: group number and members. -/
  | writeGroup (port : Port) (tag : Byte) (payload : Payload (Nat × List Nat))
  /-- R58: preset number, default fade, pair count. -/
  | writePresetOpen (port : Port) (tag : Byte) (payload : Payload (Nat × Nat × Nat))
  /-- R59: preset number and pairs of circuit and level. -/
  | writePresetPairs (port : Port) (tag : Byte) (payload : Payload (Nat × List (Nat × Nat)))
  /-- R90: key address, edge by code, entries. -/
  | writeBindings (port : Port) (tag : Byte) (payload : Payload (RawKey × Nat × List RawBinding))
  /-- R67: loop, and entries of address and type code. -/
  | writeStationTable (port : Port) (tag : Byte) (payload : Payload (Nat × List (Nat × Nat)))
  /-- R129: sequence number and definition. -/
  | writeSequence (port : Port) (tag : Byte) (payload : Payload (Nat × RawSequence))
  /-- R147: mode by code and record. -/
  | writeModeRecord (port : Port) (tag : Byte) (payload : Payload (Nat × RawModeRecord))
  /-- R166: circuit number and record. -/
  | writeCircuitRecord (port : Port) (tag : Byte) (payload : Payload (Nat × RawCircuitRecord))
  /-- R186: port by code and record. -/
  | writeRoleRecord (port : Port) (tag : Byte) (payload : Payload (Nat × RawRoleRecord))
  /-- R197: setting number, line number for the two line settings, value. -/
  | writeSystemSetting (port : Port) (tag : Byte) (payload : Payload (Nat × Nat × Nat))
  /-- R199. -/
  | saveConfig (port : Port) (tag : Byte) (payload : Payload Unit)
  /-- The save's new header is written (R199). -/
  | saveDone
  /-- The memory fails to acknowledge a write of the save (R199). -/
  | saveFailed (failure : SaveFailure)
  /-- R200. -/
  | restart (port : Port) (tag : Byte) (payload : Payload Unit)
  /-- R181. -/
  | leaseExpiry (port : Port)
  /-- R180. -/
  | lostTimerExpiry (port : Port)
  /-- R182. -/
  | orphanHoldExpiry (port : Port)
  /-- R34: the fade of this owner's claim on this circuit, with the fades that complete together with it. -/
  | fadeCompletion (circuit : Circuit) (owner : Owner)
  /-- R40. -/
  | transitionEnd (circuit : Circuit)
  /-- R68. -/
  | poll (loop : LoopNo)
  /-- R69: the bytes that arrived in the reply window. -/
  | report (loop : LoopNo) (bytes : List Byte)
  /-- R69. -/
  | replyWindowExpiry (loop : LoopNo)
  /-- R77. -/
  | holdTimerExpiry (key : KeyAddr)
  /-- R82. -/
  | quietTimerExpiry (key : KeyAddr)
  /-- R84. -/
  | refusalBlinkExpiry (key : KeyAddr)
  /-- R123: the oldest entry whose expiry has come. -/
  | deferredEntryExpiry
  /-- R118. -/
  | slotExpiry (slot : SlotNo)
  /-- R139. -/
  | waitTimerExpiry (player : PlayerNo)
  /-- R155. -/
  | contactReading (reading : Contact)
  /-- R156. -/
  | debounceTimerExpiry
  /-- R173. -/
  | rackSample
  /-- R171. -/
  | dwellEnd (circuit : Circuit)
  /-- R175. -/
  | pwmPeriodEnd (line : LineNo)
  /-- R185: a valid frame of this kind byte, unknown or naming an unlisted table kind. -/
  | unknownRequestKind (port : Port) (kind tag : Byte)
  deriving DecidableEq, Repr

end Sys2Proof
end

