-- ==== Sys2Proof/Machine/Reports.lean ====
section
/-! DEFINITION. What the part sends out, as data: notices (R189), replies (R187, R188), POLL and rack frames (R68, R173). Their bytes are given in Machine/Wire.lean. -/

namespace Sys2Proof.Machine

/-! ## Notices -/

/-- Why a standby slot ended (06, section 6.3). -/
inductive EndReason where
  | done | expired | cancelled | modeLeft | ownerLost
  deriving DecidableEq, Repr

/-- The event of a KEY_LOCKOUT notice (R81, R82). -/
inductive LockoutEvent where
  | locked | cleared
  deriving DecidableEq, Repr

/-- Presence of a station (R70), in the order of R70. -/
inductive Presence where
  | present | absent
  deriving DecidableEq, Repr

/-- Source of a mode change (R152). -/
inductive ModeSource where
  | port (p : Port)
  | key (k : KeyAddr)
  | start
  | restart
  deriving DecidableEq, Repr

/-- Source of a player request (R143). -/
inductive RunSource where
  | port (p : Port)
  | key (k : KeyAddr)
  | mode
  deriving DecidableEq, Repr

/-- Why a player's step was refused and the player faulted (R142). -/
inductive StepRefusal where
  | badTarget | poolFull
  deriving DecidableEq, Repr

/-- Event of a SEQ notice with the field it adds (R143). -/
inductive SeqEvent where
  | started (source : RunSource)
  | passDone
  | ended (action : EndAction)
  | stopped (source : RunSource)
  | waitLock
  | fault (reason : StepRefusal)
  deriving DecidableEq, Repr

/-- Outcome of an entry preset (R152). -/
inductive PresetOutcome where
  | none | placed | badTarget | poolFull
  deriving DecidableEq, Repr

/-- Outcome of an entry sequence (R151, R152). -/
inductive SequenceOutcome where
  | none | started | continued | badTarget | poolFull | stopped | unchanged
  deriving DecidableEq, Repr

/-- Emergency state (R157). -/
inductive EmergencyState where
  | normal | active | latched | recovering
  deriving DecidableEq, Repr

/-- Cause of an EMERGENCY notice (R163). -/
inductive EmergencyCause where
  | contact
  | port (p : Port)
  | recoveryComplete
  | start
  deriving DecidableEq, Repr

/-- A notice with its content (R189). -/
inductive Notice where
  | key (address : KeyAddr) (edge : Edge)
  | preempted (by_ : Owner) (circuits : Nat)
  | restored (circuits : Nat)
  | fadeDone (tag : Byte)
  | standbyEnd (slot : SlotNo) (reason : EndReason)
  | deferWarning (entries level : Nat)
  | keyLockout (address : KeyAddr) (event : LockoutEvent)
  | station (loop : LoopNo) (address : StationNo) (event : Presence)
  | mode (entered : HouseMode) (left : Option HouseMode) (source : ModeSource)
      (preset : PresetOutcome) (sequence : SequenceOutcome) (entryFailed : Bool)
  | emergency (state : EmergencyState) (contact : Option Contact) (cause : EmergencyCause) (forced : Nat)
  | seq (player : PlayerNo) (sequence : Option SequenceNo) (event : SeqEvent) (passes step : Nat)
  | poolFull (address : KeyAddr) (needed free : Nat)
  | orphansReleased (port : Port) (claims : Nat)
  | saveDone
  | saveFailed
  | config (image : Validity)
  deriving DecidableEq, Repr

/-- The kind of a notice (R189). -/
def Notice.kind : Notice → NoticeKind
  | key _ _ => .key
  | preempted _ _ => .preempted
  | restored _ => .restored
  | fadeDone _ => .fadeDone
  | standbyEnd _ _ => .standbyEnd
  | deferWarning _ _ => .deferWarning
  | keyLockout _ _ => .keyLockout
  | station _ _ _ => .station
  | mode _ _ _ _ _ _ => .mode
  | emergency _ _ _ _ => .emergency
  | seq _ _ _ _ _ => .seq
  | poolFull _ _ _ => .poolFull
  | orphansReleased _ _ => .orphansReleased
  | saveDone => .saveDone
  | saveFailed => .saveFailed
  | config _ => .config

/-! ## Replies -/

/-- Reply status in the order of the status table (10, section 10.4). -/
inductive Status where
  | ok | okUntracked | busy | notReady | denied | badRequest | badTarget | poolFull | locked
  | showActive | busySaving | inUse | badRecord | tableFull | contactActive | noSlot | wrongState | saveFailed
  deriving DecidableEq, Repr

/-- Run state of a player as a reply gives it (R130, R132). -/
inductive RunStateName where
  | idle | running | waitLock
  deriving DecidableEq, Repr

/-- The player record of a RUN_SEQUENCE or SET_PLAYER reply (R132). -/
structure PlayerReport where
  mode : PlayerMode
  runState : RunStateName
  sequence : Option SequenceNo
  step : Nat
  passes : Nat
  rate : Nat
  pendingRate : Option Nat
  waitRemaining : Nat
  deriving DecidableEq, Repr

/-- One claim of a QUERY_CIRCUIT reply (R27). `remaining` is the fade remaining, or the held fade time of a WAITING claim. -/
structure ClaimReport where
  owner : Owner
  rank : Rank
  waiting : Bool
  target : Nat
  level : Nat
  remaining : Nat
  inCommand : Bool
  orphaned : Bool
  tracked : Bool
  deriving DecidableEq, Repr

/-- Cause of a transition (R35). -/
inductive TransitionCause where
  | release | egress | recovery | restart
  deriving DecidableEq, Repr

/-- The transition fields of a QUERY_CIRCUIT reply (R43); a fixed level is present on kind FIXED only. -/
structure TransitionReport where
  cause : TransitionCause
  fixed : Option Nat
  start : Nat
  duration : Nat
  remaining : Nat
  deriving DecidableEq, Repr

/-- The relay fields of a QUERY_CIRCUIT reply (R177). -/
structure RelayReport where
  relay : Bool
  wish : Bool
  dwellRemaining : Nat
  deriving DecidableEq, Repr

/-- The line fields of a QUERY_CIRCUIT reply (R177). -/
structure LineReport where
  period : Nat
  polarity : Polarity
  duty : Nat
  pending : Bool
  deriving DecidableEq, Repr

/-- The circuit report of QUERY_CIRCUIT (R27, R43, R177). -/
structure CircuitReport where
  claims : List ClaimReport
  commandLevel : Nat
  freeRecords : Nat
  level : Nat
  forced : Bool
  transition : Option TransitionReport
  switched : Bool
  route : Route
  output : Nat
  relay : Option RelayReport
  line : Option LineReport
  deriving DecidableEq, Repr

/-- Indicator state of a key (R83), in the order of its two bits in a POLL (R194). -/
inductive Indicator where
  | off | on | blinkSlow | blinkFast
  deriving DecidableEq, Repr

/-- One key of a QUERY_STATION reply (R73). -/
structure KeyReport where
  down : Bool
  lockedOut : Bool
  indicator : Indicator
  deriving DecidableEq, Repr

/-- The station report of QUERY_STATION (R73). -/
structure StationReport where
  type : StationType
  presence : Presence
  lost : Bool
  keys : List KeyReport
  deriving DecidableEq, Repr

/-- What a reply carries after its header (R187). -/
inductive ReplyBody where
  | empty
  | ping (partCode revision : Nat) (config : Validity)
  | modeEntry (mode : HouseMode) (preset : PresetOutcome) (sequence : SequenceOutcome)
  | slot (n : SlotNo)
  | player (record : PlayerReport)
  | circuit (report : CircuitReport)
  | station (report : StationReport)
  | notices (overflow : Bool) (taken : List Notice)
  | subscriptions (kinds : List NoticeKind)
  | counters (values : List Nat)
  | rankTable (modes : List MergeMode)
  | group (defined : Bool) (members : List Circuit) (free : Nat)
  | preset (defined : Bool) (version : BitVec 8) (defaultFade count free : Nat) (pairs : List (Circuit × Nat))
  | bindings (byEdge : List (List Binding)) (free : Nat)
  | stationTable (entries : List (StationNo × StationType))
  | sequence (definition : Option SequenceDef) (players : List PlayerNo)
  | modeRecord (record : ModeRecord) (current : Bool)
  | circuitRecord (record : CircuitRecord)
  | roleRecord (record : RoleRecord) (rate : LinkRate)
  /-- A setting's value as its code or number, with the setting's own number, which decides its width on the wire; for a
  line setting also what is pending on the line. -/
  | setting (number value : Nat) (pending : Option (Option Nat))
  deriving DecidableEq, Repr

/-- A reply frame (R188): kind and tag echoed, header, payload. -/
structure Reply where
  kind : Byte
  tag : Byte
  status : Status
  waiting : Nat
  mode : Option HouseMode
  emergency : EmergencyState
  body : ReplyBody
  deriving DecidableEq, Repr

/-! ## Frames to stations and racks -/

/-- A POLL (R68): the station polled and the indicator of each of its keys 1 to 8 (OFF for keys it lacks). -/
structure PollFrame where
  station : StationNo
  indicators : List Indicator
  deriving DecidableEq, Repr

/-- A rack level frame (R173): the frame count and slots 1 to 192. -/
structure RackFrame where
  count : BitVec 8
  slots : List Nat
  deriving DecidableEq, Repr

end Sys2Proof.Machine
end

