-- ==== Sys2Proof/Machine/State.lean ====
section
/-! DEFINITION. The state of the part as plain data, the outcomes a step can end in, and the state right after reset. Instants are in microseconds of `State.now`. -/

namespace Sys2Proof.Machine

/-- The part has no fault: the manual gives every request a reply and every event an effect, so a step never stops in
one. Nothing raises it (safe). -/
inductive Fault
  deriving DecidableEq, Repr

/-- Why a step has no meaning. -/
inductive Refusal where
  /-- Raised by an arm of exec that has no meaning yet; no arm of this model raises it (safe). -/
  | notModelled (mnemonic : String)
  deriving DecidableEq, Repr

/-! ## Claims, transitions and trackers -/

/-- A fade (R30). `spent` is the time its claim has spent in command since the fade was given, in µs (R32); `event` is
the number of the event that gave it (notes/assumptions/22.md). -/
structure Fade where
  start : Nat
  duration : Nat
  spent : Nat
  event : Nat
  deriving DecidableEq, Repr

/-- State of a claim with what goes with it (R4): a fade only on EFFECTIVE, a held fade time only on WAITING. -/
inductive ClaimState where
  | effective (fade : Option Fade)
  | waiting (heldFade : Nat)
  deriving DecidableEq, Repr

/-- Link of a claim to a completion tracker (R4): one of the pool, or a standby slot's. -/
inductive TrackerLink where
  | pool (id : Fin 32)
  | slot (n : SlotNo)
  deriving DecidableEq, Repr

/-- A claim record in use (R4). -/
structure Claim where
  owner : Owner
  rank : Rank
  state : ClaimState
  target : Nat
  cause : Option KeyAddr
  tracker : Option TrackerLink
  deriving DecidableEq, Repr

/-- A transition record (R35): kind FIXED when a fixed level is present, LIVE otherwise; `spent` in µs. -/
structure Transition where
  cause : TransitionCause
  fixed : Option Nat
  start : Nat
  duration : Nat
  spent : Nat
  deriving DecidableEq, Repr

/-- A relay record (R169). -/
structure Relay where
  on : Bool
  wish : Bool
  dwellEnd : Option Nat
  deriving DecidableEq, Repr

/-- The running state of one circuit: its claim list (R7), its transition (R35), the key whose raise set it stands in
(R100), its relay record (R169). -/
structure CircuitState where
  claims : List Claim
  transition : Option Transition
  raisedBy : Option KeyAddr
  relay : Relay
  deriving DecidableEq, Repr

/-- A pool tracker in use (R45). The list that holds them is in the order in which they were taken (R48). -/
structure Tracker where
  id : Fin 32
  port : Port
  tag : Byte
  count : Nat
  deriving DecidableEq, Repr

/-! ## Standby slots and the deferred queue -/

/-- Whether a slot in use waits for its GO or its cue travels, with the count of its tracker (R109). -/
inductive SlotPhase where
  | armed
  | going (count : Nat)
  deriving DecidableEq, Repr

/-- A standby slot that is not FREE (R109); timeout in seconds. -/
structure Slot where
  phase : SlotPhase
  owner : Port
  locked : List Circuit
  lockRank : Rank
  timeout : Nat
  expiry : Nat
  deriving DecidableEq, Repr

/-- The action a deferred entry holds, with what R122 says is present for it. -/
inductive DeferredAction where
  | on (circuits : List Circuit) (level : Nat)
  | off (circuits : List Circuit)
  | toggle (circuits : List Circuit) (level : Nat)
  | recall (preset : PresetNo)
  | release (circuits : List Circuit)
  deriving DecidableEq, Repr

/-- An entry of the deferred action queue (R122). -/
structure Deferred where
  key : KeyAddr
  action : DeferredAction
  fade : Nat
  rank : Rank
  gate : List HouseMode
  arrival : Nat
  expiry : Nat
  deriving DecidableEq, Repr

/-! ## Players -/

/-- Run state of a player, with its wait timer while RUNNING (R130). -/
inductive RunState where
  | idle
  | running (waitEnd : Nat)
  | waitLock
  deriving DecidableEq, Repr

/-- A player record (R130). -/
structure Player where
  mode : PlayerMode
  run : RunState
  sequence : Option SequenceNo
  step : Nat
  passes : Nat
  rate : Nat
  pendingRate : Option Nat
  heldRelease : Option Nat
  deriving DecidableEq, Repr

/-! ## Emergency plane -/

/-- The Emergency Plane (R155, R157), with the contact line it watches. -/
structure EmergencyPlane where
  line : Contact
  accepted : Option Contact
  /-- Candidate reading and the instant its timer expires; none is idle. -/
  debounce : Option (Contact × Nat)
  state : EmergencyState
  recovery : List Circuit
  deriving DecidableEq, Repr

/-! ## Field loops -/

/-- Phase of a key, with its hold timer while PRESSED (R74). -/
inductive KeyPhase where
  | none
  | pressed (holdEnd : Nat)
  | held
  deriving DecidableEq, Repr

/-- A key record (R74); the raise mark is read from the circuits (R100). -/
structure KeyRecord where
  down : Bool
  phase : KeyPhase
  /-- Start and count of the chatter window. -/
  window : Option (Nat × Nat)
  /-- LOCKED_OUT with the instant the quiet timer expires; none is NORMAL. -/
  lockout : Option Nat
  blinkEnd : Option Nat
  deriving DecidableEq, Repr

/-- Presence record (R70), lost-since-read flag (R73) and key records (R74) of a station. -/
structure StationState where
  presence : Presence
  misses : Nat
  goods : Nat
  lost : Bool
  keys : Tab KeyRecord 8
  deriving DecidableEq, Repr

/-- An exchange in progress (R68, R69): the station polled, the end of its reply window, and whether the station has
been removed meanwhile. -/
structure Exchange where
  station : StationNo
  windowEnd : Nat
  removed : Bool
  deriving DecidableEq, Repr

/-- One field loop (R68, R85). -/
structure LoopState where
  exchange : Option Exchange
  lastPolled : Option StationNo
  lastPoll : Option PollFrame
  stations : Tab StationState 16
  pollMisses : Nat
  typeMismatches : Nat
  deriving DecidableEq, Repr

/-! ## Output stage -/

/-- How a PWM line is driven (R174, R176). -/
inductive LineDrive where
  | heldLow
  | heldInactive
  | running (periodStart : Nat)
  deriving DecidableEq, Repr

/-- A PWM line record (R174). -/
structure PwmLine where
  drive : LineDrive
  period : Nat
  pendingPeriod : Option Nat
  polarity : Polarity
  pendingPolarity : Option Polarity
  duty : Nat
  deriving DecidableEq, Repr

/-! ## Master ports -/

/-- Link state with the timer that runs in it (R180). -/
inductive LinkState where
  | offline
  | online (leaseEnd : Nat)
  | lost (lostEnd : Nat)
  deriving DecidableEq, Repr

/-- A preset edit record (R58). -/
structure PresetEdit where
  preset : PresetNo
  fade : Nat
  declared : Nat
  received : List (Circuit × Nat)
  deriving DecidableEq, Repr

/-- One master port (R180 to R193). -/
structure PortState where
  link : LinkState
  orphanEnd : Option Nat
  linkRate : LinkRate
  queue : List Notice
  overflow : Bool
  subscriptions : List NoticeKind
  badFrames : Nat
  busyReplies : Nat
  leaseLosses : Nat
  noticesDropped : Nat
  edit : Option PresetEdit
  lastReply : Option Reply
  deriving DecidableEq, Repr

/-! ## Configuration store and counters -/

/-- Condition of the part between a full reset and the end of start-up (R196). `judging` holds the tables being loaded
and the configuration state they bring. -/
inductive Startup where
  | reading
  | judging (tables : Tables) (config : Validity)
  | running
  deriving DecidableEq, Repr

/-- A save in progress (R199): the saving port, its tag, whether its reply is still owed (R181), the tables being
written, and what the memory held before. -/
structure Save where
  port : Port
  tag : Byte
  replyOwed : Bool
  tables : Tables
  earlier : Option StoredImage
  deriving DecidableEq, Repr

/-- The five global counters, in the order of R193. -/
structure GlobalCounters where
  keyLockouts : Nat
  deferredDropped : Nat
  deferredExpired : Nat
  poolRefusals : Nat
  emergencyEntries : Nat
  deriving DecidableEq, Repr

/-! ## The machine -/

/-- The whole state of the part, with the queue of commands that wait. -/
structure State where
  now : Nat
  pending : List Instr
  startup : Startup
  tables : Tables
  versions : Tab (BitVec 8) 48
  configState : Validity
  imageState : Validity
  memory : Option StoredImage
  save : Option Save
  ports : Tab PortState 4
  circuits : Tab CircuitState 192
  trackers : List Tracker
  slots : Tab (Option Slot) 4
  deferred : List Deferred
  deferWarned : Bool
  players : Tab Player 4
  mode : Option HouseMode
  emergency : EmergencyPlane
  loops : Tab LoopState 4
  lines : Tab PwmLine 16
  frameCount : BitVec 8
  rackDue : Option Nat
  rackFrame : Option RackFrame
  counters : GlobalCounters
  /-- The number of the next Claim Table event (notes/assumptions/22.md). -/
  event : Nat
  /-- A slot has ended and its replay has not been taken; clear between commands (notes/assumptions/24.md). -/
  replayOwed : Bool
  deriving DecidableEq, Repr

/-! ## Default records and the state after reset -/

/-- The default circuit record (R165). -/
def defaultCircuit : CircuitRecord :=
  { kind := .dimmed .linear 0 1000, route := .link, base := 0, emergency := none }

/-- The default mode record (R147). -/
def defaultMode : ModeRecord :=
  { entryPreset := none, entryRank := 0, entryFade := 0, entrySequence := none }

/-- The default role record (R186) of the port at index `i`: every permission for port A, all but ADMIN for B to D. -/
def defaultRole (i : Fin 4) : RoleRecord :=
  { maxRank := 7, access := .all,
    permissions := if i = 0 then [.cue, .mode, .edit, .safety, .admin] else [.cue, .mode, .edit, .safety],
    lease := 5, orphanHold := 30, orphanRelease := 30, linkRate := .r115200 }

/-- The default settings (R198). -/
def defaultSettings : Settings :=
  { holdTime := 700, raiseTime := 6, deferLimit := 60, warningLevel := 12, egressTime := 5, recoveryTime := 50,
    restartFade := 50, startMode := .work, pwmPeriod := .const 1000, pwmPolarity := .const .activeHigh }

/-- The tables and settings a bad image leaves in force (R196). -/
def defaultTables : Tables :=
  { ranks := .const .ltp, groups := .const [], presets := .const none, bindings := [],
    stations := .const (.const none), sequences := .const none, modes := .const defaultMode,
    circuits := .const defaultCircuit, roles := .build defaultRole, settings := defaultSettings }

/-- A relay record after full reset or a change of kind (R169). -/
def Relay.clear : Relay := { on := false, wish := false, dwellEnd := none }

/-- A circuit with no claim, transition or raise and its relay clear (R28, R44, R169). -/
def CircuitState.clear : CircuitState :=
  { claims := [], transition := none, raisedBy := none, relay := .clear }

/-- A player as full reset and restart leave it (R130). -/
def Player.clear : Player :=
  { mode := .off, run := .idle, sequence := none, step := 0, passes := 0, rate := 100, pendingRate := none,
    heldRelease := none }

/-- A fresh key record (R86). -/
def KeyRecord.fresh : KeyRecord :=
  { down := false, phase := .none, window := none, lockout := none, blinkEnd := none }

/-- A fresh presence record with fresh key records (R86). -/
def StationState.fresh : StationState :=
  { presence := .absent, misses := 0, goods := 0, lost := false, keys := .const .fresh }

/-- A loop after full reset (R85, R86). -/
def LoopState.fresh : LoopState :=
  { exchange := none, lastPolled := none, lastPoll := none, stations := .const .fresh, pollMisses := 0,
    typeMismatches := 0 }

/-- A PWM line from a full reset until the image is taken (R176). Its period and polarity, its duty 0 and its two empty
pending fields are the model's (notes/assumptions/7.md): R176 gives them when start-up ends. -/
def PwmLine.fresh : PwmLine :=
  { drive := .heldLow, period := 1000, pendingPeriod := none, polarity := .activeHigh, pendingPolarity := none,
    duty := 0 }

/-- A port after full reset (R183). -/
def PortState.fresh : PortState :=
  { link := .offline, orphanEnd := none, linkRate := .r115200, queue := [], overflow := false, subscriptions := [],
    badFrames := 0, busyReplies := 0, leaseLosses := 0, noticesDropped := 0, edit := none, lastReply := none }

/-- The Emergency Plane after full reset (R155, R157): nothing accepted, state NORMAL; the line is classified once, and
that first reading starts the debounce timer (notes/assumptions/10.md). -/
def EmergencyPlane.fresh (now : Nat) (line : Contact) : EmergencyPlane :=
  { line := line, accepted := none, debounce := some (line, now + Config.debounceTime), state := .normal,
    recovery := [] }

/-- The counters after full reset (R193). -/
def GlobalCounters.zero : GlobalCounters :=
  { keyLockouts := 0, deferredDropped := 0, deferredExpired := 0, poolRefusals := 0, emergencyEntries := 0 }

/-- The state a full reset at `now` leaves (R196 and the "after reset" rule of each chapter), with the contact line and
the memory as they stand. -/
def State.afterFullReset (now : Nat) (line : Contact) (memory : Option StoredImage) (pending : List Instr) : State :=
  { now := now, pending := pending, startup := .reading, tables := defaultTables, versions := .const 0,
    configState := .invalid, imageState := .invalid, memory := memory, save := none,
    ports := .const .fresh, circuits := .const .clear, trackers := [], slots := .const none, deferred := [],
    deferWarned := false, players := .const .clear, mode := none, emergency := .fresh now line,
    loops := .const .fresh, lines := .const .fresh, frameCount := 0, rackDue := none, rackFrame := none,
    counters := .zero, event := 0, replayOwed := false }

/-- The machine right after power-on: the contact closed and no good image in the memory (notes/assumptions/7.md,
notes/assumptions/8.md, notes/assumptions/10.md). -/
def State.reset : State := State.afterFullReset 0 .normal none []

end Sys2Proof.Machine
end

