-- ==== Sys2Proof/Machine/Ops.lean ====
section
/-! DEFINITION. The named operations every meaning is built from: reading and changing one port, circuit, slot, player, loop, station or key; 16-bit counters; posting notices (R189, R190). -/

namespace Sys2Proof.Machine

/-- A 16-bit counter increased by one; it stops at 65535 (R193). -/
def bump (n : Nat) : Nat := min (n + 1) Config.counterTop

namespace State

/-! ## One port, circuit, slot, player, line -/

/-- The state of port `p`. -/
def port (s : State) (p : Port) : PortState := s.ports.get p.ix

/-- `s` with port `p` changed by `f`. -/
def onPort (s : State) (p : Port) (f : PortState → PortState) : State :=
  { s with ports := s.ports.modify p.ix f }

/-- `s` with every port changed by `f`. -/
def onPorts (s : State) (f : PortState → PortState) : State := { s with ports := s.ports.each f }

/-- The running state of circuit `c`. -/
def circuit (s : State) (c : Circuit) : CircuitState := s.circuits.get c

/-- `s` with circuit `c` changed by `f`. -/
def onCircuit (s : State) (c : Circuit) (f : CircuitState → CircuitState) : State :=
  { s with circuits := s.circuits.modify c f }

/-- The circuit record of `c` as it stands (R165). -/
def record (s : State) (c : Circuit) : CircuitRecord := s.tables.circuits.get c

/-- The role record of port `p` as it stands (R186). -/
def role (s : State) (p : Port) : RoleRecord := s.tables.roles.get p.ix

/-- Standby slot `n`; none is FREE. -/
def slot (s : State) (n : SlotNo) : Option Slot := s.slots.get n

/-- `s` with slot `n` replaced. -/
def setSlot (s : State) (n : SlotNo) (x : Option Slot) : State := { s with slots := s.slots.set n x }

/-- Player `n`. -/
def player (s : State) (n : PlayerNo) : Player := s.players.get n

/-- `s` with player `n` replaced. -/
def setPlayer (s : State) (n : PlayerNo) (p : Player) : State := { s with players := s.players.set n p }

/-- `s` with PWM line `n` changed by `f`. -/
def onLine (s : State) (n : LineNo) (f : PwmLine → PwmLine) : State := { s with lines := s.lines.modify n f }

/-! ## Loops, stations and keys -/

/-- Field loop `l`. -/
def loop (s : State) (l : LoopNo) : LoopState := s.loops.get l

/-- `s` with loop `l` changed by `f`. -/
def onLoop (s : State) (l : LoopNo) (f : LoopState → LoopState) : State :=
  { s with loops := s.loops.modify l f }

/-- The type of the station configured at this address; none where no station is configured (R66). -/
def stationType (s : State) (l : LoopNo) (n : StationNo) : Option StationType := (s.tables.stations.get l).get n

/-- The presence record and keys at this address. -/
def station (s : State) (l : LoopNo) (n : StationNo) : StationState := (s.loop l).stations.get n

/-- `s` with the station at this address changed by `f`. -/
def onStation (s : State) (l : LoopNo) (n : StationNo) (f : StationState → StationState) : State :=
  s.onLoop l fun x => { x with stations := x.stations.modify n f }

/-- Whether the key address names a key of a configured station that exists on its type (R66). -/
def keyExists (s : State) (k : KeyAddr) : Bool :=
  match s.stationType k.loop k.station with
  | some t => k.key.val < t.keys
  | none => false

/-- The record of key `k` (R74). -/
def key (s : State) (k : KeyAddr) : KeyRecord := (s.station k.loop k.station).keys.get k.key

/-- `s` with the record of key `k` changed by `f`. -/
def onKey (s : State) (k : KeyAddr) (f : KeyRecord → KeyRecord) : State :=
  s.onStation k.loop k.station fun x => { x with keys := x.keys.modify k.key f }

/-- Starts the refusal blink timer of key `k`, or starts it anew, with 3 s to run (R74). Only a key that exists has a
record to hold it (R66). -/
def blink (s : State) (k : KeyAddr) : State :=
  if s.keyExists k then s.onKey k fun r => { r with blinkEnd := some (s.now + Config.blinkTime) } else s

/-- The house is in SHOW (R146). -/
def inShow (s : State) : Bool := s.mode == some .inShow

/-! ## Counters -/

/-- `s` with the global counters changed by `f`. -/
def onCounters (s : State) (f : GlobalCounters → GlobalCounters) : State := { s with counters := f s.counters }

/-- POOL_REFUSALS increases by 1 (R22). -/
def countPoolRefusal (s : State) : State := s.onCounters fun c => { c with poolRefusals := bump c.poolRefusals }

/-- DEFERRED_DROPPED increases by 1 (R127). -/
def countDropped (s : State) : State := s.onCounters fun c => { c with deferredDropped := bump c.deferredDropped }

/-- DEFERRED_EXPIRED increases by 1 (R127). -/
def countExpired (s : State) : State := s.onCounters fun c => { c with deferredExpired := bump c.deferredExpired }

/-- KEY_LOCKOUTS increases by 1 (R85). -/
def countLockout (s : State) : State := s.onCounters fun c => { c with keyLockouts := bump c.keyLockouts }

/-- EMERGENCY_ENTRIES increases by 1 (R163). -/
def countEntry (s : State) : State := s.onCounters fun c => { c with emergencyEntries := bump c.emergencyEntries }

end State

/-! ## Notices -/

/-- A port is ONLINE (R180). -/
def PortState.isOnline (x : PortState) : Bool :=
  match x.link with
  | .online _ => true
  | .offline => false
  | .lost _ => false

/-- A notice placed in a port's queue, or dropped at a full one with the counter raised and the flag set (R190). -/
def PortState.enqueue (x : PortState) (n : Notice) : PortState :=
  if x.queue.length < Config.queueSlots then { x with queue := x.queue ++ [n] }
  else { x with overflow := true, noticesDropped := bump x.noticesDropped }

/-- A personal notice at the port it concerns: queued when ONLINE, discarded without count otherwise (R25, R189). -/
def PortState.notify (x : PortState) (n : Notice) : PortState := if x.isOnline then x.enqueue n else x

/-- A notice of a subscribed kind at one port: queued when ONLINE and subscribed (R189). -/
def PortState.hear (x : PortState) (n : Notice) : PortState :=
  if x.isOnline && x.subscriptions.contains n.kind then x.enqueue n else x

namespace State

/-- Posts a personal notice to port `p` (R25, R189). -/
def notify (s : State) (p : Port) (n : Notice) : State := s.onPort p fun x => x.notify n

/-- Posts a notice of a subscribed kind to every ONLINE port whose subscription set holds the kind (R189). -/
def announce (s : State) (n : Notice) : State := s.onPorts fun x => x.hear n

end State

end Sys2Proof.Machine
end

