-- ==== Sys2Proof/Machine/Flags.lean ====
section
/-! DEFINITION. Values and flags the part derives whenever they are read: levels of claims, transitions and circuits (R5, R8, R31, R36, R42), in command, forced, orphaned, locked, raise mark, indicator, free records, outputs. -/

namespace Sys2Proof.Machine

/-! ## Levels -/

/-- The level on the way from `start` to `goal` after `elapsed` of `duration`, truncated toward `start` (R5, R31, R36). -/
def travel (start goal elapsed duration : Nat) : Nat :=
  if start ≤ goal then start + (goal - start) * elapsed / duration
  else start - (start - goal) * elapsed / duration

/-- Elapsed time of a fade in whole tenths (R32). -/
def Fade.elapsed (f : Fade) : Nat := f.spent / Config.tenth

/-- The fade's time in command has reached its duration (R34). -/
def Fade.due (f : Fade) : Bool := f.duration * Config.tenth ≤ f.spent

/-- The claim takes part in arbitration (R4). -/
def Claim.isEffective (c : Claim) : Bool :=
  match c.state with
  | .effective _ => true
  | .waiting _ => false

/-- The fade present on the claim, if any (R4). -/
def Claim.fade (c : Claim) : Option Fade :=
  match c.state with
  | .effective f => f
  | .waiting _ => none

/-- The claim's current level (R5). -/
def Claim.level (c : Claim) : Nat :=
  match c.fade with
  | some f => travel f.start c.target f.elapsed f.duration
  | none => c.target

/-- The top rank of a list: the highest rank an EFFECTIVE claim holds (R8). -/
def topRank (l : List Claim) : Option Rank := ((l.filter Claim.isEffective).map Claim.rank).max?

/-- The EFFECTIVE claims of a list at rank `r`, in list order. -/
def effectiveAt (l : List Claim) (r : Rank) : List Claim := l.filter fun c => c.isEffective && c.rank == r

/-- The claims in command (R8): none, the first EFFECTIVE claim at an LTP top rank, or all at an HTP top rank. -/
def commanding (modes : Tab MergeMode 8) (l : List Claim) : List Claim :=
  match topRank l with
  | none => []
  | some r =>
    match modes.get r with
    | .ltp => (effectiveAt l r).take 1
    | .htp => effectiveAt l r

/-- The owner's claim is in command. -/
def inCommandOf (modes : Tab MergeMode 8) (l : List Claim) (o : Owner) : Bool :=
  (commanding modes l).any fun c => c.owner == o

/-- The command level of a list over the circuit's base level (R8). -/
def commandLevelOf (modes : Tab MergeMode 8) (base : Nat) (l : List Claim) : Nat :=
  match ((commanding modes l).map Claim.level).max? with
  | none => base
  | some v => v

/-- Some claim in command has a fade present (R15, R16). -/
def commandFading (modes : Tab MergeMode 8) (l : List Claim) : Bool :=
  (commanding modes l).any fun c => c.fade.isSome

/-- The claim an owner holds in a list (R7: at most one). -/
def claimOf (o : Owner) (l : List Claim) : Option Claim := l.find? fun c => c.owner == o

/-- Elapsed time of a transition in whole tenths (R35). -/
def Transition.elapsed (t : Transition) : Nat := t.spent / Config.tenth

/-- The transition's elapsed time has reached its duration (R40). -/
def Transition.due (t : Transition) : Bool := t.duration * Config.tenth ≤ t.spent

/-- The level of a running transition over the circuit's command level (R36). -/
def Transition.level (t : Transition) (command : Nat) : Nat := travel t.start (t.fixed.getD command) t.elapsed t.duration

/-- The emergency state forces circuits that have an emergency level (R41). -/
def EmergencyState.forces : EmergencyState → Bool
  | active => true
  | latched => true
  | normal => false
  | recovering => false

/-- The forced level of a circuit, when it is forced (R41, R42). -/
def forcedLevel (r : CircuitRecord) (e : EmergencyState) : Option Nat := if e.forces then r.emergency else none

/-- The circuit level (R42): the transition's, else the forced level, else the command level. -/
def CircuitState.levelUnder (x : CircuitState) (modes : Tab MergeMode 8) (r : CircuitRecord) (e : EmergencyState) : Nat :=
  let command := commandLevelOf modes r.base x.claims
  match x.transition with
  | some t => t.level command
  | none => (forcedLevel r e).getD command

/-- The curve of a DIMMED circuit (R168). -/
def Curve.apply (k : Curve) (level : Nat) : Nat :=
  match k with
  | .linear => level
  | .square => level * level / 1000

/-- The output of a DIMMED circuit at a level (R168). -/
def dimmedOutput (k : Curve) (lo hi level : Nat) : Nat := lo + (hi - lo) * Curve.apply k level / 1000

namespace State

/-- The claim list of circuit `c`. -/
def claims (s : State) (c : Circuit) : List Claim := (s.circuit c).claims

/-- The command level of circuit `c` (R8). -/
def commandLevel (s : State) (c : Circuit) : Nat := commandLevelOf s.tables.ranks (s.record c).base (s.claims c)

/-- The circuit is forced (R41). -/
def forced (s : State) (c : Circuit) : Bool := (forcedLevel (s.record c) s.emergency.state).isSome

/-- The circuit level of `c` (R42). -/
def level (s : State) (c : Circuit) : Nat := (s.circuit c).levelUnder s.tables.ranks (s.record c) s.emergency.state

/-- The claim of `o` on `c` is in command (R8). -/
def inCommand (s : State) (c : Circuit) (o : Owner) : Bool := inCommandOf s.tables.ranks (s.claims c) o

/-- The claim of `o` on `c` is EFFECTIVE and not in command (R8). -/
def held (s : State) (c : Circuit) (o : Owner) : Bool :=
  (s.claims c).any (fun x => x.owner == o && x.isEffective) && !s.inCommand c o

/-- The number of circuits forced (R163). -/
def forcedCount (s : State) : Nat := ((indices 192).filter s.forced).length

/-! ## The pool, access, locks -/

/-- Claim records in use: the total length of all claim lists (R21). -/
def recordsInUse (s : State) : Nat := (s.circuits.rows.toList.map fun x => x.claims.length).sum

/-- Free claim records (R21). -/
def freeRecords (s : State) : Nat := Config.poolSize - s.recordsInUse

/-- The new records a placement of `o` on these circuits needs (R11). -/
def recordsNeeded (s : State) (o : Owner) (cs : List Circuit) : Nat :=
  (cs.filter fun c => (claimOf o (s.claims c)).isNone).length

/-- The circuits on which `o` holds a claim. -/
def circuitsOf (s : State) (o : Owner) : List Circuit :=
  (indices 192).filter fun c => (claimOf o (s.claims c)).isSome

/-- The members of a group as the table stands, group 0 being all circuits; none if undefined (R53). -/
def members (s : State) (g : GroupNo) : Option (List Circuit) :=
  if h : g.val = 0 then some (indices 192)
  else
    match s.tables.groups.get ⟨g.val - 1, by omega⟩ with
    | [] => none
    | l => some l

/-- The circuit lies in the port's access set (R63). -/
def mayReach (s : State) (p : Port) (c : Circuit) : Bool :=
  match (s.role p).access with
  | .all => true
  | .groups l => l.any fun g => ((s.members g).getD []).contains c

/-- The port's role holds the permission (R186). -/
def permits (s : State) (p : Port) (x : Permission) : Bool := (s.role p).permissions.contains x

/-- The lock question (R110): some slot in use, not owned by the asker, holds one of the circuits at a lock rank above
`r`. -/
def locked (s : State) (o : Owner) (r : Rank) (cs : List Circuit) : Bool :=
  s.slots.rows.toList.any fun x =>
    match x with
    | none => false
    | some k => cs.any (fun c => k.locked.contains c) && decide (r < k.lockRank) && !(Owner.port k.owner == o)

/-! ## Orphans, raises, indicators -/

/-- The owner is a port whose link state is OFFLINE or LOST (R5). -/
def orphaned (s : State) (o : Owner) : Bool :=
  match o with
  | .port p => !(s.port p).isOnline
  | .field => false
  | .seq _ => false
  | .mode => false

/-- The raise set of key `k` (R100). -/
def raiseSet (s : State) (k : KeyAddr) : List Circuit :=
  (indices 192).filter fun c => (s.circuit c).raisedBy == some k

/-- Some FIELD claim names `k` as cause key, is in command and has a target above 0 (R9, R83). -/
def commandsLight (s : State) (k : KeyAddr) : Bool :=
  (indices 192).any fun c =>
    (commanding s.tables.ranks (s.claims c)).any fun x => x.owner == .field && x.cause == some k && decide (0 < x.target)

/-- The indicator state of key `k` (R83). -/
def indicator (s : State) (k : KeyAddr) : Indicator :=
  if (s.key k).blinkEnd.isSome || (s.key k).lockout.isSome then .blinkFast
  else if s.deferred.any fun d => d.key == k then .blinkSlow
  else if s.commandsLight k then .on
  else .off

/-- The port is busy: its save is in progress (R185, notes/assumptions/31.md). -/
def busy (s : State) (p : Port) : Bool :=
  match s.save with
  | some x => x.port == p
  | none => false

/-! ## Outputs -/

/-- The output of circuit `c` (R168, R172). -/
def output (s : State) (c : Circuit) : Nat :=
  match (s.record c).kind with
  | .dimmed curve lo hi => dimmedOutput curve lo hi (s.level c)
  | .switched _ _ _ => if (s.circuit c).relay.on then Config.levelTop else 0

/-- The circuit whose record names PWM line `n` (R165). -/
def lineCircuit (s : State) (n : LineNo) : Option Circuit :=
  (indices 192).find? fun c => (s.record c).route == .pwm n

end State

/-- Whether the line is at the high level at instant `now` (R174, R176). -/
def PwmLine.isHigh (x : PwmLine) (now : Nat) : Bool :=
  match x.drive with
  | .heldLow => false
  | .heldInactive => x.polarity == .activeLow
  | .running t => (x.polarity == .activeHigh) == decide (now - t < x.duty)

end Sys2Proof.Machine
end

