-- ==== Sys2Proof/Machine/Operands.lean ====
section
/-! DEFINITION. The operand forms: which payload fields are malformed (R185), how a target expands into circuits (R62), and how a record as written becomes the record stored, or is refused as BAD_RECORD (R55 to R198). -/

namespace Sys2Proof.Machine

/-! ## Malformed fields (R185) -/

/-- The target of a PLACE, RELEASE or cue is of the right form (R10, R20): a group, or 1 to 32 distinct circuits. -/
def Target.formed : Target → Bool
  | .group _ => true
  | .circuits l => decide (1 ≤ l.length ∧ l.length ≤ 32 ∧ l.Nodup)

/-- The fields of a PLACE lie in their ranges (R10). A rank above 7 is above every maximum rank: R11 refuses it with
DENIED, and so it is passed to R11 (R185). -/
def PlaceFields.formed (f : PlaceFields) : Bool :=
  Target.formed f.target && decide (f.level ≤ Config.levelTop ∧ f.fade ≤ Config.fadeTop)

/-- The fields of a RELEASE lie in their ranges (R20). -/
def ReleaseFields.formed (f : ReleaseFields) : Bool := Target.formed f.target && decide (f.time ≤ Config.fadeTop)

/-- The fields of a RECALL lie in their ranges (R10); its rank is judged by R11, as that of a PLACE (R185). -/
def RecallFields.formed (f : RecallFields) : Bool :=
  match f.fade with
  | some t => decide (t ≤ Config.fadeTop)
  | none => true

/-- The fields of a cue lie in their ranges (R113). -/
def Cue.formed : Cue → Bool
  | .place f => PlaceFields.formed f
  | .recall f => RecallFields.formed f

/-- A rate is 0 or 25 to 400 (R131). -/
def rateFormed (rate : Nat) : Bool := decide (rate = 0 ∨ 25 ≤ rate ∧ rate ≤ 400)

/-! ## Expansion (R62) -/

/-- All numbers of the list as circuits; none if one lies outside 1 to 192. -/
def circuitsOfNumbers (l : List Nat) : Option (List Circuit) := l.mapM (indexOf 192)

namespace State

/-- The group numbered `n`, expanded as the table stands; none if undefined or not a group (R53). -/
def group (s : State) (n : Nat) : Option (List Circuit) := (codeOf 65 n).bind s.members

/-- A target expanded into circuits as the tables stand; none is BAD_TARGET (R11, R62). -/
def expand (s : State) : Target → Option (List Circuit)
  | .group n => s.group n
  | .circuits l => circuitsOfNumbers l

/-- The definition of preset `p` as it stands (R56). -/
def presetDef (s : State) (p : PresetNo) : Option PresetDef := s.tables.presets.get p

/-- The definition of the preset numbered `n`; none is BAD_TARGET. -/
def presetNumbered (s : State) (n : Nat) : Option PresetDef := (indexOf 48 n).bind s.presetDef

end State

/-- The key address a payload gives; none outside loop 1 to 4, station 01 to 16, key 1 to 8 (R88). -/
def RawKey.address (k : RawKey) : Option KeyAddr :=
  (indexOf 4 k.loop).bind fun l =>
    if h : k.index < 128 then
      some { loop := l, station := ⟨k.index / 8, by omega⟩, key := ⟨k.index % 8, by omega⟩ }
    else none

/-! ## Sets of names as bit fields (R194) -/

/-- The names of a list whose bits stand in `n`, bit 0 for the first. -/
def namesOf {α : Type} (all : List α) (n : Nat) : List α :=
  (all.zipIdx.filter fun x => n.testBit x.2).map Prod.fst

/-- The bit field of a set of names, bit 0 for the first. -/
def bitsOf {α : Type} [DecidableEq α] (all set : List α) : Nat :=
  (all.zipIdx.map fun x => if set.contains x.1 then 2 ^ x.2 else 0).sum

/-! ## Records in range -/

/-- A fade or release time lies in 0 to 36000. -/
def fadeInRange (t : Nat) : Bool := decide (t ≤ Config.fadeTop)

/-- A level lies in 0 to 1000. -/
def levelInRange (v : Nat) : Bool := decide (v ≤ Config.levelTop)

/-- A preset's definition is within R56. -/
def PresetDef.inRange (p : PresetDef) : Bool :=
  fadeInRange p.defaultFade && p.pairs.all (fun x => levelInRange x.2)
    && decide (1 ≤ p.pairs.length ∧ (p.pairs.map Prod.fst).Nodup)

/-- A sequence's definition is within R128. -/
def SequenceDef.inRange (q : SequenceDef) : Bool :=
  q.steps.all (fun x => fadeInRange x.fade && decide (1 ≤ x.wait ∧ x.wait ≤ 36000))
    && decide (1 ≤ q.steps.length ∧ q.steps.length ≤ 16 ∧ q.passLimit ≤ 255) && fadeInRange q.releaseTime

/-- A mode record is within R147. -/
def ModeRecord.inRange (m : ModeRecord) : Bool := fadeInRange m.entryFade

/-- The fields of a circuit's kind are within R165. -/
def CircuitKind.inRange : CircuitKind → Bool
  | .dimmed _ lo hi => decide (lo ≤ 300 ∧ 300 ≤ hi ∧ hi ≤ 1000 ∧ lo ≤ hi)
  | .switched threshold hysteresis dwell =>
    decide (1 ≤ threshold ∧ threshold ≤ 1000 ∧ hysteresis ≤ 200 ∧ hysteresis < threshold ∧ dwell ≤ 100)

/-- A circuit record is within R165. -/
def CircuitRecord.inRange (r : CircuitRecord) : Bool :=
  CircuitKind.inRange r.kind && levelInRange r.base && levelInRange (r.emergency.getD 0)

/-- A role record is within R186. -/
def RoleRecord.inRange (r : RoleRecord) : Bool :=
  (match r.access with
   | .all => true
   | .groups l => decide (1 ≤ l.length ∧ l.length ≤ 8))
  && decide (1 ≤ r.lease ∧ r.lease ≤ 60 ∧ r.orphanHold ≤ 600) && fadeInRange r.orphanRelease

/-- The level and fade of a field action are within R88. -/
def FieldAction.inRange : FieldAction → Bool
  | .on _ v t _ => levelInRange v && fadeInRange t
  | .off _ t _ => fadeInRange t
  | .toggle _ v t _ => levelInRange v && fadeInRange t
  | .recall _ t _ => fadeInRange t
  | .release _ t _ => fadeInRange t
  | .raise _ _ | .lower _ _ | .seqRun _ _ _ | .seqStop _ | .setMode _ => true

/-- A binding entry is within R88. -/
def Binding.inRange (b : Binding) : Bool := !b.gate.isEmpty && FieldAction.inRange b.action

/-- The settings are within R198. -/
def Settings.inRange (x : Settings) : Bool :=
  decide (300 ≤ x.holdTime ∧ x.holdTime ≤ 3000 ∧ 1 ≤ x.raiseTime ∧ x.raiseTime ≤ 60 ∧ x.deferLimit ≤ 600
    ∧ 1 ≤ x.warningLevel ∧ x.warningLevel ≤ 16 ∧ x.egressTime ≤ 100 ∧ x.recoveryTime ≤ 600 ∧ x.restartFade ≤ 600)
  && x.pwmPeriod.rows.toList.all fun t => decide (50 ≤ t ∧ t ≤ 5000)

/-! ## Stores -/

/-- Member slots in use (R54). -/
def Tables.membersUsed (t : Tables) : Nat := (t.groups.rows.toList.map List.length).sum

/-- The pairs of a preset table entry. -/
def pairsOf (p : Option PresetDef) : List (Circuit × Nat) :=
  match p with
  | some d => d.pairs
  | none => []

/-- Pair slots in use (R57). -/
def Tables.pairsUsed (t : Tables) : Nat := (t.presets.rows.toList.map fun p => (pairsOf p).length).sum

/-- The entries of one key address and edge, in order (R89). -/
def Tables.bindingsOf (t : Tables) (k : KeyAddr) (e : Edge) : List Binding :=
  t.bindings.filter fun b => b.key == k && b.edge == e

/-- No two circuit records name one LOCAL line (R165). -/
def Tables.linesDistinct (t : Tables) : Bool :=
  decide ((t.circuits.rows.toList.filterMap fun r =>
    match r.route with
    | .pwm n => some n
    | .link => none
    | .unrouted => none).Nodup)

/-- The place of a key address and edge in the order of R89. -/
def bindingPlace (k : KeyAddr) (e : Edge) : Nat := ((k.loop.val * 16 + k.station.val) * 8 + k.key.val) * 4 + e.code

/-- Every record of an image passes the checks a write of it would apply (R196, check 4). The order of the bindings is no
such check: they are put in order when they are loaded (notes/assumptions/37.md). -/
def Tables.loadable (t : Tables) : Bool :=
  t.groups.rows.toList.all (fun l => decide l.Nodup)
    && t.presets.rows.toList.all (fun p => p.all PresetDef.inRange)
    && t.bindings.all (fun b => Binding.inRange b && decide ((Tables.bindingsOf t b.key b.edge).length ≤ 4))
    && t.sequences.rows.toList.all (fun q => q.all SequenceDef.inRange)
    && t.modes.rows.toList.all ModeRecord.inRange
    && t.circuits.rows.toList.all CircuitRecord.inRange
    && t.roles.rows.toList.all RoleRecord.inRange
    && Settings.inRange t.settings
    && Tables.linesDistinct t
    && decide (Tables.membersUsed t ≤ Config.memberSlots ∧ Tables.pairsUsed t ≤ Config.pairSlots
      ∧ t.bindings.length ≤ Config.bindingSlots)

/-! ## Records as written become records as stored; none is BAD_RECORD -/

/-- Pairs of a preset part (R59): circuits 1 to 192 and levels 0 to 1000. -/
def typedPairs (l : List (Nat × Nat)) : Option (List (Circuit × Nat)) :=
  l.mapM fun x => (indexOf 192 x.1).bind fun c => if x.2 ≤ Config.levelTop then some (c, x.2) else none

/-- A gate: a set of 1 to 5 modes (R88). A bit that names no mode is out of range, BAD_RECORD as an empty gate is
(notes/assumptions/14.md). -/
def typedGate (bits : Nat) : Option (List HouseMode) :=
  if bits = 0 ∨ 32 ≤ bits then none else some (namesOf HouseMode.all bits)

/-- The action of a binding entry with the fields it uses filled and the others empty (R88, R90). -/
def RawBinding.typedAction (b : RawBinding) : Option FieldAction :=
  match b.action, b.target, b.level, b.fade, b.rank with
  | 0, .number g, some v, some t, some r => do return .on (← codeOf 65 g) v t (← codeOf 8 r)
  | 1, .number g, none, some t, some r => do return .off (← codeOf 65 g) t (← codeOf 8 r)
  | 2, .number g, some v, some t, some r => do return .toggle (← codeOf 65 g) v t (← codeOf 8 r)
  | 3, .number g, none, none, some r => do return .raise (← codeOf 65 g) (← codeOf 8 r)
  | 4, .number g, none, none, some r => do return .lower (← codeOf 65 g) (← codeOf 8 r)
  | 5, .number p, none, some t, some r => do return .recall (← indexOf 48 p) t (← codeOf 8 r)
  | 6, .number g, none, some t, some r => do return .release (← codeOf 65 g) t (← codeOf 8 r)
  | 7, .run p q m, none, none, none =>
    do return .seqRun (← indexOf 4 p) (← indexOf 16 q) (← (PlayerMode.ofCode m).bind PlayerMode.run)
  | 8, .number p, none, none, none => do return .seqStop (← indexOf 4 p)
  | 9, .number m, none, none, none => do return .setMode (← HouseMode.ofCode m)
  | _, _, _, _, _ => none

/-- A binding entry of key `k` and edge `e` (R90). -/
def RawBinding.typed (k : KeyAddr) (e : Edge) (b : RawBinding) : Option Binding := do
  let gate ← typedGate b.gate
  let action ← RawBinding.typedAction b
  if FieldAction.inRange action then return { key := k, edge := e, gate := gate, action := action } else none

/-- A step of a sequence (R129). -/
def RawStep.typed (x : RawStep) : Option SeqStep :=
  match x.kind, x.preset with
  | 0, some p => do return { kind := .recall (← indexOf 48 p), fade := x.fade, wait := x.wait }
  | 1, none => some { kind := .release, fade := x.fade, wait := x.wait }
  | _, _ => none

/-- A sequence of 0 to 16 steps (R129); ranges other than the number of steps are judged here. -/
def RawSequence.typed (q : RawSequence) : Option SequenceDef := do
  let steps ← q.steps.mapM RawStep.typed
  let d : SequenceDef :=
    { steps := steps, rank := ← codeOf 8 q.rank, endAction := ← EndAction.ofCode q.endAction,
      releaseTime := q.releaseTime, passLimit := q.passLimit }
  if steps.all (fun x => fadeInRange x.fade && decide (1 ≤ x.wait ∧ x.wait ≤ 36000))
      && fadeInRange d.releaseTime && decide (d.passLimit ≤ 255) then return d else none

/-- An entry sequence (R147): SINGLE or LOOP with a sequence, or OFF without. -/
def RawEntrySequence.typed (x : RawEntrySequence) : Option EntrySequence := do
  let player ← indexOf 4 x.player
  match ← PlayerMode.ofCode x.mode, x.sequence with
  | .off, none => return .off player
  | .single, some q => return .run player .single (← indexOf 16 q)
  | .loop, some q => return .run player .loop (← indexOf 16 q)
  | _, _ => none

/-- An optional field of a record: absent, or present and in range. -/
def typedOption {α β : Type} (f : α → Option β) : Option α → Option (Option β)
  | none => some none
  | some a => (f a).map some

/-- A mode record (R147). -/
def RawModeRecord.typed (m : RawModeRecord) : Option ModeRecord := do
  let d : ModeRecord :=
    { entryPreset := ← typedOption (indexOf 48) m.entryPreset, entryRank := ← codeOf 8 m.entryRank,
      entryFade := m.entryFade, entrySequence := ← typedOption RawEntrySequence.typed m.entrySequence }
  if ModeRecord.inRange d then return d else none

/-- A route (R165): LINK, LOCAL with a line 1 to 16, or NONE. -/
def typedRoute (route : Nat) (line : Option Nat) : Option Route :=
  match route, line with
  | 0, none => some .link
  | 1, some n => (indexOf 16 n).map .pwm
  | 2, none => some .unrouted
  | _, _ => none

/-- The kind of a circuit with its own fields filled and the other kind's empty (R165, R166). -/
def RawCircuitRecord.typedKind (r : RawCircuitRecord) : Option CircuitKind :=
  match r.kind, r.curve, r.min, r.max, r.threshold, r.hysteresis, r.dwell with
  | 0, some c, some lo, some hi, none, none, none => (Curve.ofCode c).map fun k => .dimmed k lo hi
  | 1, none, none, none, some t, some h, some d => some (.switched t h d)
  | _, _, _, _, _, _, _ => none

/-- A circuit record (R166), all but the check that its LOCAL line is free. -/
def RawCircuitRecord.typed (r : RawCircuitRecord) : Option CircuitRecord := do
  let d : CircuitRecord :=
    { kind := ← RawCircuitRecord.typedKind r, route := ← typedRoute r.route r.line, base := r.base,
      emergency := r.emergency }
  if CircuitRecord.inRange d then return d else none

/-- An access set (R186): ALL, or groups 0 to 64. -/
def typedAccess : Option (List Nat) → Option AccessSet
  | none => some .all
  | some l => (l.mapM (codeOf 65)).map .groups

/-- A role record (R186). -/
def RawRoleRecord.typed (r : RawRoleRecord) : Option RoleRecord := do
  let d : RoleRecord :=
    { maxRank := ← codeOf 8 r.maxRank, access := ← typedAccess r.access,
      permissions := namesOf Permission.all r.permissions, lease := r.lease, orphanHold := r.orphanHold,
      orphanRelease := r.orphanRelease, linkRate := ← LinkRate.ofCode r.linkRate }
  if decide (r.permissions < 32) && RoleRecord.inRange d then return d else none

/-- A station list of one loop (R67): addresses 01 to 16, none twice, known types. -/
def typedStations (l : List (Nat × Nat)) : Option (List (StationNo × StationType)) := do
  let entries ← l.mapM fun x => do return (← indexOf 16 x.1, ← StationType.ofCode x.2)
  if (entries.map Prod.fst).Nodup then return entries else none

/-- The station list as a table by address. -/
def stationTab (l : List (StationNo × StationType)) : Tab (Option StationType) 16 :=
  .build fun n => (l.find? fun x => x.1 == n).map Prod.snd

/-- The merge modes of the eight ranks (R2). -/
def typedRanks (l : List Nat) : Option (Tab MergeMode 8) := do
  let modes ← l.mapM MergeMode.ofCode
  if modes.length = 8 then return .build fun r => (modes[r.val]?).getD .ltp else none

/-! ## System settings by number (R198) -/

/-- The line of a line setting; none for the other settings. -/
def lineSetting (setting line : Nat) : Option (Option LineNo) :=
  if setting = 8 ∨ setting = 9 then (indexOf 16 line).map some
  else if setting < 8 then some none
  else none

/-- The value of a setting by its number in the order of R198; a mode or polarity by its code. -/
def Settings.value (x : Settings) (setting : Nat) (line : Option LineNo) : Nat :=
  match setting, line with
  | 0, _ => x.holdTime
  | 1, _ => x.raiseTime
  | 2, _ => x.deferLimit
  | 3, _ => x.warningLevel
  | 4, _ => x.egressTime
  | 5, _ => x.recoveryTime
  | 6, _ => x.restartFade
  | 7, _ => x.startMode.ix.val + 1
  | 8, some n => x.pwmPeriod.get n
  | 9, some n => if x.pwmPolarity.get n = .activeHigh then 0 else 1
  | _, _ => 0

/-- A setting replaced; none when the value lies outside the range of R198. -/
def Settings.replaced (x : Settings) (setting : Nat) (line : Option LineNo) (v : Nat) : Option Settings :=
  match setting, line with
  | 0, _ => if 300 ≤ v ∧ v ≤ 3000 then some { x with holdTime := v } else none
  | 1, _ => if 1 ≤ v ∧ v ≤ 60 then some { x with raiseTime := v } else none
  | 2, _ => if v ≤ 600 then some { x with deferLimit := v } else none
  | 3, _ => if 1 ≤ v ∧ v ≤ 16 then some { x with warningLevel := v } else none
  | 4, _ => if v ≤ 100 then some { x with egressTime := v } else none
  | 5, _ => if v ≤ 600 then some { x with recoveryTime := v } else none
  | 6, _ => if v ≤ 600 then some { x with restartFade := v } else none
  | 7, _ => (HouseMode.ofCode v).map fun m => { x with startMode := m }
  | 8, some n => if 50 ≤ v ∧ v ≤ 5000 then some { x with pwmPeriod := x.pwmPeriod.set n v } else none
  | 9, some n => (Polarity.ofCode v).map fun p => { x with pwmPolarity := x.pwmPolarity.set n p }
  | _, _ => none

end Sys2Proof.Machine
end

