-- ==== Sys2Proof/Machine/Fields.lean ====
section
/-! DEFINITION. The fields of R194 as bytes: numbers, flags, lists and names, and the configuration records, each with its writer and its reader. Frames (Machine/Wire.lean) and the stored image (Machine/Image.lean) are built from them. Widths R194 does not list are those of notes/assumptions/15.md. -/

namespace Sys2Proof.Machine

/-! ## Fields as bytes (R194) -/

/-- A value of one byte. -/
def one (n : Nat) : List Byte := [BitVec.ofNat 8 n]

/-- A value of two bytes, high byte first. -/
def two (n : Nat) : List Byte := [BitVec.ofNat 8 (n / 256), BitVec.ofNat 8 n]

/-- A flag: 0 clear and 1 set. -/
def flag (b : Bool) : List Byte := one b.toNat

/-- A field that may be absent: a presence byte, then the value. -/
def maybe {α : Type} (f : α → List Byte) : Option α → List Byte
  | none => one 0
  | some a => one 1 ++ f a

/-- A list: a count byte, then its entries. -/
def listed {α : Type} (f : α → List Byte) (l : List α) : List Byte := one l.length ++ l.flatMap f

/-! ## Codes of names (R194) -/

/-- A number that counts from 1. -/
def numbered {n : Nat} (i : Fin n) : List Byte := one (numberOf i)

/-- A key address: loop, then (station − 1) × 8 + (key − 1). -/
def keyField (k : KeyAddr) : List Byte := one (numberOf k.loop) ++ one (k.station.val * 8 + k.key.val)

/-- A mode by its code, 0 for none. -/
def modeField : Option HouseMode → List Byte
  | none => one 0
  | some m => one (m.ix.val + 1)

/-- Player mode, in the order of R130. -/
def playerModeCode : PlayerMode → Nat
  | .off => 0 | .single => 1 | .loop => 2

/-- End action, in the order of R128. -/
def endActionCode : EndAction → Nat
  | .hold => 0 | .release => 1

/-- Polarity, in the order of R174. -/
def polarityCode : Polarity → Nat
  | .activeHigh => 0 | .activeLow => 1

/-- Merge mode, in the order of R2. -/
def mergeCode : MergeMode → Nat
  | .ltp => 0 | .htp => 1

/-- Station type, in the order of R66. -/
def stationTypeCode : StationType → Nat
  | .keypad8 => 0 | .switch2 => 1

/-- Link rate, in the order of R186. -/
def linkRateCode : LinkRate → Nat
  | .r115200 => 0 | .r460800 => 1

/-- Curve, in the order of R165. -/
def curveCode : Curve → Nat
  | .linear => 0 | .square => 1

/-! ## Records (R194) -/

/-- A route (R165): LINK, LOCAL with its line, NONE. -/
def routeField : Route → List Byte
  | .link => one 0
  | .pwm n => one 1 ++ numbered n
  | .unrouted => one 2

/-- The action, target, level, fade and rank of a binding entry (R88). -/
def actionField : FieldAction → List Byte
  | .on g v t r => one 0 ++ one g.val ++ maybe two (some v) ++ maybe two (some t) ++ maybe one (some r.val)
  | .off g t r => one 1 ++ one g.val ++ one 0 ++ maybe two (some t) ++ maybe one (some r.val)
  | .toggle g v t r => one 2 ++ one g.val ++ maybe two (some v) ++ maybe two (some t) ++ maybe one (some r.val)
  | .raise g r => one 3 ++ one g.val ++ one 0 ++ one 0 ++ maybe one (some r.val)
  | .lower g r => one 4 ++ one g.val ++ one 0 ++ one 0 ++ maybe one (some r.val)
  | .recall p t r => one 5 ++ numbered p ++ one 0 ++ maybe two (some t) ++ maybe one (some r.val)
  | .release g t r => one 6 ++ one g.val ++ one 0 ++ maybe two (some t) ++ maybe one (some r.val)
  | .seqRun n q m =>
    one 7 ++ numbered n ++ numbered q ++ one (playerModeCode m.toPlayer) ++ one 0 ++ one 0 ++ one 0
  | .seqStop n => one 8 ++ numbered n ++ one 0 ++ one 0 ++ one 0
  | .setMode m => one 9 ++ modeField (some m) ++ one 0 ++ one 0 ++ one 0

/-- A binding entry: gate, then its action and fields (R90, R91). -/
def bindingField (b : Binding) : List Byte := one (bitsOf HouseMode.all b.gate) ++ actionField b.action

/-- A step of a sequence (R128). -/
def stepField (x : SeqStep) : List Byte :=
  (match x.kind with
    | .recall p => one 0 ++ maybe numbered (some p)
    | .release => one 1 ++ one 0)
    ++ two x.fade ++ two x.wait

/-- A sequence's definition (R129). -/
def sequenceDefField (q : SequenceDef) : List Byte :=
  listed stepField q.steps ++ one q.rank.val ++ one (endActionCode q.endAction) ++ two q.releaseTime
    ++ two q.passLimit

/-- An entry sequence (R147). -/
def entrySequenceField : EntrySequence → List Byte
  | .run n m q => numbered n ++ one (playerModeCode m.toPlayer) ++ maybe numbered (some q)
  | .off n => numbered n ++ one 0 ++ one 0

/-- A mode record (R147). -/
def modeRecordField (m : ModeRecord) : List Byte :=
  maybe numbered m.entryPreset ++ one m.entryRank.val ++ two m.entryFade ++ maybe entrySequenceField m.entrySequence

/-- The fields a circuit's kind fills and leaves empty (R165, R166): each of the six behind its presence byte, 0 for a
field of the other kind (notes/assumptions/15.md). -/
def kindFields : CircuitKind → List Byte
  | .dimmed k lo hi =>
    maybe one (some (curveCode k)) ++ maybe two (some lo) ++ maybe two (some hi) ++ one 0 ++ one 0 ++ one 0
  | .switched t h d => one 0 ++ one 0 ++ one 0 ++ maybe two (some t) ++ maybe two (some h) ++ maybe two (some d)

/-- A circuit record, in the order of R165. -/
def circuitRecordField (r : CircuitRecord) : List Byte :=
  flag r.kind.isSwitched ++ routeField r.route ++ two r.base ++ maybe two r.emergency ++ kindFields r.kind

/-- An access set (R186): 0 ALL, 1 a list of groups. -/
def accessField : AccessSet → List Byte
  | .all => one 0
  | .groups l => one 1 ++ listed (fun g => one g.val) l

/-- A role record, in the order of R186. -/
def roleField (r : RoleRecord) : List Byte :=
  one r.maxRank.val ++ accessField r.access ++ one (bitsOf Permission.all r.permissions) ++ two r.lease
    ++ two r.orphanHold ++ two r.orphanRelease ++ one (linkRateCode r.linkRate)

/-! ## Readers -/

/-- A reader of a field: the value and the bytes left, or none where the bytes are not of its form. -/
abbrev Reader (α : Type) := List Byte → Option (α × List Byte)

/-- One byte as a number. -/
def readOne : Reader Nat
  | [] => none
  | b :: rest => some (b.toNat, rest)

/-- Two bytes as a number, high byte first. -/
def readTwo : Reader Nat
  | hi :: lo :: rest => some (hi.toNat * 256 + lo.toNat, rest)
  | _ => none

/-- A flag: 0 or 1. -/
def readFlag : Reader Bool := fun l => do
  let (n, l) ← readOne l
  if n = 0 then return (false, l) else if n = 1 then return (true, l) else none

/-- A field behind a presence byte. -/
def readMaybe {α : Type} (f : Reader α) : Reader (Option α) := fun l => do
  let (present, l) ← readFlag l
  if present then
    let (a, l) ← f l
    return (some a, l)
  else return (none, l)

/-- `n` entries, one after another. -/
def readMany {α : Type} (f : Reader α) : Nat → Reader (List α)
  | 0, l => some ([], l)
  | n + 1, l => do
    let (a, l) ← f l
    let (rest, l) ← readMany f n l
    return (a :: rest, l)

/-- A list behind its count byte. -/
def readList {α : Type} (f : Reader α) : Reader (List α) := fun l => do
  let (n, l) ← readOne l
  readMany f n l

/-- Two one-byte numbers. -/
def readPair : Reader (Nat × Nat) := fun l => do
  let (a, l) ← readOne l
  let (b, l) ← readOne l
  return ((a, b), l)

/-- A key address (R194). -/
def readKey : Reader RawKey := fun l => do
  let ((loop, index), l) ← readPair l
  return ({ loop := loop, index := index }, l)

/-- A number and a two-byte value. -/
def readEntry : Reader (Nat × Nat) := fun l => do
  let (n, l) ← readOne l
  let (v, l) ← readTwo l
  return ((n, v), l)

/-- The target of a binding entry, by its action (R88). That of an action that is none of the ten, which R90 refuses, is
read as one byte (notes/assumptions/15.md). -/
def readBindingTarget (action : Nat) : Reader RawBindingTarget := fun l => do
  if action = 7 then
    let ((player, sequence), l) ← readPair l
    let (mode, l) ← readOne l
    return (.run player sequence mode, l)
  else
    let (n, l) ← readOne l
    return (.number n, l)

/-- A binding entry (R90). -/
def readBinding : Reader RawBinding := fun l => do
  let ((gate, action), l) ← readPair l
  let (target, l) ← readBindingTarget action l
  let (level, l) ← readMaybe readTwo l
  let (fade, l) ← readMaybe readTwo l
  let (rank, l) ← readMaybe readOne l
  return ({ gate := gate, action := action, target := target, level := level, fade := fade, rank := rank }, l)

/-- A step of a sequence (R129). -/
def readStep : Reader RawStep := fun l => do
  let (kind, l) ← readOne l
  let (preset, l) ← readMaybe readOne l
  let (fade, l) ← readTwo l
  let (wait, l) ← readTwo l
  return ({ kind := kind, preset := preset, fade := fade, wait := wait }, l)

/-- A sequence (R129). -/
def readSequence : Reader RawSequence := fun l => do
  let (steps, l) ← readList readStep l
  let ((rank, endAction), l) ← readPair l
  let (releaseTime, l) ← readTwo l
  let (passLimit, l) ← readTwo l
  return ({ steps := steps, rank := rank, endAction := endAction, releaseTime := releaseTime,
            passLimit := passLimit }, l)

/-- An entry sequence (R147). -/
def readEntrySequence : Reader RawEntrySequence := fun l => do
  let ((player, mode), l) ← readPair l
  let (sequence, l) ← readMaybe readOne l
  return ({ player := player, mode := mode, sequence := sequence }, l)

/-- A mode record (R147). -/
def readModeFields : Reader RawModeRecord := fun l => do
  let (preset, l) ← readMaybe readOne l
  let (rank, l) ← readOne l
  let (fade, l) ← readTwo l
  let (sequence, l) ← readMaybe readEntrySequence l
  return ({ entryPreset := preset, entryRank := rank, entryFade := fade, entrySequence := sequence }, l)

/-- The line that follows a LOCAL route (R194). -/
def readLine (route : Nat) : Reader (Option Nat) := fun l => do
  if route = 1 then
    let (n, l) ← readOne l
    return (some n, l)
  else return (none, l)

/-- A circuit record (R165, R166), each field of a kind behind its presence byte (notes/assumptions/15.md). -/
def readCircuitFields : Reader RawCircuitRecord := fun l => do
  let ((kind, route), l) ← readPair l
  let (line, l) ← readLine route l
  let (base, l) ← readTwo l
  let (emergency, l) ← readMaybe readTwo l
  let (curve, l) ← readMaybe readOne l
  let (min, l) ← readMaybe readTwo l
  let (max, l) ← readMaybe readTwo l
  let (threshold, l) ← readMaybe readTwo l
  let (hysteresis, l) ← readMaybe readTwo l
  let (dwell, l) ← readMaybe readTwo l
  return ({ kind := kind, route := route, line := line, base := base, emergency := emergency, curve := curve,
            min := min, max := max, threshold := threshold, hysteresis := hysteresis, dwell := dwell }, l)

/-- An access set (R186): 0 ALL, 1 a list of groups. Another selector byte is no defined code, and the payload not of its
form: BAD_REQUEST, before the checks of R186 (notes/assumptions/14.md). -/
def readAccess : Reader (Option (List Nat)) := readMaybe (readList readOne)

/-- A role record (R186). -/
def readRoleFields : Reader RawRoleRecord := fun l => do
  let (maxRank, l) ← readOne l
  let (access, l) ← readAccess l
  let (permissions, l) ← readOne l
  let (lease, l) ← readTwo l
  let (orphanHold, l) ← readTwo l
  let (orphanRelease, l) ← readTwo l
  let (linkRate, l) ← readOne l
  return ({ maxRank := maxRank, access := access, permissions := permissions, lease := lease,
            orphanHold := orphanHold, orphanRelease := orphanRelease, linkRate := linkRate }, l)

end Sys2Proof.Machine
end

