-- ==== Sys2Proof/Machine/Image.lean ====
section
/-! DEFINITION. The configuration image as bytes (R196): its CRC-32, its header, the tables and settings as they are written and read, and the tables a good image brings. The layout behind the header is the model's own (notes/assumptions/9.md). -/

namespace Sys2Proof.Machine

/-! ## CRC-32 (R196) -/

/-- One bit of the CRC-32, least significant bit first: the polynomial of R196 with its coefficients reversed. -/
def crc32Bit (crc : BitVec 32) : BitVec 32 :=
  if crc.getLsbD 0 then (crc >>> 1) ^^^ 0xEDB88320#32 else crc >>> 1

/-- One byte of the CRC-32. -/
def crc32Byte (crc : BitVec 32) (b : Byte) : BitVec 32 := Nat.repeat crc32Bit 8 (crc ^^^ b.setWidth 32)

/-- The CRC-32 of a run of bytes: initial value 0xFFFFFFFF and a final inversion (R196). -/
def crc32 (bytes : List Byte) : BitVec 32 := ~~~(bytes.foldl crc32Byte 0xFFFFFFFF#32)

/-! ## Tables as bytes -/

/-- A preset's definition: default fade, then its pairs. -/
def presetField (d : PresetDef) : List Byte := two d.defaultFade ++ listed (fun x => numbered x.1 ++ two x.2) d.pairs

/-- A binding with its key address and edge. -/
def boundField (b : Binding) : List Byte := keyField b.key ++ one b.edge.code ++ bindingField b

/-- The settings in the order of R198. -/
def settingsField (x : Settings) : List Byte :=
  two x.holdTime ++ two x.raiseTime ++ two x.deferLimit ++ two x.warningLevel ++ two x.egressTime
    ++ two x.recoveryTime ++ two x.restartFade ++ modeField (some x.startMode)
    ++ x.pwmPeriod.rows.toList.flatMap two ++ x.pwmPolarity.rows.toList.flatMap fun p => one (polarityCode p)

/-- The tables and settings behind the header, in the order in which chapter 11 names them. -/
def Tables.image (t : Tables) : List Byte :=
  t.circuits.rows.toList.flatMap circuitRecordField
    ++ t.groups.rows.toList.flatMap (listed numbered)
    ++ t.presets.rows.toList.flatMap (maybe presetField)
    ++ (two t.bindings.length ++ t.bindings.flatMap boundField)
    ++ t.stations.rows.toList.flatMap (fun l => l.rows.toList.flatMap (maybe fun x => one (stationTypeCode x)))
    ++ t.sequences.rows.toList.flatMap (maybe sequenceDefField)
    ++ t.modes.rows.toList.flatMap modeRecordField
    ++ t.roles.rows.toList.flatMap roleField
    ++ t.ranks.rows.toList.flatMap (fun m => one (mergeCode m))
    ++ settingsField t.settings

/-! ## Tables read back -/

/-- A record read as its raw form and typed; none where a number or code names nothing its record can hold. -/
def readAs {α β : Type} (f : Reader α) (g : α → Option β) : Reader β := fun l => do
  let (a, l) ← f l
  let b ← g a
  return (b, l)

/-- A table of `n` entries. -/
def readTab {α : Type} (n : Nat) (f : Reader α) : Reader (Tab α n) := fun l => do
  let (rows, l) ← readMany f n l
  if h : rows.toArray.size = n then return (⟨⟨rows.toArray, h⟩⟩, l) else none

/-- A preset's definition. -/
def readPresetDef : Reader PresetDef := fun l => do
  let (fade, l) ← readTwo l
  let (pairs, l) ← readAs (readList readEntry) typedPairs l
  return ({ defaultFade := fade, pairs := pairs }, l)

/-- A binding with its key address and edge. -/
def readBound : Reader Binding := fun l => do
  let (key, l) ← readAs readKey RawKey.address l
  let (edge, l) ← readAs readOne Edge.ofCode l
  readAs readBinding (RawBinding.typed key edge) l

/-- The bindings behind their two-byte count. -/
def readBounds : Reader (List Binding) := fun l => do
  let (n, l) ← readTwo l
  readMany readBound n l

/-- The settings in the order of R198. -/
def readSettings : Reader Settings := fun l => do
  let (holdTime, l) ← readTwo l
  let (raiseTime, l) ← readTwo l
  let (deferLimit, l) ← readTwo l
  let (warningLevel, l) ← readTwo l
  let (egressTime, l) ← readTwo l
  let (recoveryTime, l) ← readTwo l
  let (restartFade, l) ← readTwo l
  let (startMode, l) ← readAs readOne HouseMode.ofCode l
  let (pwmPeriod, l) ← readTab 16 readTwo l
  let (pwmPolarity, l) ← readTab 16 (readAs readOne Polarity.ofCode) l
  return ({ holdTime := holdTime, raiseTime := raiseTime, deferLimit := deferLimit, warningLevel := warningLevel,
            egressTime := egressTime, recoveryTime := recoveryTime, restartFade := restartFade,
            startMode := startMode, pwmPeriod := pwmPeriod, pwmPolarity := pwmPolarity }, l)

/-- The tables and settings one after another. -/
def readBody : Reader Tables := fun l => do
  let (circuits, l) ← readTab 192 (readAs readCircuitFields RawCircuitRecord.typed) l
  let (groups, l) ← readTab 64 (readAs (readList readOne) circuitsOfNumbers) l
  let (presets, l) ← readTab 48 (readMaybe readPresetDef) l
  let (bindings, l) ← readBounds l
  let (stations, l) ← readTab 4 (readTab 16 (readMaybe (readAs readOne StationType.ofCode))) l
  let (sequences, l) ← readTab 16 (readMaybe (readAs readSequence RawSequence.typed)) l
  let (modes, l) ← readTab 5 (readAs readModeFields RawModeRecord.typed) l
  let (roles, l) ← readTab 4 (readAs readRoleFields RawRoleRecord.typed) l
  let (ranks, l) ← readTab 8 (readAs readOne MergeMode.ofCode) l
  let (settings, l) ← readSettings l
  return ({ ranks := ranks, groups := groups, presets := presets, bindings := bindings, stations := stations,
            sequences := sequences, modes := modes, circuits := circuits, roles := roles, settings := settings }, l)

/-- The tables a body encloses; none where it is not exactly one set of tables. -/
def readTables (body : List Byte) : Option Tables :=
  match readBody body with
  | some (t, []) => some t
  | some (_, _ :: _) => none
  | none => none

/-! ## The image -/

/-- Bytes of the header: format number, length and CRC-32. -/
def headerBytes : Nat := 7

/-- The image of these tables (R196, R199): format 1, the length of the whole image, the CRC-32 of what follows the
header. -/
def imageOf (t : Tables) : StoredImage :=
  { format := Config.imageFormat, length := headerBytes + (Tables.image t).length, crc := crc32 (Tables.image t),
    body := Tables.image t }

/-- A CRC-32, high byte first (R196). -/
def crc32Field (crc : BitVec 32) : List Byte := two (crc.toNat / 65536) ++ two (crc.toNat % 65536)

/-- The bytes of an image as they stand in the memory. -/
def StoredImage.bytes (x : StoredImage) : List Byte := one x.format ++ two x.length ++ crc32Field x.crc ++ x.body

/-- The image that stands in a memory of these bytes: a header, and what its length encloses. -/
def StoredImage.ofBytes (memory : List Byte) : Option StoredImage := do
  let (format, l) ← readOne memory
  let (length, l) ← readTwo l
  let (high, l) ← readTwo l
  let (low, l) ← readTwo l
  return { format := format, length := length, crc := BitVec.ofNat 32 (high * 65536 + low),
           body := l.take (length - headerBytes) }

/-- A binding put in its place among bindings in the order of R89, before those of its own place. -/
def insertBinding (b : Binding) (l : List Binding) : List Binding :=
  l.takeWhile (fun x => decide (bindingPlace x.key x.edge < bindingPlace b.key b.edge))
    ++ b :: l.dropWhile (fun x => decide (bindingPlace x.key x.edge < bindingPlace b.key b.edge))

/-- The tables with the bindings in the order of R89, entries of one key address and edge as they stood
(notes/assumptions/37.md). -/
def Tables.ordered (t : Tables) : Tables := { t with bindings := t.bindings.foldr insertBinding [] }

/-- The tables of an image that passes every check of R196; none if it is bad. -/
def goodTables (image : Option StoredImage) : Option Tables :=
  image.bind fun x =>
    if x.format = Config.imageFormat ∧ x.length = headerBytes + x.body.length ∧ x.crc = crc32 x.body then
      (readTables x.body).bind fun t => if Tables.loadable t then some (Tables.ordered t) else none
    else none

end Sys2Proof.Machine
end

