-- ==== Sys2Proof/Machine/Levels.lean ====
section
/-! DEFINITION. The Level Stage: how transitions start, continue and are reported (R35 to R41), and how fades and transitions advance with time (R32, R35). -/

namespace Sys2Proof.Machine

/-! ## Transitions of one circuit -/

/-- A start on a circuit standing at `level` (R37): it overtakes any transition there (R38), and with duration 0 it leaves
no record. -/
def CircuitState.startTransition (x : CircuitState) (cause : TransitionCause) (fixed : Option Nat)
    (level duration : Nat) : CircuitState :=
  { x with transition :=
      if duration = 0 then none
      else some { cause := cause, fixed := fixed, start := level, duration := duration, spent := 0 } }

/-- A LIVE transition continued from `level` over the rest of its time (R39). A transition whose time is spent has no
rest and is left to its end event (notes/assumptions/18.md). -/
def Transition.continued (t : Transition) (level : Nat) : Transition :=
  if t.fixed.isSome || t.due then t
  else { t with start := level, duration := t.duration - t.elapsed, spent := t.spent % Config.tenth }

/-- The circuit with its LIVE transition, if any, continued from `level` (R39). -/
def CircuitState.continueTransition (x : CircuitState) (level : Nat) : CircuitState :=
  { x with transition := x.transition.map fun t => t.continued level }

/-- The circuit stands on a RECOVERY transition (R40). -/
def CircuitState.recovering (x : CircuitState) : Bool :=
  match x.transition with
  | some t => t.cause == .recovery
  | none => false

/-! ## Time -/

/-- A fade after `us` more microseconds in command; at its duration it waits for its completion event (R34). -/
def Fade.advance (us : Nat) (f : Fade) : Fade := { f with spent := min (f.spent + us) (f.duration * Config.tenth) }

/-- A transition after `us` more microseconds; at its duration it waits for its end event (R40). -/
def Transition.advance (us : Nat) (t : Transition) : Transition :=
  { t with spent := min (t.spent + us) (t.duration * Config.tenth) }

/-- A claim in command after `us` more microseconds (R32). -/
def Claim.advance (us : Nat) (c : Claim) : Claim :=
  match c.state with
  | .effective (some f) => { c with state := .effective (some (f.advance us)) }
  | .effective none => c
  | .waiting _ => c

/-- A circuit after `us` more microseconds: fades in command and the transition advance (R32, R35). -/
def CircuitState.advance (modes : Tab MergeMode 8) (us : Nat) (x : CircuitState) : CircuitState :=
  { x with
    claims := x.claims.map fun c => if inCommandOf modes x.claims c.owner then c.advance us else c
    transition := x.transition.map fun t => t.advance us }

namespace State

/-- The part after `us` more microseconds in which nothing else happens. -/
def elapse (s : State) (us : Nat) : State :=
  { s with now := s.now + us, circuits := s.circuits.each fun x => x.advance s.tables.ranks us }

/-! ## The Emergency Plane's notices and reports -/

/-- Posts EMERGENCY with the state as it stands (R163). -/
def announceEmergency (s : State) (cause : EmergencyCause) : State :=
  s.announce (.emergency s.emergency.state s.emergency.accepted cause s.forcedCount)

/-- `s` with the emergency state `e` and recovery set `l`. -/
def setEmergency (s : State) (e : EmergencyState) (l : List Circuit) : State :=
  { s with emergency := { s.emergency with state := e, recovery := l } }

/-- The Level Stage reports the end of recovery on these circuits (R40); while RECOVERING they leave the recovery set,
and when it becomes empty the state passes to NORMAL (R161). -/
def reportRecoveries (s : State) (cs : List Circuit) : State :=
  if s.emergency.state = .recovering then
    let left := s.emergency.recovery.filter fun c => !cs.contains c
    if left.isEmpty && !s.emergency.recovery.isEmpty then
      (s.setEmergency .normal []).announceEmergency .recoveryComplete
    else s.setEmergency .recovering left
  else s

end State
end Sys2Proof.Machine
end

