-- ==== Sys2Proof/Machine/Trackers.lean ====
section
/-! DEFINITION. Completion trackers of the pool and of the standby slots (R45 to R52), and how a standby slot ends (R116). -/

namespace Sys2Proof.Machine

/-- The claim without its link to `l`, if that is its link. -/
def Claim.unlink (l : TrackerLink) (c : Claim) : Claim := if c.tracker = some l then { c with tracker := none } else c

/-- A slot whose tracker is decremented `n` times (R52). -/
def Slot.decrement (n : Nat) (k : Slot) : Slot :=
  match k.phase with
  | .armed => k
  | .going count => { k with phase := .going (count - n) }

namespace State

/-- `s` with every claim changed by `f`. -/
def onClaims (s : State) (f : Claim → Claim) : State :=
  { s with circuits := s.circuits.each fun x => { x with claims := x.claims.map f } }

/-- A slot ends (R116): it becomes FREE, its claims lose their link without a decrement, STANDBY_END goes to its owner,
and a replay is owed. -/
def endSlot (s : State) (n : SlotNo) (reason : EndReason) : State :=
  match s.slot n with
  | none => s
  | some k =>
    { (((s.onClaims (Claim.unlink (.slot n))).setSlot n none).notify k.owner (.standbyEnd n reason)) with
      replayOwed := true }

/-- The slots that meet `which` end in ascending slot number (R116). -/
def endSlots (s : State) (which : Slot → Bool) (reason : EndReason) : State :=
  (indices 4).foldl
    (fun s n => if (s.slot n).any which then s.endSlot n reason else s) s

/-- The pool tracker the next request would take: the lowest free one (notes/assumptions/27.md). -/
def freeTracker (s : State) : Option (Fin 32) :=
  (indices 32).find? fun i => !s.trackers.any fun t => t.id == i

/-- The tracker a tagged request of `p` takes: one is free and the port holds fewer than 8 (R46). -/
def trackerFor (s : State) (p : Port) : Option (Fin 32) :=
  if (s.trackers.filter fun t => t.port == p).length < Config.trackersPerPort then s.freeTracker else none

/-- Every tracker is decremented once for each of its links in `drops` (R47, R48). -/
def decrement (s : State) (drops : List TrackerLink) : State :=
  { s with
    trackers := s.trackers.map fun t => { t with count := t.count - drops.count (.pool t.id) }
    slots := .build fun n => (s.slot n).map (Slot.decrement (drops.count (.slot n))) }

/-- Every pool tracker at zero posts FADE_DONE, in the order taken, and is freed (R48, R49). -/
def freeZeroTrackers (s : State) : State :=
  let posted := (s.trackers.filter fun t => t.count == 0).foldl (fun s t => s.notify t.port (.fadeDone t.tag)) s
  { posted with trackers := s.trackers.filter fun t => !(t.count == 0) }

/-- Every GOING slot whose tracker stands at zero ends with reason DONE (R117). -/
def endDoneSlots (s : State) : State := s.endSlots (fun k => k.phase == .going 0) .done

/-- Frees every pool tracker of port `p` without notice; its claims lose their links without a decrement (R50). -/
def dropTrackers (s : State) (p : Port) : State :=
  let mine := s.trackers.filter fun t => t.port == p
  { (mine.foldl (fun s t => s.onClaims (Claim.unlink (.pool t.id))) s) with
    trackers := s.trackers.filter fun t => !(t.port == p) }

end State
end Sys2Proof.Machine
end

