-- ==== Sys2Proof/Machine/Claims.lean ====
section
/-! DEFINITION. The Claim Table: placement (R10 to R17), promotion of WAITING claims (R16), release (R19, R20), fade completion (R34), a write of the rank table (R3), and the notices of command (R23 to R25). Each of these is one event on all its circuits. -/

namespace Sys2Proof.Machine

/-! ## What a placement carries -/

/-- One circuit of a placement (R10): RAISE gives each circuit its own fade, the stop of a raise its own rank and cause. -/
structure PlaceItem where
  circuit : Circuit
  target : Nat
  fade : Nat
  rank : Rank
  cause : Option KeyAddr
  deriving DecidableEq, Repr

/-- The tracker a placement links its claims to (R46, R52). -/
inductive TrackerUse where
  | untracked
  | pool (id : Fin 32) (port : Port) (tag : Byte)
  | slot (n : SlotNo)
  deriving DecidableEq, Repr

/-- The link a tracked placement gives its claims. -/
def TrackerUse.link : TrackerUse → Option TrackerLink
  | untracked => none
  | pool id _ _ => some (.pool id)
  | slot n => some (.slot n)

/-- A placement (R10). -/
structure Placement where
  owner : Owner
  items : List PlaceItem
  wait : Bool
  tracker : TrackerUse
  deriving DecidableEq, Repr

/-- The part of the placement that falls on circuit `c`. -/
def Placement.on (pl : Placement) (c : Circuit) : Option PlaceItem := pl.items.find? fun it => it.circuit == c

/-- Why a placement is refused, in the order of the checks (R11). -/
inductive PlaceRefusal where
  | badTarget | denied | locked | poolFull
  deriving DecidableEq, Repr

/-- The reply status of a port placement so refused (R12). -/
def PlaceRefusal.status : PlaceRefusal → Status
  | badTarget => .badTarget | denied => .denied | locked => .locked | poolFull => .poolFull

/-! ## One circuit -/

/-- The claim enters its rank at the front (R7). -/
def enterRank (c : Claim) (l : List Claim) : List Claim :=
  l.takeWhile (fun x => decide (c.rank < x.rank)) ++ c :: l.dropWhile (fun x => decide (c.rank < x.rank))

/-- The list without the owner's claim. -/
def without (o : Owner) (l : List Claim) : List Claim := l.filter fun c => !(c.owner == o)

/-- A claim placed with WAIT at rank `r` waits (R15), judged on the list without the owner's own claim: the rank is at or
above the top rank, and some claim in command has a fade present. -/
def mustWait (modes : Tab MergeMode 8) (others : List Claim) (r : Rank) : Bool :=
  (match topRank others with
   | some top => decide (top ≤ r)
   | none => true) && commandFading modes others

/-- The circuit leaves the raise set it stands in when `o` is FIELD (R100). -/
def CircuitState.leaveRaise (x : CircuitState) (o : Owner) : CircuitState :=
  if o = .field then { x with raisedBy := none } else x

/-- A placement's own changes on a circuit that stood at `level` (R13 to R15, R39, R100): the owner's claim is
retargeted or created at the front of its rank, WAITING, fading, or complete; a claim left in command continues a LIVE
transition. -/
def CircuitState.placed (x : CircuitState) (modes : Tab MergeMode 8) (level : Nat) (o : Owner) (wait : Bool)
    (link : Option TrackerLink) (event : Nat) (it : PlaceItem) : CircuitState :=
  let others := without o x.claims
  let bare : Claim :=
    { owner := o, rank := it.rank, state := .effective none, target := it.target, cause := it.cause, tracker := none }
  if wait && mustWait modes others it.rank then
    { x with claims := enterRank { bare with state := .waiting it.fade, tracker := link } others }.leaveRaise o
  else if inCommandOf modes (enterRank bare others) o then
    let fading : Claim :=
      { bare with
        state := .effective (some { start := level, duration := it.fade, spent := 0, event := event })
        tracker := link }
    ({ x with claims := enterRank (if 0 < it.fade then fading else bare) others }.leaveRaise o).continueTransition level
  else { x with claims := enterRank bare others }.leaveRaise o

/-- WAITING claims on the list are to be promoted: there are some, and no claim in command has a fade (R16). -/
def promotable (modes : Tab MergeMode 8) (l : List Claim) : Bool :=
  l.any (fun c => !c.isEffective) && !commandFading modes l

/-- The claim as EFFECTIVE, as it stands in the list while command is decided at a promotion (R16). -/
def Claim.woken (c : Claim) : Claim :=
  match c.state with
  | .waiting _ => { c with state := .effective none }
  | .effective _ => c

/-- A WAITING claim promoted on a circuit at `level` (R16): with a held fade above 0 and in command it receives a fade and
keeps its link; otherwise it is complete at once and loses its link. -/
def Claim.promoted (level event : Nat) (inCommand : Bool) (c : Claim) : Claim :=
  match c.state with
  | .effective _ => c
  | .waiting h =>
    if inCommand && decide (0 < h) then
      { c with state := .effective (some { start := level, duration := h, spent := 0, event := event }) }
    else { c with state := .effective none, tracker := none }

/-- The link a promotion takes from a WAITING claim that is complete at once (R16, R47). -/
def Claim.promotionDrop (inCommand : Bool) (c : Claim) : Option TrackerLink :=
  match c.state with
  | .effective _ => none
  | .waiting h => if inCommand && decide (0 < h) then none else c.tracker

/-- The circuit after the promotion of its WAITING claims, if R16 asks for it; a promoted claim in command continues a
LIVE transition (R39). A fade starts from the level after the event's own changes (notes/assumptions/40.md). -/
def CircuitState.promote (x : CircuitState) (modes : Tab MergeMode 8) (r : CircuitRecord) (e : EmergencyState)
    (event : Nat) : CircuitState :=
  if promotable modes x.claims then
    let level := x.levelUnder modes r e
    let standing := x.claims.map Claim.woken
    let y := { x with claims := x.claims.map fun c => c.promoted level event (inCommandOf modes standing c.owner) }
    if x.claims.any (fun c => !c.isEffective && inCommandOf modes standing c.owner) then y.continueTransition level
    else y
  else x

/-- The links that promotion takes away (R47). -/
def CircuitState.promotionDrops (x : CircuitState) (modes : Tab MergeMode 8) : List TrackerLink :=
  if promotable modes x.claims then
    x.claims.filterMap fun c => c.promotionDrop (inCommandOf modes (x.claims.map Claim.woken) c.owner)
  else []

/-- A release's own changes on a circuit that stood at `level` (R19, R100): the owner's claim is removed; where it was in
command on a circuit not forced, a RELEASE transition starts, of duration 0 with release time 0 (R37). -/
def CircuitState.released (x : CircuitState) (modes : Tab MergeMode 8) (level : Nat) (forced : Bool) (o : Owner)
    (time : Nat) : CircuitState :=
  let y := { x with claims := without o x.claims }.leaveRaise o
  if inCommandOf modes x.claims o && !forced then y.startTransition .release none level time else y

/-- The fade was given by event `n` and has reached its duration (R34). -/
def Claim.completes (n : Nat) (c : Claim) : Bool :=
  match c.fade with
  | some f => f.event == n && f.due
  | none => false

/-- The claim with that fade removed, and with it its link (R34). -/
def Claim.complete (n : Nat) (c : Claim) : Claim :=
  if c.completes n then { c with state := .effective none, tracker := none } else c

/-- The circuit after the completions of event `n`'s fades (R34); a completed FIELD claim leaves its raise set (R100). -/
def CircuitState.complete (x : CircuitState) (n : Nat) : CircuitState :=
  { x with
    claims := x.claims.map (Claim.complete n)
    raisedBy := if x.claims.any (fun c => c.completes n && c.owner == .field) then none else x.raisedBy }

/-! ## Notices of command -/

/-- The three standings of the circuits in one event of the Claim Table: before it, after its own changes, and after the
promotions that follow. -/
structure Standings where
  before : Tab CircuitState 192
  mid : Tab CircuitState 192
  after : Tab CircuitState 192

namespace Standings

/-- The claim of port `p` on `c` lost command in the event, and not by its own action (R23): an actor's claim counts only
if its own change had left it in command. -/
def lost (t : Standings) (modes : Tab MergeMode 8) (actor : Option Owner) (p : Port) (c : Circuit) : Bool :=
  inCommandOf modes (t.before.get c).claims (.port p) && !inCommandOf modes (t.after.get c).claims (.port p)
    && (!(actor == some (.port p)) || inCommandOf modes (t.mid.get c).claims (.port p))

/-- Owner `o` took command on `c`: its claim is in command after the event, and it is the actor's or was promoted (R23).
An owner that a promotion of the same event has followed is not named (notes/assumptions/41.md). -/
def took (t : Standings) (modes : Tab MergeMode 8) (actor : Option Owner) (o : Owner) (c : Circuit) : Bool :=
  inCommandOf modes (t.after.get c).claims o
    && (actor == some o || (t.mid.get c).claims.any fun x => x.owner == o && !x.isEffective)

/-- The circuits on which port `p` lost command (R23). -/
def lostOn (t : Standings) (modes : Tab MergeMode 8) (actor : Option Owner) (p : Port) : List Circuit :=
  (indices 192).filter (t.lost modes actor p)

/-- The number of circuits on which `o` took command from port `p` (R23). -/
def preempted (t : Standings) (modes : Tab MergeMode 8) (actor : Option Owner) (p : Port) (o : Owner) : Nat :=
  ((t.lostOn modes actor p).filter (t.took modes actor o)).length

/-- The circuits on which the event brought a held claim of port `p` into command (R24); none for the actor's own. -/
def restored (t : Standings) (modes : Tab MergeMode 8) (actor : Option Owner) (p : Port) : Nat :=
  if actor = some (.port p) then 0
  else ((indices 192).filter fun c =>
    (t.before.get c).claims.any (fun x => x.owner == .port p && x.isEffective)
      && !inCommandOf modes (t.before.get c).claims (.port p)
      && inCommandOf modes (t.after.get c).claims (.port p)).length

end Standings

namespace State

/-- Posts PREEMPTED to port `p` for owner `o` when it took command from some circuit (R23). -/
def notifyPreempted (s : State) (t : Standings) (actor : Option Owner) (p : Port) (o : Owner) : State :=
  let n := t.preempted s.tables.ranks actor p o
  if 0 < n then s.notify p (.preempted o n) else s

/-- Posts RESTORED to port `p` when some circuit came back to it (R24). -/
def notifyRestored (s : State) (t : Standings) (actor : Option Owner) (p : Port) : State :=
  let n := t.restored s.tables.ranks actor p
  if 0 < n then s.notify p (.restored n) else s

/-- The command notices of one event: to each port every PREEMPTED in the order of R1, then RESTORED (R25). -/
def commandNotices (s : State) (t : Standings) (actor : Option Owner) : State :=
  Port.all.foldl (fun s p =>
    (Owner.all.foldl (fun s o => s.notifyPreempted t actor p o) s).notifyRestored t actor p) s

/-- What follows the list changes and command notices of an event: decrements and FADE_DONE (R48, R49), the Level Stage's
reports (R40), and the slots whose trackers reached zero (R117). -/
def settle (s : State) (drops : List TrackerLink) (reports : List Circuit) : State :=
  (((s.decrement drops).freeZeroTrackers).reportRecoveries reports).endDoneSlots

/-! ## Placement -/

/-- The circuits after the placement's own changes. -/
def placeMid (s : State) (pl : Placement) : Tab CircuitState 192 :=
  .build fun c =>
    match pl.on c with
    | none => s.circuit c
    | some it => (s.circuit c).placed s.tables.ranks (s.level c) pl.owner pl.wait pl.tracker.link s.event it

/-- The circuits of `mid` after promotions on the circuits that `on` picks. -/
def promoteWhere (s : State) (mid : Tab CircuitState 192) (on : Circuit → Bool) : Tab CircuitState 192 :=
  .build fun c =>
    if on c then (mid.get c).promote s.tables.ranks (s.record c) s.emergency.state s.event else mid.get c

/-- The links taken by those promotions. -/
def promotionDropsWhere (s : State) (mid : Tab CircuitState 192) (on : Circuit → Bool) : List TrackerLink :=
  ((indices 192).filter on).flatMap fun c => (mid.get c).promotionDrops s.tables.ranks

/-- The links of the owner's claims on these circuits, which a retarget or release decrements (R47). -/
def linksOf (s : State) (o : Owner) (cs : List Circuit) : List TrackerLink :=
  cs.filterMap fun c => (claimOf o (s.claims c)).bind Claim.tracker

/-- Sets the placement's tracker with the number of claims linked to it (R46, R52). -/
def setTracker (s : State) (use : TrackerUse) (count : Nat) : State :=
  match use with
  | .untracked => s
  | .pool id port tag => { s with trackers := s.trackers ++ [{ id := id, port := port, tag := tag, count := count }] }
  | .slot n => s.setSlot n ((s.slot n).map fun k => { k with phase := .going count })

/-- A placement that has passed its checks, taken on all its circuits as one event (R17). -/
def place (s : State) (pl : Placement) : State :=
  let cs := pl.items.map PlaceItem.circuit
  let mid := s.placeMid pl
  let after := s.promoteWhere mid cs.contains
  let linked := (cs.filter fun c => ((claimOf pl.owner (mid.get c).claims).bind Claim.tracker).isSome).length
  let drops := s.linksOf pl.owner cs ++ s.promotionDropsWhere mid cs.contains
  ((({ s with circuits := after, event := s.event + 1 }.setTracker pl.tracker linked).commandNotices
    { before := s.circuits, mid := mid, after := after } (some pl.owner)).settle drops [])

/-- The checks LOCKED and POOL_FULL of R11 on the circuits of a placement, the first only where its source asks the lock
question (R12). -/
def placeRefusal (s : State) (o : Owner) (r : Rank) (cs : List Circuit) (asksLock : Bool) : Option PlaceRefusal :=
  if asksLock && s.locked o r cs then some .locked
  else if s.freeRecords < s.recordsNeeded o cs then some .poolFull
  else none

/-! ## Release -/

/-- A release taken on its circuits as one event (R19, R20). A recovery overtaken or removed by it is reported (R40). -/
def release (s : State) (o : Owner) (cs : List Circuit) (time : Nat) : State :=
  let mid : Tab CircuitState 192 := .build fun c =>
    if cs.contains c then (s.circuit c).released s.tables.ranks (s.level c) (s.forced c) o time else s.circuit c
  let after := s.promoteWhere mid cs.contains
  let drops := s.linksOf o cs ++ s.promotionDropsWhere mid cs.contains
  let reports := cs.filter fun c => s.inCommand c o && !s.forced c && (s.circuit c).recovering
  ({ s with circuits := after, event := s.event + 1 }.commandNotices
    { before := s.circuits, mid := mid, after := after } (some o)).settle drops reports

/-- A release of every claim `o` holds (R20). -/
def releaseAll (s : State) (o : Owner) (time : Nat) : State := s.release o (s.circuitsOf o) time

/-! ## Fade completion -/

/-- The circuits on which a fade given by event `n` completes. -/
def completing (s : State) (n : Nat) (c : Circuit) : Bool := (s.claims c).any (Claim.completes n)

/-- The fades given by event `n` that have reached their duration complete as one event, with the promotions that follow
(R34, R23). -/
def completeFades (s : State) (n : Nat) : State :=
  let mid := s.circuits.each fun x => x.complete n
  let after := s.promoteWhere mid (s.completing n)
  let drops := ((indices 192).flatMap fun c =>
      ((s.claims c).filter (Claim.completes n)).filterMap Claim.tracker)
    ++ s.promotionDropsWhere mid (s.completing n)
  ({ s with circuits := after, event := s.event + 1 }.commandNotices
    { before := s.circuits, mid := mid, after := after } none).settle drops []

/-! ## The rank table -/

/-- The rank table replaced and every list arbitrated again (R3): WAITING claims are examined, no transition starts, and
no PREEMPTED or RESTORED is posted. -/
def setRanks (s : State) (modes : Tab MergeMode 8) : State :=
  let t := { s with tables := { s.tables with ranks := modes } }
  { t with circuits := t.promoteWhere t.circuits fun _ => true, event := t.event + 1 }.settle
    (t.promotionDropsWhere t.circuits fun _ => true) []

end State
end Sys2Proof.Machine
end

