-- ==== Sys2Proof/Machine/Players.lean ====
section
/-! DEFINITION. The Sequence Players: steps, waits, passes, faults, stops and starts (R130 to R143), and the meaning of WAIT_TIMER_EXPIRY's event on a player (R139). -/

namespace Sys2Proof.Machine

/-- The owner's recall of a preset's pairs, one fade and rank for all (R64); only FIELD names a cause key. -/
def recallItems (d : PresetDef) (fade : Nat) (rank : Rank) (cause : Option KeyAddr) : List PlaceItem :=
  d.pairs.map fun x => { circuit := x.1, target := x.2, fade := fade, rank := rank, cause := cause }

/-- The circuits of a preset's pairs. -/
def PresetDef.circuits (d : PresetDef) : List Circuit := d.pairs.map Prod.fst

/-- The step refusal as a reply status (R142). -/
def StepRefusal.status : StepRefusal → Status
  | badTarget => .badTarget
  | poolFull => .poolFull

/-- The outcome of a start by its step 1 (R142, R151). -/
def startOutcome : Option StepRefusal → SequenceOutcome
  | none => .started
  | some .badTarget => .badTarget
  | some .poolFull => .poolFull

/-- The length of a step's wait at a rate, in tenths (R138). -/
def waitTenths (wait rate : Nat) : Nat := max 1 (wait * 100 / rate)

namespace State

/-- The definition of sequence `q` as it stands (R128). -/
def sequenceDef (s : State) (q : SequenceNo) : Option SequenceDef := s.tables.sequences.get q

/-- The definition of the sequence player `n` holds. -/
def playerSequence (s : State) (n : PlayerNo) : Option SequenceDef := (s.player n).sequence.bind s.sequenceDef

/-- The sequence is in use: a player whose mode is SINGLE or LOOP holds its number (R128). -/
def sequenceUsers (s : State) (q : SequenceNo) : List PlayerNo :=
  (indices 4).filter fun n => (s.player n).mode != .off && (s.player n).sequence == some q

/-- Posts SEQ of player `n` with the record as it stands (R143). -/
def announceSeq (s : State) (n : PlayerNo) (e : SeqEvent) : State :=
  s.announce (.seq n (s.player n).sequence e (s.player n).passes (s.player n).step)

/-- Mode OFF, run state IDLE, step index 0 (R135, R140, R142). -/
def idlePlayer (s : State) (n : PlayerNo) : State :=
  s.setPlayer n { s.player n with mode := .off, run := .idle, step := 0 }

/-- The release time of the sequence player `n` holds (R128). -/
def sequenceReleaseTime (s : State) (n : PlayerNo) : Nat :=
  match s.playerSequence n with
  | some q => q.releaseTime
  | none => 0

/-- A fault (R142): OFF, FAULT with the index of the failed step (notes/assumptions/13.md), the claims released. -/
def faultPlayer (s : State) (n : PlayerNo) (reason : StepRefusal) : State :=
  let p := s.player n
  ((s.idlePlayer n).announce (.seq n p.sequence (.fault reason) p.passes p.step)).releaseAll (.seq n)
    (s.sequenceReleaseTime n)

/-- A stop (R135), with its notices in the order of R143. -/
def stopPlayer (s : State) (n : PlayerNo) (source : RunSource) : State :=
  ((s.idlePlayer n).announceSeq n (.stopped source)).releaseAll (.seq n) (s.sequenceReleaseTime n)

/-- The pending rate, if any, becomes the rate in force (R131, R138). -/
def takeRate (s : State) (n : PlayerNo) : State :=
  let p := s.player n
  s.setPlayer n { p with rate := p.pendingRate.getD p.rate, pendingRate := none }

/-- The run state becomes RUNNING and the wait timer starts at the rate in force (R138). -/
def startWait (s : State) (n : PlayerNo) (wait : Nat) : State :=
  let p := s.player n
  s.setPlayer n { p with run := .running (s.now + waitTenths wait p.rate * Config.tenth) }

/-- The player enters WAIT_LOCK and posts it (R141). -/
def holdStep (s : State) (n : PlayerNo) : State :=
  (s.setPlayer n { s.player n with run := .waitLock }).announceSeq n .waitLock

/-- The step player `n` stands at, with its sequence (R130). -/
def currentStep (s : State) (n : PlayerNo) : Option (SequenceDef × SeqStep) :=
  (s.playerSequence n).bind fun q => (q.steps[(s.player n).step - 1]?).map fun x => (q, x)

/-- The placement of a RECALL step (R64, R138). -/
def stepPlacement (n : PlayerNo) (q : SequenceDef) (x : SeqStep) (d : PresetDef) : Placement :=
  { owner := .seq n, items := recallItems d x.fade q.rank none, wait := false, tracker := .untracked }

/-- The action and wait of a step, the rate of stage 1 being in force (R138); the refusal of a fault is handed back
(R142). -/
def takeAction (s : State) (n : PlayerNo) : State × Option StepRefusal :=
  match s.currentStep n with
  | none => (s, none)
  | some (q, x) =>
    match x.kind with
    | .release => ((s.releaseAll (.seq n) x.fade).startWait n x.wait, none)
    | .recall preset =>
      match s.presetDef preset with
      | none => (s.faultPlayer n .badTarget, some .badTarget)
      | some d =>
        match s.placeRefusal (.seq n) q.rank (PresetDef.circuits d) true with
        | none => ((s.place (stepPlacement n q x d)).startWait n x.wait, none)
        | some .locked => (s.holdStep n, none)
        | some _ => (s.countPoolRefusal.faultPlayer n .poolFull, some .poolFull)

/-- Player `n` takes the step it stands at (R138). -/
def takeStep (s : State) (n : PlayerNo) : State × Option StepRefusal := (s.takeRate n).takeAction n

/-- The held step of player `n` would be locked again (R141). -/
def stepLocked (s : State) (n : PlayerNo) : Bool :=
  match s.currentStep n with
  | none => false
  | some (q, x) =>
    match x.kind with
    | .release => false
    | .recall preset =>
      match s.presetDef preset with
      | none => false
      | some d => s.locked (.seq n) q.rank (PresetDef.circuits d)

/-- A player in WAIT_LOCK attempts its held step again; one that is locked again stays as it is (R141,
notes/assumptions/29.md). -/
def retryStep (s : State) (n : PlayerNo) : State :=
  match (s.player n).run with
  | .waitLock => if s.stepLocked n then s else (s.takeStep n).1
  | .idle => s
  | .running _ => s

/-- The claims an earlier run of another sequence left under HOLD are released over the held release time (R133). -/
def releaseHeld (s : State) (n : PlayerNo) (q : SequenceNo) : State :=
  match (s.player n).heldRelease with
  | none => s
  | some t => if (s.player n).sequence = some q then s else s.releaseAll (.seq n) t

/-- A start of player `n` on a defined sequence (R133). -/
def startRun (s : State) (n : PlayerNo) (q : SequenceNo) (mode : RunMode) (source : RunSource) :
    State × Option StepRefusal :=
  let t := s.releaseHeld n q
  let p := { t.player n with
    mode := mode.toPlayer, run := .idle, sequence := some q, step := 1, passes := 0, heldRelease := none }
  ((t.setPlayer n p).announceSeq n (.started source)).takeStep n

/-- A request writes its rate to the pending rate; rate 0 writes nothing (R131). -/
def writeRate (s : State) (n : PlayerNo) (rate : Nat) : State :=
  if rate = 0 then s else s.setPlayer n { s.player n with pendingRate := some rate }

/-- A mode written to a player that runs (R134). -/
def writePlayerMode (s : State) (n : PlayerNo) (mode : RunMode) : State :=
  s.setPlayer n { s.player n with mode := mode.toPlayer }

/-- A run request of SINGLE or LOOP on a defined sequence, its rate written (R133, R134, R136). -/
def runRequest (s : State) (n : PlayerNo) (q : SequenceNo) (mode : RunMode) (source : RunSource) :
    State × SequenceOutcome :=
  if (s.player n).mode = .off then
    let r := s.startRun n q mode source
    (r.1, startOutcome r.2)
  else if (s.player n).sequence = some q then (s.writePlayerMode n mode, .continued)
  else
    let r := (s.stopPlayer n source).startRun n q mode source
    (r.1, startOutcome r.2)

/-- A request of mode OFF (R135). -/
def offRequest (s : State) (n : PlayerNo) (source : RunSource) : State :=
  if (s.player n).mode = .off then s else s.stopPlayer n source

/-- The run ends at a pass end (R140): under HOLD the release time is kept for R133, under RELEASE the claims go. -/
def endRun (s : State) (n : PlayerNo) (q : SequenceDef) : State :=
  match q.endAction with
  | .hold =>
    ((s.idlePlayer n).setPlayer n
      { (s.idlePlayer n).player n with heldRelease := some q.releaseTime }).announceSeq n (.ended .hold)
  | .release => ((s.idlePlayer n).announceSeq n (.ended .release)).releaseAll (.seq n) q.releaseTime

/-- A new pass begins after the pass end (R140). -/
def passesOn (mode : PlayerMode) (limit passes : Nat) : Bool :=
  mode == .loop && (limit == 0 || decide (passes < limit))

/-- A pass ends (R140). -/
def endPass (s : State) (n : PlayerNo) (q : SequenceDef) : State :=
  let p := s.player n
  let t := (s.setPlayer n { p with passes := bump p.passes }).announceSeq n .passDone
  if passesOn p.mode q.passLimit (bump p.passes) then
    ((t.setPlayer n { t.player n with step := 1 }).takeStep n).1
  else t.endRun n q

/-- A wait has run out: the next step, or the pass end (R139). -/
def moveOn (s : State) (n : PlayerNo) : State :=
  match s.playerSequence n with
  | none => s
  | some q =>
    let p := s.player n
    if p.step < q.steps.length then ((s.setPlayer n { p with step := p.step + 1 }).takeStep n).1 else s.endPass n q

/-- The player record a reply carries (R132). -/
def playerReport (s : State) (n : PlayerNo) : PlayerReport :=
  let p := s.player n
  { mode := p.mode
    runState := match p.run with
      | .idle => .idle
      | .running _ => .running
      | .waitLock => .waitLock
    sequence := p.sequence
    step := p.step
    passes := p.passes
    rate := p.rate
    pendingRate := p.pendingRate
    waitRemaining := match p.run with
      | .running t => (t - s.now) / Config.tenth
      | .idle => 0
      | .waitLock => 0 }

end State
end Sys2Proof.Machine
end

