-- ==== Sys2Proof/Machine/Cue.lean ====
section
/-! DEFINITION. The Cue Lock Unit: the work of a field action (R95 to R98, R104), the deferred action queue (R122 to R124), replay (R125, R126), and the meanings of SLOT_EXPIRY and DEFERRED_ENTRY_EXPIRY (R118, R123). -/

namespace Sys2Proof.Machine

/-! ## What a field action does to claims -/

/-- The work of a field action once it is decided (R94): one placement or one release of owner FIELD. -/
inductive FieldWork where
  | place (items : List PlaceItem) (rank : Rank)
  | release (circuits : List Circuit) (time : Nat) (rank : Rank)
  deriving DecidableEq, Repr

/-- The circuits the work touches (R102). -/
def FieldWork.circuits : FieldWork → List Circuit
  | place items _ => items.map PlaceItem.circuit
  | release cs _ _ => cs

/-- One level on a list of circuits, with the key as cause key (R95). -/
def levelWork (k : KeyAddr) (cs : List Circuit) (level fade : Nat) (rank : Rank) : FieldWork :=
  .place (cs.map fun c => { circuit := c, target := level, fade := fade, rank := rank, cause := some k }) rank

/-- A placement of owner FIELD (R10). -/
def fieldPlacement (items : List PlaceItem) : Placement :=
  { owner := .field, items := items, wait := false, tracker := .untracked }

namespace State

/-- Some circuit of the list holds a FIELD claim with a target above 0 (R96). -/
def fieldAbove (s : State) (cs : List Circuit) : Bool :=
  cs.any fun c => (s.claims c).any fun x => x.owner == .field && decide (0 < x.target)

/-- The level a TOGGLE places: 0 as OFF, its own as ON (R96). -/
def toggleLevel (s : State) (cs : List Circuit) (level : Nat) : Nat := if s.fieldAbove cs then 0 else level

/-- The checks LOCKED and POOL_FULL of a field action; a release needs no record (R94). -/
def fieldRefusal (s : State) : FieldWork → Option PlaceRefusal
  | .place items rank => s.placeRefusal .field rank (items.map PlaceItem.circuit) true
  | .release cs _ rank => if s.locked .field rank cs then some .locked else none

/-- The work carried out (R95, R97, R98). -/
def doFieldWork (s : State) : FieldWork → State
  | .place items _ => s.place (fieldPlacement items)
  | .release cs time _ => s.release .field cs time

/-! ## The deferred action queue -/

/-- The queue accepts an entry (R122). -/
def acceptsDeferred (s : State) : Bool :=
  decide (s.deferred.length < Config.deferredSlots) && decide (0 < s.tables.settings.deferLimit)

/-- An accepted entry stands behind the newest; DEFER_WARNING is posted once as the queue reaches the warning level
(R122, R124). -/
def defer (s : State) (d : Deferred) : State :=
  let t := { s with deferred := s.deferred ++ [d] }
  if !t.deferWarned && decide (t.tables.settings.warningLevel ≤ t.deferred.length) then
    { t.announce (.deferWarning t.deferred.length t.tables.settings.warningLevel) with deferWarned := true }
  else t

/-- After a removal the warning flag is cleared where fewer entries than the warning level are left (R124), by the level as
it stands, also where it was written since the last accepted entry (notes/assumptions/39.md). -/
def afterRemoval (s : State) : State :=
  if s.deferred.length < s.tables.settings.warningLevel then { s with deferWarned := false } else s

/-! ## Replay -/

/-- The work of a deferred entry as it stands at replay (R104). -/
def deferredWork (s : State) (d : Deferred) : FieldWork :=
  match d.action with
  | .on cs level => levelWork d.key cs level d.fade d.rank
  | .off cs => levelWork d.key cs 0 d.fade d.rank
  | .toggle cs level => levelWork d.key cs (s.toggleLevel cs level) d.fade d.rank
  | .recall preset =>
    .place ((pairsOf (s.presetDef preset)).map fun x =>
      { circuit := x.1, target := x.2, fade := d.fade, rank := d.rank, cause := some d.key }) d.rank
  | .release cs => .release cs d.fade d.rank

/-- The gate holds the current mode (R92, R125). -/
def inGate (s : State) (gate : List HouseMode) : Bool :=
  match s.mode with
  | none => false
  | some m => gate.contains m

/-- The work of a replayed entry carried out (R104). It changes no slot (R126): what its promotions take from a slot's
tracker waits for the end of the replay (`settleSlots`). -/
def doReplayedWork (s : State) (w : FieldWork) : State :=
  { { s with slots := .const none }.doFieldWork w with slots := s.slots }

/-- One entry of the pass (R125): removed and counted, kept, or carried out. The entries kept so far stand in the
queue. -/
def replayEntry (s : State) (d : Deferred) : State :=
  if s.inGate d.gate then
    match s.fieldRefusal (s.deferredWork d) with
    | none => s.doReplayedWork (s.deferredWork d)
    | some .locked => { s with deferred := s.deferred ++ [d] }
    | some _ => s.countDropped
  else s.countExpired

/-- The pass over the queue, oldest first (R125). -/
def replayQueue (s : State) : State :=
  let t := s.deferred.foldl replayEntry { s with deferred := [] }
  if t.deferred.length < s.deferred.length then t.afterRemoval else t

/-- The players in WAIT_LOCK attempt their held steps, in ascending number (R141). -/
def retryPlayers (s : State) : State := (indices 4).foldl retryStep s

/-- The number of claims linked to the tracker of slot `n` (R47, R52). -/
def slotLinks (s : State) (n : SlotNo) : Nat :=
  ((indices 192).map fun c => ((s.claims c).filter fun x => x.tracker == some (.slot n)).length).sum

/-- The trackers of GOING slots fall by the links lost, and those at zero end their slots (R47, R117). -/
def settleSlots (s : State) (lost : SlotNo → Nat) : State :=
  { s with slots := .build fun n => (s.slot n).map (Slot.decrement (lost n)) }.endDoneSlots

/-- One replay taken whole (R125): the pass, which changes no slot (R126), and the players' attempts. The links that the
pass's promotions took from claims of a GO (R16) are then taken off their slots' trackers (notes/assumptions/17.md). -/
def takeReplay (s : State) : State :=
  let t := s.replayQueue
  t.retryPlayers.settleSlots fun n => s.slotLinks n - t.slotLinks n

/-- Replays while one is owed: a slot that ends in the taking of one asks for another (notes/assumptions/17.md). With four
slots at most four can follow one another. -/
def replayWithin : Nat → State → State
  | 0, s => { s with replayOwed := false }
  | n + 1, s => if s.replayOwed then replayWithin n { s with replayOwed := false }.takeReplay else s

/-- The replay that follows the slot ends of an event, if it had any (R116, R125). -/
def replay (s : State) : State := replayWithin 5 s

/-! ## Entries and slots that expire -/

/-- An entry's expiry has come. -/
def entryDue (s : State) (d : Deferred) : Bool := decide (d.expiry ≤ s.now)

/-- The oldest due entry leaves the queue and is counted (R123). -/
def expireEntry (s : State) : State :=
  if s.deferred.any s.entryDue then
    { s with deferred := s.deferred.eraseP s.entryDue }.countExpired.afterRemoval
  else s

/-- The slot's expiry has come (R118). -/
def slotDue (s : State) (n : SlotNo) : Bool := (s.slot n).any fun k => decide (k.expiry ≤ s.now)

end State

/-! ## Meanings -/

/-- DEFERRED_ENTRY_EXPIRY (R123). -/
def execDeferredEntryExpiry (s : State) : Host.Outcome State Fault Refusal := .next s.expireEntry

/-- SLOT_EXPIRY (R118). -/
def execSlotExpiry (n : SlotNo) (s : State) : Host.Outcome State Fault Refusal :=
  if s.slotDue n then .next (s.endSlot n .expired).replay else .next s

/-- WAIT_TIMER_EXPIRY (R139). -/
def execWaitTimerExpiry (n : PlayerNo) (s : State) : Host.Outcome State Fault Refusal :=
  match (s.player n).run with
  | .running t => if t ≤ s.now then .next (s.moveOn n).replay else .next s
  | .idle => .next s
  | .waitLock => .next s

end Sys2Proof.Machine
end

