-- ==== Sys2Proof/Machine/House.lean ====
section
/-! DEFINITION. The House Mode Unit: the mode change with its entry actions (R149 to R152), from whatever source. -/

namespace Sys2Proof.Machine

/-- ENTRY_FAILED is set when either outcome is BAD_TARGET or POOL_FULL (R152). -/
def entryFailed (preset : PresetOutcome) (sequence : SequenceOutcome) : Bool :=
  preset == .badTarget || preset == .poolFull || sequence == .badTarget || sequence == .poolFull

namespace State

/-- The record of mode `m` as it stands (R147). -/
def modeRecord (s : State) (m : HouseMode) : ModeRecord := s.tables.modes.get m.ix

/-- Stage 1 (R149): the new mode is in force, and leaving SHOW ends every slot (R119). -/
def enterMode (s : State) (m : HouseMode) : State :=
  let t := { s with mode := some m }
  if s.inShow && m != .inShow then t.endSlots (fun _ => true) .modeLeft else t

/-- The entry preset as one placement of MODE (R150). -/
def entryPlacement (r : ModeRecord) (d : PresetDef) : Placement :=
  { owner := .mode, items := recallItems d r.entryFade r.entryRank none, wait := false, tracker := .untracked }

/-- Stage 3 (R150): the entry preset is recalled as owner MODE, or refused. -/
def enterPreset (s : State) (r : ModeRecord) : State × PresetOutcome :=
  match r.entryPreset with
  | none => (s, .none)
  | some p =>
    match s.presetDef p with
    | none => (s, .badTarget)
    | some d =>
      match s.placeRefusal .mode r.entryRank (PresetDef.circuits d) false with
      | none => (s.place (entryPlacement r d), .placed)
      | some _ => (s.countPoolRefusal, .poolFull)

/-- Stage 4 (R151): the entry sequence is handed to its player with source MODE and no rate. -/
def enterSequence (s : State) (r : ModeRecord) : State × SequenceOutcome :=
  match r.entrySequence with
  | none => (s, .none)
  | some (.off n) => if (s.player n).mode = .off then (s, .unchanged) else (s.stopPlayer n .mode, .stopped)
  | some (.run n mode q) =>
    match s.sequenceDef q with
    | none => (s, .badTarget)
    | some _ => s.runRequest n q mode .mode

/-- A mode change, without the replay that follows it (R149); the outcomes are handed back. -/
def changeMode (s : State) (m : HouseMode) (source : ModeSource) : State × PresetOutcome × SequenceOutcome :=
  let r := s.modeRecord m
  let released := (s.enterMode m).releaseAll .mode r.entryFade
  let placed := released.enterPreset r
  let started := placed.1.enterSequence r
  (started.1.announce
      (.mode m s.mode source placed.2 started.2 (entryFailed placed.2 started.2)),
    placed.2, started.2)

/-- A request for mode `m` (R148, R106): no effect where it is the current mode. -/
def requestMode (s : State) (m : HouseMode) (source : ModeSource) : State × PresetOutcome × SequenceOutcome :=
  if s.mode = some m then (s, .none, .none) else s.changeMode m source

end State
end Sys2Proof.Machine
end

