-- ==== Sys2Proof/Machine/Emergency.lean ====
section
/-! DEFINITION. The Emergency Plane: contact readings and their debounce (R155), acceptance (R156, R159), entries and clears (R158, R160, R162), and the meanings of CONTACT_READING, DEBOUNCE_TIMER_EXPIRY and TRANSITION_END. -/

namespace Sys2Proof.Machine

/-- The plane after a new reading of the line (R155). -/
def EmergencyPlane.takeReading (x : EmergencyPlane) (now : Nat) (r : Contact) : EmergencyPlane :=
  let y := { x with line := r }
  if x.accepted = some r then { y with debounce := none }
  else
    match x.debounce with
    | none => { y with debounce := some (r, now + Config.debounceTime) }
    | some (candidate, t) =>
      if candidate.asserted = r.asserted then { y with debounce := some (r, t) }
      else { y with debounce := some (r, now + Config.debounceTime) }

namespace State

/-- The part runs: start-up has ended (R196). -/
def isRunning (s : State) : Bool :=
  match s.startup with
  | .running => true
  | .reading => false
  | .judging _ _ => false

/-- The circuits after an emergency entry (R158): EGRESS toward its emergency level, from its circuit level, on every
circuit that has one. -/
def egressCircuits (s : State) : Tab CircuitState 192 :=
  .build fun c =>
    match (s.record c).emergency with
    | none => s.circuit c
    | some v => (s.circuit c).startTransition .egress (some v) (s.level c) s.tables.settings.egressTime

/-- An emergency entry into `e` (R158, R162); reports of the recoveries it overtakes are ignored. -/
def enterEmergency (s : State) (e : EmergencyState) (cause : EmergencyCause) : State :=
  (({ s with circuits := s.egressCircuits }.setEmergency e []).countEntry).announceEmergency cause

/-- The emergency state takes an accepted contact state (R156, R158, R159): the state as it stands holds `after` as
accepted, and `changed` says whether that differs from what was accepted before. -/
def handContact (s : State) (after : Contact) (changed : Bool) : State :=
  match s.emergency.state, after.asserted with
  | .normal, true => s.enterEmergency .active .contact
  | .recovering, true => s.enterEmergency .active .contact
  | .active, false => (s.setEmergency .latched []).announceEmergency .contact
  | .latched, true => (s.setEmergency .active []).announceEmergency .contact
  | _, _ => if changed then s.announceEmergency .contact else s

/-- The candidate becomes the accepted contact state (R155); while STARTING nothing else happens (R156). -/
def acceptContact (s : State) (r : Contact) : State :=
  let t := { s with emergency := { s.emergency with accepted := some r, debounce := none } }
  if s.isRunning then t.handContact r (s.emergency.accepted != some r) else t

/-- The circuits after a clear (R160): RECOVERY from the circuit level on every circuit that was forced. -/
def recoveryCircuits (s : State) : Tab CircuitState 192 :=
  .build fun c =>
    if s.forced c then
      (s.circuit c).startTransition .recovery none (s.level c) s.tables.settings.recoveryTime
    else s.circuit c

/-- The circuits whose RECOVERY transition runs after a clear (R160); with recovery time 0 there is none. -/
def recoveryOf (s : State) : List Circuit :=
  if s.tables.settings.recoveryTime = 0 then [] else (indices 192).filter s.forced

/-- A clear that is taken (R160). -/
def clearForcing (s : State) (p : Port) : State :=
  let t := ({ s with circuits := s.recoveryCircuits }.setEmergency .recovering s.recoveryOf).announceEmergency (.port p)
  if s.recoveryOf.isEmpty then (t.setEmergency .normal []).announceEmergency .recoveryComplete else t

/-- The circuit's transition has reached its duration (R40). -/
def transitionDue (s : State) (c : Circuit) : Bool := (s.circuit c).transition.any Transition.due

/-- The transition of `c` ends; the end of a recovery is reported (R40, R161). -/
def endTransition (s : State) (c : Circuit) : State :=
  let t := s.onCircuit c fun x => { x with transition := none }
  if (s.circuit c).recovering then t.reportRecoveries [c] else t

/-- The fade of this owner's claim on this circuit has reached its duration: the number of its event (R34). -/
def fadeDue (s : State) (c : Circuit) (o : Owner) : Option Nat :=
  ((claimOf o (s.claims c)).bind Claim.fade).bind fun f => if f.due then some f.event else none

end State

/-! ## Meanings -/

/-- CONTACT_READING (R155). -/
def execContactReading (r : Contact) (s : State) : Host.Outcome State Fault Refusal :=
  .next { s with emergency := s.emergency.takeReading s.now r }

/-- DEBOUNCE_TIMER_EXPIRY (R156). -/
def execDebounceTimerExpiry (s : State) : Host.Outcome State Fault Refusal :=
  match s.emergency.debounce with
  | none => .next s
  | some (r, t) => if t ≤ s.now then .next (s.acceptContact r) else .next s

/-- TRANSITION_END (R40). -/
def execTransitionEnd (c : Circuit) (s : State) : Host.Outcome State Fault Refusal :=
  if s.transitionDue c then .next (s.endTransition c) else .next s

/-- FADE_COMPLETION (R34). -/
def execFadeCompletion (c : Circuit) (o : Owner) (s : State) : Host.Outcome State Fault Refusal :=
  match s.fadeDue c o with
  | none => .next s
  | some n => .next (s.completeFades n).replay

end Sys2Proof.Machine
end

