-- ==== Sys2Proof/Machine/Bindings.lean ====
section
/-! DEFINITION. The Binding Executor: taking an edge (R92), the ten field actions (R94 to R99, R105, R106), the raise bookkeeping and the stop of a raise (R100, R101), deferral (R102, R103). -/

namespace Sys2Proof.Machine

/-- What RAISE and LOWER aim at (R99). -/
inductive RaiseWay where
  | up | down
  deriving DecidableEq, Repr

/-- Target of RAISE and LOWER (R99). -/
def RaiseWay.target : RaiseWay → Nat
  | up => Config.levelTop
  | down => 0

/-- The fade time of one circuit of a RAISE or LOWER (R99): the distance times the raise time in tenths, divided by
1000. -/
def raiseFade (raiseTime target level : Nat) : Nat :=
  (if level ≤ target then target - level else level - target) * (raiseTime * 10) / 1000

namespace State

/-! ## Raise and lower -/

/-- A FIELD claim placed at rank `r` would be in command on `c` (R99): no EFFECTIVE claim of another owner stands above
it. -/
def raisable (s : State) (r : Rank) (c : Circuit) : Bool :=
  !(s.claims c).any fun x => x.isEffective && !(x.owner == .field) && decide (r < x.rank)

/-- One circuit of a RAISE or LOWER (R99). -/
def raiseItem (s : State) (k : KeyAddr) (way : RaiseWay) (r : Rank) (c : Circuit) : PlaceItem :=
  { circuit := c, target := way.target, rank := r, cause := some k,
    fade := raiseFade s.tables.settings.raiseTime way.target (s.level c) }

/-- The circuits among `cs` whose FIELD claim has a fade join the raise set of `k` (R100). -/
def joinRaise (s : State) (k : KeyAddr) (cs : List Circuit) : State :=
  { s with circuits := .build fun c =>
      if cs.contains c && ((claimOf .field (s.claims c)).bind Claim.fade).isSome then
        { s.circuit c with raisedBy := some k }
      else s.circuit c }

/-- The placement of a RAISE or LOWER on its selected circuits (R99). -/
def raiseOn (s : State) (k : KeyAddr) (way : RaiseWay) (r : Rank) (cs : List Circuit) : State :=
  (s.place (fieldPlacement (cs.map (s.raiseItem k way r)))).joinRaise k cs

/-- One circuit of the stop of a raise (R101): the FIELD claim to its current level, at its own rank and cause. -/
def stopItem (s : State) (c : Circuit) : Option PlaceItem :=
  (claimOf .field (s.claims c)).map fun x =>
    { circuit := c, target := x.level, fade := 0, rank := x.rank, cause := x.cause }

/-- The stop of the raise of key `k`, when its mark is set (R101). -/
def stopRaise (s : State) (k : KeyAddr) : State :=
  if (s.raiseSet k).isEmpty then s else s.place (fieldPlacement ((s.raiseSet k).filterMap s.stopItem))

/-! ## Outcomes of a field action -/

/-- A placement the pool cannot supply (R22, R94). -/
def dropForPool (s : State) (k : KeyAddr) (cs : List Circuit) : State :=
  ((s.countPoolRefusal).blink k).announce (.poolFull k (s.recordsNeeded .field cs) s.freeRecords)

/-- A locked action is handed to the deferred queue, or dropped where the queue refuses it (R102, R103). -/
def deferOrDrop (s : State) (d : Deferred) : State := if s.acceptsDeferred then s.defer d else s.countDropped.blink d.key

/-- The snapshot of a locked action (R102). -/
def snapshot (s : State) (b : Binding) (a : DeferredAction) (fade : Nat) (rank : Rank) : Deferred :=
  { key := b.key, action := a, fade := fade, rank := rank, gate := b.gate, arrival := s.now,
    expiry := s.now + s.tables.settings.deferLimit * Config.second }

/-- A field action of ON, OFF, TOGGLE, RECALL or RELEASE whose target is defined (R94). -/
def fieldAction (s : State) (w : FieldWork) (d : Deferred) : State :=
  match s.fieldRefusal w with
  | none => s.doFieldWork w
  | some .locked => s.deferOrDrop d
  | some _ => s.dropForPool d.key w.circuits

/-- RAISE or LOWER on a defined group (R99). -/
def raiseAction (s : State) (k : KeyAddr) (way : RaiseWay) (r : Rank) (group : List Circuit) : State :=
  let cs := group.filter (s.raisable r)
  if cs.isEmpty then s
  else
    match s.placeRefusal .field r cs true with
    | none => s.raiseOn k way r cs
    | some .locked => s.blink k
    | some _ => s.dropForPool k cs

/-- SEQ_RUN (R105): a refusal, that of step 1 included, blinks the key. -/
def seqRunAction (s : State) (k : KeyAddr) (n : PlayerNo) (q : SequenceNo) (mode : RunMode) : State :=
  match s.sequenceDef q with
  | none => s.blink k
  | some _ =>
    let r := s.runRequest n q mode (.key k)
    if r.2 = .badTarget ∨ r.2 = .poolFull then r.1.blink k else r.1

/-- One live entry carried out in full (R92), without the replay a slot end in it asks for. -/
def doBinding (s : State) (b : Binding) : State :=
  match b.action with
  | .on g level fade rank =>
    match s.members g with
    | none => s.blink b.key
    | some cs => s.fieldAction (levelWork b.key cs level fade rank) (s.snapshot b (.on cs level) fade rank)
  | .off g fade rank =>
    match s.members g with
    | none => s.blink b.key
    | some cs => s.fieldAction (levelWork b.key cs 0 fade rank) (s.snapshot b (.off cs) fade rank)
  | .toggle g level fade rank =>
    match s.members g with
    | none => s.blink b.key
    | some cs =>
      s.fieldAction (levelWork b.key cs (s.toggleLevel cs level) fade rank)
        (s.snapshot b (.toggle cs level) fade rank)
  | .raise g rank =>
    match s.members g with
    | none => s.blink b.key
    | some cs => s.raiseAction b.key .up rank cs
  | .lower g rank =>
    match s.members g with
    | none => s.blink b.key
    | some cs => s.raiseAction b.key .down rank cs
  | .recall preset fade rank =>
    match s.presetDef preset with
    | none => s.blink b.key
    | some d =>
      s.fieldAction (.place (recallItems d fade rank (some b.key)) rank) (s.snapshot b (.recall preset) fade rank)
  | .release g fade rank =>
    match s.members g with
    | none => s.blink b.key
    | some cs => s.fieldAction (.release cs fade rank) (s.snapshot b (.release cs) fade rank)
  | .seqRun n q mode => s.seqRunAction b.key n q mode
  | .seqStop n => s.offRequest n (.key b.key)
  | .setMode m => (s.requestMode m (.key b.key)).1

/-- One live entry with the replay that its slot ends ask for (R92, R116). -/
def carryOut (s : State) (b : Binding) : State := (s.doBinding b).replay

/-- The entries of the key and edge that are live in the mode as it stands (R92). -/
def liveEntries (s : State) (k : KeyAddr) (e : Edge) : List Binding :=
  (Tables.bindingsOf s.tables k e).filter fun b => s.inGate b.gate

/-- An edge of key `k`: its KEY notice (R79), the stop of a raise before a RELEASE's entries (R101), then the live
entries in table order (R92). -/
def takeEdge (s : State) (k : KeyAddr) (e : Edge) : State :=
  let told := s.announce (.key k e)
  let stopped := if e = .release then (told.stopRaise k).replay else told
  (s.liveEntries k e).foldl carryOut stopped

end State
end Sys2Proof.Machine
end

