-- ==== Sys2Proof/Machine/Loops.lean ====
section
/-! DEFINITION. The Field Loop Controller: exchanges (R68, R69), presence (R70 to R72), key changes (R75 to R78), chatter lockout (R80 to R82), and the meanings of POLL, REPORT and the loop and key timers. -/

namespace Sys2Proof.Machine

/-! ## One key -/

/-- The chatter window after an accepted change at `now` (R80). -/
def chatterWindow (window : Option (Nat × Nat)) (now : Nat) : Nat × Nat :=
  match window with
  | none => (now, 1)
  | some (start, count) => if start + Config.chatterTime ≤ now then (now, 1) else (start, count + 1)

/-- A key record as a lost station leaves it (R71): UP without edges, its window cleared unless it is locked out. -/
def KeyRecord.lose (r : KeyRecord) : KeyRecord :=
  { r with down := false, phase := .none, window := if r.lockout.isSome then r.window else none }

/-- A key record that takes a reported state as its baseline (R72). -/
def KeyRecord.baseline (r : KeyRecord) (down : Bool) : KeyRecord :=
  if r.lockout.isSome then { r with down := down } else { r with down := down, phase := .none }

/-- The exclusive-or of the bytes of a frame: the check byte of POLL and REPORT (R195). -/
def checkByte (bytes : List Byte) : Byte := bytes.foldl (· ^^^ ·) 0

/-- The type a REPORT's type byte names (R194). -/
def reportType (b : Byte) : Option StationType :=
  if b = 1 then some .keypad8 else if b = 2 then some .switch2 else none

/-- What arrived in a reply window, judged in the order of R69. -/
inductive ReportJudgement where
  | miss
  | mismatch
  | good (keys : Byte)
  deriving DecidableEq, Repr

/-- The judgement of the bytes against the type in the station table (R69, R194, R195). Bytes that are not four are a miss
at once: R194 calls a length wrong where the first byte is not 0xB3 or four bytes are not complete within the window, and
leaves open what follows four of a correct REPORT (notes/assumptions/42.md). -/
def judgeReport (type : Option StationType) (bytes : List Byte) : ReportJudgement :=
  match bytes with
  | [start, t, keys, check] =>
    if start = 0xB3 ∧ check = checkByte [start, t, keys] then
      if type.isSome && reportType t == type then .good keys else .mismatch
    else .miss
  | _ => .miss

/-- The keys a type has (R66). -/
def StationType.keyNos (t : StationType) : List KeyNo := (indices 8).filter fun k => decide (k.val < t.keys)

namespace State

/-- The keys that exist at a station, in ascending number. -/
def keysAt (s : State) (l : LoopNo) (n : StationNo) : List KeyAddr :=
  match s.stationType l n with
  | none => []
  | some t => (StationType.keyNos t).map fun k => { loop := l, station := n, key := k }

/-- The eleventh accepted change locks the key out (R81). -/
def lockOut (s : State) (k : KeyAddr) (down : Bool) : State :=
  let t := s.onKey k fun r =>
    { r with down := down, phase := .none, window := none, lockout := some (s.now + Config.lockoutTime) }
  (((t.stopRaise k).countLockout).announce (.keyLockout k .locked)).replay

/-- An accepted change that does not lock the key out: PRESS, or the edges of R78 by the phase before. -/
def acceptChange (s : State) (k : KeyAddr) (down : Bool) (window : Nat × Nat) : State :=
  if down then
    (s.onKey k fun r =>
      { r with down := true, phase := .pressed (s.now + s.tables.settings.holdTime * Config.milli),
               window := some window }).takeEdge k .press
  else
    let t := s.onKey k fun r => { r with down := false, phase := .none, window := some window }
    match (s.key k).phase with
    | .pressed _ => (t.takeEdge k .tap).takeEdge k .release
    | .held => t.takeEdge k .release
    | .none => t

/-- The reported state of key `k` is taken (R75): unchanged, recorded while locked out, or an accepted change. -/
def takeKey (s : State) (k : KeyAddr) (down : Bool) : State :=
  let r := s.key k
  if r.down = down then s
  else if r.lockout.isSome then
    s.onKey k fun r => { r with down := down, lockout := some (s.now + Config.lockoutTime) }
  else
    let w := chatterWindow r.window s.now
    if Config.chatterTop < w.2 then s.lockOut k down else s.acceptChange k down w

/-- The bit of a REPORT that tells the state of the key (R194). -/
def reported (keys : Byte) (k : KeyAddr) : Bool := keys.getLsbD k.key.val

/-- The key states of a good reply, in ascending key number (R75). -/
def takeKeys (s : State) (l : LoopNo) (n : StationNo) (keys : Byte) : State :=
  (s.keysAt l n).foldl (fun s k => s.takeKey k (reported keys k)) s

/-! ## Presence -/

/-- The station becomes ABSENT (R71). The raises of its keys are stopped one by one, in ascending key number
(notes/assumptions/36.md). -/
def loseStation (s : State) (l : LoopNo) (n : StationNo) : State :=
  let t := s.onStation l n fun x =>
    { x with presence := .absent, misses := 0, goods := 0, lost := true, keys := x.keys.each KeyRecord.lose }
  (((s.keysAt l n).foldl stopRaise t).announce (.station l n .absent)).replay

/-- The station becomes PRESENT with the reported states as the baseline of its keys (R72). -/
def regainStation (s : State) (l : LoopNo) (n : StationNo) (keys : Byte) : State :=
  let t := s.onStation l n fun x => { x with presence := .present, misses := 0, goods := 0 }
  ((s.keysAt l n).foldl (fun s k => s.onKey k fun r => r.baseline (reported keys k)) t).announce
    (.station l n .present)

/-- A good reply of the station (R70). -/
def goodReply (s : State) (l : LoopNo) (n : StationNo) (keys : Byte) : State :=
  match (s.station l n).presence with
  | .present => (s.onStation l n fun x => { x with misses := 0 }).takeKeys l n keys
  | .absent =>
    if (s.station l n).goods = 0 then s.onStation l n fun x => { x with goods := 1 }
    else s.regainStation l n keys

/-- A miss of the station (R69, R70). -/
def missReply (s : State) (l : LoopNo) (n : StationNo) : State :=
  let t := s.onLoop l fun x => { x with pollMisses := bump x.pollMisses }
  match (s.station l n).presence with
  | .present =>
    if (s.station l n).misses < 2 then t.onStation l n fun x => { x with misses := x.misses + 1 }
    else t.loseStation l n
  | .absent => t.onStation l n fun x => { x with goods := 0 }

/-! ## Exchanges -/

/-- The addresses configured on a loop, ascending. -/
def configured (s : State) (l : LoopNo) : List StationNo := (indices 16).filter fun n => (s.stationType l n).isSome

/-- The station the next POLL goes to (R68): the lowest configured address above the last polled, else the lowest. -/
def nextPolled (s : State) (l : LoopNo) : Option StationNo :=
  let all := s.configured l
  match (s.loop l).lastPolled with
  | none => all.head?
  | some m => (all.find? fun n => decide (m < n)) <|> all.head?

/-- The POLL of a station (R68): OFF for keys its type lacks (R194). -/
def pollFrame (s : State) (l : LoopNo) (n : StationNo) : PollFrame :=
  { station := n
    indicators := (indices 8).map fun k =>
      let a : KeyAddr := { loop := l, station := n, key := k }
      if s.keyExists a then s.indicator a else .off }

/-- A POLL is sent to station `n` and its reply window opens (R68, R69). -/
def sendPoll (s : State) (l : LoopNo) (n : StationNo) : State :=
  s.onLoop l fun x =>
    { x with exchange := some { station := n, windowEnd := s.now + Config.replyWindow, removed := false },
             lastPolled := some n, lastPoll := some (s.pollFrame l n) }

/-- The exchange on the loop closes. -/
def closeExchange (s : State) (l : LoopNo) : State := s.onLoop l fun x => { x with exchange := none }

/-- The outcome of an exchange whose station still stands (R69). -/
def takeReport (s : State) (l : LoopNo) (n : StationNo) (bytes : List Byte) : State :=
  match judgeReport (s.stationType l n) bytes with
  | .miss => s.missReply l n
  | .mismatch => (s.onLoop l fun x => { x with typeMismatches := bump x.typeMismatches }).missReply l n
  | .good keys => s.goodReply l n keys

/-- Hold, quiet and blink timers of a key that have run out. -/
def holdDue (s : State) (k : KeyAddr) : Bool :=
  s.keyExists k && (match (s.key k).phase with
    | .pressed t => decide (t ≤ s.now)
    | .held => false
    | .none => false)

/-- The quiet timer of `k` has run out (R82). -/
def quietDue (s : State) (k : KeyAddr) : Bool := s.keyExists k && (s.key k).lockout.any fun t => decide (t ≤ s.now)

/-- The refusal blink timer of `k` has run out (R84). -/
def blinkDue (s : State) (k : KeyAddr) : Bool := s.keyExists k && (s.key k).blinkEnd.any fun t => decide (t ≤ s.now)

end State

/-! ## Meanings -/

/-- POLL (R68). -/
def execPoll (l : LoopNo) (s : State) : Host.Outcome State Fault Refusal :=
  if s.isRunning && (s.loop l).exchange.isNone then
    match s.nextPolled l with
    | none => .next s
    | some n => .next (s.sendPoll l n)
  else .next s

/-- REPORT (R69): bytes outside a reply window, or of a station removed meanwhile (R68), are discarded. -/
def execReport (l : LoopNo) (bytes : List Byte) (s : State) : Host.Outcome State Fault Refusal :=
  match (s.loop l).exchange with
  | none => .next s
  | some x =>
    if x.removed then .next (s.closeExchange l)
    else .next ((s.closeExchange l).takeReport l x.station bytes)

/-- REPLY_WINDOW_EXPIRY (R69). -/
def execReplyWindowExpiry (l : LoopNo) (s : State) : Host.Outcome State Fault Refusal :=
  match (s.loop l).exchange with
  | none => .next s
  | some x =>
    if x.windowEnd ≤ s.now then
      if x.removed then .next (s.closeExchange l)
      else .next ((s.closeExchange l).missReply l x.station)
    else .next s

/-- HOLD_TIMER_EXPIRY (R77). -/
def execHoldTimerExpiry (k : KeyAddr) (s : State) : Host.Outcome State Fault Refusal :=
  if s.holdDue k then .next ((s.onKey k fun r => { r with phase := .held }).takeEdge k .hold) else .next s

/-- QUIET_TIMER_EXPIRY (R82). -/
def execQuietTimerExpiry (k : KeyAddr) (s : State) : Host.Outcome State Fault Refusal :=
  if s.quietDue k then
    .next ((s.onKey k fun r => { r with lockout := none, phase := .none, window := none }).announce
      (.keyLockout k .cleared))
  else .next s

/-- REFUSAL_BLINK_EXPIRY (R84). -/
def execRefusalBlinkExpiry (k : KeyAddr) (s : State) : Host.Outcome State Fault Refusal :=
  if s.blinkDue k then .next (s.onKey k fun r => { r with blinkEnd := none }) else .next s

end Sys2Proof.Machine
end

