-- ==== Sys2Proof/Machine/Outputs.lean ====
section
/-! DEFINITION. The Output Stage: relays (R169 to R172), the rack sample (R173), the PWM lines (R174 to R176), and the meanings of RACK_SAMPLE, DWELL_END and PWM_PERIOD_END. -/

namespace Sys2Proof.Machine

/-- The wish after the judgement of a level (R170). -/
def judgeWish (threshold hysteresis level : Nat) (wish : Bool) : Bool :=
  if threshold ≤ level then true else if level < threshold - hysteresis then false else wish

/-- The relay takes its wish at `now`, and the dwell end is set from the record's dwell (R169). -/
def Relay.change (r : Relay) (now dwell : Nat) : Relay :=
  { r with on := r.wish, dwellEnd := if dwell = 0 then none else some (now + dwell * Config.tenth) }

/-- A dwell runs at `now`: its end stands and has not passed (R170, R171). -/
def Relay.dwelling (r : Relay) (now : Nat) : Bool := r.dwellEnd.any fun t => decide (now ≤ t)

/-- A sample acts on the wish it judged (R170). -/
def Relay.act (r : Relay) (now dwell : Nat) : Relay :=
  if r.wish != r.on && !r.dwelling now then r.change now dwell else r

/-- The relay of a circuit after a sample at `level` (R170); a DIMMED circuit is not judged (R169). -/
def Relay.sample (r : Relay) (kind : CircuitKind) (now level : Nat) : Relay :=
  match kind with
  | .dimmed _ _ _ => r
  | .switched threshold hysteresis dwell =>
    { r with wish := judgeWish threshold hysteresis level r.wish }.act now dwell

/-- The relay after its dwell end (R171). -/
def Relay.endDwell (r : Relay) (kind : CircuitKind) (now : Nat) : Relay :=
  let y := { r with dwellEnd := none }
  match kind with
  | .dimmed _ _ _ => y
  | .switched _ _ dwell => if y.wish != y.on then y.change now dwell else y

/-- The line record with its pending fields in force (R175). -/
def PwmLine.takePending (x : PwmLine) : PwmLine :=
  { x with period := x.pendingPeriod.getD x.period, pendingPeriod := none,
           polarity := x.pendingPolarity.getD x.polarity, pendingPolarity := none }

/-- The line begins its next period at `start` with the duty of `output`, in µs (R175). -/
def PwmLine.begin (x : PwmLine) (start output : Nat) : PwmLine :=
  { x with drive := .running start, duty := output * x.period / 1000 }

namespace State

/-- Every SWITCHED circuit's wish is judged and acted on (R170). -/
def sampleRelays (s : State) : State :=
  { s with circuits := .build fun c =>
      { s.circuit c with relay := (s.circuit c).relay.sample (s.record c).kind s.now (s.level c) } }

/-- The slot of circuit `c` in a rack frame (R173). -/
def rackSlot (s : State) (c : Circuit) : Nat :=
  match (s.record c).route with
  | .link => s.output c
  | .pwm _ => 0
  | .unrouted => 0

/-- The frame of a sample, once it has acted on the relays (R173). -/
def sendRackFrame (s : State) : State :=
  { s with rackFrame := some { count := s.frameCount, slots := (indices 192).map s.rackSlot },
           frameCount := s.frameCount + 1 }

/-- The output that the circuit of line `n` gives it; 0 for an unassigned line (R175). -/
def lineOutput (s : State) (n : LineNo) : Nat :=
  match s.lineCircuit n with
  | none => 0
  | some c => s.output c

/-- The end of a line's period that began at `start` (R175): the periods follow one another without a gap. -/
def endPeriod (s : State) (n : LineNo) (start : Nat) : State :=
  s.onLine n fun x => x.takePending.begin (start + x.period) (s.lineOutput n)

end State

/-! ## Meanings -/

/-- RACK_SAMPLE (R173). -/
def execRackSample (s : State) : Host.Outcome State Fault Refusal :=
  match s.rackDue with
  | none => .next s
  | some t =>
    if t ≤ s.now then .next { s.sampleRelays.sendRackFrame with rackDue := some (t + Config.rackPeriod) }
    else .next s

/-- DWELL_END (R171). -/
def execDwellEnd (c : Circuit) (s : State) : Host.Outcome State Fault Refusal :=
  match (s.circuit c).relay.dwellEnd with
  | none => .next s
  | some t =>
    if t ≤ s.now then
      .next (s.onCircuit c fun x => { x with relay := x.relay.endDwell (s.record c).kind s.now })
    else .next s

/-- PWM_PERIOD_END (R175). -/
def execPwmPeriodEnd (n : LineNo) (s : State) : Host.Outcome State Fault Refusal :=
  match (s.lines.get n).drive with
  | .heldLow => .next s
  | .heldInactive => .next s
  | .running start => if start + (s.lines.get n).period ≤ s.now then .next (s.endPeriod n start) else .next s

end Sys2Proof.Machine
end

