-- ==== Sys2Proof/Machine/Ports.lean ====
section
/-! DEFINITION. The Master Port Unit: how a frame is taken as a request and answered (R180, R183, R185, R188), and the meanings of PING, of the notice and counter requests, of frames that are no request, and of the port timers (R180 to R182). -/

namespace Sys2Proof.Machine

/-! ## Taking a request -/

/-- What the owning block answers: the state it left, the reply status, and the reply payload, formed from the state as
the whole request leaves it (R185). -/
structure Answer where
  state : State
  status : Status
  body : State → ReplyBody

/-- A refusal, or a reply without payload. -/
def Answer.plain (s : State) (status : Status) : Answer := { state := s, status := status, body := fun _ => .empty }

/-- A reply OK with the given payload. -/
def Answer.ok (s : State) (body : ReplyBody) : Answer := { state := s, status := .ok, body := fun _ => body }

/-- Whether a frame has been answered or ignored, or is taken as a request with these fields (R180, R185). -/
inductive Admission (α : Type) where
  | done (s : State)
  | taken (s : State) (fields : α)

namespace State

/-- A reply on port `p` (R188): kind and tag echoed, and the header as the request has left the part. -/
def respond (s : State) (p : Port) (kind tag : Byte) (status : Status) (body : ReplyBody) : State :=
  s.onPort p fun x =>
    let reply : Reply :=
      { kind := kind, tag := tag, status := status, waiting := x.queue.length, mode := s.mode,
        emergency := s.emergency.state, body := body }
    { x with lastReply := some reply }

/-- The port is ONLINE with its lease started anew, and its orphan hold is cancelled (R180, R182). -/
def refreshLease (s : State) (p : Port) : State :=
  s.onPort p fun x =>
    { x with link := .online (s.now + (s.role p).lease * Config.second), orphanEnd := none }

/-- A BUSY reply (R185). -/
def answerBusy (s : State) (p : Port) (kind tag : Byte) : State :=
  (s.onPort p fun x => { x with busyReplies := bump x.busyReplies }).respond p kind tag .busy .empty

/-- The port is LOST (R180). -/
def isLost (s : State) (p : Port) : Bool :=
  match (s.port p).link with
  | .lost _ => true
  | .offline => false
  | .online _ => false

/-- The judgements on a valid frame of a running part, the lease being restarted (R185). -/
def judgeRequest {α : Type} (s : State) (p : Port) (kind tag : Byte) (payload : Payload α) (formed : α → Bool) :
    Admission α :=
  if s.busy p then .done (s.answerBusy p kind tag)
  else
    match payload with
    | .malformed => .done (s.respond p kind tag .badRequest .empty)
    | .fields f => if formed f then .taken s f else .done (s.respond p kind tag .badRequest .empty)

/-- A valid frame on port `p` (R180, R183, R185): no frame is taken before the image, NOT_READY answers it until start-up
ends, and a LOST port ignores it. -/
def receive {α : Type} (s : State) (p : Port) (kind tag : Byte) (payload : Payload α) (formed : α → Bool) :
    Admission α :=
  match s.startup with
  | .reading => .done s
  | .judging _ _ => .done (s.respond p kind tag .notReady .empty)
  | .running =>
    if s.isLost p then .done s else (s.refreshLease p).judgeRequest p kind tag payload formed

end State

/-- The reply of an answer, after the replay its slot ends ask for (R116, R185). -/
def Answer.reply (a : Answer) (p : Port) (kind tag : Byte) : State :=
  a.state.replay.respond p kind tag a.status (a.body a.state.replay)

/-- A request of port `p` with kind code `kind`: admitted, served by its owning block and answered (R185). -/
def serve {α : Type} (s : State) (p : Port) (kind tag : Byte) (payload : Payload α) (formed : α → Bool)
    (answer : State → α → Answer) : State :=
  match s.receive p kind tag payload formed with
  | .done t => t
  | .taken t f => (answer t f).reply p kind tag

/-! ## Orphan hold and link loss -/

namespace State

/-- The orphan release of port `p` with its notice (R182), and the replay of slot ends it causes. -/
def orphanRelease (s : State) (p : Port) : State :=
  let n := (s.circuitsOf (.port p)).length
  let t := s.onPort p fun x => { x with orphanEnd := none }
  ((t.releaseAll (.port p) (s.role p).orphanRelease).announce (.orphansReleased p n)).replay

/-- The port leaves ONLINE (R181, steps 1 to 3). -/
def losePort (s : State) (p : Port) : State :=
  s.onPort p fun x =>
    { x with link := .lost (s.now + Config.quietTime), leaseLosses := bump x.leaseLosses, queue := [],
             overflow := false, subscriptions := [] }

/-- The reply of a save the port still waits for will not be sent (R181). -/
def forgoReply (s : State) (p : Port) : State :=
  { s with save := s.save.map fun x => if x.port = p then { x with replyOwed := false } else x }

/-- The slots of port `p` end with its link (R120). -/
def loseSlots (s : State) (p : Port) : State := (s.endSlots (fun k => k.owner == p) .ownerLost).replay

/-- The orphan hold starts, or with 0 s the orphan release is taken (R181, step 7). -/
def startOrphanHold (s : State) (p : Port) : State :=
  if (s.role p).orphanHold = 0 then s.orphanRelease p
  else s.onPort p fun x => { x with orphanEnd := some (s.now + (s.role p).orphanHold * Config.second) }

/-- The lease-expiry event (R181), step by step. -/
def loseLease (s : State) (p : Port) : State :=
  ((((s.losePort p).forgoReply p).dropTrackers p).loseSlots p
    |>.onPort p fun x => { x with edit := none }).startOrphanHold p

/-- The lease of port `p` has run out. -/
def leaseDue (s : State) (p : Port) : Bool :=
  match (s.port p).link with
  | .online t => decide (t ≤ s.now)
  | .offline => false
  | .lost _ => false

/-- The LOST timer of port `p` has run out. -/
def lostDue (s : State) (p : Port) : Bool :=
  match (s.port p).link with
  | .lost t => decide (t ≤ s.now)
  | .offline => false
  | .online _ => false

/-- The orphan hold of port `p` has run out. -/
def orphanDue (s : State) (p : Port) : Bool := (s.port p).orphanEnd.any fun t => decide (t ≤ s.now)

/-- The port passes from LOST to OFFLINE, and the link rate of its role takes force (R180, R186). -/
def endLost (s : State) (p : Port) : State :=
  s.onPort p fun x => { x with link := .offline, linkRate := (s.role p).linkRate }

/-! ## Notices and counters read -/

/-- Takes `n` notices from the front of the queue and clears the overflow flag (R191). -/
def takeNotices (s : State) (p : Port) (n : Nat) : State :=
  s.onPort p fun x => { x with queue := x.queue.drop n, overflow := false }

/-- The 29 counters in the order of R193. -/
def counterValues (s : State) : List Nat :=
  (Port.all.flatMap fun p =>
    [(s.port p).badFrames, (s.port p).busyReplies, (s.port p).leaseLosses, (s.port p).noticesDropped])
  ++ ((indices 4).flatMap fun l => [(s.loop l).pollMisses, (s.loop l).typeMismatches])
  ++ [s.counters.keyLockouts, s.counters.deferredDropped, s.counters.deferredExpired, s.counters.poolRefusals,
      s.counters.emergencyEntries]

/-- All counters cleared (R193). -/
def clearCounters (s : State) : State :=
  { s with
    ports := s.ports.each fun x =>
      { x with badFrames := 0, busyReplies := 0, leaseLosses := 0, noticesDropped := 0 }
    loops := s.loops.each fun x => { x with pollMisses := 0, typeMismatches := 0 }
    counters := .zero }

end State

/-- The subscription set a payload's bit field gives, personal kinds left out (R192, R194). -/
def subscriptionSet (bits : BitVec 16) : List NoticeKind :=
  (namesOf NoticeKind.all bits.toNat).filter fun k => !k.personal

/-! ## Meanings -/

/-- BAD_FRAME (R184): counted once the image has been taken (R183). -/
def execBadFrame (p : Port) (_cause : FrameFault) (s : State) : Host.Outcome State Fault Refusal :=
  match s.startup with
  | .reading => .next s
  | .judging _ _ => .next (s.onPort p fun x => { x with badFrames := bump x.badFrames })
  | .running => .next (s.onPort p fun x => { x with badFrames := bump x.badFrames })

/-- LOST_FRAME_IGNORED (R180): a valid frame on a LOST port has no effect. -/
def execLostFrameIgnored (_p : Port) (s : State) : Host.Outcome State Fault Refusal := .next s

/-- UNKNOWN_REQUEST_KIND (R185). -/
def execUnknownRequestKind (p : Port) (kind tag : Byte) (s : State) : Host.Outcome State Fault Refusal :=
  .next (serve s p kind tag (.malformed : Payload Unit) (fun _ => true) fun t _ => .plain t .badRequest)

/-- PING (R188). -/
def execPing (p : Port) (tag : Byte) (payload : Payload Unit) (s : State) : Host.Outcome State Fault Refusal :=
  .next (serve s p 0x01 tag payload (fun _ => true) fun t _ =>
    .ok t (.ping Config.partCode Config.revision t.configState))

/-- READ_NOTICES (R191). -/
def execReadNotices (p : Port) (tag : Byte) (payload : Payload Nat) (s : State) : Host.Outcome State Fault Refusal :=
  .next (serve s p 0x32 tag payload (fun n => decide (1 ≤ n ∧ n ≤ 8)) fun t n =>
    .ok (t.takeNotices p n) (.notices (t.port p).overflow ((t.port p).queue.take n)))

/-- SUBSCRIBE (R192). -/
def execSubscribe (p : Port) (tag : Byte) (payload : Payload (BitVec 16)) (s : State) :
    Host.Outcome State Fault Refusal :=
  .next (serve s p 0x33 tag payload (fun _ => true) fun t bits =>
    .ok (t.onPort p fun x => { x with subscriptions := subscriptionSet bits })
      (.subscriptions (subscriptionSet bits)))

/-- READ_COUNTERS (R193). -/
def execReadCounters (p : Port) (tag : Byte) (payload : Payload Unit) (s : State) :
    Host.Outcome State Fault Refusal :=
  .next (serve s p 0x34 tag payload (fun _ => true) fun t _ => .ok t.clearCounters (.counters t.counterValues))

/-- LEASE_EXPIRY (R181). -/
def execLeaseExpiry (p : Port) (s : State) : Host.Outcome State Fault Refusal :=
  if s.leaseDue p then .next (s.loseLease p) else .next s

/-- LOST_TIMER_EXPIRY (R180). -/
def execLostTimerExpiry (p : Port) (s : State) : Host.Outcome State Fault Refusal :=
  if s.lostDue p then .next (s.endLost p) else .next s

/-- ORPHAN_HOLD_EXPIRY (R182). -/
def execOrphanHoldExpiry (p : Port) (s : State) : Host.Outcome State Fault Refusal :=
  if s.orphanDue p then .next (s.orphanRelease p) else .next s

end Sys2Proof.Machine
end

