-- ==== Sys2Proof/Machine/Requests.lean ====
section
/-! DEFINITION. The requests that place and release claims, declare and run cues, set the mode and the players, act on the emergency, and query circuits and stations: the meanings of PLACE to QUERY_STATION (R187, codes 0x10 to 0x31). -/

namespace Sys2Proof.Machine

/-! ## PLACE, RELEASE, RECALL -/

/-- What a PLACE or RECALL places once it is expanded (R10): its items, its rank and its WAIT flag. -/
structure PortWork where
  items : List PlaceItem
  rank : Nat
  wait : Bool
  deriving DecidableEq, Repr

/-- The rank of a request that passes the check of R11 against the role's maximum; a rank above 7 never does. -/
def rankOf (n : Nat) : Rank := (codeOf 8 n).getD 0

namespace State

/-- A PLACE expanded (R10, R62); none is BAD_TARGET. -/
def placeWork (s : State) (f : PlaceFields) : Option PortWork :=
  (s.expand f.target).map fun cs =>
    { items := cs.map fun c =>
        { circuit := c, target := f.level, fade := f.fade, rank := rankOf f.rank, cause := none }
      rank := f.rank
      wait := f.wait }

/-- A RECALL expanded, with the preset's default fade where it gives none (R62, R64); none is BAD_TARGET. -/
def recallWork (s : State) (f : RecallFields) : Option PortWork :=
  (s.presetNumbered f.preset).map fun d =>
    { items := recallItems d (f.fade.getD d.defaultFade) (rankOf f.rank) none
      rank := f.rank
      wait := false }

/-- The cue of a GO expanded (R62, R113). -/
def cueWork (s : State) : Cue → Option PortWork
  | .place f => s.placeWork f
  | .recall f => s.recallWork f

/-- The checks of a port's placement, in the order of R11. -/
def portRefusal (s : State) (p : Port) (w : PortWork) : Option PlaceRefusal :=
  let cs := w.items.map PlaceItem.circuit
  if !(cs.all (s.mayReach p)) || decide ((s.role p).maxRank.val < w.rank) then some .denied
  else s.placeRefusal (.port p) (rankOf w.rank) cs true

/-- The refusal of a port's placement, POOL_FULL being counted (R22). -/
def refusePlacement (s : State) (r : PlaceRefusal) : Answer :=
  .plain (if r = .poolFull then s.countPoolRefusal else s) (PlaceRefusal.status r)

/-- The placement of a port's work with a tracker (R10). -/
def portPlacement (p : Port) (w : PortWork) (tracker : TrackerUse) : Placement :=
  { owner := .port p, items := w.items, wait := w.wait, tracker := tracker }

/-- The tracker a PLACE or RECALL obtains, and its status (R46). -/
def obtainTracker (s : State) (p : Port) (tag : Byte) : TrackerUse × Status :=
  if tag = 0 then (.untracked, .ok)
  else
    match s.trackerFor p with
    | some id => (.pool id p tag, .ok)
    | none => (.untracked, .okUntracked)

/-- A PLACE or RECALL of port `p` (R11, R17, R46). -/
def answerPlacement (s : State) (p : Port) (tag : Byte) (work : Option PortWork) : Answer :=
  match work with
  | none => .plain s .badTarget
  | some w =>
    match s.portRefusal p w with
    | some r => s.refusePlacement r
    | none =>
      .plain (s.place (portPlacement p w (s.obtainTracker p tag).1)) (s.obtainTracker p tag).2

/-- A RELEASE of port `p` (R19, R20), checked only for BAD_TARGET. -/
def answerRelease (s : State) (p : Port) (f : ReleaseFields) : Answer :=
  match s.expand f.target with
  | none => .plain s .badTarget
  | some cs => .plain (s.release (.port p) cs f.time) .ok

/-! ## STANDBY, GO, CANCEL -/

/-- The lowest-numbered FREE slot (R112). -/
def freeSlot (s : State) : Option SlotNo := (indices 4).find? fun n => (s.slot n).isNone

/-- A slot armed (R112). -/
def armSlot (s : State) (n : SlotNo) (p : Port) (cs : List Circuit) (rank : Rank) (timeout : Nat) : State :=
  s.setSlot n (some
    { phase := .armed, owner := p, locked := cs, lockRank := rank, timeout := timeout,
      expiry := s.now + timeout * Config.second })

/-- STANDBY, in the order of its checks (R112). -/
def answerStandby (s : State) (p : Port) (group rank timeout : Nat) : Answer :=
  if !s.permits p .cue then .plain s .denied
  else
    match s.group group with
    | none => .plain s .badTarget
    | some cs =>
      if decide ((s.role p).maxRank.val < rank) || !(cs.all (s.mayReach p)) then .plain s .denied
      else if !s.inShow then .plain s .wrongState
      else
        match s.freeSlot with
        | none => .plain s .noSlot
        | some n => .ok (s.armSlot n p cs (rankOf rank) timeout) (.slot n)

/-- The slot's expiry starts anew at the GO (R113). -/
def restartExpiry (s : State) (n : SlotNo) : State :=
  s.setSlot n ((s.slot n).map fun k => { k with expiry := s.now + k.timeout * Config.second })

/-- A cue submitted as a placement of the slot's owner (R113, R114). -/
def submitCue (s : State) (p : Port) (n : SlotNo) (cue : Cue) : Answer :=
  match s.cueWork cue with
  | none => .plain s .badTarget
  | some w =>
    match s.portRefusal p w with
    | some r => s.refusePlacement r
    | none => .plain ((s.restartExpiry n).place (portPlacement p w (.slot n))) .ok

/-- GO, in the order of its checks (R113). -/
def answerGo (s : State) (p : Port) (number : Nat) (cue : Cue) : Answer :=
  match indexOf 4 number with
  | none => .plain s .badTarget
  | some n =>
    match s.slot n with
    | none => .plain s .wrongState
    | some k =>
      match k.phase with
      | .going _ => .plain s .wrongState
      | .armed => if k.owner = p then s.submitCue p n cue else .plain s .denied

/-- CANCEL, in the order of its checks (R115). -/
def answerCancel (s : State) (p : Port) (number : Nat) : Answer :=
  match indexOf 4 number with
  | none => .plain s .badTarget
  | some n =>
    match s.slot n with
    | none => .plain s .wrongState
    | some k => if k.owner = p then .plain (s.endSlot n .cancelled) .ok else .plain s .denied

/-! ## SET_MODE and the players -/

/-- SET_MODE of a known mode (R148). -/
def answerSetMode (s : State) (p : Port) (m : HouseMode) : Answer :=
  if s.permits p .mode then
    let r := s.requestMode m (.port p)
    .ok r.1 (.modeEntry m r.2.1 r.2.2)
  else .plain s .denied

/-- A reply with the player record as it stands after the request (R132). -/
def answerPlayer (t : State) (n : PlayerNo) (status : Status) : Answer :=
  { state := t, status := status, body := fun u => .player (u.playerReport n) }

/-- The checks BAD_TARGET and DENIED of a run of sequence `q` (R132). -/
def runRefusal (s : State) (p : Port) (q : SequenceNo) : Option Status :=
  match s.sequenceDef q with
  | none => some .badTarget
  | some d => if (s.role p).maxRank < d.rank then some .denied else none

/-- The reply status of a run's outcome: the refusal of step 1, or OK (R142). -/
def runStatus : SequenceOutcome → Status
  | .badTarget => .badTarget
  | .poolFull => .poolFull
  | .none | .started | .continued | .stopped | .unchanged => .ok

/-- RUN_SEQUENCE (R132). -/
def answerRun (s : State) (p : Port) (n : PlayerNo) (q : SequenceNo) (mode : PlayerMode) (rate : Nat) : Answer :=
  match mode.run with
  | none => answerPlayer ((s.writeRate n rate).offRequest n (.port p)) n .ok
  | some m =>
    match s.runRefusal p q with
    | some status => answerPlayer s n status
    | none =>
      let r := (s.writeRate n rate).runRequest n q m (.port p)
      answerPlayer r.1 n (runStatus r.2)

/-- A set request of SINGLE or LOOP on a player that is OFF (R134, R137). -/
def answerRestart (s : State) (p : Port) (n : PlayerNo) (m : RunMode) (rate : Nat) : Answer :=
  match (s.player n).sequence with
  | none => answerPlayer s n .wrongState
  | some q =>
    match s.runRefusal p q with
    | some status => answerPlayer s n status
    | none =>
      let r := (s.writeRate n rate).runRequest n q m (.port p)
      answerPlayer r.1 n (runStatus r.2)

/-- SET_PLAYER (R134, R135, R137). -/
def answerSet (s : State) (p : Port) (n : PlayerNo) (mode : PlayerMode) (rate : Nat) : Answer :=
  match mode.run with
  | none => answerPlayer ((s.writeRate n rate).offRequest n (.port p)) n .ok
  | some m =>
    if (s.player n).mode = .off then s.answerRestart p n m rate
    else answerPlayer ((s.writeRate n rate).writePlayerMode n m) n .ok

/-! ## The emergency -/

/-- EMERGENCY_ON (R158). -/
def answerEmergencyOn (s : State) (p : Port) : Answer :=
  if s.permits p .safety then
    if s.emergency.state.forces then .plain s .ok else .plain (s.enterEmergency .latched (.port p)) .ok
  else .plain s .denied

/-- CLEAR_EMERGENCY (R160). -/
def answerClear (s : State) (p : Port) : Answer :=
  if s.permits p .safety then
    match s.emergency.state with
    | .active => .plain s .contactActive
    | .normal => .plain s .wrongState
    | .recovering => .plain s .wrongState
    | .latched => .plain (s.clearForcing p) .ok
  else .plain s .denied

/-! ## QUERY_CIRCUIT and QUERY_STATION -/

/-- One claim of the report (R27). -/
def claimReport (s : State) (c : Circuit) (x : Claim) : ClaimReport :=
  { owner := x.owner
    rank := x.rank
    waiting := !x.isEffective
    target := x.target
    level := x.level
    remaining := match x.state with
      | .waiting held => held
      | .effective (some f) => f.duration - f.elapsed
      | .effective none => 0
    inCommand := s.inCommand c x.owner
    orphaned := s.orphaned x.owner
    tracked := x.tracker.isSome }

/-- The line fields of the report (R177). -/
def lineReport (s : State) (n : LineNo) : LineReport :=
  let x := s.lines.get n
  { period := x.period, polarity := x.polarity, duty := x.duty,
    pending := x.pendingPeriod.isSome || x.pendingPolarity.isSome }

/-- The relay fields of the report (R177). -/
def relayReport (s : State) (c : Circuit) : RelayReport :=
  let r := (s.circuit c).relay
  { relay := r.on, wish := r.wish, dwellRemaining := (r.dwellEnd.getD s.now - s.now) / Config.tenth }

/-- The report of circuit `c` (R27, R43, R177). -/
def circuitReport (s : State) (c : Circuit) : CircuitReport :=
  { claims := (s.claims c).map (s.claimReport c)
    commandLevel := s.commandLevel c
    freeRecords := s.freeRecords
    level := s.level c
    forced := s.forced c
    transition := (s.circuit c).transition.map fun t =>
      { cause := t.cause, fixed := t.fixed, start := t.start, duration := t.duration,
        remaining := t.duration - t.elapsed }
    switched := (s.record c).kind.isSwitched
    route := (s.record c).route
    output := s.output c
    relay := if (s.record c).kind.isSwitched then some (s.relayReport c) else none
    line := match (s.record c).route with
      | .pwm n => some (s.lineReport n)
      | .link => none
      | .unrouted => none }

/-- QUERY_CIRCUIT (R27). -/
def answerQueryCircuit (s : State) (number : Nat) : Answer :=
  match indexOf 192 number with
  | none => .plain s .badTarget
  | some c => .ok s (.circuit (s.circuitReport c))

/-- The report of a configured station (R73). -/
def stationReport (s : State) (l : LoopNo) (n : StationNo) (type : StationType) : StationReport :=
  { type := type
    presence := (s.station l n).presence
    lost := (s.station l n).lost
    keys := (s.keysAt l n).map fun k =>
      { down := (s.key k).down, lockedOut := (s.key k).lockout.isSome, indicator := s.indicator k } }

/-- QUERY_STATION (R73): the lost-since-read flag is cleared as part of it. -/
def answerQueryStation (s : State) (loop address : Nat) : Answer :=
  match indexOf 4 loop, indexOf 16 address with
  | some l, some n =>
    match s.stationType l n with
    | none => .plain s .badTarget
    | some type => .ok (s.onStation l n fun x => { x with lost := false }) (.station (s.stationReport l n type))
  | _, _ => .plain s .badTarget

end State

/-! ## Meanings -/

/-- PLACE (R10). -/
def execPlace (p : Port) (tag : Byte) (payload : Payload PlaceFields) (s : State) :
    Host.Outcome State Fault Refusal :=
  .next (serve s p 0x10 tag payload PlaceFields.formed fun t f => t.answerPlacement p tag (t.placeWork f))

/-- RELEASE (R20). -/
def execRelease (p : Port) (tag : Byte) (payload : Payload ReleaseFields) (s : State) :
    Host.Outcome State Fault Refusal :=
  .next (serve s p 0x11 tag payload ReleaseFields.formed fun t f => t.answerRelease p f)

/-- RECALL (R64). -/
def execRecall (p : Port) (tag : Byte) (payload : Payload RecallFields) (s : State) :
    Host.Outcome State Fault Refusal :=
  .next (serve s p 0x12 tag payload RecallFields.formed fun t f => t.answerPlacement p tag (t.recallWork f))

/-- SET_MODE (R148): a mode that is not one of the five is malformed. -/
def execSetMode (p : Port) (tag : Byte) (payload : Payload Nat) (s : State) : Host.Outcome State Fault Refusal :=
  .next (serve s p 0x20 tag payload (fun n => (HouseMode.ofCode n).isSome) fun t n =>
    match HouseMode.ofCode n with
    | none => .plain t .badRequest
    | some m => t.answerSetMode p m)

/-- STANDBY (R112): lock rank 1 to 7 and timeout 1 to 600 s, else malformed. -/
def execStandby (p : Port) (tag : Byte) (payload : Payload (Nat × Nat × Nat)) (s : State) :
    Host.Outcome State Fault Refusal :=
  .next (serve s p 0x21 tag payload
    (fun f => decide (1 ≤ f.2.1 ∧ f.2.1 ≤ 7 ∧ 1 ≤ f.2.2 ∧ f.2.2 ≤ 600))
    fun t f => t.answerStandby p f.1 f.2.1 f.2.2)

/-- GO (R113). -/
def execGo (p : Port) (tag : Byte) (payload : Payload (Nat × Cue)) (s : State) : Host.Outcome State Fault Refusal :=
  .next (serve s p 0x22 tag payload (fun f => Cue.formed f.2) fun t f => t.answerGo p f.1 f.2)

/-- CANCEL (R115). -/
def execCancel (p : Port) (tag : Byte) (payload : Payload Nat) (s : State) : Host.Outcome State Fault Refusal :=
  .next (serve s p 0x23 tag payload (fun _ => true) fun t n => t.answerCancel p n)

/-- RUN_SEQUENCE (R132): player, sequence, mode and rate out of range are malformed. -/
def execRunSequence (p : Port) (tag : Byte) (payload : Payload (Nat × Nat × Nat × Nat)) (s : State) :
    Host.Outcome State Fault Refusal :=
  .next (serve s p 0x24 tag payload
    (fun f => (indexOf 4 f.1).isSome && (indexOf 16 f.2.1).isSome && (PlayerMode.ofCode f.2.2.1).isSome
      && rateFormed f.2.2.2)
    fun t f =>
      match indexOf 4 f.1, indexOf 16 f.2.1, PlayerMode.ofCode f.2.2.1 with
      | some n, some q, some m => t.answerRun p n q m f.2.2.2
      | _, _, _ => .plain t .badRequest)

/-- SET_PLAYER (R137): player, mode and rate out of range are malformed. -/
def execSetPlayer (p : Port) (tag : Byte) (payload : Payload (Nat × Nat × Nat)) (s : State) :
    Host.Outcome State Fault Refusal :=
  .next (serve s p 0x25 tag payload
    (fun f => (indexOf 4 f.1).isSome && (PlayerMode.ofCode f.2.1).isSome && rateFormed f.2.2)
    fun t f =>
      match indexOf 4 f.1, PlayerMode.ofCode f.2.1 with
      | some n, some m => t.answerSet p n m f.2.2
      | _, _ => .plain t .badRequest)

/-- EMERGENCY_ON (R158). -/
def execEmergencyOn (p : Port) (tag : Byte) (payload : Payload Unit) (s : State) :
    Host.Outcome State Fault Refusal :=
  .next (serve s p 0x26 tag payload (fun _ => true) fun t _ => t.answerEmergencyOn p)

/-- CLEAR_EMERGENCY (R160). -/
def execClearEmergency (p : Port) (tag : Byte) (payload : Payload Unit) (s : State) :
    Host.Outcome State Fault Refusal :=
  .next (serve s p 0x27 tag payload (fun _ => true) fun t _ => t.answerClear p)

/-- QUERY_CIRCUIT (R27, R43, R177). -/
def execQueryCircuit (p : Port) (tag : Byte) (payload : Payload Nat) (s : State) : Host.Outcome State Fault Refusal :=
  .next (serve s p 0x30 tag payload (fun _ => true) fun t n => t.answerQueryCircuit n)

/-- QUERY_STATION (R73). -/
def execQueryStation (p : Port) (tag : Byte) (payload : Payload (Nat × Nat)) (s : State) :
    Host.Outcome State Fault Refusal :=
  .next (serve s p 0x31 tag payload (fun _ => true) fun t f => t.answerQueryStation f.1 f.2)

end Sys2Proof.Machine
end

