-- ==== Sys2Proof/Machine/TableReads.lean ====
section
/-! DEFINITION. READ_TABLE (R187, code 0x40): one meaning for each table kind of R197. Reads need no permission and are served in any mode and while a save runs. -/

namespace Sys2Proof.Machine

/-- Circuits 1 to 192 in ascending order: the members of group 0 (R53). -/
def allCircuits : List Circuit := indices 192

namespace State

/-- Free member slots (R54). -/
def freeMembers (s : State) : Nat := Config.memberSlots - Tables.membersUsed s.tables

/-- Free pair slots (R57). -/
def freePairs (s : State) : Nat := Config.pairSlots - Tables.pairsUsed s.tables

/-- Free binding entries (R89). -/
def freeBindings (s : State) : Nat := Config.bindingSlots - s.tables.bindings.length

/-- The group numbered by the payload (R61). -/
def answerReadGroup (s : State) (number : Nat) : Answer :=
  match codeOf 65 number with
  | none => .plain s .badTarget
  | some g => .ok s (.group (s.members g).isSome ((s.members g).getD []) s.freeMembers)

/-- The preset numbered by the payload, with up to 64 pairs from the first pair index on (R61). The default fade of an
undefined preset is reported as 0 (notes/assumptions/35.md). -/
def answerReadPreset (s : State) (number first : Nat) : Answer :=
  match indexOf 48 number with
  | none => .plain s .badTarget
  | some p =>
    let pairs := pairsOf (s.presetDef p)
    .ok s (.preset (s.presetDef p).isSome (s.versions.get p)
      (match s.presetDef p with
        | some d => d.defaultFade
        | none => 0)
      pairs.length s.freePairs ((pairs.drop (first - 1)).take 64))

/-- The entries of a key address, edge by edge, and the free entries (R91). -/
def answerReadBindings (s : State) (k : RawKey) : Answer :=
  match RawKey.address k with
  | none => .plain s .badTarget
  | some a => .ok s (.bindings (Edge.all.map fun e => Tables.bindingsOf s.tables a e) s.freeBindings)

/-- The stations of a loop, by ascending address (R197, notes/assumptions/16.md). -/
def stationList (s : State) (l : LoopNo) : List (StationNo × StationType) :=
  (indices 16).filterMap fun n => (s.stationType l n).map fun t => (n, t)

/-- The station table of a loop (R197). -/
def answerReadStations (s : State) (loop : Nat) : Answer :=
  match indexOf 4 loop with
  | none => .plain s .badTarget
  | some l => .ok s (.stationTable (s.stationList l))

/-- A sequence and the players that have it in use (R129). -/
def answerReadSequence (s : State) (number : Nat) : Answer :=
  match indexOf 16 number with
  | none => .plain s .badTarget
  | some q => .ok s (.sequence (s.sequenceDef q) (s.sequenceUsers q))

/-- A mode record, and whether its mode is the current one (R147). R147 refuses another mode with BAD_TARGET in a write
alone, so a read of it is malformed (R194). -/
def answerReadMode (s : State) (code : Nat) : Answer :=
  match HouseMode.ofCode code with
  | none => .plain s .badRequest
  | some m => .ok s (.modeRecord (s.modeRecord m) (s.mode == some m))

/-- A circuit record (R166). -/
def answerReadCircuit (s : State) (number : Nat) : Answer :=
  match indexOf 192 number with
  | none => .plain s .badTarget
  | some c => .ok s (.circuitRecord (s.record c))

/-- A role record and the link rate in force (R186). -/
def answerReadRole (s : State) (code : Nat) : Answer :=
  match Port.ofCode code with
  | none => .plain s .badTarget
  | some q => .ok s (.roleRecord (s.role q) (s.port q).linkRate)

/-- What is pending on a line for a line setting (R197). -/
def pendingSetting (s : State) (setting : Nat) (line : Option LineNo) : Option (Option Nat) :=
  line.map fun n =>
    let x := s.lines.get n
    if setting = 8 then x.pendingPeriod
    else x.pendingPolarity.map fun y => if y = .activeHigh then 0 else 1

/-- A system setting (R197). R197 refuses an unknown setting or line with BAD_TARGET in a write alone, so a read of it
is malformed (R194). -/
def answerReadSetting (s : State) (setting line : Nat) : Answer :=
  match lineSetting setting line with
  | none => .plain s .badRequest
  | some n => .ok s (.setting setting (Settings.value s.tables.settings setting n) (s.pendingSetting setting n))

end State

/-! ## Meanings -/

/-- READ_TABLE of the rank table (R2). -/
def execReadRankTable (p : Port) (tag : Byte) (payload : Payload Unit) (s : State) :
    Host.Outcome State Fault Refusal :=
  .next (serve s p 0x40 tag payload (fun _ => true) fun t _ => .ok t (.rankTable t.tables.ranks.rows.toList))

/-- READ_TABLE of a group (R61). -/
def execReadGroup (p : Port) (tag : Byte) (payload : Payload Nat) (s : State) : Host.Outcome State Fault Refusal :=
  .next (serve s p 0x40 tag payload (fun _ => true) fun t n => t.answerReadGroup n)

/-- READ_TABLE of a preset (R61); the first pair index counts from 1. -/
def execReadPreset (p : Port) (tag : Byte) (payload : Payload (Nat × Nat)) (s : State) :
    Host.Outcome State Fault Refusal :=
  .next (serve s p 0x40 tag payload (fun f => decide (1 ≤ f.2)) fun t f => t.answerReadPreset f.1 f.2)

/-- READ_TABLE of bindings (R91). -/
def execReadBindings (p : Port) (tag : Byte) (payload : Payload RawKey) (s : State) :
    Host.Outcome State Fault Refusal :=
  .next (serve s p 0x40 tag payload (fun _ => true) fun t k => t.answerReadBindings k)

/-- READ_TABLE of the station table (R197). -/
def execReadStationTable (p : Port) (tag : Byte) (payload : Payload Nat) (s : State) :
    Host.Outcome State Fault Refusal :=
  .next (serve s p 0x40 tag payload (fun _ => true) fun t n => t.answerReadStations n)

/-- READ_TABLE of a sequence (R129). -/
def execReadSequence (p : Port) (tag : Byte) (payload : Payload Nat) (s : State) : Host.Outcome State Fault Refusal :=
  .next (serve s p 0x40 tag payload (fun _ => true) fun t n => t.answerReadSequence n)

/-- READ_TABLE of a mode record (R147). -/
def execReadModeRecord (p : Port) (tag : Byte) (payload : Payload Nat) (s : State) :
    Host.Outcome State Fault Refusal :=
  .next (serve s p 0x40 tag payload (fun n => (HouseMode.ofCode n).isSome) fun t n => t.answerReadMode n)

/-- READ_TABLE of a circuit record (R166). -/
def execReadCircuitRecord (p : Port) (tag : Byte) (payload : Payload Nat) (s : State) :
    Host.Outcome State Fault Refusal :=
  .next (serve s p 0x40 tag payload (fun _ => true) fun t n => t.answerReadCircuit n)

/-- READ_TABLE of a role record (R186). -/
def execReadRoleRecord (p : Port) (tag : Byte) (payload : Payload Nat) (s : State) :
    Host.Outcome State Fault Refusal :=
  .next (serve s p 0x40 tag payload (fun _ => true) fun t n => t.answerReadRole n)

/-- READ_TABLE of a system setting (R197). -/
def execReadSystemSetting (p : Port) (tag : Byte) (payload : Payload (Nat × Nat)) (s : State) :
    Host.Outcome State Fault Refusal :=
  .next (serve s p 0x40 tag payload (fun f => (lineSetting f.1 f.2).isSome) fun t f => t.answerReadSetting f.1 f.2)

end Sys2Proof.Machine
end

