-- ==== Sys2Proof/Machine/TableWrites.lean ====
section
/-! DEFINITION. WRITE_TABLE (R187, code 0x41): one meaning for each table kind of R197, each with the checks of its owning rule in that rule's order. -/

namespace Sys2Proof.Machine

namespace State

/-- A SAVE_CONFIG is in progress on any port. -/
def saving (s : State) : Bool := s.save.isSome

/-- The checks every table write begins with: DENIED for want of a permission, SHOW_ACTIVE, BUSY_SAVING. -/
def writeRefusal (s : State) (allowed : Bool) : Option Status :=
  if !allowed then some .denied else if s.inShow then some .showActive else if s.saving then some .busySaving else none

/-- A table write of port `p` under EDIT permission: its first three checks, then the rest. -/
def answerEdit (s : State) (p : Port) (rest : Answer) : Answer :=
  match s.writeRefusal (s.permits p .edit) with
  | some status => .plain s status
  | none => rest

/-- `s` with the live tables changed by `f`. -/
def onTables (s : State) (f : Tables → Tables) : State := { s with tables := f s.tables }

/-! ## Rank table, groups, presets -/

/-- WRITE_TABLE of the rank table (R2, R3). -/
def answerWriteRanks (s : State) (p : Port) (l : List Nat) : Answer :=
  s.answerEdit p (match typedRanks l with
    | none => .plain s .badRecord
    | some modes => .plain (s.setRanks modes) .ok)

/-- A group's definition replaced; an empty list undefines it (R55). -/
def setGroup (s : State) (g : Fin 64) (l : List Circuit) : State :=
  s.onTables fun t => { t with groups := t.groups.set g l }

/-- WRITE_TABLE of a group (R55). -/
def answerWriteGroup (s : State) (p : Port) (number : Nat) (list : List Nat) : Answer :=
  s.answerEdit p (match indexOf 64 number with
    | none => .plain s .badTarget
    | some g =>
      match circuitsOfNumbers list with
      | none => .plain s .badRecord
      | some l =>
        if ¬ l.Nodup then .plain s .badRecord
        else if s.freeMembers + (s.tables.groups.get g).length < l.length then .plain s .tableFull
        else .plain (s.setGroup g l) .ok)

/-- A preset committed or deleted: its version rises by 1 (R56). -/
def setPreset (s : State) (n : PresetNo) (d : Option PresetDef) : State :=
  { s.onTables fun t => { t with presets := t.presets.set n d } with
    versions := s.versions.modify n fun v => v + 1 }

/-- `count` pairs find room for preset `n`, its present definition counting as free (R57). -/
def pairsFit (s : State) (n : PresetNo) (count : Nat) : Bool :=
  decide (count ≤ s.freePairs + (pairsOf (s.presetDef n)).length)

/-- The preset edit record of port `p` replaced (R58). -/
def setEdit (s : State) (p : Port) (e : Option PresetEdit) : State := s.onPort p fun x => { x with edit := e }

/-- WRITE_TABLE open part (R58). -/
def answerOpenPreset (s : State) (p : Port) (number fade count : Nat) : Answer :=
  s.answerEdit p (match indexOf 48 number with
    | none => .plain s .badTarget
    | some n =>
      if Config.fadeTop < fade then .plain s .badRecord
      else if !s.pairsFit n count then .plain s .tableFull
      else if count = 0 then .plain ((s.setEdit p none).setPreset n none) .ok
      else .plain (s.setEdit p (some { preset := n, fade := fade, declared := count, received := [] })) .ok)

/-- A pairs part that passes, the pairs of record `e` being `pairs` with it (R59). -/
def takePairs (s : State) (p : Port) (e : PresetEdit) (pairs : List (Circuit × Nat)) : Answer :=
  if pairs.length < e.declared then .plain (s.setEdit p (some { e with received := pairs })) .ok
  else if s.pairsFit e.preset e.declared then
    .plain ((s.setEdit p none).setPreset e.preset (some { defaultFade := e.fade, pairs := pairs })) .ok
  else .plain (s.setEdit p none) .tableFull

/-- WRITE_TABLE pairs part (R59). -/
def answerPresetPairs (s : State) (p : Port) (number : Nat) (list : List (Nat × Nat)) : Answer :=
  s.answerEdit p (match (s.port p).edit with
    | none => .plain s .wrongState
    | some e =>
      if numberOf e.preset ≠ number then .plain s .wrongState
      else
        match typedPairs list with
        | none => .plain s .badRecord
        | some pairs =>
          if ((e.received ++ pairs).map Prod.fst).Nodup ∧ (e.received ++ pairs).length ≤ e.declared then
            s.takePairs p e (e.received ++ pairs)
          else .plain s .badRecord)

/-! ## Bindings, stations, sequences, modes -/

/-- The binding table with the list of one key address and edge replaced, kept in the order of R89 (R90). -/
def replaceBindings (table : List Binding) (k : KeyAddr) (e : Edge) (l : List Binding) : List Binding :=
  (table.filter fun b => decide (bindingPlace b.key b.edge < bindingPlace k e))
    ++ l ++ table.filter fun b => decide (bindingPlace k e < bindingPlace b.key b.edge)

/-- WRITE_TABLE of bindings (R90). -/
def answerWriteBindings (s : State) (p : Port) (k : RawKey) (edge : Nat) (list : List RawBinding) : Answer :=
  s.answerEdit p (match RawKey.address k, Edge.ofCode edge with
    | some a, some e =>
      if 4 < list.length then .plain s .badRecord
      else
        match list.mapM (RawBinding.typed a e) with
        | none => .plain s .badRecord
        | some l =>
          if Config.bindingSlots + (Tables.bindingsOf s.tables a e).length < s.tables.bindings.length + l.length then
            .plain s .tableFull
          else .plain (s.onTables fun t => { t with bindings := replaceBindings t.bindings a e l }) .ok
    | _, _ => .plain s .badTarget)

/-- The station at address `n` is removed or changes its type under the new list (R67). -/
def stationChanges (s : State) (l : LoopNo) (new : Tab (Option StationType) 16) (n : StationNo) : Bool :=
  s.stationType l n != new.get n

/-- The stations that a new list removes or changes have their raises stopped (R67, R101), one by one in ascending address
and key number (notes/assumptions/36.md). -/
def stopRaisesOf (s : State) (l : LoopNo) (new : Tab (Option StationType) 16) : State :=
  (((indices 16).filter (s.stationChanges l new)).flatMap (s.keysAt l)).foldl stopRaise s

/-- The records of the loop's stations under a new list (R67): a removed, added or changed station stands fresh, and an
exchange with a removed station is marked (R68). -/
def LoopState.relist (x : LoopState) (old new : Tab (Option StationType) 16) : LoopState :=
  { x with
    stations := .build fun n => if old.get n = new.get n then x.stations.get n else .fresh
    exchange := x.exchange.map fun e => if (new.get e.station).isNone then { e with removed := true } else e }

/-- The station list of a loop replaced (R67). -/
def setStations (s : State) (l : LoopNo) (new : Tab (Option StationType) 16) : State :=
  let old := s.tables.stations.get l
  ((s.stopRaisesOf l new).onTables fun t => { t with stations := t.stations.set l new }).onLoop l fun x =>
    LoopState.relist x old new

/-- WRITE_TABLE of the station table (R67). -/
def answerWriteStations (s : State) (p : Port) (loop : Nat) (list : List (Nat × Nat)) : Answer :=
  s.answerEdit p (match indexOf 4 loop with
    | none => .plain s .badTarget
    | some l =>
      match typedStations list with
      | none => .plain s .badRecord
      | some entries => .plain (s.setStations l (stationTab entries)) .ok)

/-- WRITE_TABLE of a sequence (R129): 0 steps undefine it. -/
def answerWriteSequence (s : State) (p : Port) (number : Nat) (q : RawSequence) : Answer :=
  s.answerEdit p (match indexOf 16 number with
    | none => .plain s .badTarget
    | some n =>
      if !(s.sequenceUsers n).isEmpty then .plain s .inUse
      else
        match RawSequence.typed q with
        | none => .plain s .badRecord
        | some d =>
          .plain (s.onTables fun t =>
            { t with sequences := t.sequences.set n (if d.steps.isEmpty then none else some d) }) .ok)

/-- WRITE_TABLE of a mode record (R147). -/
def answerWriteMode (s : State) (p : Port) (code : Nat) (record : RawModeRecord) : Answer :=
  s.answerEdit p (match HouseMode.ofCode code with
    | none => .plain s .badTarget
    | some m =>
      match RawModeRecord.typed record with
      | none => .plain s .badRecord
      | some d => .plain (s.onTables fun t => { t with modes := t.modes.set m.ix d }) .ok)

/-! ## Circuit records -/

/-- Another circuit's record names the LOCAL line of route `r` (R165). -/
def lineTaken (s : State) (c : Circuit) (r : Route) : Bool :=
  match r with
  | .pwm n => (indices 192).any fun d => d != c && (s.record d).route == .pwm n
  | .link => false
  | .unrouted => false

/-- What a write of its record does to the circuit at once (R41, R167): losing or gaining its forcing removes its
transition, and a change of kind clears its relay record. -/
def CircuitState.rewrite (x : CircuitState) (old new : CircuitRecord) (forcing : Bool) : CircuitState :=
  { x with
    transition := if forcing && (old.emergency.isSome != new.emergency.isSome) then none else x.transition
    relay := if old.kind.isSwitched = new.kind.isSwitched then x.relay else .clear }

/-- A circuit record replaced (R166, R167); a recovery removed with it is reported (R41). -/
def setRecord (s : State) (c : Circuit) (r : CircuitRecord) : State :=
  let forcing := s.emergency.state.forces
  let t := (s.onCircuit c fun x => CircuitState.rewrite x (s.record c) r forcing).onTables fun t =>
    { t with circuits := t.circuits.set c r }
  if (s.circuit c).recovering && !(t.circuit c).recovering then t.reportRecoveries [c] else t

/-- WRITE_TABLE of a circuit record (R166). -/
def answerWriteCircuit (s : State) (p : Port) (number : Nat) (record : RawCircuitRecord) : Answer :=
  s.answerEdit p (match indexOf 192 number with
    | none => .plain s .badTarget
    | some c =>
      match RawCircuitRecord.typed record with
      | none => .plain s .badRecord
      | some r => if s.lineTaken c r.route then .plain s .badRecord else .plain (s.setRecord c r) .ok)

/-! ## Role records and settings -/

/-- WRITE_TABLE of a role record (R186): it needs EDIT and ADMIN. -/
def answerWriteRole (s : State) (p : Port) (code : Nat) (record : RawRoleRecord) : Answer :=
  match s.writeRefusal (s.permits p .edit && s.permits p .admin) with
  | some status => .plain s status
  | none =>
    match Port.ofCode code with
    | none => .plain s .badTarget
    | some q =>
      match RawRoleRecord.typed record with
      | none => .plain s .badRecord
      | some r => .plain (s.onTables fun t => { t with roles := t.roles.set q.ix r }) .ok

/-- A line setting also goes to the line's pending field (R174). -/
def PwmLine.await (x : PwmLine) (setting v : Nat) : PwmLine :=
  if setting = 8 then { x with pendingPeriod := some v }
  else
    match Polarity.ofCode v with
    | some y => { x with pendingPolarity := some y }
    | none => x

/-- A setting replaced, and a line setting handed to its line (R174, R197). -/
def setSetting (s : State) (setting : Nat) (line : Option LineNo) (v : Nat) (x : Settings) : State :=
  let t := s.onTables fun t => { t with settings := x }
  match line with
  | none => t
  | some n => t.onLine n fun y => PwmLine.await y setting v

/-- WRITE_TABLE of a system setting (R197, R198). -/
def answerWriteSetting (s : State) (p : Port) (setting line v : Nat) : Answer :=
  s.answerEdit p (match lineSetting setting line with
    | none => .plain s .badTarget
    | some n =>
      match Settings.replaced s.tables.settings setting n v with
      | none => .plain s .badRecord
      | some x => .plain (s.setSetting setting n v x) .ok)

end State

/-! ## Meanings -/

/-- WRITE_TABLE of the rank table (R2, R3): all eight entries together. -/
def execWriteRankTable (p : Port) (tag : Byte) (payload : Payload (List Nat)) (s : State) :
    Host.Outcome State Fault Refusal :=
  .next (serve s p 0x41 tag payload (fun l => decide (l.length = 8)) fun t l => t.answerWriteRanks p l)

/-- WRITE_TABLE of a group (R55). -/
def execWriteGroup (p : Port) (tag : Byte) (payload : Payload (Nat × List Nat)) (s : State) :
    Host.Outcome State Fault Refusal :=
  .next (serve s p 0x41 tag payload (fun _ => true) fun t f => t.answerWriteGroup p f.1 f.2)

/-- WRITE_TABLE open part of a preset (R58): a pair count above 192 is malformed. -/
def execWritePresetOpen (p : Port) (tag : Byte) (payload : Payload (Nat × Nat × Nat)) (s : State) :
    Host.Outcome State Fault Refusal :=
  .next (serve s p 0x41 tag payload (fun f => decide (f.2.2 ≤ 192)) fun t f => t.answerOpenPreset p f.1 f.2.1 f.2.2)

/-- WRITE_TABLE pairs part of a preset (R59): 1 to 64 pairs. -/
def execWritePresetPairs (p : Port) (tag : Byte) (payload : Payload (Nat × List (Nat × Nat))) (s : State) :
    Host.Outcome State Fault Refusal :=
  .next (serve s p 0x41 tag payload (fun f => decide (1 ≤ f.2.length ∧ f.2.length ≤ 64))
    fun t f => t.answerPresetPairs p f.1 f.2)

/-- WRITE_TABLE of bindings (R90). -/
def execWriteBindings (p : Port) (tag : Byte) (payload : Payload (RawKey × Nat × List RawBinding)) (s : State) :
    Host.Outcome State Fault Refusal :=
  .next (serve s p 0x41 tag payload (fun _ => true) fun t f => t.answerWriteBindings p f.1 f.2.1 f.2.2)

/-- WRITE_TABLE of the station table (R67). -/
def execWriteStationTable (p : Port) (tag : Byte) (payload : Payload (Nat × List (Nat × Nat))) (s : State) :
    Host.Outcome State Fault Refusal :=
  .next (serve s p 0x41 tag payload (fun _ => true) fun t f => t.answerWriteStations p f.1 f.2)

/-- WRITE_TABLE of a sequence (R129): 0 to 16 steps. -/
def execWriteSequence (p : Port) (tag : Byte) (payload : Payload (Nat × RawSequence)) (s : State) :
    Host.Outcome State Fault Refusal :=
  .next (serve s p 0x41 tag payload (fun f => decide (f.2.steps.length ≤ 16))
    fun t f => t.answerWriteSequence p f.1 f.2)

/-- WRITE_TABLE of a mode record (R147). -/
def execWriteModeRecord (p : Port) (tag : Byte) (payload : Payload (Nat × RawModeRecord)) (s : State) :
    Host.Outcome State Fault Refusal :=
  .next (serve s p 0x41 tag payload (fun _ => true) fun t f => t.answerWriteMode p f.1 f.2)

/-- WRITE_TABLE of a circuit record (R166, R167). -/
def execWriteCircuitRecord (p : Port) (tag : Byte) (payload : Payload (Nat × RawCircuitRecord)) (s : State) :
    Host.Outcome State Fault Refusal :=
  .next (serve s p 0x41 tag payload (fun _ => true) fun t f => t.answerWriteCircuit p f.1 f.2)

/-- WRITE_TABLE of a role record (R186). -/
def execWriteRoleRecord (p : Port) (tag : Byte) (payload : Payload (Nat × RawRoleRecord)) (s : State) :
    Host.Outcome State Fault Refusal :=
  .next (serve s p 0x41 tag payload (fun _ => true) fun t f => t.answerWriteRole p f.1 f.2)

/-- WRITE_TABLE of a system setting (R197, R198). -/
def execWriteSystemSetting (p : Port) (tag : Byte) (payload : Payload (Nat × Nat × Nat)) (s : State) :
    Host.Outcome State Fault Refusal :=
  .next (serve s p 0x41 tag payload (fun _ => true) fun t f => t.answerWriteSetting p f.1 f.2.1 f.2.2)

end Sys2Proof.Machine
end

