-- ==== Sys2Proof/Machine/Store.lean ====
section
/-! DEFINITION. The Configuration Store Interface: full reset, the image and start-up (R196), saving (R199), restart (R200), and the meanings of FULL_RESET, IMAGE_TAKEN, STARTUP_END, SAVE_CONFIG, SAVE_DONE, SAVE_FAILED and RESTART. -/

namespace Sys2Proof.Machine

/-! ## Full reset and start-up -/

namespace State

/-- What the memory holds once the read has ended (R196, notes/assumptions/8.md). -/
def memoryAfter (s : State) : ImageRead → Option StoredImage
  | .failed => s.memory
  | .stored => s.memory
  | .external bytes => StoredImage.ofBytes bytes

/-- The tables a read yields and the configuration state they bring (R196). -/
def judgeRead (s : State) (read : ImageRead) : Tables × Validity :=
  match read with
  | .failed => (defaultTables, .invalid)
  | .stored | .external _ =>
    match goodTables (s.memoryAfter read) with
    | some t => (t, .valid)
    | none => (defaultTables, .invalid)

/-- The image has been taken (R183, R186, R196): the ports listen at the link rates loaded for them, and the PWM lines
are held at the inactive level of the polarity loaded for them (R176). -/
def takeImage (s : State) (read : ImageRead) : State :=
  let r := s.judgeRead read
  { s with
    startup := .judging r.1 r.2
    memory := s.memoryAfter read
    ports := .build fun i => { s.ports.get i with linkRate := (r.1.roles.get i).linkRate }
    lines := .build fun n =>
      { s.lines.get n with drive := .heldInactive, polarity := r.1.settings.pwmPolarity.get n } }

/-- A PWM line as start-up leaves it (R176): its first period has duty 0, and where the contact forces the circuits the
egress path reaches the line at that period's end (notes/assumptions/38.md). -/
def startedLine (x : Settings) (now : Nat) (n : LineNo) : PwmLine :=
  { drive := .running now, period := x.pwmPeriod.get n, pendingPeriod := none, polarity := x.pwmPolarity.get n,
    pendingPolarity := none, duty := 0 }

/-- The tables judged are in force and the outputs begin (R173, R176, R196). -/
def loadTables (s : State) (t : Tables) (config : Validity) : State :=
  { s with
    startup := .running, tables := t, versions := .const 0, configState := config, imageState := config,
    lines := .build (startedLine t.settings s.now), rackDue := some (s.now + Config.rackPeriod) }

/-- An asserted accepted contact forces the circuits as start-up ends (R156). -/
def startEmergency (s : State) : State :=
  if s.emergency.accepted.any Contact.asserted then s.enterEmergency .active .start else s

/-- Start-up ends (R196): the tables, the emergency, the start mode (R154), and CONFIG. -/
def endStartup (s : State) (t : Tables) (config : Validity) : State :=
  let u := (s.loadTables t config).startEmergency
  ((u.changeMode t.settings.startMode .start).1.announce (.config config)).replay

/-- What a full reset finds in the memory: a save it cuts off leaves the image bad (R199). -/
def memoryAtReset (s : State) : Option StoredImage := if s.saving then none else s.memory

/-! ## Saving -/

/-- A save begins (R199): the header is erased, and the tables to be written are those of this instant. -/
def beginSave (s : State) (p : Port) (tag : Byte) : State :=
  { s with
    save := some { port := p, tag := tag, replyOwed := true, tables := s.tables, earlier := s.memory }
    memory := none
    imageState := .invalid }

/-- What a save's end tells (R199): the personal notice, CONFIG, and the reply; where the saving port's lease expired
meanwhile, CONFIG alone (R181). -/
def finishSave (s : State) (x : Save) (note : Notice) (image : Validity) (status : Status) : State :=
  if x.replyOwed then ((s.notify x.port note).announce (.config image)).respond x.port 0x42 x.tag status .empty
  else s.announce (.config image)

/-- What a failed save leaves in the memory, by the stage it failed in (R199). -/
def failedImage (x : Save) : SaveFailure → Option StoredImage
  | .erasing .untouched => x.earlier
  | .erasing .whole => none
  | .erasing (.part format length crc) =>
    some { format := format, length := length, crc := crc,
           body := match x.earlier with
             | some y => y.body
             | none => [] }
  | .tables => none
  | .header => none

/-! ## Restart -/

/-- A port at a restart (R60, R183). -/
def restartPort (s : State) (p : Port) (x : PortState) : PortState :=
  let y := { x with edit := none, orphanEnd := none }
  match x.link with
  | .online _ =>
    { y with link := .online (s.now + (s.role p).lease * Config.second), queue := [], overflow := false }
  | .lost _ => { y with link := .offline, linkRate := (s.role p).linkRate }
  | .offline => y

/-- The ports at a restart (R183). -/
def restartPorts (s : State) : State := Port.all.foldl (fun t p => t.onPort p (s.restartPort p)) s

/-- The claims cleared and the RESTART transitions started (R29, R44). -/
def restartCircuits (s : State) : Tab CircuitState 192 :=
  .build fun c =>
    let x := { s.circuit c with claims := [], raisedBy := none }
    if s.forced c then x else x.startTransition .restart none (s.level c) s.tables.settings.restartFade

/-- A key at a restart (R87). -/
def restartKey (r : KeyRecord) : KeyRecord := { r with phase := .none, blinkEnd := none }

/-- The loops at a restart (R87). -/
def restartLoop (x : LoopState) : LoopState :=
  { x with stations := x.stations.each fun y => { y with keys := y.keys.each restartKey } }

/-- The clearing of a restart (R200), the ports having passed: claims, trackers, slots, deferred queue, players and key
timers; the recoveries it overtakes are reported (R164). -/
def clearForRestart (s : State) : State :=
  { s with
    circuits := s.restartCircuits, trackers := [], slots := .const none, deferred := [], deferWarned := false,
    players := .const .clear, loops := s.loops.each restartLoop }.reportRecoveries
      ((indices 192).filter fun c => !s.forced c && (s.circuit c).recovering)

/-- The entry actions of the mode kept, with source RESTART (R154). -/
def reenterMode (s : State) : State :=
  match s.mode with
  | none => s
  | some m => (s.changeMode m .restart).1

/-- The restart, one operation (R200). -/
def restart (s : State) : State := (s.restartPorts.clearForRestart.reenterMode).replay

end State

/-! ## Meanings -/

/-- FULL_RESET (R196). -/
def execFullReset (s : State) : Host.Outcome State Fault Refusal :=
  .next (.afterFullReset s.now s.emergency.line s.memoryAtReset s.pending)

/-- IMAGE_TAKEN (R196). -/
def execImageTaken (read : ImageRead) (s : State) : Host.Outcome State Fault Refusal :=
  match s.startup with
  | .reading => .next (s.takeImage read)
  | .judging _ _ => .next s
  | .running => .next s

/-- STARTUP_END (R196). -/
def execStartupEnd (s : State) : Host.Outcome State Fault Refusal :=
  match s.startup with
  | .judging t config => .next (s.endStartup t config)
  | .reading => .next s
  | .running => .next s

/-- SAVE_CONFIG (R199): a save that passes is answered when it ends. -/
def execSaveConfig (p : Port) (tag : Byte) (payload : Payload Unit) (s : State) :
    Host.Outcome State Fault Refusal :=
  match s.receive p 0x42 tag payload (fun _ => true) with
  | .done t => .next t
  | .taken t _ =>
    if !t.permits p .edit then .next (t.respond p 0x42 tag .denied .empty)
    else if t.saving then .next (t.respond p 0x42 tag .busySaving .empty)
    else .next (t.beginSave p tag)

/-- SAVE_DONE (R199). -/
def execSaveDone (s : State) : Host.Outcome State Fault Refusal :=
  match s.save with
  | none => .next s
  | some x =>
    .next ({ s with save := none, memory := some (imageOf x.tables), imageState := .valid }.finishSave x .saveDone
      .valid .ok)

/-- SAVE_FAILED (R199). -/
def execSaveFailed (failure : SaveFailure) (s : State) : Host.Outcome State Fault Refusal :=
  match s.save with
  | none => .next s
  | some x =>
    .next ({ s with save := none, memory := State.failedImage x failure, imageState := .invalid }.finishSave x
      .saveFailed .invalid .saveFailed)

/-- RESTART (R200): the reply OK is sent first, then the restart is taken. -/
def execRestart (p : Port) (tag : Byte) (payload : Payload Unit) (s : State) : Host.Outcome State Fault Refusal :=
  match s.receive p 0x43 tag payload (fun _ => true) with
  | .done t => .next t
  | .taken t _ =>
    if !t.permits p .admin then .next (t.respond p 0x43 tag .denied .empty)
    else if t.saving then .next (t.respond p 0x43 tag .busySaving .empty)
    else .next (t.respond p 0x43 tag .ok .empty).restart

end Sys2Proof.Machine
end

