-- ==== Sys2Proof/Machine/Due.lean ====
section
/-! DEFINITION. The timed events that stand due at an instant, in the fixed order in which an empty queue takes them (notes/assumptions/3.md, notes/assumptions/4.md). -/

namespace Sys2Proof.Machine

/-- The 512 key addresses (R66). -/
def allKeys : List KeyAddr :=
  (indices 4).flatMap fun l => (indices 16).flatMap fun n => (indices 8).map fun k =>
    { loop := l, station := n, key := k }

namespace State

/-- The port timers that have run out (R180 to R182). -/
def duePorts (s : State) : List Instr :=
  (Port.all.filter s.leaseDue).map .leaseExpiry ++ (Port.all.filter s.lostDue).map .lostTimerExpiry
    ++ (Port.all.filter s.orphanDue).map .orphanHoldExpiry

/-- The fades and transitions that have reached their durations (R34, R40). -/
def dueLevels (s : State) : List Instr :=
  ((indices 192).flatMap fun c =>
    (Owner.all.filter fun o => (s.fadeDue c o).isSome).map fun o => .fadeCompletion c o)
  ++ ((indices 192).filter s.transitionDue).map .transitionEnd

/-- The reply window of the loop has run out (R69). -/
def windowDue (s : State) (l : LoopNo) : Bool := (s.loop l).exchange.any fun x => decide (x.windowEnd ≤ s.now)

/-- The reply windows and key timers that have run out (R69, R77, R82, R84). -/
def dueField (s : State) : List Instr :=
  ((indices 4).filter s.windowDue).map .replyWindowExpiry
    ++ (allKeys.filter s.holdDue).map .holdTimerExpiry ++ (allKeys.filter s.quietDue).map .quietTimerExpiry
    ++ (allKeys.filter s.blinkDue).map .refusalBlinkExpiry

/-- The player's wait has run out (R139). -/
def waitDue (s : State) (n : PlayerNo) : Bool :=
  match (s.player n).run with
  | .running t => decide (t ≤ s.now)
  | .idle => false
  | .waitLock => false

/-- The deferred entries, slots and waits that have run out (R118, R123, R139). -/
def dueCues (s : State) : List Instr :=
  (if s.deferred.any s.entryDue then [.deferredEntryExpiry] else [])
    ++ ((indices 4).filter s.slotDue).map .slotExpiry ++ ((indices 4).filter s.waitDue).map .waitTimerExpiry

/-- The circuit's dwell end has come (R171). -/
def dwellDue (s : State) (c : Circuit) : Bool := (s.circuit c).relay.dwellEnd.any fun t => decide (t ≤ s.now)

/-- The line's period has ended (R175). -/
def periodDue (s : State) (n : LineNo) : Bool :=
  match (s.lines.get n).drive with
  | .running start => decide (start + (s.lines.get n).period ≤ s.now)
  | .heldLow => false
  | .heldInactive => false

/-- The contact's debounce and the output stage's instants (R156, R171, R173, R175). -/
def dueOutputs (s : State) : List Instr :=
  (if s.emergency.debounce.any fun x => decide (x.2 ≤ s.now) then [.debounceTimerExpiry] else [])
    ++ (if s.rackDue.any fun t => decide (t ≤ s.now) then [.rackSample] else [])
    ++ ((indices 192).filter s.dwellDue).map .dwellEnd ++ ((indices 16).filter s.periodDue).map .pwmPeriodEnd

/-- A POLL is to be sent on the loop (R68): no exchange is in progress and a station is configured. -/
def pollDue (s : State) (l : LoopNo) : Bool := s.isRunning && (s.loop l).exchange.isNone && (s.nextPolled l).isSome

/-- Every event due now (notes/assumptions/4.md). -/
def dueEvents (s : State) : List Instr :=
  s.duePorts ++ s.dueLevels ++ s.dueField ++ s.dueCues ++ s.dueOutputs ++ ((indices 4).filter s.pollDue).map .poll

end State
end Sys2Proof.Machine
end

