-- ==== Sys2Proof/Machine/Dispatch.lean ====
section
/-! DEFINITION. The meaning of each command: one arm per constructor of Instr, each a direct call. -/

namespace Sys2Proof.Machine

def exec (i : Instr) (s : State) : Host.Outcome State Fault Refusal :=
  match i with
  | .fullReset => Sys2Proof.Machine.execFullReset s
  | .imageTaken read => Sys2Proof.Machine.execImageTaken read s
  | .startupEnd => Sys2Proof.Machine.execStartupEnd s
  | .badFrame port cause => Sys2Proof.Machine.execBadFrame port cause s
  | .lostFrameIgnored port => Sys2Proof.Machine.execLostFrameIgnored port s
  | .ping port tag payload => Sys2Proof.Machine.execPing port tag payload s
  | .place port tag payload => Sys2Proof.Machine.execPlace port tag payload s
  | .release port tag payload => Sys2Proof.Machine.execRelease port tag payload s
  | .recall port tag payload => Sys2Proof.Machine.execRecall port tag payload s
  | .setMode port tag payload => Sys2Proof.Machine.execSetMode port tag payload s
  | .standby port tag payload => Sys2Proof.Machine.execStandby port tag payload s
  | .go port tag payload => Sys2Proof.Machine.execGo port tag payload s
  | .cancel port tag payload => Sys2Proof.Machine.execCancel port tag payload s
  | .runSequence port tag payload => Sys2Proof.Machine.execRunSequence port tag payload s
  | .setPlayer port tag payload => Sys2Proof.Machine.execSetPlayer port tag payload s
  | .emergencyOn port tag payload => Sys2Proof.Machine.execEmergencyOn port tag payload s
  | .clearEmergency port tag payload => Sys2Proof.Machine.execClearEmergency port tag payload s
  | .queryCircuit port tag payload => Sys2Proof.Machine.execQueryCircuit port tag payload s
  | .queryStation port tag payload => Sys2Proof.Machine.execQueryStation port tag payload s
  | .readNotices port tag payload => Sys2Proof.Machine.execReadNotices port tag payload s
  | .subscribe port tag payload => Sys2Proof.Machine.execSubscribe port tag payload s
  | .readCounters port tag payload => Sys2Proof.Machine.execReadCounters port tag payload s
  | .readRankTable port tag payload => Sys2Proof.Machine.execReadRankTable port tag payload s
  | .readGroup port tag payload => Sys2Proof.Machine.execReadGroup port tag payload s
  | .readPreset port tag payload => Sys2Proof.Machine.execReadPreset port tag payload s
  | .readBindings port tag payload => Sys2Proof.Machine.execReadBindings port tag payload s
  | .readStationTable port tag payload => Sys2Proof.Machine.execReadStationTable port tag payload s
  | .readSequence port tag payload => Sys2Proof.Machine.execReadSequence port tag payload s
  | .readModeRecord port tag payload => Sys2Proof.Machine.execReadModeRecord port tag payload s
  | .readCircuitRecord port tag payload => Sys2Proof.Machine.execReadCircuitRecord port tag payload s
  | .readRoleRecord port tag payload => Sys2Proof.Machine.execReadRoleRecord port tag payload s
  | .readSystemSetting port tag payload => Sys2Proof.Machine.execReadSystemSetting port tag payload s
  | .writeRankTable port tag payload => Sys2Proof.Machine.execWriteRankTable port tag payload s
  | .writeGroup port tag payload => Sys2Proof.Machine.execWriteGroup port tag payload s
  | .writePresetOpen port tag payload => Sys2Proof.Machine.execWritePresetOpen port tag payload s
  | .writePresetPairs port tag payload => Sys2Proof.Machine.execWritePresetPairs port tag payload s
  | .writeBindings port tag payload => Sys2Proof.Machine.execWriteBindings port tag payload s
  | .writeStationTable port tag payload => Sys2Proof.Machine.execWriteStationTable port tag payload s
  | .writeSequence port tag payload => Sys2Proof.Machine.execWriteSequence port tag payload s
  | .writeModeRecord port tag payload => Sys2Proof.Machine.execWriteModeRecord port tag payload s
  | .writeCircuitRecord port tag payload => Sys2Proof.Machine.execWriteCircuitRecord port tag payload s
  | .writeRoleRecord port tag payload => Sys2Proof.Machine.execWriteRoleRecord port tag payload s
  | .writeSystemSetting port tag payload => Sys2Proof.Machine.execWriteSystemSetting port tag payload s
  | .saveConfig port tag payload => Sys2Proof.Machine.execSaveConfig port tag payload s
  | .saveDone => Sys2Proof.Machine.execSaveDone s
  | .saveFailed failure => Sys2Proof.Machine.execSaveFailed failure s
  | .restart port tag payload => Sys2Proof.Machine.execRestart port tag payload s
  | .leaseExpiry port => Sys2Proof.Machine.execLeaseExpiry port s
  | .lostTimerExpiry port => Sys2Proof.Machine.execLostTimerExpiry port s
  | .orphanHoldExpiry port => Sys2Proof.Machine.execOrphanHoldExpiry port s
  | .fadeCompletion circuit owner => Sys2Proof.Machine.execFadeCompletion circuit owner s
  | .transitionEnd circuit => Sys2Proof.Machine.execTransitionEnd circuit s
  | .poll loop => Sys2Proof.Machine.execPoll loop s
  | .report loop bytes => Sys2Proof.Machine.execReport loop bytes s
  | .replyWindowExpiry loop => Sys2Proof.Machine.execReplyWindowExpiry loop s
  | .holdTimerExpiry key => Sys2Proof.Machine.execHoldTimerExpiry key s
  | .quietTimerExpiry key => Sys2Proof.Machine.execQuietTimerExpiry key s
  | .refusalBlinkExpiry key => Sys2Proof.Machine.execRefusalBlinkExpiry key s
  | .deferredEntryExpiry => Sys2Proof.Machine.execDeferredEntryExpiry s
  | .slotExpiry slot => Sys2Proof.Machine.execSlotExpiry slot s
  | .waitTimerExpiry player => Sys2Proof.Machine.execWaitTimerExpiry player s
  | .contactReading reading => Sys2Proof.Machine.execContactReading reading s
  | .debounceTimerExpiry => Sys2Proof.Machine.execDebounceTimerExpiry s
  | .rackSample => Sys2Proof.Machine.execRackSample s
  | .dwellEnd circuit => Sys2Proof.Machine.execDwellEnd circuit s
  | .pwmPeriodEnd line => Sys2Proof.Machine.execPwmPeriodEnd line s
  | .unknownRequestKind port kind tag => Sys2Proof.Machine.execUnknownRequestKind port kind tag s

end Sys2Proof.Machine
end

