-- ==== Sys2Proof/Machine/Step.lean ====
section
/-! DEFINITION. One step: the command at the front of the queue, or, on an empty queue, the first event due, or one microsecond of time (notes/assumptions/3.md). -/

namespace Sys2Proof.Machine

/-- One step of the part on an empty queue. -/
def idle (s : State) : Host.Outcome State Fault Refusal :=
  match s.dueEvents with
  | e :: _ => exec e s
  | [] => .next (s.elapse Config.tick)

/-- One step of the part: the command at the front of the queue is taken with the queue's rest. -/
def step (s : State) : Host.Outcome State Fault Refusal :=
  match s.pending with
  | c :: rest => exec c { s with pending := rest }
  | [] => idle s

/-- `s` with the command a word spells at the front of its queue; the table gives no row bits, so no word spells one
(notes/assumptions/30.md). -/
def State.withFetchWord (s : State) (nbits w : Nat) : State :=
  match decodeTableWord nbits w with
  | some c => { s with pending := c :: s.pending }
  | none => s

end Sys2Proof.Machine
end

