-- ==== Sys2Proof/Safety.lean ====
section
/-! DEFINITION. What the part keeps at every step, and the words the statements are written in: a port ready to be served, the state a plain reply leaves, the requests with their ports, kind codes and tags, what an event leaves of claims and notices, and the records a write refuses. -/

namespace Sys2Proof.Machine

/-! ## Invariants -/

/-- A claim list in the order of R7: highest rank first, and at most one claim of each owner. -/
def Listed (l : List Claim) : Prop := l.Pairwise (fun a b => b.rank ≤ a.rank) ∧ (l.map Claim.owner).Nodup

/-- Every claim list is in the order of R7. -/
def ListsInOrder (s : State) : Prop := ∀ c, Listed (s.claims c)

/-- A port's queue holds at most 16 notices (R190) and its counters stand at most at 65535 (R193). -/
def PortState.Bounded (x : PortState) : Prop :=
  x.queue.length ≤ Config.queueSlots ∧ x.badFrames ≤ Config.counterTop ∧ x.busyReplies ≤ Config.counterTop
    ∧ x.leaseLosses ≤ Config.counterTop ∧ x.noticesDropped ≤ Config.counterTop

/-- A loop's counters stand at most at 65535 (R193). -/
def LoopState.Bounded (x : LoopState) : Prop := x.pollMisses ≤ Config.counterTop ∧ x.typeMismatches ≤ Config.counterTop

/-- The global counters stand at most at 65535 (R193). -/
def GlobalCounters.Bounded (x : GlobalCounters) : Prop :=
  x.keyLockouts ≤ Config.counterTop ∧ x.deferredDropped ≤ Config.counterTop ∧ x.deferredExpired ≤ Config.counterTop
    ∧ x.poolRefusals ≤ Config.counterTop ∧ x.emergencyEntries ≤ Config.counterTop

/-- The trackers taken: at most 32, each under a number of its own (R45), and at most 8 of one port (R46). -/
structure TrackersFit (l : List Tracker) : Prop where
  pool : l.length ≤ Config.trackerPool
  numbers : (l.map Tracker.id).Nodup
  ports : ∀ p, (l.filter fun t => t.port == p).length ≤ Config.trackersPerPort

/-- The claim lists hold no more than the 1024 records of the pool (R21), and the trackers fit theirs (R45, R46). -/
structure Stocked (s : State) : Prop where
  pool : s.recordsInUse ≤ Config.poolSize
  trackers : TrackersFit s.trackers

/-- The claim pool, the trackers, the notice queues, the deferred queue and the counters stay within their sizes (R21,
R45, R46, R122, R190, R193). -/
structure WithinBounds (s : State) : Prop where
  ports : ∀ i, (s.ports.get i).Bounded
  loops : ∀ i, (s.loops.get i).Bounded
  counters : s.counters.Bounded
  deferred : s.deferred.length ≤ Config.deferredSlots
  stock : Stocked s

/-- The group store, the preset store and the binding table hold no more than their slots (R54, R57, R89), and no group
or preset names a circuit twice (R53, R56). -/
def Tables.Fit (t : Tables) : Prop :=
  Tables.membersUsed t ≤ Config.memberSlots ∧ Tables.pairsUsed t ≤ Config.pairSlots
    ∧ t.bindings.length ≤ Config.bindingSlots
    ∧ (∀ g, (t.groups.get g).Nodup) ∧ ∀ n d, t.presets.get n = some d → (d.pairs.map Prod.fst).Nodup

/-- The live tables fit their stores, and so do tables that are being loaded (R196). -/
structure StoresFit (s : State) : Prop where
  live : Tables.Fit s.tables
  loading : ∀ t v, s.startup = .judging t v → Tables.Fit t

/-- Transitions toward a fixed level exist on forced circuits only, and the recovery set is empty except while
RECOVERING (R35, R41, R157). -/
structure ForcingInOrder (s : State) : Prop where
  fixed : ∀ c t, (s.circuit c).transition = some t → t.fixed.isSome → s.forced c = true ∧ s.startup = .running
  recovery : s.emergency.state ≠ .recovering → s.emergency.recovery = []

/-- The relay record of a DIMMED circuit stands at OFF, OFF, not running, and so does every relay record until
start-up has ended, before which no sample is due (R169, R173, R178). -/
structure RelaysInOrder (s : State) : Prop where
  dimmed : ∀ c, (s.record c).kind.isSwitched = false → (s.circuit c).relay = Relay.clear
  starting : s.startup ≠ .running → ∀ c, (s.circuit c).relay = Relay.clear
  samples : s.startup ≠ .running → s.rackDue = none

/-- A slot is in use only while the mode is SHOW and its owner port is ONLINE (R109, R116). -/
def SlotsInOrder (s : State) : Prop :=
  ∀ n k, s.slot n = some k → s.mode = some .inShow ∧ (s.port k.owner).isOnline = true

/-! ## Words of the statements -/

/-- Gate and permission sets stand in the order of their bits, as every set read from a bit field does. -/
structure Tables.Canonical (t : Tables) : Prop where
  gates : ∀ b ∈ t.bindings, namesOf HouseMode.all (bitsOf HouseMode.all b.gate) = b.gate
  permissions : ∀ r ∈ t.roles.rows.toList, namesOf Permission.all (bitsOf Permission.all r.permissions) = r.permissions


/-- Port `p` is ready to have a request served (R180, R185): the part runs, the port is not LOST and not busy, and no
replay is owed from an earlier command (notes/assumptions/24.md). -/
structure Ready (s : State) (p : Port) : Prop where
  running : s.startup = .running
  listening : s.isLost p = false
  free : s.busy p = false
  settled : s.replayOwed = false

/-- Port `p` may write tables now (R55 and the rules like it): EDIT, the mode not SHOW, no save in progress. -/
structure MayEdit (s : State) (p : Port) : Prop where
  allowed : s.permits p .edit = true
  mode : s.inShow = false
  saves : s.save = none

/-- The reply to a request, its header read from `t` (R188). -/
def replyFrom (t : State) (p : Port) (kind tag : Byte) (status : Status) (body : ReplyBody) : Reply :=
  { kind := kind, tag := tag, status := status, waiting := (t.port p).queue.length, mode := t.mode,
    emergency := t.emergency.state, body := body }

/-- Port `p` has been given this reply, its header as `t` stands (R188). -/
def Replied (t : State) (p : Port) (kind tag : Byte) (status : Status) (body : ReplyBody) : Prop :=
  (t.port p).lastReply = some (replyFrom t p kind tag status body)

/-- Port `p` is ONLINE with its lease started anew at `s` and no orphan hold running (R180, R182). -/
def Leased (s t : State) (p : Port) : Prop :=
  (t.port p).link = .online (s.now + (s.role p).lease * Config.second) ∧ (t.port p).orphanEnd = none

/-- `s` with nothing changed but port `p`: its lease started anew, its orphan hold cancelled, and the reply sent. -/
def answered (s : State) (p : Port) (kind tag : Byte) (status : Status) (body : ReplyBody) : State :=
  s.onPort p fun x =>
    { x with
      link := .online (s.now + (s.role p).lease * Config.second)
      orphanEnd := none
      lastReply := some (replyFrom s p kind tag status body) }

/-- The checks every table write begins with, in their order (R2, R55, R58, R59, R67, R90, R129, R147, R166, R197): DENIED
where the port lacks permission, SHOW_ACTIVE in SHOW, BUSY_SAVING during a save. Each answers port `p` with its status and
changes nothing but the lease and the reply. -/
structure EditRefused (s : State) (p : Port) (tag : Byte) (allowed : Bool) (run : Host.Outcome State Fault Refusal) :
    Prop where
  denied : allowed = false → run = .next (answered s p 0x41 tag .denied .empty)
  showActive : allowed = true → s.mode = some .inShow → run = .next (answered s p 0x41 tag .showActive .empty)
  saving : allowed = true → s.mode ≠ some .inShow → s.save ≠ none →
    run = .next (answered s p 0x41 tag .busySaving .empty)

/-- The port, kind code and tag of a command that is a valid request frame (R187). -/
def requestOf : Instr → Option (Port × Byte × Byte)
  | .ping p tag _ => some (p, 0x01, tag)
  | .place p tag _ => some (p, 0x10, tag)
  | .release p tag _ => some (p, 0x11, tag)
  | .recall p tag _ => some (p, 0x12, tag)
  | .setMode p tag _ => some (p, 0x20, tag)
  | .standby p tag _ => some (p, 0x21, tag)
  | .go p tag _ => some (p, 0x22, tag)
  | .cancel p tag _ => some (p, 0x23, tag)
  | .runSequence p tag _ => some (p, 0x24, tag)
  | .setPlayer p tag _ => some (p, 0x25, tag)
  | .emergencyOn p tag _ => some (p, 0x26, tag)
  | .clearEmergency p tag _ => some (p, 0x27, tag)
  | .queryCircuit p tag _ => some (p, 0x30, tag)
  | .queryStation p tag _ => some (p, 0x31, tag)
  | .readNotices p tag _ => some (p, 0x32, tag)
  | .subscribe p tag _ => some (p, 0x33, tag)
  | .readCounters p tag _ => some (p, 0x34, tag)
  | .readRankTable p tag _ | .readGroup p tag _ | .readPreset p tag _ | .readBindings p tag _
  | .readStationTable p tag _ | .readSequence p tag _ | .readModeRecord p tag _ | .readCircuitRecord p tag _
  | .readRoleRecord p tag _ | .readSystemSetting p tag _ => some (p, 0x40, tag)
  | .writeRankTable p tag _ | .writeGroup p tag _ | .writePresetOpen p tag _ | .writePresetPairs p tag _
  | .writeBindings p tag _ | .writeStationTable p tag _ | .writeSequence p tag _ | .writeModeRecord p tag _
  | .writeCircuitRecord p tag _ | .writeRoleRecord p tag _ | .writeSystemSetting p tag _ => some (p, 0x41, tag)
  | .saveConfig p tag _ => some (p, 0x42, tag)
  | .restart p tag _ => some (p, 0x43, tag)
  | .unknownRequestKind p kind tag => some (p, kind, tag)
  | .fullReset | .imageTaken _ | .startupEnd | .badFrame _ _ | .lostFrameIgnored _ | .saveDone | .saveFailed _
  | .leaseExpiry _ | .lostTimerExpiry _ | .orphanHoldExpiry _ | .fadeCompletion _ _ | .transitionEnd _ | .poll _
  | .report _ _ | .replyWindowExpiry _ | .holdTimerExpiry _ | .quietTimerExpiry _ | .refusalBlinkExpiry _
  | .deferredEntryExpiry | .slotExpiry _ | .waitTimerExpiry _ | .contactReading _ | .debounceTimerExpiry
  | .rackSample | .dwellEnd _ | .pwmPeriodEnd _ => none

/-- The command is a valid frame whose payload is not of the form its kind requires, or whose kind is unknown (R185). -/
def malformedRequest : Instr → Bool
  | .ping _ _ .malformed | .place _ _ .malformed | .release _ _ .malformed | .recall _ _ .malformed
  | .setMode _ _ .malformed | .standby _ _ .malformed | .go _ _ .malformed | .cancel _ _ .malformed
  | .runSequence _ _ .malformed | .setPlayer _ _ .malformed | .emergencyOn _ _ .malformed
  | .clearEmergency _ _ .malformed | .queryCircuit _ _ .malformed | .queryStation _ _ .malformed
  | .readNotices _ _ .malformed | .subscribe _ _ .malformed | .readCounters _ _ .malformed
  | .readRankTable _ _ .malformed | .readGroup _ _ .malformed | .readPreset _ _ .malformed
  | .readBindings _ _ .malformed | .readStationTable _ _ .malformed | .readSequence _ _ .malformed
  | .readModeRecord _ _ .malformed | .readCircuitRecord _ _ .malformed | .readRoleRecord _ _ .malformed
  | .readSystemSetting _ _ .malformed | .writeRankTable _ _ .malformed | .writeGroup _ _ .malformed
  | .writePresetOpen _ _ .malformed | .writePresetPairs _ _ .malformed | .writeBindings _ _ .malformed
  | .writeStationTable _ _ .malformed | .writeSequence _ _ .malformed | .writeModeRecord _ _ .malformed
  | .writeCircuitRecord _ _ .malformed | .writeRoleRecord _ _ .malformed | .writeSystemSetting _ _ .malformed
  | .saveConfig _ _ .malformed | .restart _ _ .malformed => true
  | .unknownRequestKind _ _ _ => true
  | _ => false

/-- Notice `n` stands in the queue of port `q`, or the queue was full and the overflow flag is set (R190). -/
def Told (v : State) (q : Port) (n : Notice) : Prop := n ∈ (v.port q).queue ∨ (v.port q).overflow = true

/-- Every ONLINE port subscribed to its kind has been told notice `n` (R189). -/
def Announced (v : State) (n : Notice) : Prop :=
  ∀ q, (v.port q).isOnline = true → n.kind ∈ (v.port q).subscriptions → Told v q n

/-- A claim without regard to its tracker link. -/
def Claim.unlinked (c : Claim) : Claim := { c with tracker := none }

/-- What arbitration and levels at rest read of a claim: its rank, target and cause key. -/
def Claim.wish (c : Claim) : Rank × Nat × Option KeyAddr := (c.rank, c.target, c.cause)

/-- The part of a placement's items that falls on circuit `c`. -/
def itemOn (items : List PlaceItem) (c : Circuit) : Option PlaceItem := items.find? fun x => x.circuit == c

/-- No EFFECTIVE claim of an owner other than `o` on circuit `c` stands above rank `r`: a claim of `o` entering rank `r`
at the front is in command there (R7, R8). -/
def Commands (s : State) (o : Owner) (c : Circuit) (r : Rank) : Prop :=
  ∀ y ∈ s.claims c, y.owner ≠ o → y.isEffective = true → y.rank ≤ r

/-- The transition a start of this cause, goal and duration leaves on a circuit standing at `level` (R37): none with
duration 0. -/
def started (cause : TransitionCause) (fixed : Option Nat) (level duration : Nat) : Option Transition :=
  if duration = 0 then none else some { cause := cause, fixed := fixed, start := level, duration := duration, spent := 0 }

/-- The transition `t` continued from `level` (R39): of the same cause over the rest of its time, with what its elapsed
time held beyond whole tenths. A FIXED one is not continued, nor one whose time is spent, whose end is to come
(notes/assumptions/18.md). -/
def continuedFrom (level : Nat) (t : Transition) : Transition :=
  if t.fixed = none ∧ t.spent < t.duration * 100000 then
    { t with start := level, duration := t.duration - t.spent / 100000, spent := t.spent % 100000 }
  else t

/-- `y` is what the judgement of the WAITING claims (R16) by event number `event` leaves of a circuit that the event's own
changes left as `x`. While a claim in command has a fade, they wait on. Where none has, every one becomes EFFECTIVE: one
in command then fades over its held fade time, from the level the circuit stands at (notes/assumptions/40.md), and the
others, like one of held fade time 0, are complete and linked to no tracker; the transition is continued where one of them
is in command (R39), and else stands. EFFECTIVE claims keep their state. -/
structure Judged (modes : Tab MergeMode 8) (r : CircuitRecord) (e : EmergencyState) (event : Nat) (x y : CircuitState) :
    Prop where
  stands : ∀ o c, claimOf o x.claims = some c → c.isEffective = true →
    (claimOf o y.claims).map Claim.state = some c.state
  waits : ∀ o c h, commandFading modes x.claims = true → claimOf o x.claims = some c → c.state = .waiting h →
    (claimOf o y.claims).map Claim.state = some (.waiting h)
  fades : ∀ o c h, commandFading modes x.claims = false → claimOf o x.claims = some c → c.state = .waiting h →
    inCommandOf modes y.claims o = true → 0 < h → (claimOf o y.claims).map Claim.state =
      some (.effective (some { start := x.levelUnder modes r e, duration := h, spent := 0, event := event }))
  completes : ∀ o c h, commandFading modes x.claims = false → claimOf o x.claims = some c → c.state = .waiting h →
    (inCommandOf modes y.claims o = false ∨ h = 0) →
      (claimOf o y.claims).map (fun d => (d.state, d.tracker)) = some (.effective none, none)
  continues : commandFading modes x.claims = false →
    (∃ c ∈ x.claims, c.isEffective = false ∧ inCommandOf modes y.claims c.owner = true) →
    y.transition = x.transition.map (continuedFrom (x.levelUnder modes r e))
  rests : (commandFading modes x.claims = true
      ∨ ∀ c ∈ x.claims, c.isEffective = false → inCommandOf modes y.claims c.owner = false) →
    y.transition = x.transition

/-- The claim `c` has a fade that event `n` gave it and that has reached its duration (R34). -/
def Claim.ended (n : Nat) (c : Claim) : Bool :=
  match c.state with
  | .effective (some f) => f.event == n && decide (f.duration * 100000 ≤ f.spent)
  | .effective none => false
  | .waiting _ => false

/-- `x` is circuit `c` as a placement's own changes leave it (R13 to R15, R39): the owner's one claim enters its rank, in
the state R13 to R15 give it, and where it is left in command a LIVE transition is continued from the circuit level. -/
structure Changed (s : State) (o : Owner) (wait : Bool) (c : Circuit) (it : PlaceItem) (x : CircuitState) : Prop where
  enters : ∃ n : Claim, x.claims = enterRank n (without o (s.claims c)) ∧ n.owner = o
    ∧ n.wish = (it.rank, it.target, it.cause)
    ∧ ((wait && mustWait s.tables.ranks (without o (s.claims c)) it.rank) = true → n.state = .waiting it.fade)
    ∧ ((wait && mustWait s.tables.ranks (without o (s.claims c)) it.rank) = false →
        (0 < it.fade → Commands s o c it.rank →
          n.state = .effective (some { start := s.level c, duration := it.fade, spent := 0, event := s.event }))
        ∧ ((it.fade = 0 ∨ ¬ Commands s o c it.rank) → n.state = .effective none))
  continues : (wait && mustWait s.tables.ranks (without o (s.claims c)) it.rank) = false → Commands s o c it.rank →
    x.transition = (s.circuit c).transition.map (continuedFrom (s.level c))
  rests : ((wait && mustWait s.tables.ranks (without o (s.claims c)) it.rank) = true ∨ ¬ Commands s o c it.rank) →
    x.transition = (s.circuit c).transition

/-- `v` holds the claims of `s` after a placement of owner `o` whose tracker gives the link `link` (R13 to R17, R46). On
each circuit named, the owner's one claim carries the placement's wish: WAITING with the held fade time where R15 says so;
else fading from the circuit level where it is in command and the fade time is above 0; else complete. It enters its rank
at the front of the list without the owner's earlier claim (R7, R13), and while it waits or fades it is linked to the
tracker, a complete claim to none; a slot's claims stay linked while the slot stands (R116). No other claim's wish is
changed, nor the state of one that is EFFECTIVE; the WAITING ones are judged after the placement's own changes, which
continue a LIVE transition where the claim placed is in command (R16, R39). A circuit not named keeps its claims but for
links, and its transition. No transition is started (R13), and a FIXED one, as a forced circuit alone carries, stands
(R39, R41). A placement of FIELD takes its circuits out of the raise sets they stand in, and no
other placement changes a raise set (R100). -/
structure PlacedAs (s v : State) (o : Owner) (items : List PlaceItem) (wait : Bool) (link : Option TrackerLink) : Prop where
  named : ∀ c it, itemOn items c = some it → ∃ x ∈ v.claims c, x.owner = o ∧ x.wish = (it.rank, it.target, it.cause)
    ∧ ((wait && mustWait s.tables.ranks (without o (s.claims c)) it.rank) = true → x.state = .waiting it.fade)
    ∧ ((wait && mustWait s.tables.ranks (without o (s.claims c)) it.rank) = false →
        (0 < it.fade → Commands s o c it.rank →
          x.state = .effective (some { start := s.level c, duration := it.fade, spent := 0, event := s.event }))
        ∧ ((it.fade = 0 ∨ ¬ Commands s o c it.rank) → x.state = .effective none))
    ∧ (x.state = .effective none → x.tracker = none)
    ∧ (x.state ≠ .effective none → (∀ n, link = some (.slot n) → v.slot n ≠ none) → x.tracker = link)
  order : ∀ c it, itemOn items c = some it → (v.claims c).map (fun x => (x.owner, x.wish)) =
    (enterRank
      { owner := o, rank := it.rank, state := .effective none, target := it.target, cause := it.cause, tracker := none }
      (without o (s.claims c))).map fun x => (x.owner, x.wish)
  others : ∀ c q, q ≠ o → (claimOf q (v.claims c)).map Claim.wish = (claimOf q (s.claims c)).map Claim.wish
  standing : ∀ c q x, q ≠ o → claimOf q (s.claims c) = some x → x.isEffective = true →
    (claimOf q (v.claims c)).map Claim.state = some x.state
  elsewhere : ∀ c, itemOn items c = none → (v.claims c).map Claim.unlinked = (s.claims c).map Claim.unlinked
    ∧ (v.circuit c).transition = (s.circuit c).transition
  judged : ∀ c it, itemOn items c = some it → ∃ x, Changed s o wait c it x
    ∧ Judged s.tables.ranks (s.record c) s.emergency.state s.event x (v.circuit c)
  still : ∀ c, (s.circuit c).transition = none → (v.circuit c).transition = none
  fixed : ∀ c t, (s.circuit c).transition = some t → t.fixed.isSome = true → (v.circuit c).transition = some t
  raises : ∀ c, (v.circuit c).raisedBy = if o = .field ∧ itemOn items c ≠ none then none else (s.circuit c).raisedBy

/-- `v` holds the claims of `s` after a release of owner `o` on these circuits over release time `time` (R19): its claims
there are gone, the list otherwise in its order; no other claim's wish is changed, nor the state of one that is EFFECTIVE,
and a circuit not named keeps its claims but for links, and its transition. Where the claim was in command on a circuit not
forced, a RELEASE transition runs from the level left, none with release time 0 (R37); elsewhere the transition is that of
before, and the WAITING claims are judged then (R16). A release of FIELD takes its circuits out of the raise sets they
stand in, and no other release changes a raise set (R100). -/
structure ReleasedAs (s v : State) (o : Owner) (cs : List Circuit) (time : Nat) : Prop where
  gone : ∀ c ∈ cs, claimOf o (v.claims c) = none
  order : ∀ c ∈ cs, (v.claims c).map (fun x => (x.owner, x.wish)) =
    (without o (s.claims c)).map fun x => (x.owner, x.wish)
  others : ∀ c q, q ≠ o → (claimOf q (v.claims c)).map Claim.wish = (claimOf q (s.claims c)).map Claim.wish
  standing : ∀ c q x, q ≠ o → claimOf q (s.claims c) = some x → x.isEffective = true →
    (claimOf q (v.claims c)).map Claim.state = some x.state
  elsewhere : ∀ c, c ∉ cs → (v.claims c).map Claim.unlinked = (s.claims c).map Claim.unlinked
    ∧ (v.circuit c).transition = (s.circuit c).transition
  moved : ∀ c ∈ cs, s.inCommand c o = true → s.forced c = false →
    (v.circuit c).transition = started .release none (s.level c) time
  judged : ∀ c ∈ cs, ∃ x, x.claims = without o (s.claims c)
    ∧ (s.inCommand c o = true → s.forced c = false → x.transition = started .release none (s.level c) time)
    ∧ (s.inCommand c o = false ∨ s.forced c = true → x.transition = (s.circuit c).transition)
    ∧ Judged s.tables.ranks (s.record c) s.emergency.state s.event x (v.circuit c)
  raises : ∀ c, (v.circuit c).raisedBy = if o = .field ∧ c ∈ cs then none else (s.circuit c).raisedBy

/-- The checks of R11 on a placement of port `p` at rank `r` pass on these circuits (R11, R12). -/
structure MayPlace (s : State) (p : Port) (r : Nat) (cs : List Circuit) : Prop where
  reach : ∀ c ∈ cs, s.mayReach p c = true
  rank : r ≤ (s.role p).maxRank.val
  unlocked : s.locked (.port p) (rankOf r) cs = false
  room : s.recordsNeeded (.port p) cs ≤ s.freeRecords

/-- The recovery set of `s` without the circuits whose RECOVERY transition runs no longer in `v` (R40, R161). -/
def recoveriesLeft (s v : State) : List Circuit :=
  s.emergency.recovery.filter fun c => !(s.circuit c).recovering || (v.circuit c).recovering

/-- `v` is `s` after events of the Claim Table: only the claims and transitions of circuits, trackers, slots, notices to
ports, the recovery set, and the model's event number and replay note may differ. No RECOVERY transition appears. The
emergency state stands, and so does the recovery set but while RECOVERING, where a circuit whose recovery is overtaken or
removed leaves it and the last one brings NORMAL with EMERGENCY RECOVERY_COMPLETE (R161, R163). -/
structure ClaimEvent (s v : State) : Prop where
  rest : v = { s with
    circuits := v.circuits, trackers := v.trackers, slots := v.slots, ports := v.ports, emergency := v.emergency,
    event := v.event, replayOwed := v.replayOwed }
  relays : ∀ c, (v.circuit c).relay = (s.circuit c).relay
  contact : v.emergency = { s.emergency with state := v.emergency.state, recovery := v.emergency.recovery }
  recoveries : ∀ c, (v.circuit c).recovering = true → (s.circuit c).recovering = true
  emergency : s.emergency.state ≠ .recovering → v.emergency = s.emergency
  recovering : s.emergency.state = .recovering → s.emergency.recovery = [] ∨ recoveriesLeft s v ≠ [] →
    v.emergency = { s.emergency with recovery := recoveriesLeft s v }
  recovered : s.emergency.state = .recovering → s.emergency.recovery ≠ [] → recoveriesLeft s v = [] →
    v.emergency = { s.emergency with state := .normal, recovery := [] }
      ∧ Announced v (.emergency .normal s.emergency.accepted .recoveryComplete 0)
  ports : ∀ q, v.port q = { s.port q with
    queue := (v.port q).queue, overflow := (v.port q).overflow, noticesDropped := (v.port q).noticesDropped }

/-! ## Notices told, trackers settled -/

/-- The number of circuits on which the claim of port `q` was in command in `s` and is not in `v`, where a claim of `o` is
(R23). -/
def takenFrom (s v : State) (q : Port) (o : Owner) : Nat :=
  ((indices 192).filter fun c => s.inCommand c (.port q) && !v.inCommand c (.port q) && v.inCommand c o).length

/-- The number of circuits on which the claim of port `q` was held in `s` and is in command in `v` (R24). -/
def givenBack (s v : State) (q : Port) : Nat :=
  ((indices 192).filter fun c => s.held c (.port q) && v.inCommand c (.port q)).length

/-- Every ONLINE port other than the actor has been told what command the actor's event took from it (R23) and gave back
to it (R24). -/
structure CommandTold (s v : State) (actor : Owner) : Prop where
  taken : ∀ q, Owner.port q ≠ actor → (v.port q).isOnline = true → 0 < takenFrom s v q actor →
    Told v q (.preempted actor (takenFrom s v q actor))
  given : ∀ q, Owner.port q ≠ actor → (v.port q).isOnline = true → 0 < givenBack s v q →
    Told v q (.restored (givenBack s v q))

/-- The claim `x`, which waited or faded on circuit `c`, is complete in `v` (R16, R34). -/
def arrived (v : State) (c : Circuit) (x : Claim) : Bool :=
  x.state != .effective none && (claimOf x.owner (v.claims c)).any fun y => y.state == .effective none

/-- The links to `l` that the claims of `s` lose in an event that leaves `v` (R47): those of the claims of `o` on `cs`,
which it places anew or releases, and those of claims it completes. -/
def linksLost (s v : State) (o : Option Owner) (cs : List Circuit) (l : TrackerLink) : Nat :=
  ((indices 192).map fun c => ((s.claims c).filter fun x =>
    x.tracker == some l && (o == some x.owner && cs.contains c || arrived v c x)).length).sum

/-- How an event that leaves `v` settles the trackers of `s` (R46 to R49, R116, R117). Every pool tracker is decremented
by the links its claims lose, those at zero are freed with FADE_DONE to their ONLINE port, and those `taken` stand behind
them. Every GOING slot but that of the `cue` is decremented in the same way, and ends with STANDBY_END at zero; a slot's
end leaves a replay owed. -/
structure LinksSettle (s v : State) (o : Option Owner) (cs : List Circuit) (taken : List Tracker)
    (cue : Option SlotNo) : Prop where
  trackers : v.trackers =
    ((s.trackers.map fun t => { t with count := t.count - linksLost s v o cs (.pool t.id) }).filter
      fun t => t.count != 0) ++ taken
  done : ∀ t ∈ s.trackers, t.count ≤ linksLost s v o cs (.pool t.id) → (v.port t.port).isOnline = true →
    Told v t.port (.fadeDone t.tag)
  going : ∀ n k m, cue ≠ some n → s.slot n = some k → k.phase = .going m → linksLost s v o cs (.slot n) < m →
    v.slot n = some { k with phase := .going (m - linksLost s v o cs (.slot n)) }
  ended : ∀ n k m, cue ≠ some n → s.slot n = some k → k.phase = .going m → m ≤ linksLost s v o cs (.slot n) →
    v.slot n = none ∧ ((v.port k.owner).isOnline = true → Told v k.owner (.standbyEnd n .done))
  armed : ∀ n k, cue ≠ some n → s.slot n = some k → k.phase = .armed → v.slot n = some k
  free : ∀ n, s.slot n = none → v.slot n = none
  owed : v.replayOwed = true ↔ s.replayOwed = true ∨ ∃ n, s.slot n ≠ none ∧ v.slot n = none

/-- The claim of `o` on circuit `c` waits or fades: it is not complete (R4). -/
def travels (s : State) (o : Owner) (c : Circuit) : Bool :=
  match claimOf o (s.claims c) with
  | some x => x.state != .effective none
  | none => false

/-- The number of claims of a placement that wait or fade on tracker `l` when it is done; links that stood to `l` before
and are lost in it are taken off, none in a state where a tracker that is taken is free of links. -/
def travelling (s v : State) (o : Owner) (cs : List Circuit) (l : TrackerLink) : Nat :=
  (cs.filter (travels v o)).length - linksLost s v (some o) cs l

/-- The tracker of a port's PLACE or RECALL (R46): none without a tag; with one, a pool tracker that was free, where the
port holds fewer than 8, else none and OK_UNTRACKED. It counts the claims that travel, and one that counts none is freed
at once with FADE_DONE (R48, R49). -/
structure TrackerTaken (s v : State) (p : Port) (tag : Byte) (cs : List Circuit) (status : Status)
    (link : Option TrackerLink) : Prop where
  untagged : tag = 0 → status = .ok ∧ link = none
  taken : tag ≠ 0 → (s.trackers.filter fun t => t.port == p).length < 8 →
    (∃ i : Fin 32, ∀ t ∈ s.trackers, t.id ≠ i) → status = .ok ∧ ∃ i, link = some (.pool i) ∧ ∀ t ∈ s.trackers, t.id ≠ i
  refused : tag ≠ 0 → (8 ≤ (s.trackers.filter fun t => t.port == p).length
    ∨ ∀ i : Fin 32, ∃ t ∈ s.trackers, t.id = i) → status = .okUntracked ∧ link = none
  untracked : ListsInOrder s → StoresFit s → link = none → LinksSettle s v (some (.port p)) cs [] none
  counted : ListsInOrder s → StoresFit s → ∀ i m, link = some (.pool i) → travelling s v (.port p) cs (.pool i) = m →
    (0 < m → LinksSettle s v (some (.port p)) cs [{ id := i, port := p, tag := tag, count := m }] none)
    ∧ (m = 0 → LinksSettle s v (some (.port p)) cs [] none ∧ Told v p (.fadeDone tag))

/-- Slot `n`, which stood as `k`, after its GO has placed the cue on `cs` (R113, R117): GOING with the claims that travel
and a new expiry, or ended DONE where none does. -/
structure CueRuns (s v : State) (n : SlotNo) (k : Slot) (cs : List Circuit) : Prop where
  stands : ∀ y, v.slot n = some y → y.phase ≠ .armed ∧ y.owner = k.owner ∧ y.locked = k.locked
    ∧ y.lockRank = k.lockRank ∧ y.expiry = s.now + k.timeout * 1000000
  others : ListsInOrder s → StoresFit s → LinksSettle s v (some (.port k.owner)) cs [] (some n)
  going : ListsInOrder s → StoresFit s → ∀ m, travelling s v (.port k.owner) cs (.slot n) = m → 0 < m →
    v.slot n = some { k with phase := .going m, expiry := s.now + k.timeout * 1000000 }
  ended : ListsInOrder s → StoresFit s → travelling s v (.port k.owner) cs (.slot n) = 0 →
    v.slot n = none ∧ Told v k.owner (.standbyEnd n .done)

/-! ## Refusals of a placement -/

/-- The refusals of a port's placement in the order of R11, its target expanding into `cs`, none where it is undefined;
POOL_FULL raises POOL_REFUSALS (R12, R22). A request refused leaves everything but the lease and the reply. -/
structure RefusedInOrder (s : State) (p : Port) (kind tag : Byte) (run : Host.Outcome State Fault Refusal) (r : Nat)
    (cs : Option (List Circuit)) : Prop where
  badTarget : cs = none → run = .next (answered s p kind tag .badTarget .empty)
  denied : ∀ l, cs = some l → ((∃ c ∈ l, s.mayReach p c = false) ∨ (s.role p).maxRank.val < r) →
    run = .next (answered s p kind tag .denied .empty)
  locked : ∀ l, cs = some l → (∀ c ∈ l, s.mayReach p c = true) → r ≤ (s.role p).maxRank.val →
    s.locked (.port p) (rankOf r) l = true → run = .next (answered s p kind tag .locked .empty)
  poolFull : ∀ l, cs = some l → (∀ c ∈ l, s.mayReach p c = true) → r ≤ (s.role p).maxRank.val →
    s.locked (.port p) (rankOf r) l = false → s.freeRecords < s.recordsNeeded (.port p) l →
    run = .next (answered { s with
      counters := { s.counters with poolRefusals := min (s.counters.poolRefusals + 1) 65535 } } p kind tag .poolFull .empty)

/-! ## Players -/

/-- The player `y` with its pending rate, if any, taken into force (R138). -/
def ratedPlayer (y : Player) : Player := { y with rate := y.pendingRate.getD y.rate, pendingRate := none }

/-- The player `y` as a wait of `wait` tenths at its rate in force leaves it, from instant `now` on (R138). -/
def waitingPlayer (y : Player) (now wait : Nat) : Player :=
  { y with run := .running (now + max 1 (wait * 100 / y.rate) * 100000) }

/-- The release time of the sequence player `n` holds (R128); 0 where it holds none that is defined. -/
def releaseTime (s : State) (n : PlayerNo) : Nat :=
  (((s.player n).sequence.bind fun q => s.tables.sequences.get q).map SequenceDef.releaseTime).getD 0

/-- Player `n` has faulted for the reason `r`: it is OFF and IDLE at step 0, its claims are released over its sequence's
release time, and SEQ FAULT tells the step that failed (R142, R143, notes/assumptions/13.md). -/
structure Faulted (w v : State) (n : PlayerNo) (r : StepRefusal) : Prop where
  off : v.player n = { ratedPlayer (w.player n) with mode := .off, run := .idle, step := 0 }
  told : Announced v (.seq n (w.player n).sequence (.fault r) (w.player n).passes (w.player n).step)
  released : ReleasedAs w v (.seq n) (w.circuitsOf (.seq n)) (releaseTime w n)
  gone : ∀ c, claimOf (.seq n) (v.claims c) = none

/-- `v` is `w` after player `n` has taken the step `x` of sequence `q` at which it stands, or has faulted in it with the
refusal `refused` (R138, R141, R142); a step that is locked posts SEQ WAIT_LOCK (R143). -/
structure StepTaken (w v : State) (n : PlayerNo) (q : SequenceDef) (x : SeqStep) (refused : Option StepRefusal) : Prop where
  release : x.kind = .release → refused = none ∧ ReleasedAs w v (.seq n) (w.circuitsOf (.seq n)) x.fade
    ∧ v.player n = waitingPlayer (ratedPlayer (w.player n)) w.now x.wait
  undefined : ∀ a, x.kind = .recall a → w.presetDef a = none → refused = some .badTarget ∧ Faulted w v n .badTarget
  locked : ∀ a d, x.kind = .recall a → w.presetDef a = some d → w.locked (.seq n) q.rank (d.pairs.map Prod.fst) = true →
    refused = none ∧ v.player n = { ratedPlayer (w.player n) with run := .waitLock } ∧ v.circuits = w.circuits
      ∧ Announced v (.seq n (w.player n).sequence .waitLock (w.player n).passes (w.player n).step)
  short : ∀ a d, x.kind = .recall a → w.presetDef a = some d → w.locked (.seq n) q.rank (d.pairs.map Prod.fst) = false →
    w.freeRecords < w.recordsNeeded (.seq n) (d.pairs.map Prod.fst) →
    refused = some .poolFull ∧ Faulted w v n .poolFull
      ∧ v.counters = { w.counters with poolRefusals := min (w.counters.poolRefusals + 1) 65535 }
  placed : ∀ a d, x.kind = .recall a → w.presetDef a = some d → w.locked (.seq n) q.rank (d.pairs.map Prod.fst) = false →
    w.recordsNeeded (.seq n) (d.pairs.map Prod.fst) ≤ w.freeRecords →
    refused = none
      ∧ PlacedAs w v (.seq n) (d.pairs.map fun y =>
          { circuit := y.1, target := y.2, fade := x.fade, rank := q.rank, cause := none }) false none
      ∧ v.player n = waitingPlayer (ratedPlayer (w.player n)) w.now x.wait
  rest : ClaimEvent { w with players := v.players, counters := v.counters } v ∧ (∀ k, k ≠ n → v.player k = w.player k)
    ∧ (refused ≠ some .poolFull → v.counters = w.counters)

/-- The player `y` at the start of a run of sequence `q`, before step 1 (R133). -/
def startingPlayer (y : Player) (q : SequenceNo) (m : RunMode) : Player :=
  { y with mode := m.toPlayer, run := .idle, sequence := some q, step := 1, passes := 0, heldRelease := none }

/-- `w` is `s` with a run of sequence `q` begun by `source` on player `n`, which stands before its step 1 (R133, R136): a
run of another sequence is stopped first, with SEQ STOPPED, and its claims are released over that sequence's release time;
those an earlier run of another sequence left under HOLD are released over the release time held. SEQ STARTED tells the run
(R143). -/
structure RunBegins (s w : State) (n : PlayerNo) (q : SequenceNo) (m : RunMode) (source : RunSource) : Prop where
  stands : ClaimEvent (s.setPlayer n (startingPlayer (s.player n) q m)) w
  kept : (s.player n).mode = .off → ((s.player n).heldRelease = none ∨ (s.player n).sequence = some q) →
    w.circuits = s.circuits ∧ w.slots = s.slots
  stopped : (s.player n).mode ≠ .off → (s.player n).sequence ≠ some q →
    ReleasedAs s w (.seq n) (s.circuitsOf (.seq n)) (releaseTime s n) ∧ (∀ c, claimOf (.seq n) (w.claims c) = none)
      ∧ Announced w (.seq n (s.player n).sequence (.stopped source) (s.player n).passes 0)
  held : (s.player n).mode = .off → ∀ t, (s.player n).heldRelease = some t → (s.player n).sequence ≠ some q →
    ReleasedAs s w (.seq n) (s.circuitsOf (.seq n)) t ∧ ∀ c, claimOf (.seq n) (w.claims c) = none
  told : Announced w (.seq n (some q) (.started source) 0 1)

/-- The reply status of a run whose step 1 had this refusal (R142). -/
def statusOf : Option StepRefusal → Status
  | none => .ok
  | some .badTarget => .badTarget
  | some .poolFull => .poolFull

/-- A run request of port `p` that has passed its checks, its lease and rate written in `b`, begins the run of sequence `q`
in `w` with SEQ STARTED and takes step 1, which leaves `v` (R133, R136, R138, R142): with no refusal the player runs from
step 1 with pass count 0, and with one it is OFF. -/
structure RunTaken (s b w v : State) (p : Port) (n : PlayerNo) (q : SequenceNo) (m : RunMode) (d : SequenceDef)
    (refused : Option StepRefusal) : Prop where
  begins : RunBegins b w n q m (.port p)
  step : ∀ x rest, d.steps = x :: rest → StepTaken w v n d x refused
  runs : refused = none → (v.player n).mode = m.toPlayer ∧ (v.player n).sequence = some q ∧ (v.player n).step = 1
    ∧ (v.player n).passes = 0
  faulted : refused ≠ none → (v.player n).mode = .off ∧ (v.player n).run = .idle ∧ (v.player n).step = 0
    ∧ ∀ c, claimOf (.seq n) (v.claims c) = none
  rest : (∀ k, k ≠ n → v.player k = s.player k) ∧ v.mode = s.mode ∧ v.tables = s.tables ∧ v.deferred = s.deferred

/-- The outcome of an entry sequence whose step 1 had this refusal (R151). -/
def outcomeOf : Option StepRefusal → SequenceOutcome
  | none => .started
  | some .badTarget => .badTarget
  | some .poolFull => .poolFull

/-- Player `n` has been stopped by `source`: OFF and IDLE at step 0, its claims released over its sequence's release time,
with SEQ STOPPED (R135, R143). -/
structure Stopped (s v : State) (n : PlayerNo) (source : RunSource) : Prop where
  off : v.player n = { s.player n with mode := .off, run := .idle, step := 0 }
  told : Announced v (.seq n (s.player n).sequence (.stopped source) (s.player n).passes 0)
  released : ReleasedAs s v (.seq n) (s.circuitsOf (.seq n)) (releaseTime s n)
  gone : ∀ c, claimOf (.seq n) (v.claims c) = none
  rest : ClaimEvent { s with players := v.players } v ∧ ∀ k, k ≠ n → v.player k = s.player k

/-- The number of circuits whose record holds an emergency level: those forced while the emergency state forces (R157). -/
def forcible (s : State) : Nat := ((indices 192).filter fun c => (s.record c).emergency.isSome).length

/-! ## Entry actions of a mode -/

/-- The entry preset of record `r` recalled as owner MODE (R150): `u` is what it leaves of `w`. -/
structure PresetEntered (w u : State) (r : ModeRecord) (outcome : PresetOutcome) : Prop where
  absent : r.entryPreset = none → outcome = .none ∧ u = w
  undefined : ∀ a, r.entryPreset = some a → w.presetDef a = none → outcome = .badTarget ∧ u = w
  short : ∀ a d, r.entryPreset = some a → w.presetDef a = some d →
    w.freeRecords < w.recordsNeeded .mode (d.pairs.map Prod.fst) → outcome = .poolFull
      ∧ u = { w with counters := { w.counters with poolRefusals := min (w.counters.poolRefusals + 1) 65535 } }
  placed : ∀ a d, r.entryPreset = some a → w.presetDef a = some d →
    w.recordsNeeded .mode (d.pairs.map Prod.fst) ≤ w.freeRecords → outcome = .placed
      ∧ PlacedAs w u .mode (d.pairs.map fun y =>
          { circuit := y.1, target := y.2, fade := r.entryFade, rank := r.entryRank, cause := none }) false none
      ∧ CommandTold w u .mode ∧ ClaimEvent w u

/-- The entry sequence of record `r` handed to its player (R151): `v` is what it leaves of `u`. -/
structure SequenceEntered (u v : State) (r : ModeRecord) (outcome : SequenceOutcome) : Prop where
  absent : r.entrySequence = none → outcome = .none ∧ v = u
  unchanged : ∀ n, r.entrySequence = some (.off n) → (u.player n).mode = .off → outcome = .unchanged ∧ v = u
  stopped : ∀ n, r.entrySequence = some (.off n) → (u.player n).mode ≠ .off → outcome = .stopped ∧ Stopped u v n .mode
  undefined : ∀ n m q, r.entrySequence = some (.run n m q) → u.tables.sequences.get q = none →
    outcome = .badTarget ∧ v = u
  continued : ∀ n m q d, r.entrySequence = some (.run n m q) → u.tables.sequences.get q = some d →
    (u.player n).mode ≠ .off → (u.player n).sequence = some q →
    outcome = .continued ∧ v = u.setPlayer n { u.player n with mode := m.toPlayer }
  started : ∀ n m q d x rest, r.entrySequence = some (.run n m q) → u.tables.sequences.get q = some d →
    d.steps = x :: rest → ((u.player n).mode = .off ∨ (u.player n).sequence ≠ some q) →
    ∃ b refused, RunBegins u b n q m .mode ∧ StepTaken b v n d x refused ∧ outcome = outcomeOf refused

/-- An entry preset or sequence was refused for BAD_TARGET or POOL_FULL (R152). -/
def entryRefused (preset : PresetOutcome) (sequence : SequenceOutcome) : Bool :=
  preset == .badTarget || preset == .poolFull || sequence == .badTarget || sequence == .poolFull

/-- `w` is `s` after the first stages of a change to mode `m` (R149): the mode is in force; where SHOW is left every slot is
FREE, its ONLINE owner told STANDBY_END of reason MODE_LEFT (R119); and the claims of MODE are released over the entry fade
time of the mode's record. -/
structure ModeLeft (s w : State) (m : HouseMode) : Prop where
  mode : w.mode = some m
  slots : s.mode = some .inShow → m ≠ .inShow → ∀ n, w.slot n = none
  told : s.mode = some .inShow → m ≠ .inShow → ∀ n k, s.slot n = some k → (s.port k.owner).isOnline = true →
    Told w k.owner (.standbyEnd n .modeLeft)
  released : ReleasedAs s w .mode (s.circuitsOf .mode) (s.tables.modes.get m.ix).entryFade
  gone : ∀ c, claimOf .mode (w.claims c) = none
  rest : ClaimEvent { s with mode := some m } w

/-- Mode `m` has been entered from `s` by `source`, and `v` is what that leaves, the replay apart (R149 to R152): the mode
before it is left, the entry preset of the record of `m` is recalled, its entry sequence handed to its player, and MODE
posted with both outcomes, in that order. -/
def ModeEntered (s v : State) (m : HouseMode) (source : ModeSource) (preset : PresetOutcome)
    (sequence : SequenceOutcome) : Prop :=
  ∃ w u x : State, ModeLeft s w m ∧ PresetEntered w u (s.tables.modes.get m.ix) preset
    ∧ SequenceEntered u x (s.tables.modes.get m.ix) sequence
    ∧ v = x.announce (.mode m s.mode source preset sequence (entryRefused preset sequence))

/-- The circuits that the entry actions of record `r` can touch: those of its entry preset, and those of the preset that
step 1 of its entry sequence recalls (R150, R151). -/
def entryCircuits (s : State) (r : ModeRecord) : List Circuit :=
  (match r.entryPreset with
    | some a => (pairsOf (s.presetDef a)).map Prod.fst
    | none => [])
  ++ match r.entrySequence with
    | some (.run _ _ q) =>
      (match ((s.tables.sequences.get q).bind fun d => d.steps.head?).map SeqStep.kind with
        | some (.recall a) => (pairsOf (s.presetDef a)).map Prod.fst
        | some .release => []
        | none => [])
    | some (.off _) => []
    | none => []

/-- `w` is `s` cleared by a restart, before the entry actions (R29, R44, R87, R183, R200): no claim, no raise set, every
player clear, a RESTART transition from its level on every circuit not forced, and no notice at an ONLINE port, its
overflow flag clear, but the one that a recovery has ended, where the clearing overtook the last (R161). -/
structure RestartCleared (s w : State) : Prop where
  claims : ∀ c, w.claims c = [] ∧ (w.circuit c).raisedBy = none ∧ (w.circuit c).relay = (s.circuit c).relay
  forced : ∀ c, s.forced c = true → (w.circuit c).transition = (s.circuit c).transition
  moved : ∀ c, s.forced c = false →
    (w.circuit c).transition = started .restart none (s.level c) s.tables.settings.restartFade
  players : ∀ n, w.player n = ⟨.off, .idle, none, 0, 0, 100, none, none⟩
  queues : ∀ q, (w.port q).isOnline = true → (w.port q).overflow = false
    ∧ (w.port q).noticesDropped = (s.port q).noticesDropped
    ∧ ((w.port q).queue = [] ∨ s.emergency.state = .recovering ∧ w.emergency.state = .normal
      ∧ (w.port q).queue = [.emergency .normal s.emergency.accepted .recoveryComplete 0])
  rest : w.tables = s.tables ∧ w.mode = s.mode ∧ w.trackers = [] ∧ (∀ n, w.slot n = none) ∧ w.deferred = []

/-! ## Raises -/

/-- `v` is `s` after the stop of the raise of key `k` (R101): nothing where its set is empty; else one placement of FIELD
that takes each FIELD claim of the set to its level, complete, at its own rank and with its cause key. The set is then
empty of every circuit that holds a FIELD claim, as all of a set do (R100). -/
structure RaiseStopped (s v : State) (k : KeyAddr) : Prop where
  idle : (∀ c, (s.circuit c).raisedBy ≠ some k) → v = s
  stopped : (∃ c, (s.circuit c).raisedBy = some k) → ∃ items : List PlaceItem,
    (∀ c, itemOn items c =
      if (s.circuit c).raisedBy = some k then
        (claimOf .field (s.claims c)).map fun x =>
          { circuit := c, target := x.level, fade := 0, rank := x.rank, cause := x.cause }
      else none)
    ∧ PlacedAs s v .field items false none ∧ CommandTold s v .field ∧ ClaimEvent s v
  emptied : ∀ c, (v.circuit c).raisedBy = some k → claimOf .field (s.claims c) = none

/-! ## Deferred entries -/

/-- The circuits a deferred entry touches as the tables stand: its snapshot, or those of its preset (R104). -/
def heldCircuits (s : State) (d : Deferred) : List Circuit :=
  match d.action with
  | .on cs _ => cs
  | .off cs => cs
  | .toggle cs _ => cs
  | .release cs => cs
  | .recall p => (pairsOf (s.presetDef p)).map Prod.fst

/-- What a replayed entry places (R95 to R97, R104): its level or 0 on the circuits of its snapshot, a TOGGLE by the
claims as they stand, a RECALL by the preset as it stands. -/
def EntryPlaces (s : State) (d : Deferred) (items : List PlaceItem) : Prop :=
  let item := fun level (c : Circuit) =>
    ({ circuit := c, target := level, fade := d.fade, rank := d.rank, cause := some d.key } : PlaceItem)
  (∃ cs level, d.action = .on cs level ∧ items = cs.map (item level))
  ∨ (∃ cs, d.action = .off cs ∧ items = cs.map (item 0))
  ∨ (∃ cs level, d.action = .toggle cs level ∧ items = cs.map (item 0)
      ∧ ∃ c ∈ cs, ∃ x ∈ s.claims c, x.owner = .field ∧ 0 < x.target)
  ∨ (∃ cs level, d.action = .toggle cs level ∧ items = cs.map (item level)
      ∧ ∀ c ∈ cs, ∀ x ∈ s.claims c, x.owner = .field → x.target = 0)
  ∨ (∃ p, d.action = .recall p ∧ items = (pairsOf (s.presetDef p)).map fun x => item x.2 x.1)

/-- A replay judges the deferred entry `d` and leaves `v` (R125): removed and counted where its gate lacks the mode,
kept where it is locked, dropped and counted where the pool cannot supply it, and else carried out. It changes no slot
(R126). -/
structure EntryJudged (s v : State) (d : Deferred) : Prop where
  slots : v.slots = s.slots
  outside : (∀ m, s.mode = some m → m ∉ d.gate) →
    v = { s with counters := { s.counters with deferredExpired := min (s.counters.deferredExpired + 1) 65535 } }
  locked : ∀ m, s.mode = some m → m ∈ d.gate → s.locked .field d.rank (heldCircuits s d) = true →
    v = { s with deferred := s.deferred ++ [d] }
  short : ∀ m items, s.mode = some m → m ∈ d.gate → s.locked .field d.rank (heldCircuits s d) = false →
    EntryPlaces s d items → s.freeRecords < s.recordsNeeded .field (items.map PlaceItem.circuit) →
    v = { s with counters := { s.counters with deferredDropped := min (s.counters.deferredDropped + 1) 65535 } }
  placed : ∀ m items, s.mode = some m → m ∈ d.gate → s.locked .field d.rank (heldCircuits s d) = false →
    EntryPlaces s d items → s.recordsNeeded .field (items.map PlaceItem.circuit) ≤ s.freeRecords →
    PlacedAs s v .field items false none ∧ CommandTold s v .field ∧ ClaimEvent s v
  released : ∀ m cs, s.mode = some m → m ∈ d.gate → s.locked .field d.rank cs = false → d.action = .release cs →
    ReleasedAs s v .field cs d.fade ∧ CommandTold s v .field ∧ ClaimEvent s v

/-- Player `n` attempts the step it is held at, and `v` is what that leaves (R141): nothing where it waits for no lock, or
is locked again (notes/assumptions/29.md). -/
structure StepRetried (s v : State) (n : PlayerNo) : Prop where
  idle : (s.player n).run ≠ .waitLock → v = s
  again : ∀ q d x a y, (s.player n).run = .waitLock → (s.player n).sequence = some q →
    s.tables.sequences.get q = some d → d.steps[(s.player n).step - 1]? = some x → x.kind = .recall a →
    s.presetDef a = some y → s.locked (.seq n) d.rank (y.pairs.map Prod.fst) = true → v = s
  taken : ∀ q d x, (s.player n).run = .waitLock → (s.player n).sequence = some q →
    s.tables.sequences.get q = some d → d.steps[(s.player n).step - 1]? = some x →
    (∀ a y, x.kind = .recall a → s.presetDef a = some y →
      s.locked (.seq n) d.rank (y.pairs.map Prod.fst) = false) → ∃ refused, StepTaken s v n d x refused

/-- `v` is `t` after the trackers of its GOING slots have fallen by `lost` links each: one at zero has ended its slot with
STANDBY_END of reason DONE to its ONLINE owner (R47, R116, R117). -/
structure SlotsFall (t v : State) (lost : SlotNo → Nat) : Prop where
  going : ∀ n k m, t.slot n = some k → k.phase = .going m → lost n < m →
    v.slot n = some { k with phase := .going (m - lost n) }
  ended : ∀ n k m, t.slot n = some k → k.phase = .going m → m ≤ lost n →
    v.slot n = none ∧ ((t.port k.owner).isOnline = true → Told v k.owner (.standbyEnd n .done))
  armed : ∀ n k, t.slot n = some k → k.phase = .armed → v.slot n = some k
  free : ∀ n, t.slot n = none → v.slot n = none
  owed : v.replayOwed = true ↔ t.replayOwed = true ∨ ∃ n, t.slot n ≠ none ∧ v.slot n = none
  claims : ∀ c, (v.claims c).map Claim.unlinked = (t.claims c).map Claim.unlinked
    ∧ (v.circuit c).transition = (t.circuit c).transition
  rest : ClaimEvent t v ∧ v.trackers = t.trackers

/-! ## Field loops -/

/-- `n` is the station a POLL of the loop goes to next (R68): the lowest configured address above the one last polled,
and where there is none above it the lowest. -/
def NextStation (s : State) (l : LoopNo) (n : StationNo) : Prop :=
  s.stationType l n ≠ none
  ∧ ((∃ m, (s.loop l).lastPolled = some m ∧ m < n ∧ ∀ j, s.stationType l j ≠ none → m < j → n ≤ j)
    ∨ (∀ m, (s.loop l).lastPolled = some m → ∀ j, s.stationType l j ≠ none → j ≤ m)
      ∧ ∀ j, s.stationType l j ≠ none → n ≤ j)

/-- The four bytes of a REPORT with this type byte and these key states (R194, R195). -/
def reportOf (type keys : Byte) : List Byte := [0xB3, type, keys, 0xB3 ^^^ type ^^^ keys]

/-- The type byte of a REPORT names this station type (R194). -/
def NamesType (type : Option StationType) (b : Byte) : Prop :=
  type = some .keypad8 ∧ b = 1 ∨ type = some .switch2 ∧ b = 2

/-- `t` is `s` after a miss of station `n` of loop `l` (R69, R70): the exchange is closed and the miss counted; a PRESENT
station counts it and is ABSENT and lost at the third in a row, both counts 0, its keys UP in phase NONE with no chatter
window but under a lockout; an ABSENT one loses its good reply. A station lost has the raises of its keys stopped (R71,
R101), in ascending key number (notes/assumptions/36.md), and is announced; nothing else changes, and no other station. -/
structure Missed (s t : State) (l : LoopNo) (n : StationNo) : Prop where
  closed : (t.loop l).exchange = none
  counted : (t.loop l).pollMisses = min ((s.loop l).pollMisses + 1) 65535
  others : ∀ m, m ≠ l → t.loop m = s.loop m
  neighbours : ∀ m, m ≠ n → t.station l m = s.station l m
  polled : (t.loop l).lastPolled = (s.loop l).lastPolled ∧ (t.loop l).lastPoll = (s.loop l).lastPoll
  first : (s.station l n).presence = .present → (s.station l n).misses < 2 →
    t.station l n = { s.station l n with misses := (s.station l n).misses + 1 }
  third : (s.station l n).presence = .present → 2 ≤ (s.station l n).misses →
    (t.station l n).presence = .absent ∧ (t.station l n).lost = true ∧ (t.station l n).misses = 0
      ∧ (t.station l n).goods = 0
      ∧ ∀ k, (t.station l n).keys.get k = { (s.station l n).keys.get k with
          down := false
          phase := .none
          window := if ((s.station l n).keys.get k).lockout = none then none else ((s.station l n).keys.get k).window }
  absent : (s.station l n).presence = .absent → t.station l n = { s.station l n with goods := 0 }
  loses : (s.station l n).presence = .present → 2 ≤ (s.station l n).misses →
    t = ((((s.keysAt l n).foldl State.stopRaise { s with loops := t.loops }).announce (.station l n .absent)).replay)
  stands : ((s.station l n).presence = .absent ∨ (s.station l n).misses < 2) → t = { s with loops := t.loops }

/-! ## Records as written: those a write calls BAD_RECORD, and what each record reads as -/

/-- A rank table that R2 calls BAD_RECORD. -/
def BadRanks (l : List Nat) : Prop := l.length ≠ 8 ∨ ∃ x ∈ l, 1 < x

/-- A merge mode by its code (R194). -/
def writtenMerge : MergeMode → Nat
  | .ltp => 0
  | .htp => 1

/-- A station list that R67 calls BAD_RECORD. -/
def BadStations (l : List (Nat × Nat)) : Prop :=
  (∃ x ∈ l, x.1 = 0 ∨ 16 < x.1 ∨ 1 < x.2) ∨ ¬ (l.map Prod.fst).Nodup

/-- A station's entry by its address and its type's code (R194). -/
def writtenStation : StationNo × StationType → Nat × Nat
  | (n, .keypad8) => (numberOf n, 0)
  | (n, .switch2) => (numberOf n, 1)

/-- A step that R129 calls BAD_RECORD. -/
def BadStep (x : RawStep) : Prop :=
  1 < x.kind ∨ (x.kind = 0 ∧ ∀ p, x.preset = some p → p = 0 ∨ 48 < p) ∨ (x.kind = 1 ∧ x.preset ≠ none)
    ∨ 36000 < x.fade ∨ x.wait = 0 ∨ 36000 < x.wait

/-- A sequence that R129 calls BAD_RECORD. -/
def BadSequence (q : RawSequence) : Prop :=
  (∃ x ∈ q.steps, BadStep x) ∨ 7 < q.rank ∨ 1 < q.endAction ∨ 36000 < q.releaseTime ∨ 255 < q.passLimit

/-- A step as a write carries it (R128, R194). -/
def writtenStep (x : SeqStep) : RawStep :=
  match x.kind with
  | .recall p => { kind := 0, preset := some (numberOf p), fade := x.fade, wait := x.wait }
  | .release => { kind := 1, preset := none, fade := x.fade, wait := x.wait }

/-- A sequence as a write carries it (R128, R194). -/
def writtenSequence (d : SequenceDef) : RawSequence :=
  { steps := d.steps.map writtenStep, rank := d.rank.val
    endAction := match d.endAction with
      | .hold => 0
      | .release => 1
    releaseTime := d.releaseTime, passLimit := d.passLimit }

/-- An entry sequence that R147 calls BAD_RECORD. -/
def BadEntrySequence (x : RawEntrySequence) : Prop :=
  x.player = 0 ∨ 4 < x.player ∨ 2 < x.mode ∨ (x.mode = 0 ∧ x.sequence ≠ none)
    ∨ (0 < x.mode ∧ ∀ q, x.sequence = some q → q = 0 ∨ 16 < q)

/-- A mode record that R147 calls BAD_RECORD. -/
def BadModeRecord (r : RawModeRecord) : Prop :=
  (∃ p, r.entryPreset = some p ∧ (p = 0 ∨ 48 < p)) ∨ 7 < r.entryRank ∨ 36000 < r.entryFade
    ∨ ∃ x, r.entrySequence = some x ∧ BadEntrySequence x

/-- An entry sequence as a write carries it (R147, R194). -/
def writtenEntrySequence : EntrySequence → RawEntrySequence
  | .off n => { player := numberOf n, mode := 0, sequence := none }
  | .run n .single q => { player := numberOf n, mode := 1, sequence := some (numberOf q) }
  | .run n .loop q => { player := numberOf n, mode := 2, sequence := some (numberOf q) }

/-- A mode record as a write carries it (R147, R194). -/
def writtenModeRecord (d : ModeRecord) : RawModeRecord :=
  { entryPreset := d.entryPreset.map numberOf, entryRank := d.entryRank.val, entryFade := d.entryFade
    entrySequence := d.entrySequence.map writtenEntrySequence }

/-- A role record that R186 calls BAD_RECORD. -/
def BadRoleRecord (r : RawRoleRecord) : Prop :=
  7 < r.maxRank ∨ (∃ l, r.access = some l ∧ (l.length = 0 ∨ 8 < l.length ∨ ∃ g ∈ l, 64 < g)) ∨ 32 ≤ r.permissions
    ∨ r.lease = 0 ∨ 60 < r.lease ∨ 600 < r.orphanHold ∨ 36000 < r.orphanRelease ∨ 1 < r.linkRate

/-- A role record as a write carries it (R186, R194). -/
def writtenRoleRecord (d : RoleRecord) : RawRoleRecord :=
  { maxRank := d.maxRank.val
    access := match d.access with
      | .all => none
      | .groups l => some (l.map Fin.val)
    permissions := bitsOf Permission.all d.permissions
    lease := d.lease, orphanHold := d.orphanHold, orphanRelease := d.orphanRelease
    linkRate := match d.linkRate with
      | .r115200 => 0
      | .r460800 => 1 }

/-- The fields of a DIMMED circuit are filled and in range, and those of a SWITCHED one empty (R165, R166). -/
def DimmedFields (r : RawCircuitRecord) : Prop :=
  ∃ c lo hi, r.curve = some c ∧ c ≤ 1 ∧ r.min = some lo ∧ lo ≤ 300 ∧ r.max = some hi ∧ 300 ≤ hi ∧ hi ≤ 1000
    ∧ r.threshold = none ∧ r.hysteresis = none ∧ r.dwell = none

/-- The fields of a SWITCHED circuit are filled and in range, and those of a DIMMED one empty (R165, R166). -/
def SwitchedFields (r : RawCircuitRecord) : Prop :=
  ∃ t h d, r.threshold = some t ∧ 1 ≤ t ∧ t ≤ 1000 ∧ r.hysteresis = some h ∧ h ≤ 200 ∧ h < t ∧ r.dwell = some d
    ∧ d ≤ 100 ∧ r.curve = none ∧ r.min = none ∧ r.max = none

/-- A circuit record that R166 calls BAD_RECORD, the check that its LOCAL line is free apart. -/
def BadCircuitRecord (r : RawCircuitRecord) : Prop :=
  1 < r.kind ∨ (r.kind = 0 ∧ ¬ DimmedFields r) ∨ (r.kind = 1 ∧ ¬ SwitchedFields r) ∨ 2 < r.route
    ∨ (r.route = 1 ∧ ∀ n, r.line = some n → n = 0 ∨ 16 < n) ∨ (r.route ≠ 1 ∧ r.line ≠ none) ∨ 1000 < r.base
    ∨ ∃ v, r.emergency = some v ∧ 1000 < v

/-- A circuit record as a write carries it (R165, R194). -/
def writtenCircuitRecord (d : CircuitRecord) : RawCircuitRecord :=
  let routed : Nat × Option Nat := match d.route with
    | .link => (0, none)
    | .pwm n => (1, some (numberOf n))
    | .unrouted => (2, none)
  match d.kind with
  | .dimmed c lo hi =>
    { kind := 0, route := routed.1, line := routed.2, base := d.base, emergency := d.emergency
      curve := some (match c with
        | .linear => 0
        | .square => 1)
      min := some lo, max := some hi, threshold := none, hysteresis := none, dwell := none }
  | .switched t h w =>
    { kind := 1, route := routed.1, line := routed.2, base := d.base, emergency := d.emergency
      curve := none, min := none, max := none, threshold := some t, hysteresis := some h, dwell := some w }

/-- The level and fade of a field action lie in the ranges of R88. -/
def ActionFits : FieldAction → Prop
  | .on _ v t _ => v ≤ 1000 ∧ t ≤ 36000
  | .off _ t _ => t ≤ 36000
  | .toggle _ v t _ => v ≤ 1000 ∧ t ≤ 36000
  | .recall _ t _ => t ≤ 36000
  | .release _ t _ => t ≤ 36000
  | .raise _ _ | .lower _ _ | .seqRun _ _ _ | .seqStop _ | .setMode _ => True

/-- A field action with its gate as a write carries it: the fields it uses filled, the others empty (R88, R90, R194). -/
def writtenAction (gate : Nat) : FieldAction → RawBinding
  | .on g v t r => { gate := gate, action := 0, target := .number g.val, level := some v, fade := some t, rank := some r.val }
  | .off g t r => { gate := gate, action := 1, target := .number g.val, level := none, fade := some t, rank := some r.val }
  | .toggle g v t r =>
    { gate := gate, action := 2, target := .number g.val, level := some v, fade := some t, rank := some r.val }
  | .raise g r => { gate := gate, action := 3, target := .number g.val, level := none, fade := none, rank := some r.val }
  | .lower g r => { gate := gate, action := 4, target := .number g.val, level := none, fade := none, rank := some r.val }
  | .recall p t r =>
    { gate := gate, action := 5, target := .number (numberOf p), level := none, fade := some t, rank := some r.val }
  | .release g t r =>
    { gate := gate, action := 6, target := .number g.val, level := none, fade := some t, rank := some r.val }
  | .seqRun n q m =>
    { gate := gate, action := 7
      target := .run (numberOf n) (numberOf q) (match m with
        | .single => 1
        | .loop => 2)
      level := none, fade := none, rank := none }
  | .seqStop n => { gate := gate, action := 8, target := .number (numberOf n), level := none, fade := none, rank := none }
  | .setMode m => { gate := gate, action := 9, target := .number (m.ix.val + 1), level := none, fade := none, rank := none }

/-- A binding entry that R90 calls BAD_RECORD: its gate is empty or names no mode (notes/assumptions/14.md), or its fields
are those of no field action in range. -/
def BadBinding (b : RawBinding) : Prop :=
  b.gate = 0 ∨ 32 ≤ b.gate ∨ ∀ a, ActionFits a → writtenAction b.gate a ≠ b

/-! ## Fields out of range -/

/-- A circuit list that is empty, holds more than 32 numbers, or one twice (R10). -/
def BadList : Target → Prop
  | .group _ => False
  | .circuits l => l.length = 0 ∨ 32 < l.length ∨ ¬ l.Nodup

/-- A rate outside 25 to 400 that is not 0 (R131). -/
def BadRate (rate : Nat) : Prop := rate ≠ 0 ∧ (rate < 25 ∨ 400 < rate)

/-- Fields of a PLACE out of range (R10). -/
def BadPlace (f : PlaceFields) : Prop := BadList f.target ∨ 1000 < f.level ∨ 36000 < f.fade

/-- Fields of a RECALL out of range (R64). -/
def BadRecall (f : RecallFields) : Prop := ∃ t, f.fade = some t ∧ 36000 < t

/-- The fields of a request out of a range whose rule calls the request malformed (R185, notes/assumptions/14.md). -/
def BadFields : Instr → Prop
  | .place _ _ (.fields f) => BadPlace f
  | .release _ _ (.fields f) => BadList f.target ∨ 36000 < f.time
  | .recall _ _ (.fields f) => BadRecall f
  | .setMode _ _ (.fields n) => n = 0 ∨ 5 < n
  | .standby _ _ (.fields f) => f.2.1 = 0 ∨ 7 < f.2.1 ∨ f.2.2 = 0 ∨ 600 < f.2.2
  | .go _ _ (.fields (_, .place f)) => BadPlace f
  | .go _ _ (.fields (_, .recall f)) => BadRecall f
  | .runSequence _ _ (.fields f) => f.1 = 0 ∨ 4 < f.1 ∨ f.2.1 = 0 ∨ 16 < f.2.1 ∨ 2 < f.2.2.1 ∨ BadRate f.2.2.2
  | .setPlayer _ _ (.fields f) => f.1 = 0 ∨ 4 < f.1 ∨ 2 < f.2.1 ∨ BadRate f.2.2
  | .readNotices _ _ (.fields n) => n = 0 ∨ 8 < n
  | .readPreset _ _ (.fields f) => f.2 = 0
  | .readModeRecord _ _ (.fields n) => n = 0 ∨ 5 < n
  | .readSystemSetting _ _ (.fields f) => 9 < f.1 ∨ ((f.1 = 8 ∨ f.1 = 9) ∧ (f.2 = 0 ∨ 16 < f.2))
  | .writeRankTable _ _ (.fields l) => l.length ≠ 8
  | .writePresetOpen _ _ (.fields f) => 192 < f.2.2
  | .writePresetPairs _ _ (.fields f) => f.2.length = 0 ∨ 64 < f.2.length
  | .writeSequence _ _ (.fields f) => 16 < f.2.steps.length
  | _ => False

end Sys2Proof.Machine
end

