-- ==== Sys2Proof/Certificates/Slice0/Obligations.lean ====
section
/-! DEFINITION. The statements for the provers, about one step, one command or one derived value each. -/

open Sys2Proof Sys2Proof.Machine

/-! ## Steps -/

/-- A step takes the command at the front of the queue, with the queue's rest. On an empty queue it takes the first event
due (notes/assumptions/3.md, notes/assumptions/4.md); where none is due, one microsecond passes (notes/assumptions/2.md):
fades advance only while their claim is in command, and none runs past its duration (R32, R34), every transition advances
(R35, R40), and nothing else changes. The end of a lease, of a fade and of a transition is due exactly when its time has
come. -/
def Obligations.StepTakesTheFront : Prop :=
  (∀ (c : Instr) (s : State), step { s with pending := c :: s.pending } = exec c s)
  ∧ (∀ (s : State) e rest, s.pending = [] → s.dueEvents = e :: rest → step s = exec e s)
  ∧ (∀ s : State, s.pending = [] → s.dueEvents = [] → ∃ t, step s = .next t
    ∧ t = { s with now := s.now + 1, circuits := t.circuits }
    ∧ ∀ c, (t.circuit c).relay = (s.circuit c).relay ∧ (t.circuit c).raisedBy = (s.circuit c).raisedBy
      ∧ t.claims c = (s.claims c).map (fun x =>
          if s.inCommand c x.owner then
            { x with state := match x.state with
              | .effective (some f) => .effective (some { f with spent := min (f.spent + 1) (f.duration * 100000) })
              | .effective none => .effective none
              | .waiting h => .waiting h }
          else x)
      ∧ (t.circuit c).transition = (s.circuit c).transition.map fun y =>
          { y with spent := min (y.spent + 1) (y.duration * 100000) })
  ∧ (∀ s : State,
    (∀ p, .leaseExpiry p ∈ s.dueEvents ↔ ∃ e, (s.port p).link = .online e ∧ e ≤ s.now)
    ∧ (∀ c o, .fadeCompletion c o ∈ s.dueEvents ↔ ∃ x f, claimOf o (s.claims c) = some x
        ∧ x.state = .effective (some f) ∧ f.duration * 100000 ≤ f.spent)
    ∧ (∀ c, .transitionEnd c ∈ s.dueEvents ↔ ∃ y, (s.circuit c).transition = some y ∧ y.duration * 100000 ≤ y.spent))

/-- Every command runs: no command ends in a fault or a refusal in any state, none takes time or touches the queue, and
none leaves a replay owed where none was owed (notes/assumptions/6.md, notes/assumptions/24.md). -/
def Obligations.EveryCommandRuns : Prop :=
  ∀ (c : Instr) (s : State), ∃ t, exec c s = .next t ∧ t.now = s.now ∧ t.pending = s.pending
    ∧ (s.replayOwed = false → t.replayOwed = false)

/-! ## Invariants -/

/-- Every step keeps every claim list ordered by rank with at most one claim per owner (R7). -/
def Obligations.StepKeepsListsInOrder : Prop :=
  ∀ s t : State, ListsInOrder s → step s = .next t → ListsInOrder t

/-- Every step keeps the claim pool at most 1024 records, the trackers at most 32 under numbers of their own and at most 8
of one port, notice queues at most 16 long, the deferred queue at most 16 long, and every counter at most 65535 (R21, R45,
R46, R122, R190, R193). -/
def Obligations.StepKeepsBounds : Prop :=
  ∀ s t : State, WithinBounds s → step s = .next t → WithinBounds t

/-- Every step keeps the group store, the preset store and the binding table within their sizes (R54, R57, R89), and no
group or preset naming a circuit twice (R53, R56). -/
def Obligations.StepKeepsStoresFit : Prop :=
  ∀ s t : State, StoresFit s → step s = .next t → StoresFit t

/-- Every step keeps transitions toward a fixed level on forced circuits of a running part, and the recovery set empty
except while RECOVERING (R35, R41, R157). -/
def Obligations.StepKeepsForcingInOrder : Prop :=
  ∀ s t : State, ForcingInOrder s → step s = .next t → ForcingInOrder t

/-- Every step keeps the relay records of DIMMED circuits, and of a part that is starting, at OFF, OFF, not running
(R169, R178). -/
def Obligations.StepKeepsRelaysInOrder : Prop :=
  ∀ s t : State, RelaysInOrder s → step s = .next t → RelaysInOrder t

/-- Every step keeps slots in use only while the mode is SHOW and their owner ports are ONLINE (R116). -/
def Obligations.StepKeepsSlotsInOrder : Prop :=
  ∀ s t : State, SlotsInOrder s → step s = .next t → SlotsInOrder t

/-- The state after reset meets every invariant above. -/
def Obligations.ResetMeetsTheInvariants : Prop :=
  ListsInOrder .reset ∧ WithinBounds .reset ∧ StoresFit .reset ∧ ForcingInOrder .reset ∧ RelaysInOrder .reset
    ∧ SlotsInOrder .reset ∧ State.reset.replayOwed = false

/-! ## Frames that are no request, and requests not served -/

/-- A LOST port ignores every request, and a frame ignored on it has no effect (R180). A bad frame is counted on its
port from the taking of the image on and does nothing else (R183, R184). While the part is STARTING no request is
served: none is taken before the image, and NOT_READY alone answers from then on (R183). A port whose save is in
progress answers every request BUSY, restarting its lease and counting the reply (R180, R185). The model's clock and
its one queue of commands stand behind all of it (notes/assumptions/2.md, notes/assumptions/6.md). -/
def Obligations.FramesNotServedDoNothingElse : Prop :=
  (∀ c p kind tag (s : State), requestOf c = some (p, kind, tag) →
    (s.startup = .running → s.isLost p = true → exec c s = .next s)
    ∧ (s.startup = .reading → exec c s = .next s)
    ∧ (∀ t v, s.startup = .judging t v → exec c s = .next (s.onPort p fun x =>
        { x with lastReply := some (replyFrom s p kind tag .notReady .empty) }))
    ∧ (s.startup = .running → s.isLost p = false → s.busy p = true → exec c s = .next (s.onPort p fun x =>
        { x with
          link := .online (s.now + (s.role p).lease * 1000000)
          orphanEnd := none
          busyReplies := min (x.busyReplies + 1) 65535
          lastReply := some (replyFrom s p kind tag .busy .empty) })))
  ∧ (∀ p (s : State), exec (.lostFrameIgnored p) s = .next s)
  ∧ (∀ p cause (s : State), s.startup = .reading → exec (.badFrame p cause) s = .next s)
  ∧ (∀ p cause (s : State), s.startup ≠ .reading →
    exec (.badFrame p cause) s = .next (s.onPort p fun x => { x with badFrames := min (x.badFrames + 1) 65535 }))

/-- A ready port answers BAD_REQUEST to a payload that is not of the form its kind requires, to fields out of a range
whose rule calls the request malformed, and to a frame of unknown kind; nothing changes but the lease and the reply
(R185). A payload not of its form is an operand of the command, and which ranges are malformed is read from the rules
(notes/assumptions/14.md). -/
def Obligations.MalformedRequestsAreRefused : Prop :=
  ∀ p kind tag (s : State), Ready s p →
    (∀ c, requestOf c = some (p, kind, tag) → malformedRequest c = true →
      exec c s = .next (answered s p kind tag .badRequest .empty))
    ∧ (∀ c, requestOf c = some (p, kind, tag) → BadFields c →
      exec c s = .next (answered s p kind tag .badRequest .empty))
    ∧ exec (.unknownRequestKind p kind tag) s = .next (answered s p kind tag .badRequest .empty)

/-! ## Reads -/

/-- PING and the reads of single records are answered with what stands, and change nothing but the lease and the reply
(R2, R129, R147, R166, R186, R188, R197). The ascending order of a station list (notes/assumptions/16.md) and that a
number which names no mode is malformed in a read (notes/assumptions/14.md) are the model's choices. -/
def Obligations.PingAndRecordReadsAnswer : Prop :=
  ∀ (s : State) p tag, Ready s p →
    exec (.ping p tag (.fields ())) s = .next (answered s p 0x01 tag .ok (.ping 0x0C92 1 s.configState))
    ∧ exec (.readRankTable p tag (.fields ())) s =
        .next (answered s p 0x40 tag .ok (.rankTable s.tables.ranks.rows.toList))
    ∧ (∀ l : LoopNo, exec (.readStationTable p tag (.fields (numberOf l))) s =
        .next (answered s p 0x40 tag .ok (.stationTable (s.stationList l))))
    ∧ (∀ q : SequenceNo, exec (.readSequence p tag (.fields (numberOf q))) s =
        .next (answered s p 0x40 tag .ok (.sequence (s.tables.sequences.get q) (s.sequenceUsers q))))
    ∧ (∀ n m, HouseMode.ofCode n = some m → exec (.readModeRecord p tag (.fields n)) s =
        .next (answered s p 0x40 tag .ok (.modeRecord (s.tables.modes.get m.ix) (s.mode == some m))))
    ∧ (∀ c : Circuit, exec (.readCircuitRecord p tag (.fields (numberOf c))) s =
        .next (answered s p 0x40 tag .ok (.circuitRecord (s.tables.circuits.get c))))
    ∧ (∀ n q, Port.ofCode n = some q → exec (.readRoleRecord p tag (.fields n)) s =
        .next (answered s p 0x40 tag .ok (.roleRecord (s.tables.roles.get q.ix) (s.port q).linkRate)))
    ∧ (∀ n, indexOf 4 n = none → exec (.readStationTable p tag (.fields n)) s =
        .next (answered s p 0x40 tag .badTarget .empty))
    ∧ (∀ n, indexOf 16 n = none → exec (.readSequence p tag (.fields n)) s =
        .next (answered s p 0x40 tag .badTarget .empty))
    ∧ (∀ n, HouseMode.ofCode n = none → exec (.readModeRecord p tag (.fields n)) s =
        .next (answered s p 0x40 tag .badRequest .empty))
    ∧ (∀ n, indexOf 192 n = none → exec (.readCircuitRecord p tag (.fields n)) s =
        .next (answered s p 0x40 tag .badTarget .empty))
    ∧ (∀ n, Port.ofCode n = none → exec (.readRoleRecord p tag (.fields n)) s =
        .next (answered s p 0x40 tag .badTarget .empty))

/-- Reads of groups, presets, bindings and settings are answered with what stands and change nothing but the lease and
the reply (R61, R91, R197). The default fade an undefined preset is given is left open (notes/assumptions/35.md); that a
setting or line that does not exist is malformed in a read is the model's choice (notes/assumptions/14.md). -/
def Obligations.StoreReadsAnswer : Prop :=
  ∀ (s : State) p tag, Ready s p →
    (∀ g : GroupNo, exec (.readGroup p tag (.fields g.val)) s = .next (answered s p 0x40 tag .ok
      (.group (s.members g).isSome ((s.members g).getD []) (2048 - Tables.membersUsed s.tables))))
    ∧ (∀ n, 64 < n → exec (.readGroup p tag (.fields n)) s = .next (answered s p 0x40 tag .badTarget .empty))
    ∧ (∀ (n : PresetNo) first, 1 ≤ first → ∃ fade,
        exec (.readPreset p tag (.fields (numberOf n, first))) s = .next (answered s p 0x40 tag .ok
          (.preset (s.presetDef n).isSome (s.versions.get n) fade (pairsOf (s.presetDef n)).length
            (3072 - Tables.pairsUsed s.tables) (((pairsOf (s.presetDef n)).drop (first - 1)).take 64)))
        ∧ ∀ d, s.presetDef n = some d → fade = d.defaultFade)
    ∧ (∀ n first, 1 ≤ first → indexOf 48 n = none →
        exec (.readPreset p tag (.fields (n, first))) s = .next (answered s p 0x40 tag .badTarget .empty))
    ∧ (∀ k a, RawKey.address k = some a → exec (.readBindings p tag (.fields k)) s = .next (answered s p 0x40 tag .ok
        (.bindings (Edge.all.map fun e => s.tables.bindings.filter fun b => b.key == a && b.edge == e)
          (512 - s.tables.bindings.length))))
    ∧ (∀ k, RawKey.address k = none →
        exec (.readBindings p tag (.fields k)) s = .next (answered s p 0x40 tag .badTarget .empty))
    ∧ (∀ setting line n, lineSetting setting line = some n →
        exec (.readSystemSetting p tag (.fields (setting, line))) s = .next (answered s p 0x40 tag .ok
          (.setting setting (Settings.value s.tables.settings setting n) (s.pendingSetting setting n))))
    ∧ (∀ setting line, lineSetting setting line = none →
        exec (.readSystemSetting p tag (.fields (setting, line))) s =
          .next (answered s p 0x40 tag .badRequest .empty))

/-- QUERY_CIRCUIT reports the circuit's claims in list order with their levels, whether each waits, its fade remaining or
held fade time in tenths, whether it is orphaned, as no claim of the port that asks is (R5, R180), and whether it is
tracked (R27); the command level, the free
records, the level, the forcing and the transition with its time remaining (R43); the kind, the route, the output, the relay
fields of a SWITCHED circuit alone and the line fields of a LOCAL route alone (R177). It changes nothing but the lease and
the reply; a circuit that does not exist is BAD_TARGET. -/
def Obligations.QueryCircuitReports : Prop :=
  ∀ (s : State) p tag, Ready s p →
    (∀ c : Circuit, ∃ r,
      exec (.queryCircuit p tag (.fields (numberOf c))) s = .next (answered s p 0x30 tag .ok (.circuit r))
      ∧ r.claims.map (fun x => (x.owner, x.rank, x.target, x.level, x.inCommand)) =
          (s.claims c).map (fun x => (x.owner, x.rank, x.target, x.level, s.inCommand c x.owner))
      ∧ r.claims.map (fun x => (x.waiting, x.remaining)) = (s.claims c).map (fun x => match x.state with
          | .waiting h => (true, h)
          | .effective none => (false, 0)
          | .effective (some f) => (false, f.duration - f.spent / 100000))
      ∧ r.claims.map (fun x => (x.orphaned, x.tracked)) = (s.claims c).map (fun x =>
          (match x.owner with
            | .port q => q != p && !(s.port q).isOnline
            | .field | .seq _ | .mode => false,
          x.tracker.isSome))
      ∧ r.commandLevel = s.commandLevel c ∧ r.freeRecords = 1024 - s.recordsInUse ∧ r.level = s.level c
      ∧ r.forced = s.forced c ∧ r.route = (s.record c).route ∧ r.output = s.output c
      ∧ r.transition = (s.circuit c).transition.map (fun y =>
          { cause := y.cause, fixed := y.fixed, start := y.start, duration := y.duration,
            remaining := y.duration - y.spent / 100000 })
      ∧ (∀ k lo hi, (s.record c).kind = .dimmed k lo hi → r.switched = false ∧ r.relay = none)
      ∧ (∀ h y d, (s.record c).kind = .switched h y d → r.switched = true ∧ r.relay = some
          { relay := (s.circuit c).relay.on, wish := (s.circuit c).relay.wish,
            dwellRemaining := match (s.circuit c).relay.dwellEnd with
              | some e => (e - s.now) / 100000
              | none => 0 })
      ∧ (∀ n, (s.record c).route = .pwm n → r.line = some
          { period := (s.lines.get n).period, polarity := (s.lines.get n).polarity, duty := (s.lines.get n).duty,
            pending := (s.lines.get n).pendingPeriod.isSome || (s.lines.get n).pendingPolarity.isSome })
      ∧ ((∀ n, (s.record c).route ≠ .pwm n) → r.line = none))
    ∧ (∀ n, indexOf 192 n = none →
        exec (.queryCircuit p tag (.fields n)) s = .next (answered s p 0x30 tag .badTarget .empty))

/-- QUERY_STATION of a configured station reports its type, presence, lost-since-read flag and keys as they stand, and
clears the flag; an address without a station is BAD_TARGET (R73). -/
def Obligations.QueryStationReportsAndClears : Prop :=
  ∀ (s : State) p tag, Ready s p → ∀ (l : LoopNo) (n : StationNo),
    (∀ type, s.stationType l n = some type → ∃ r,
      exec (.queryStation p tag (.fields (numberOf l, numberOf n))) s =
        .next (answered (s.onStation l n fun x => { x with lost := false }) p 0x31 tag .ok (.station r))
      ∧ r.type = type ∧ r.presence = (s.station l n).presence ∧ r.lost = (s.station l n).lost
      ∧ r.keys = (s.keysAt l n).map fun k =>
          { down := (s.key k).down, lockedOut := (s.key k).lockout.isSome, indicator := s.indicator k })
    ∧ (s.stationType l n = none → exec (.queryStation p tag (.fields (numberOf l, numberOf n))) s =
        .next (answered s p 0x31 tag .badTarget .empty))

/-- READ_NOTICES takes the oldest notices, at most as many as its count, reports and clears the overflow flag, and counts
what is left in its header; a count outside 1 to 8 is BAD_REQUEST (R191). -/
def Obligations.ReadNoticesTakesTheOldest : Prop :=
  ∀ (s : State) p tag n, Ready s p →
    (n = 0 ∨ 8 < n → exec (.readNotices p tag (.fields n)) s = .next (answered s p 0x32 tag .badRequest .empty))
    ∧ (1 ≤ n → n ≤ 8 → ∃ t, exec (.readNotices p tag (.fields n)) s = .next t
      ∧ t = (s.onPort p fun x =>
          { x with
            link := .online (s.now + (s.role p).lease * 1000000)
            orphanEnd := none
            queue := x.queue.drop n
            overflow := false
            lastReply := (t.port p).lastReply })
      ∧ Replied t p 0x32 tag .ok (.notices (s.port p).overflow ((s.port p).queue.take n)))

/-- SUBSCRIBE replaces the port's subscription set by the set named, personal kinds left out, and leaves its queue;
the set is empty after a full reset and after lease expiry, and a restart keeps it (R192). -/
def Obligations.SubscribeReplacesTheSet : Prop :=
  (∀ (s : State) p tag bits, Ready s p →
    exec (.subscribe p tag (.fields bits)) s = .next ((answered s p 0x33 tag .ok
      (.subscriptions ((namesOf NoticeKind.all bits.toNat).filter fun k => !k.personal))).onPort p fun x =>
        { x with subscriptions := (namesOf NoticeKind.all bits.toNat).filter fun k => !k.personal }))
  ∧ (∀ s : State, ∃ t, exec .fullReset s = .next t ∧ ∀ q, (t.port q).subscriptions = [])
  ∧ (∀ (s : State) p, s.leaseDue p = true →
      ∃ t, exec (.leaseExpiry p) s = .next t ∧ (t.port p).subscriptions = [])
  ∧ (∀ (s : State) p tag, Ready s p → s.permits p .admin = true → s.save = none →
      ∃ t, exec (.restart p tag (.fields ())) s = .next t
        ∧ ∀ q, (t.port q).subscriptions = (s.port q).subscriptions)

/-- READ_COUNTERS answers with the 29 counters and clears them, and changes nothing else but the lease and the reply
(R193). -/
def Obligations.ReadCountersClearsThem : Prop :=
  ∀ (s : State) p tag, Ready s p →
    let t := answered { s with
      ports := s.ports.each fun x =>
        { x with badFrames := 0, busyReplies := 0, leaseLosses := 0, noticesDropped := 0 }
      loops := s.loops.each fun x => { x with pollMisses := 0, typeMismatches := 0 }
      counters := ⟨0, 0, 0, 0, 0⟩ } p 0x34 tag .ok (.counters s.counterValues)
    exec (.readCounters p tag (.fields ())) s = .next t ∧ s.counterValues.length = 29
    ∧ t.counterValues = List.replicate 29 0

/-! ## Claims -/

/-- A PLACE that passes its checks is taken: the port's claims stand as R13 to R17 give them, every other claim keeps
its wish, the WAITING claims of the circuits named are judged (R16), a transition running there is kept or continued (R39),
the emergency state moves only by recoveries that end (R161), its tracker is taken and settled, and the other ports are told what command it took and gave back (R23 to R25,
R46 to R49); the reply follows the replay that slot ends ask for. One that fails a check is refused in their order and
changes nothing but the lease, the reply and the count of pool refusals (R11, R22). The event number in a fade is the
model's own (notes/assumptions/22.md), which free tracker is taken is left to it (notes/assumptions/27.md), and the replay
comes before the reply by its choice (notes/assumptions/24.md); so is it that PREEMPTED counts the circuits on which the
port is in command once the promotions of the event are done (notes/assumptions/41.md). -/
def Obligations.PlaceIsTaken : Prop :=
  ∀ (s : State) p tag (f : PlaceFields), Ready s p → PlaceFields.formed f = true →
    RefusedInOrder s p 0x10 tag (exec (.place p tag (.fields f)) s) f.rank (s.expand f.target)
    ∧ ∀ cs, s.expand f.target = some cs → MayPlace s p f.rank cs →
      ∃ (v : State) (status : Status) (link : Option TrackerLink),
        exec (.place p tag (.fields f)) s = .next (v.replay.respond p 0x10 tag status .empty)
        ∧ PlacedAs s v (.port p) (cs.map fun c =>
            { circuit := c, target := f.level, fade := f.fade, rank := rankOf f.rank, cause := none }) f.wait link
        ∧ TrackerTaken s v p tag cs status link ∧ CommandTold s v (.port p) ∧ ClaimEvent (s.refreshLease p) v

/-- A RECALL that passes its checks is taken as a PLACE is: one claim of the port per pair of the preset, with the
preset's default fade where the request gives none (R64); one that fails a check is refused in the same order. The event
number in a fade (notes/assumptions/22.md), the free tracker taken (notes/assumptions/27.md), where the replay is taken
(notes/assumptions/24.md) and what PREEMPTED counts where a promotion follows (notes/assumptions/41.md) are the model's
choices. -/
def Obligations.RecallIsTaken : Prop :=
  ∀ (s : State) p tag (f : RecallFields), Ready s p → RecallFields.formed f = true →
    RefusedInOrder s p 0x12 tag (exec (.recall p tag (.fields f)) s) f.rank
      ((s.presetNumbered f.preset).map fun d => d.pairs.map Prod.fst)
    ∧ ∀ d, s.presetNumbered f.preset = some d → MayPlace s p f.rank (d.pairs.map Prod.fst) →
      ∃ (v : State) (status : Status) (link : Option TrackerLink),
        exec (.recall p tag (.fields f)) s = .next (v.replay.respond p 0x12 tag status .empty)
        ∧ PlacedAs s v (.port p) (d.pairs.map fun x =>
            { circuit := x.1, target := x.2, fade := f.fade.getD d.defaultFade, rank := rankOf f.rank, cause := none })
            false link
        ∧ TrackerTaken s v p tag (d.pairs.map Prod.fst) status link ∧ CommandTold s v (.port p)
        ∧ ClaimEvent (s.refreshLease p) v

/-- A RELEASE whose target is defined is taken: the port's claims on it are gone, every other claim keeps its wish,
and where a claim in command went from a circuit not forced, a RELEASE transition runs from the level left, none with
release time 0 (R19, R20, R37); the WAITING claims are judged then (R16), those that need wait no longer becoming EFFECTIVE
over their held fade time from the circuit level (notes/assumptions/40.md); trackers and slots are settled (R47 to R49, R117), and the other ports told (R23, R24). An
undefined target is BAD_TARGET. Where the replay is taken (notes/assumptions/24.md) and what PREEMPTED counts where a
promotion follows (notes/assumptions/41.md) are the model's choices. -/
def Obligations.ReleaseIsTaken : Prop :=
  ∀ (s : State) p tag (f : ReleaseFields), Ready s p → ReleaseFields.formed f = true →
    (s.expand f.target = none →
      exec (.release p tag (.fields f)) s = .next (answered s p 0x11 tag .badTarget .empty))
    ∧ ∀ cs, s.expand f.target = some cs → ∃ v : State,
      exec (.release p tag (.fields f)) s = .next (v.replay.respond p 0x11 tag .ok .empty)
      ∧ ReleasedAs s v (.port p) cs f.time
      ∧ (∀ c ∈ cs, s.inCommand c (.port p) = true → s.forced c = false →
          (v.circuit c).transition = started .release none (s.level c) f.time)
      ∧ (ListsInOrder s → StoresFit s → LinksSettle s v (some (.port p)) cs [] none)
      ∧ CommandTold s v (.port p) ∧ ClaimEvent (s.refreshLease p) v

/-- Fades that have reached their duration complete: the claim stays at its place, complete at its target and linked
to no tracker (R34), and its tracker is settled: FADE_DONE at zero, and the end of a slot at zero (R47 to R49, R117). On a
circuit where fades of the event complete the WAITING claims are then judged (R16): where no claim in command fades any
longer each becomes EFFECTIVE, fading from the circuit level (notes/assumptions/40.md) over its held fade time where it
comes into command, else complete; elsewhere claims keep all but their links, and transitions stand. A circuit whose FIELD
claim's fade completes leaves the raise set it stands in, and no other leaves one (R100). That the fades of one event
number complete together is the model's (notes/assumptions/22.md), and that an event whose fade is not due changes nothing
its choice (notes/assumptions/5.md). -/
def Obligations.FadeCompletionCompletes : Prop :=
  ∀ (s : State) c o,
    (∀ n, s.fadeDue c o = some n → ∃ v : State, exec (.fadeCompletion c o) s = .next v.replay
      ∧ (∀ d, (v.claims d).map (fun x => (x.owner, x.wish)) = (s.claims d).map (fun x => (x.owner, x.wish)))
      ∧ (∀ x, claimOf o (v.claims c) = some x → x.state = .effective none ∧ x.tracker = none)
      ∧ (∀ d, (s.claims d).any (Claim.ended n) = true → ∃ y : CircuitState,
          y.claims = (s.claims d).map (fun x =>
            if Claim.ended n x then { x with state := .effective none, tracker := none } else x)
          ∧ y.transition = (s.circuit d).transition
          ∧ Judged s.tables.ranks (s.record d) s.emergency.state s.event y (v.circuit d))
      ∧ (∀ d, (s.claims d).any (Claim.ended n) = false →
          (v.claims d).map Claim.unlinked = (s.claims d).map Claim.unlinked
          ∧ (v.circuit d).transition = (s.circuit d).transition)
      ∧ (ListsInOrder s → LinksSettle s v none [] [] none)
      ∧ (ListsInOrder s → ∀ d, (v.circuit d).raisedBy =
          if (claimOf .field (s.claims d)).any (fun x => x.fade.isSome && arrived v d x) then none
          else (s.circuit d).raisedBy)
      ∧ ClaimEvent s v)
    ∧ (s.fadeDue c o = none → exec (.fadeCompletion c o) s = .next s)

/-- A transition that has reached its duration ends, and the circuit then stands at its ordinary level (R40, R42). The
end of a RECOVERY transition while RECOVERING takes the circuit from the recovery set, and the last one brings NORMAL with
EMERGENCY RECOVERY_COMPLETE (R161). That an event not due changes nothing is the model's choice
(notes/assumptions/5.md). -/
def Obligations.TransitionEndsAtTheOrdinaryLevel : Prop :=
  ∀ (s : State) c,
    (s.transitionDue c = true → ∃ t, exec (.transitionEnd c) s = .next t
      ∧ (t.circuit c).transition = none ∧ t.claims c = s.claims c
      ∧ t.level c = (forcedLevel (s.record c) t.emergency.state).getD (s.commandLevel c)
      ∧ (∀ d, d ≠ c → t.circuit d = s.circuit d)
      ∧ (∀ y, (s.circuit c).transition = some y →
          (y.cause = .recovery → s.emergency.state = .recovering →
            ((∃ d ∈ s.emergency.recovery, d ≠ c) → t.emergency = { s.emergency with
              recovery := s.emergency.recovery.filter fun d => d != c })
            ∧ (s.emergency.recovery ≠ [] → (∀ d ∈ s.emergency.recovery, d = c) →
              t.emergency = { s.emergency with state := .normal, recovery := [] }
              ∧ Announced t (.emergency .normal s.emergency.accepted .recoveryComplete 0)))
          ∧ (y.cause ≠ .recovery ∨ s.emergency.state ≠ .recovering → t.emergency = s.emergency ∧ t.ports = s.ports))
      ∧ ClaimEvent s t)
    ∧ (s.transitionDue c = false → exec (.transitionEnd c) s = .next s)

/-! ## Slots and modes -/

/-- A STANDBY that passes its checks arms the lowest-numbered FREE slot with the group's circuits, its lock rank, its
timeout and its expiry, and changes nothing else but the lease and the reply. One that fails a check is refused in their
order, DENIED, BAD_TARGET, DENIED, WRONG_STATE, NO_SLOT, and changes nothing but the lease and the reply (R112). -/
def Obligations.StandbyArmsASlot : Prop :=
  ∀ (s : State) p tag group rank timeout, Ready s p → 1 ≤ rank → rank ≤ 7 → 1 ≤ timeout → timeout ≤ 600 →
    let run := exec (.standby p tag (.fields (group, rank, timeout))) s
    let refused := fun status => run = .next (answered s p 0x21 tag status .empty)
    (s.permits p .cue = false → refused .denied)
    ∧ (s.permits p .cue = true → s.group group = none → refused .badTarget)
    ∧ ∀ cs, s.permits p .cue = true → s.group group = some cs →
      (((s.role p).maxRank.val < rank ∨ ∃ c ∈ cs, s.mayReach p c = false) → refused .denied)
      ∧ (rank ≤ (s.role p).maxRank.val → (∀ c ∈ cs, s.mayReach p c = true) →
        (s.mode ≠ some .inShow → refused .wrongState)
        ∧ (s.mode = some .inShow → (∀ n, s.slot n ≠ none) → refused .noSlot)
        ∧ ∀ n, s.mode = some .inShow → s.slot n = none → (∀ m, m < n → s.slot m ≠ none) →
          run = .next (answered (s.setSlot n (some
            { phase := .armed, owner := p, locked := cs, lockRank := rankOf rank, timeout := timeout,
              expiry := s.now + timeout * 1000000 })) p 0x21 tag .ok (.slot n)))

/-- A GO that passes its checks places its cue as the port's placement, PLACE or RECALL, and makes the slot GOING with the
claims that travel and a new expiry; where none travels the slot ends DONE (R113, R114, R117). A number outside 1 to 4, a
FREE or GOING slot and another port's slot are refused, and a cue that fails the checks of R11 is refused in their order
and leaves the slot ARMED (R113). The event number in a fade (notes/assumptions/22.md), where the replay is taken
(notes/assumptions/24.md) and what PREEMPTED counts where a promotion follows (notes/assumptions/41.md) are the model's
choices. -/
def Obligations.GoPlacesTheCue : Prop :=
  ∀ (s : State) p tag, Ready s p →
    (∀ number cue, Cue.formed cue = true → indexOf 4 number = none →
      exec (.go p tag (.fields (number, cue))) s = .next (answered s p 0x22 tag .badTarget .empty))
    ∧ (∀ (n : SlotNo) cue, Cue.formed cue = true →
      (s.slot n = none → exec (.go p tag (.fields (numberOf n, cue))) s =
        .next (answered s p 0x22 tag .wrongState .empty))
      ∧ (∀ k m, s.slot n = some k → k.phase = .going m → exec (.go p tag (.fields (numberOf n, cue))) s =
        .next (answered s p 0x22 tag .wrongState .empty))
      ∧ (∀ k, s.slot n = some k → k.phase = .armed → k.owner ≠ p →
        exec (.go p tag (.fields (numberOf n, cue))) s = .next (answered s p 0x22 tag .denied .empty)))
    ∧ ∀ (n : SlotNo) k, s.slot n = some k → k.phase = .armed → k.owner = p →
      (∀ (f : PlaceFields), PlaceFields.formed f = true →
        RefusedInOrder s p 0x22 tag (exec (.go p tag (.fields (numberOf n, .place f))) s) f.rank (s.expand f.target)
        ∧ ∀ cs, s.expand f.target = some cs → MayPlace s p f.rank cs → ∃ v : State,
          exec (.go p tag (.fields (numberOf n, .place f))) s = .next (v.replay.respond p 0x22 tag .ok .empty)
          ∧ PlacedAs s v (.port p) (cs.map fun c =>
              { circuit := c, target := f.level, fade := f.fade, rank := rankOf f.rank, cause := none }) f.wait
              (some (.slot n))
          ∧ CueRuns s v n k cs ∧ CommandTold s v (.port p) ∧ ClaimEvent (s.refreshLease p) v)
      ∧ (∀ (f : RecallFields), RecallFields.formed f = true →
        RefusedInOrder s p 0x22 tag (exec (.go p tag (.fields (numberOf n, .recall f))) s) f.rank
          ((s.presetNumbered f.preset).map fun d => d.pairs.map Prod.fst)
        ∧ ∀ d, s.presetNumbered f.preset = some d → MayPlace s p f.rank (d.pairs.map Prod.fst) → ∃ v : State,
          exec (.go p tag (.fields (numberOf n, .recall f))) s = .next (v.replay.respond p 0x22 tag .ok .empty)
          ∧ PlacedAs s v (.port p) (d.pairs.map fun x =>
              { circuit := x.1, target := x.2, fade := f.fade.getD d.defaultFade, rank := rankOf f.rank, cause := none })
              false (some (.slot n))
          ∧ CueRuns s v n k (d.pairs.map Prod.fst) ∧ CommandTold s v (.port p) ∧ ClaimEvent (s.refreshLease p) v)

/-- CANCEL ends the port's own slot, whether ARMED or GOING, and the claims keep all but their link to it; a number
outside 1 to 4, a FREE slot and another port's slot are refused (R115). SLOT_EXPIRY ends a slot in the same way once
its expiry has come (R118). Either tells the ONLINE owner STANDBY_END and leaves a replay owed (R116). Where the replay is
taken is the model's choice (notes/assumptions/24.md). -/
def Obligations.CancelAndExpiryEndASlot : Prop :=
  (∀ (s : State) p tag, Ready s p →
    (∀ (n : SlotNo) k, s.slot n = some k → k.owner = p → ∃ v : State,
      exec (.cancel p tag (.fields (numberOf n))) s = .next (v.replay.respond p 0x23 tag .ok .empty)
      ∧ v.slot n = none ∧ (∀ m, m ≠ n → v.slot m = s.slot m)
      ∧ (∀ c, (v.claims c).map Claim.unlinked = (s.claims c).map Claim.unlinked)
      ∧ (∀ c, ∀ x ∈ v.claims c, x.tracker ≠ some (.slot n))
      ∧ (∀ c, v.level c = s.level c) ∧ v.trackers = s.trackers
      ∧ Told v p (.standbyEnd n .cancelled) ∧ v.replayOwed = true ∧ ClaimEvent (s.refreshLease p) v)
    ∧ (∀ (n : SlotNo) k, s.slot n = some k → k.owner ≠ p →
      exec (.cancel p tag (.fields (numberOf n))) s = .next (answered s p 0x23 tag .denied .empty))
    ∧ (∀ n : SlotNo, s.slot n = none →
      exec (.cancel p tag (.fields (numberOf n))) s = .next (answered s p 0x23 tag .wrongState .empty))
    ∧ (∀ n, indexOf 4 n = none →
      exec (.cancel p tag (.fields n)) s = .next (answered s p 0x23 tag .badTarget .empty)))
  ∧ (∀ (s : State) (n : SlotNo) k, s.slot n = some k → k.expiry ≤ s.now → ∃ v : State,
      exec (.slotExpiry n) s = .next v.replay ∧ v.slot n = none ∧ (∀ m, m ≠ n → v.slot m = s.slot m)
      ∧ (∀ c, (v.claims c).map Claim.unlinked = (s.claims c).map Claim.unlinked)
      ∧ (∀ c, ∀ x ∈ v.claims c, x.tracker ≠ some (.slot n)) ∧ v.trackers = s.trackers
      ∧ ((s.port k.owner).isOnline = true → Told v k.owner (.standbyEnd n .expired)) ∧ v.replayOwed = true
      ∧ ClaimEvent s v)

/-- The deferred entry due first leaves the queue and is counted; its action is not carried out (R123). A replay that is
owed takes the entries front to back and then the players that wait for a lock, in ascending number (R104, R125, R141),
and one that is not owed does nothing; each entry and each player is judged as the ones before it have left the part. A
removal that leaves fewer entries than the warning level clears the warning (R124); which level judges it after a write of
that setting is the model's reading (notes/assumptions/39.md). The pass changes no slot (R126). That the links its
promotions took from claims of a GO are taken off the slots' trackers once the players have made their attempts, and that a
slot so ended asks for another replay, is the model's choice (notes/assumptions/17.md), and so is what PREEMPTED counts
where a promotion follows (notes/assumptions/41.md); no more than five can follow one
another, since four slots can end. That a step locked again leaves even the player's rate is its reading
(notes/assumptions/29.md). -/
def Obligations.DeferredEntryExpires : Prop :=
  (∀ (s : State) l d r, s.deferred = l ++ d :: r → d.expiry ≤ s.now → (∀ x ∈ l, s.now < x.expiry) →
    ∃ t, exec .deferredEntryExpiry s = .next t ∧ t.deferred = l ++ r
      ∧ t.counters = { s.counters with deferredExpired := min (s.counters.deferredExpired + 1) 65535 }
      ∧ t = { s with deferred := t.deferred, counters := t.counters, deferWarned := t.deferWarned }
      ∧ ((l ++ r).length < s.tables.settings.warningLevel → t.deferWarned = false))
  ∧ (∀ s : State, (s.replayOwed = false → s.replay = s)
    ∧ (s.replayOwed = true → s.replay = { s with replayOwed := false }.takeReplay.replayWithin 4)
    ∧ (∀ n, s.replayOwed = false → s.replayWithin (n + 1) = s)
    ∧ (∀ n, s.replayOwed = true → s.replayWithin (n + 1) = { s with replayOwed := false }.takeReplay.replayWithin n)
    ∧ s.replayQueue.slots = s.slots
    ∧ SlotsFall ((indices 4).foldl State.retryStep s.replayQueue) s.takeReplay
        (fun n => s.slotLinks n - s.replayQueue.slotLinks n)
    ∧ (∃ t, t = s.deferred.foldl State.replayEntry { s with deferred := [] }
      ∧ (t.deferred.length < s.deferred.length → t.deferred.length < s.tables.settings.warningLevel →
          s.replayQueue = { t with deferWarned := false })
      ∧ (s.deferred.length ≤ t.deferred.length ∨ s.tables.settings.warningLevel ≤ t.deferred.length →
          s.replayQueue = t))
    ∧ (∀ d, EntryJudged s (s.replayEntry d) d)
    ∧ ∀ n, StepRetried s (s.retryStep n) n)

/-- SET_MODE of another mode enters it and answers OK after the replay: the claims of MODE are released over the entry
fade time of its record, the record's entry preset is recalled as owner MODE, its entry sequence is handed to its player,
and MODE is announced with both outcomes, in that order (R149 to R152); leaving SHOW ends every slot, its ONLINE owner told
STANDBY_END of reason MODE_LEFT (R119). Of the current mode it changes nothing but the
lease and the reply; without MODE permission it is DENIED (R148). The event number in a fade (notes/assumptions/22.md),
where the replay is taken (notes/assumptions/24.md) and what PREEMPTED counts where a promotion follows
(notes/assumptions/41.md) are the model's choices. -/
def Obligations.SetModeEntersTheMode : Prop :=
  ∀ (s : State) p tag n m, Ready s p → HouseMode.ofCode n = some m →
    (s.permits p .mode = true → s.mode ≠ some m →
      ∃ (v : State) (preset : PresetOutcome) (sequence : SequenceOutcome),
      exec (.setMode p tag (.fields n)) s =
        .next (v.replay.respond p 0x20 tag .ok (.modeEntry m preset sequence))
      ∧ ModeEntered (s.refreshLease p) v m (.port p) preset sequence ∧ v.replay.mode = some m)
    ∧ (s.permits p .mode = true → s.mode = some m →
        exec (.setMode p tag (.fields n)) s = .next (answered s p 0x20 tag .ok (.modeEntry m .none .none)))
    ∧ (s.permits p .mode = false →
        exec (.setMode p tag (.fields n)) s = .next (answered s p 0x20 tag .denied .empty))

/-! ## Players -/

/-- RUN_SEQUENCE of SINGLE or LOOP on a player that is OFF, or that runs another sequence, writes its rate and begins the
run with SEQ STARTED, and the player takes step 1; the reply is the refusal of step 1, or OK (R131 to R133, R136, R138,
R142). With status OK the player runs the sequence in that mode at step 1 with pass count 0; with any other it is OFF. On
the sequence the player runs it writes the mode and the rate and answers OK (R134); of mode OFF it stops the player, whose
claims are released over its sequence's release time with SEQ STOPPED (R135, R143), or writes the rate of one that is OFF
(R135). An undefined sequence is BAD_TARGET and one above the role's maximum rank
DENIED, with nothing written (R132). Where the replay is taken is the model's choice (notes/assumptions/24.md), and so is
the event number in a fade (notes/assumptions/22.md). -/
def Obligations.RunSequenceStartsTheRun : Prop :=
  ∀ (s : State) p tag (n : PlayerNo) (q : SequenceNo) rate, Ready s p → rateFormed rate = true →
    let rated : State := s.setPlayer n
      { s.player n with pendingRate := if rate = 0 then (s.player n).pendingRate else some rate }
    let run := fun code => exec (.runSequence p tag (.fields (numberOf n, numberOf q, code, rate))) s
    (∀ code m d, (PlayerMode.ofCode code).bind PlayerMode.run = some m →
      s.tables.sequences.get q = some d → d.rank ≤ (s.role p).maxRank →
      (((s.player n).mode = .off ∨ (s.player n).sequence ≠ some q) →
        ∃ (w v : State) (refused : Option StepRefusal),
        run code = .next (v.replay.respond p 0x24 tag (statusOf refused) (.player (v.replay.playerReport n)))
        ∧ RunTaken s (rated.refreshLease p) w v p n q m d refused)
      ∧ ((s.player n).mode ≠ .off → (s.player n).sequence = some q →
        let t := rated.setPlayer n { rated.player n with mode := m.toPlayer }
        run code = .next (answered t p 0x24 tag .ok (.player (t.playerReport n)))))
    ∧ ((s.player n).mode = .off → run 0 = .next (answered rated p 0x24 tag .ok (.player (rated.playerReport n))))
    ∧ ((s.player n).mode ≠ .off → ∃ v : State,
        run 0 = .next (v.replay.respond p 0x24 tag .ok (.player (v.replay.playerReport n)))
        ∧ Stopped (rated.refreshLease p) v n (.port p))
    ∧ (∀ code m, (PlayerMode.ofCode code).bind PlayerMode.run = some m → s.tables.sequences.get q = none →
        run code = .next (answered s p 0x24 tag .badTarget (.player (s.playerReport n))))
    ∧ (∀ code m d, (PlayerMode.ofCode code).bind PlayerMode.run = some m → s.tables.sequences.get q = some d →
        (s.role p).maxRank < d.rank →
        run code = .next (answered s p 0x24 tag .denied (.player (s.playerReport n))))

/-- SET_PLAYER changes the mode of a player that runs and leaves its step, passes and wait; of mode OFF it stops the
player and releases its claims over its sequence's release time, with SEQ STOPPED (R134, R135, R143). Of SINGLE or LOOP on a player that is OFF it starts the sequence the player
holds, as a run request would (R133, R134, R137): WRONG_STATE where it holds none, BAD_TARGET where that is undefined and
DENIED where its rank is above the role's maximum, with nothing written, the rate included. Of mode OFF on a player that is
OFF it writes the rate alone (R135). A rate of 0 writes nothing (R131). Where the replay is taken is the model's choice
(notes/assumptions/24.md), and so is the event number in a fade (notes/assumptions/22.md). -/
def Obligations.SetPlayerActsOnTheRun : Prop :=
  ∀ (s : State) p tag (n : PlayerNo) rate, Ready s p → rateFormed rate = true →
    let rated : State := s.setPlayer n
      { s.player n with pendingRate := if rate = 0 then (s.player n).pendingRate else some rate }
    let run := fun code => exec (.setPlayer p tag (.fields (numberOf n, code, rate))) s
    ((s.player n).mode = .off → run 0 = .next (answered rated p 0x25 tag .ok (.player (rated.playerReport n))))
    ∧ (∀ code m, (s.player n).mode = .off → (PlayerMode.ofCode code).bind PlayerMode.run = some m →
      ((s.player n).sequence = none → run code = .next (answered s p 0x25 tag .wrongState (.player (s.playerReport n))))
      ∧ ∀ q, (s.player n).sequence = some q →
        (s.tables.sequences.get q = none →
          run code = .next (answered s p 0x25 tag .badTarget (.player (s.playerReport n))))
        ∧ ∀ d, s.tables.sequences.get q = some d →
          ((s.role p).maxRank < d.rank →
            run code = .next (answered s p 0x25 tag .denied (.player (s.playerReport n))))
          ∧ (d.rank ≤ (s.role p).maxRank → ∃ (w v : State) (refused : Option StepRefusal),
            run code = .next (v.replay.respond p 0x25 tag (statusOf refused) (.player (v.replay.playerReport n)))
            ∧ RunTaken s (rated.refreshLease p) w v p n q m d refused))
    ∧ (∀ code m, (s.player n).mode ≠ .off → (PlayerMode.ofCode code).bind PlayerMode.run = some m → ∃ t,
      exec (.setPlayer p tag (.fields (numberOf n, code, rate))) s = .next t
      ∧ t.player n = { s.player n with
          mode := m.toPlayer, pendingRate := if rate = 0 then (s.player n).pendingRate else some rate }
      ∧ Replied t p 0x25 tag .ok (.player (t.playerReport n)) ∧ Leased s t p
      ∧ (∀ k, k ≠ n → t.player k = s.player k) ∧ t = { s with players := t.players, ports := t.ports })
    ∧ ((s.player n).mode ≠ .off → ∃ v : State, exec (.setPlayer p tag (.fields (numberOf n, 0, rate))) s =
          .next (v.replay.respond p 0x25 tag .ok (.player (v.replay.playerReport n)))
      ∧ Stopped (rated.refreshLease p) v n (.port p)
      ∧ v.player n = { s.player n with
          mode := .off, run := .idle, step := 0,
          pendingRate := if rate = 0 then (s.player n).pendingRate else some rate }
      ∧ (∀ c, claimOf (.seq n) (v.claims c) = none)
      ∧ (∀ k, k ≠ n → v.player k = s.player k) ∧ v.mode = s.mode ∧ v.tables = s.tables)

/-- When a wait runs out before the last step the step index rises by 1 and the player takes the next step, or faults in
it (R138, R139, R142). At the last step the pass ends: the pass count rises and PASS_DONE is posted; under LOOP with passes
left the player takes step 1, and otherwise the run ends by its end action, HOLD keeping the claims and RELEASE releasing
them over the sequence's release time (R140). With the timer still running nothing happens; that an event not due changes nothing is the model's choice
(notes/assumptions/5.md), and so are the step index in the notices of a pass end and of a fault (notes/assumptions/13.md)
and the event number in a fade (notes/assumptions/22.md). -/
def Obligations.WaitExpiryTakesTheNextStep : Prop :=
  (∀ (s : State) (n : PlayerNo) t q d, (s.player n).run = .running t → t ≤ s.now →
    (s.player n).sequence = some q → s.tables.sequences.get q = some d →
    ((s.player n).step < d.steps.length → ∃ (v : State) (refused : Option StepRefusal),
      exec (.waitTimerExpiry n) s = .next v.replay
      ∧ (∀ x, d.steps[(s.player n).step]? = some x →
          StepTaken (s.setPlayer n { s.player n with step := (s.player n).step + 1 }) v n d x refused)
      ∧ (refused = none → (v.player n).mode = (s.player n).mode ∧ (v.player n).step = (s.player n).step + 1)
      ∧ (refused ≠ none → (v.player n).mode = .off ∧ (v.player n).step = 0 ∧ ∀ c, claimOf (.seq n) (v.claims c) = none)
      ∧ (v.player n).rate = (s.player n).pendingRate.getD (s.player n).rate ∧ (v.player n).pendingRate = none
      ∧ (v.player n).passes = (s.player n).passes
      ∧ (∀ k, k ≠ n → v.player k = s.player k) ∧ v.mode = s.mode ∧ v.tables = s.tables)
    ∧ (d.steps.length ≤ (s.player n).step →
      let y := { s.player n with passes := min ((s.player n).passes + 1) 65535 }
      let w := (s.setPlayer n y).announce (.seq n (some q) .passDone y.passes y.step)
      (y.mode = .loop → (d.passLimit = 0 ∨ y.passes < d.passLimit) → ∀ x rest, d.steps = x :: rest →
        ∃ (v : State) (refused : Option StepRefusal), exec (.waitTimerExpiry n) s = .next v.replay
          ∧ StepTaken (w.setPlayer n { y with step := 1 }) v n d x refused)
      ∧ ((y.mode ≠ .loop ∨ (d.passLimit ≠ 0 ∧ d.passLimit ≤ y.passes)) →
        (d.endAction = .hold → exec (.waitTimerExpiry n) s = .next ((w.setPlayer n
            { y with mode := .off, run := .idle, step := 0, heldRelease := some d.releaseTime }).announce
              (.seq n (some q) (.ended .hold) y.passes 0)).replay)
        ∧ (d.endAction = .release → ∃ v : State, exec (.waitTimerExpiry n) s = .next v.replay
          ∧ v.player n = { y with mode := .off, run := .idle, step := 0 }
          ∧ ReleasedAs s v (.seq n) (s.circuitsOf (.seq n)) d.releaseTime ∧ (∀ c, claimOf (.seq n) (v.claims c) = none)
          ∧ Announced v (.seq n (some q) (.ended .release) y.passes 0)
          ∧ (∀ k, k ≠ n → v.player k = s.player k) ∧ v.mode = s.mode ∧ v.tables = s.tables))))
  ∧ (∀ (s : State) (n : PlayerNo) t, (s.player n).run = .running t → s.now < t →
      exec (.waitTimerExpiry n) s = .next s)

/-! ## The emergency -/

/-- EMERGENCY_ON in NORMAL or RECOVERING enters LATCHED: every circuit with an emergency level starts toward it from its
level, no other circuit and no claim is touched, the entry is counted, and EMERGENCY is announced (R163); while forcing it changes nothing but the lease
and the reply, and without SAFETY it is DENIED (R158, R162). -/
def Obligations.EmergencyOnForces : Prop :=
  ∀ (s : State) p tag, Ready s p →
    (s.permits p .safety = true → s.emergency.state.forces = false → ∃ t,
      exec (.emergencyOn p tag (.fields ())) s = .next t
      ∧ t.emergency = { s.emergency with state := .latched, recovery := [] }
      ∧ (∀ c, t.claims c = s.claims c)
      ∧ (∀ c v, (s.record c).emergency = some v →
          (t.circuit c).transition = started .egress (some v) (s.level c) s.tables.settings.egressTime)
      ∧ (∀ c, (s.record c).emergency = none → t.circuit c = s.circuit c)
      ∧ t.counters = { s.counters with emergencyEntries := min (s.counters.emergencyEntries + 1) 65535 }
      ∧ Announced t (.emergency .latched s.emergency.accepted (.port p) (forcible s))
      ∧ Replied t p 0x26 tag .ok .empty ∧ Leased s t p
      ∧ t = { s with
          circuits := t.circuits, emergency := t.emergency, counters := t.counters, ports := t.ports })
    ∧ (s.permits p .safety = true → s.emergency.state.forces = true →
        exec (.emergencyOn p tag (.fields ())) s = .next (answered s p 0x26 tag .ok .empty))
    ∧ (s.permits p .safety = false →
        exec (.emergencyOn p tag (.fields ())) s = .next (answered s p 0x26 tag .denied .empty))

/-- CLEAR_EMERGENCY in LATCHED starts a RECOVERY transition on every forced circuit and passes to RECOVERING, or to NORMAL
where no recovery runs, each with EMERGENCY (R160, R161, R163); in the other states, and without SAFETY, it is refused
(R160). -/
def Obligations.ClearEmergencyRecovers : Prop :=
  ∀ (s : State) p tag, Ready s p →
    (s.permits p .safety = true → s.emergency.state = .latched → ∃ t,
      exec (.clearEmergency p tag (.fields ())) s = .next t
      ∧ (∀ c, s.forced c = true →
          (t.circuit c).transition = started .recovery none (s.level c) s.tables.settings.recoveryTime)
      ∧ (∀ c, s.forced c = false → t.circuit c = s.circuit c)
      ∧ (∀ c, t.claims c = s.claims c)
      ∧ ((s.tables.settings.recoveryTime = 0 ∨ ∀ c, s.forced c = false) →
          t.emergency = { s.emergency with state := .normal, recovery := [] }
          ∧ Announced t (.emergency .normal s.emergency.accepted .recoveryComplete 0))
      ∧ Announced t (.emergency .recovering s.emergency.accepted (.port p) 0)
      ∧ (0 < s.tables.settings.recoveryTime → ∀ d, s.forced d = true →
          t.emergency = { s.emergency with state := .recovering, recovery := t.emergency.recovery }
          ∧ ∀ c, c ∈ t.emergency.recovery ↔ s.forced c = true)
      ∧ Replied t p 0x27 tag .ok .empty ∧ Leased s t p
      ∧ t = { s with circuits := t.circuits, emergency := t.emergency, ports := t.ports })
    ∧ (s.permits p .safety = true → s.emergency.state = .active →
        exec (.clearEmergency p tag (.fields ())) s = .next (answered s p 0x27 tag .contactActive .empty))
    ∧ (s.permits p .safety = true → s.emergency.state = .normal ∨ s.emergency.state = .recovering →
        exec (.clearEmergency p tag (.fields ())) s = .next (answered s p 0x27 tag .wrongState .empty))
    ∧ (s.permits p .safety = false →
        exec (.clearEmergency p tag (.fields ())) s = .next (answered s p 0x27 tag .denied .empty))

/-- A reading of the contact is taken into the debounce record: idle where it equals the accepted state, a new 100 ms
where the candidate was of the other assertion or none, the timer running on otherwise (R155). -/
def Obligations.ContactReadingIsDebounced : Prop :=
  ∀ (s : State) r, ∃ t, exec (.contactReading r) s = .next t
    ∧ t = { s with emergency := { s.emergency with line := r, debounce := t.emergency.debounce } }
    ∧ (s.emergency.accepted = some r → t.emergency.debounce = none)
    ∧ (s.emergency.accepted ≠ some r → s.emergency.debounce = none →
        t.emergency.debounce = some (r, s.now + 100000))
    ∧ (∀ c e, s.emergency.accepted ≠ some r → s.emergency.debounce = some (c, e) → c.asserted ≠ r.asserted →
        t.emergency.debounce = some (r, s.now + 100000))
    ∧ (∀ c e, s.emergency.accepted ≠ some r → s.emergency.debounce = some (c, e) → c.asserted = r.asserted →
        t.emergency.debounce = some (r, e))

/-- When the debounce runs out the candidate is accepted, and a running part takes it by its emergency state: an
asserted contact in NORMAL or RECOVERING enters ACTIVE with the transitions of an entry, in LATCHED it makes the state
ACTIVE, and NORMAL in ACTIVE makes it LATCHED, both without a transition (R155, R156, R158, R159). A change of the
accepted state or of the emergency state is announced by EMERGENCY of cause CONTACT (R163). That an event not
due changes nothing is the model's choice (notes/assumptions/5.md). -/
def Obligations.DebounceExpiryAcceptsTheContact : Prop :=
  ∀ (s : State) r e, s.emergency.debounce = some (r, e) →
    (s.now < e → exec .debounceTimerExpiry s = .next s)
    ∧ (e ≤ s.now → ∃ t, exec .debounceTimerExpiry s = .next t
      ∧ t.emergency.accepted = some r ∧ t.emergency.debounce = none ∧ t.emergency.line = s.emergency.line
      ∧ (s.startup ≠ .running → t.emergency.state = s.emergency.state ∧ t.circuits = s.circuits ∧ t.ports = s.ports)
      ∧ (s.startup = .running → r.asserted = true → s.emergency.state.forces = false →
          t.emergency.state = .active ∧ t.emergency.recovery = []
          ∧ (∀ c v, (s.record c).emergency = some v →
              (t.circuit c).transition = started .egress (some v) (s.level c) s.tables.settings.egressTime)
          ∧ (∀ c, (s.record c).emergency = none → t.circuit c = s.circuit c)
          ∧ t.counters.emergencyEntries = min (s.counters.emergencyEntries + 1) 65535)
      ∧ (s.startup = .running → r.asserted = true → s.emergency.state.forces = true →
          t.emergency.state = .active ∧ t.circuits = s.circuits ∧ t.counters = s.counters)
      ∧ (s.startup = .running → r.asserted = false →
          t.emergency.state = (if s.emergency.state = .active then .latched else s.emergency.state)
          ∧ t.circuits = s.circuits ∧ t.counters = s.counters)
      ∧ (s.startup = .running → s.emergency.accepted ≠ some r ∨ t.emergency.state ≠ s.emergency.state →
          Announced t (.emergency t.emergency.state (some r) .contact
            (if t.emergency.state.forces then forcible s else 0)))
      ∧ (s.emergency.accepted = some r → t.emergency.state = s.emergency.state → t.ports = s.ports)
      ∧ (∀ c, t.claims c = s.claims c)
      ∧ t = { s with
          circuits := t.circuits, emergency := t.emergency, counters := t.counters, ports := t.ports })

/-! ## Table writes -/

/-- A write of the rank table replaces all eight entries; no claim moves or changes its wish, and no transition starts
(R2, R3). Under the new modes the WAITING claims of every circuit are judged (R16), one that need wait no longer becoming
EFFECTIVE over its held fade time from the circuit level (notes/assumptions/40.md), and a transition is continued (R39). It is refused with DENIED, SHOW_ACTIVE, BUSY_SAVING and BAD_RECORD, in that order (R2). Where the replay is taken
is the model's choice (notes/assumptions/24.md). -/
def Obligations.RankTableWriteReplacesAll : Prop :=
  (∀ (s : State) p tag (l : List Nat), Ready s p → l.length = 8 →
    EditRefused s p tag (s.permits p .edit) (exec (.writeRankTable p tag (.fields l)) s)
    ∧ (MayEdit s p → BadRanks l →
        exec (.writeRankTable p tag (.fields l)) s = .next (answered s p 0x41 tag .badRecord .empty)))
  ∧ ∀ (s : State) p tag l, Ready s p → MayEdit s p → l.length = 8 → ¬ BadRanks l → ∃ (v : State) (modes : Tab MergeMode 8),
    (∀ r : Rank, l[r.val]? = some (writtenMerge (modes.get r)))
    ∧ exec (.writeRankTable p tag (.fields l)) s = .next (v.replay.respond p 0x41 tag .ok .empty)
    ∧ v.tables = { s.tables with ranks := modes }
    ∧ (∀ c, (v.claims c).map (fun x => (x.owner, x.wish)) = (s.claims c).map (fun x => (x.owner, x.wish)))
    ∧ (∀ c x, (s.circuit c).transition = none → (v.circuit c).transition ≠ some x)
    ∧ (∀ c, Judged modes (s.record c) s.emergency.state s.event (s.circuit c) (v.circuit c))
    ∧ ClaimEvent { s.refreshLease p with tables := v.tables } v

/-- The checks and the effect of a group write, in their order (R55). -/
def Obligations.GroupWriteIsCheckedAndTaken : Prop :=
  ∀ (s : State) p tag n (list : List Nat), Ready s p →
    let reply := fun status => Host.Outcome.next (answered s p 0x41 tag status .empty)
    let write := exec (.writeGroup p tag (.fields (n, list))) s
    (s.permits p .edit = false → write = reply .denied)
    ∧ (s.permits p .edit = true → s.mode = some .inShow → write = reply .showActive)
    ∧ (s.permits p .edit = true → s.mode ≠ some .inShow → s.save ≠ none → write = reply .busySaving)
    ∧ (MayEdit s p → (n = 0 ∨ 64 < n) → write = reply .badTarget)
    ∧ (MayEdit s p → 1 ≤ n → n ≤ 64 → ((∃ c ∈ list, c = 0 ∨ 192 < c) ∨ ¬ list.Nodup) → write = reply .badRecord)
    ∧ (∀ (g : Fin 64) (l : List Circuit), MayEdit s p → n = numberOf g → list = l.map numberOf → l.Nodup →
        (2048 - Tables.membersUsed s.tables + (s.tables.groups.get g).length < l.length → write = reply .tableFull)
        ∧ (l.length ≤ 2048 - Tables.membersUsed s.tables + (s.tables.groups.get g).length →
            write = .next (answered { s with tables := { s.tables with groups := s.tables.groups.set g l } }
              p 0x41 tag .ok .empty)))

/-- The open part and the pairs parts of a preset write (R58, R59): an open part with count 0 undefines the preset,
another opens the port's edit record; a pairs part is appended to it, and the part that fills it commits the preset, whose
version rises by 1. Both parts are refused with DENIED, SHOW_ACTIVE and BUSY_SAVING first. An open part is then refused
with BAD_TARGET, BAD_RECORD and TABLE_FULL, in that order; a pairs part with WRONG_STATE where no edit record of that
preset is open and with BAD_RECORD where a circuit or level is out of range, a circuit is named twice or the pairs are more
than declared, each leaving the edit record open; and a part that fills the record with TABLE_FULL where the preset store
has no room, which discards it. -/
def Obligations.PresetIsWrittenInParts : Prop :=
  (∀ (s : State) p tag, Ready s p →
    let reply := fun status => Host.Outcome.next (answered s p 0x41 tag status .empty)
    (∀ n fade count, count ≤ 192 →
      let run := exec (.writePresetOpen p tag (.fields (n, fade, count))) s
      EditRefused s p tag (s.permits p .edit) run
      ∧ (MayEdit s p → (n = 0 ∨ 48 < n) → run = reply .badTarget)
      ∧ (MayEdit s p → 1 ≤ n → n ≤ 48 → 36000 < fade → run = reply .badRecord)
      ∧ (∀ i : PresetNo, MayEdit s p → n = numberOf i → fade ≤ 36000 →
          3072 - Tables.pairsUsed s.tables + (pairsOf (s.presetDef i)).length < count → run = reply .tableFull))
    ∧ (∀ n (list : List (Nat × Nat)), 1 ≤ list.length → list.length ≤ 64 →
      let run := exec (.writePresetPairs p tag (.fields (n, list))) s
      EditRefused s p tag (s.permits p .edit) run
      ∧ (MayEdit s p → (∀ e, (s.port p).edit = some e → numberOf e.preset ≠ n) → run = reply .wrongState)
      ∧ (∀ e, MayEdit s p → (s.port p).edit = some e → numberOf e.preset = n →
          ((∃ x ∈ list, x.1 = 0 ∨ 192 < x.1 ∨ 1000 < x.2) → run = reply .badRecord)
          ∧ (∀ pairs : List (Circuit × Nat), list = pairs.map (fun x => (numberOf x.1, x.2)) →
            (¬ ((e.received ++ pairs).map Prod.fst).Nodup ∨ e.declared < (e.received ++ pairs).length →
              run = reply .badRecord)
            ∧ ((∀ x ∈ pairs, x.2 ≤ 1000) → ((e.received ++ pairs).map Prod.fst).Nodup →
              (e.received ++ pairs).length = e.declared →
              3072 - Tables.pairsUsed s.tables + (pairsOf (s.presetDef e.preset)).length < e.declared →
              run = .next (answered (s.onPort p fun x => { x with edit := none }) p 0x41 tag .tableFull .empty))))))
  ∧ ∀ (s : State) p tag (n : PresetNo), Ready s p → MayEdit s p →
    (∀ fade, fade ≤ 36000 → exec (.writePresetOpen p tag (.fields (numberOf n, fade, 0))) s =
      .next (answered ((s.onPort p fun x => { x with edit := none }).setPreset n none) p 0x41 tag .ok .empty))
    ∧ (∀ fade count, fade ≤ 36000 → 1 ≤ count → count ≤ 192 →
        count ≤ 3072 - Tables.pairsUsed s.tables + (pairsOf (s.presetDef n)).length →
        exec (.writePresetOpen p tag (.fields (numberOf n, fade, count))) s =
          .next (answered (s.onPort p fun x =>
            { x with edit := some { preset := n, fade := fade, declared := count, received := [] } })
            p 0x41 tag .ok .empty))
    ∧ (∀ e (list : List (Circuit × Nat)), (s.port p).edit = some e → e.preset = n →
        1 ≤ list.length → list.length ≤ 64 → (∀ x ∈ list, x.2 ≤ 1000) →
        ((e.received ++ list).map Prod.fst).Nodup →
        ((e.received ++ list).length < e.declared →
          exec (.writePresetPairs p tag (.fields (numberOf n, list.map fun x => (numberOf x.1, x.2)))) s =
            .next (answered (s.onPort p fun x => { x with edit := some { e with received := e.received ++ list } })
              p 0x41 tag .ok .empty))
        ∧ ((e.received ++ list).length = e.declared →
            e.declared ≤ 3072 - Tables.pairsUsed s.tables + (pairsOf (s.presetDef n)).length →
          exec (.writePresetPairs p tag (.fields (numberOf n, list.map fun x => (numberOf x.1, x.2)))) s =
            .next (answered ((s.onPort p fun x => { x with edit := none }).setPreset n
              (some { defaultFade := e.fade, pairs := e.received ++ list })) p 0x41 tag .ok .empty)))
    ∧ (∀ (t : State) d, (t.setPreset n d).versions.get n = t.versions.get n + 1
        ∧ (t.setPreset n d).presetDef n = d
        ∧ ∀ m, m ≠ n → (t.setPreset n d).versions.get m = t.versions.get m
          ∧ (t.setPreset n d).presetDef m = t.presetDef m)

/-- A write of bindings replaces the entries of one key address and edge and no others (R89, R90). It is refused, in this
order, with DENIED, SHOW_ACTIVE, BUSY_SAVING, BAD_TARGET where the key address or the edge does not exist, BAD_RECORD where
the entries are more than four or one is out of range, and TABLE_FULL (R90). That a gate byte with a bit above 4 makes its
entry BAD_RECORD is the model's choice (notes/assumptions/14.md). -/
def Obligations.BindingWriteReplacesOneList : Prop :=
  (∀ (s : State) p tag k edge (list : List RawBinding), Ready s p →
    let reply := fun status => Host.Outcome.next (answered s p 0x41 tag status .empty)
    let run := exec (.writeBindings p tag (.fields (k, edge, list))) s
    EditRefused s p tag (s.permits p .edit) run
    ∧ (MayEdit s p → (RawKey.address k = none ∨ Edge.ofCode edge = none) → run = reply .badTarget)
    ∧ ∀ a e, MayEdit s p → RawKey.address k = some a → Edge.ofCode edge = some e →
      ((4 < list.length ∨ ∃ b ∈ list, BadBinding b) → run = reply .badRecord)
      ∧ (list.length ≤ 4 → (∀ b ∈ list, ¬ BadBinding b) →
        512 + (Tables.bindingsOf s.tables a e).length < s.tables.bindings.length + list.length → run = reply .tableFull))
  ∧ ∀ (s : State) p tag k edge a e (list : List RawBinding), Ready s p → MayEdit s p →
    RawKey.address k = some a → Edge.ofCode edge = some e → list.length ≤ 4 → (∀ b ∈ list, ¬ BadBinding b) →
    s.tables.bindings.length + list.length ≤ 512 + (Tables.bindingsOf s.tables a e).length → ∃ l table,
      l.map (fun x => writtenAction (bitsOf HouseMode.all x.gate) x.action) = list ∧ (∀ x ∈ l, x.key = a ∧ x.edge = e)
      ∧ exec (.writeBindings p tag (.fields (k, edge, list))) s =
        .next (answered { s with tables := { s.tables with bindings := table } } p 0x41 tag .ok .empty)
      ∧ table.filter (fun b => b.key == a && b.edge == e) = l
      ∧ (∀ k' e', (k', e') ≠ (a, e) → table.filter (fun b => b.key == k' && b.edge == e') =
          s.tables.bindings.filter (fun b => b.key == k' && b.edge == e'))

/-- A write of a loop's station list replaces it: a station kept with its type carries on, one added or changed in
type starts fresh, and no other loop is touched (R67, R86). Before that the raises of the keys of every station removed or
changed in type are stopped (R101), one by one in an order that is the model's choice (notes/assumptions/36.md). It is
refused, in this order, with DENIED, SHOW_ACTIVE, BUSY_SAVING, BAD_TARGET where the loop does not exist, and BAD_RECORD
(R67). Where the replay is taken (notes/assumptions/24.md) and what a stop tells where a promotion follows
(notes/assumptions/41.md) are the model's choices. -/
def Obligations.StationWriteReplacesTheList : Prop :=
  (∀ (s : State) p tag n (list : List (Nat × Nat)), Ready s p →
    let run := exec (.writeStationTable p tag (.fields (n, list))) s
    EditRefused s p tag (s.permits p .edit) run
    ∧ (MayEdit s p → (n = 0 ∨ 4 < n) → run = .next (answered s p 0x41 tag .badTarget .empty))
    ∧ (MayEdit s p → 1 ≤ n → n ≤ 4 → BadStations list →
        run = .next (answered s p 0x41 tag .badRecord .empty)))
  ∧ (∀ (s : State) k, RaiseStopped s (s.stopRaise k) k)
  ∧ ∀ (s : State) p tag (l : LoopNo) (list : List (Nat × Nat)), Ready s p → MayEdit s p →
    ¬ BadStations list → ∃ (v : State) (entries : List (StationNo × StationType)),
      entries.map writtenStation = list
      ∧ exec (.writeStationTable p tag (.fields (numberOf l, list))) s = .next (v.replay.respond p 0x41 tag .ok .empty)
      ∧ (∀ n, v.stationType l n = (entries.find? fun x => x.1 == n).map Prod.snd)
      ∧ (∀ n, v.stationType l n = s.stationType l n → v.station l n = s.station l n)
      ∧ (∀ n, v.stationType l n ≠ s.stationType l n → v.station l n = .fresh)
      ∧ (∀ m, m ≠ l → v.loop m = s.loop m ∧ v.tables.stations.get m = s.tables.stations.get m)
      ∧ v.tables = { s.tables with stations := v.tables.stations }
      ∧ (∀ c q, q ≠ .field → (claimOf q (v.claims c)).map Claim.wish = (claimOf q (s.claims c)).map Claim.wish)
      ∧ v = { (((indices 16).filter fun n => decide (s.stationType l n ≠
              (entries.find? fun x => x.1 == n).map Prod.snd)).flatMap (s.keysAt l)).foldl State.stopRaise
            (s.refreshLease p) with tables := v.tables, loops := v.loops }

/-- Writes of sequences, mode records, role records and settings replace their record and nothing else; a sequence of
no steps becomes undefined, one in use by a player is IN_USE, a line setting also becomes pending on its line, and a
role record needs ADMIN besides EDIT (R129, R147, R174, R186, R197). Each is refused, in this order, with DENIED,
SHOW_ACTIVE, BUSY_SAVING, BAD_TARGET where there is no such record, IN_USE for a sequence that a player uses, and BAD_RECORD
where a field is out of range (R129, R147, R186, R198); what is taken is the record written. That settings 8 and 9 reach the pending field of
their line at the write is read from R174 (notes/assumptions/32.md). -/
def Obligations.RecordWritesReplaceTheRecord : Prop :=
  (∀ (s : State) p tag, Ready s p →
    let reply := fun status => Host.Outcome.next (answered s p 0x41 tag status .empty)
    (∀ n (q : RawSequence), q.steps.length ≤ 16 →
      let run := exec (.writeSequence p tag (.fields (n, q))) s
      EditRefused s p tag (s.permits p .edit) run
      ∧ (MayEdit s p → (n = 0 ∨ 16 < n) → run = reply .badTarget)
      ∧ (∀ i : SequenceNo, MayEdit s p → n = numberOf i → s.sequenceUsers i = [] → BadSequence q →
          run = reply .badRecord))
    ∧ (∀ n r,
      let run := exec (.writeModeRecord p tag (.fields (n, r))) s
      EditRefused s p tag (s.permits p .edit) run
      ∧ (MayEdit s p → HouseMode.ofCode n = none → run = reply .badTarget)
      ∧ (MayEdit s p → HouseMode.ofCode n ≠ none → BadModeRecord r → run = reply .badRecord))
    ∧ (∀ n r,
      let run := exec (.writeRoleRecord p tag (.fields (n, r))) s
      EditRefused s p tag (s.permits p .edit && s.permits p .admin) run
      ∧ (MayEdit s p → s.permits p .admin = true → Port.ofCode n = none → run = reply .badTarget)
      ∧ (MayEdit s p → s.permits p .admin = true → Port.ofCode n ≠ none → BadRoleRecord r →
          run = reply .badRecord))
    ∧ (∀ setting line v,
      let run := exec (.writeSystemSetting p tag (.fields (setting, line, v))) s
      EditRefused s p tag (s.permits p .edit) run
      ∧ (MayEdit s p → (9 < setting ∨ (setting = 8 ∨ setting = 9) ∧ (line = 0 ∨ 16 < line)) →
          run = reply .badTarget)))
  ∧ ∀ (s : State) p tag, Ready s p → MayEdit s p →
    (∀ (n : SequenceNo) q, s.sequenceUsers n = [] → q.steps.length ≤ 16 → ¬ BadSequence q → ∃ d,
      writtenSequence d = q
      ∧ exec (.writeSequence p tag (.fields (numberOf n, q))) s = .next (answered { s with
        tables := { s.tables with
          sequences := s.tables.sequences.set n (if q.steps = [] then none else some d) } } p 0x41 tag .ok .empty))
    ∧ (∀ (n : SequenceNo) q, s.sequenceUsers n ≠ [] → q.steps.length ≤ 16 →
        exec (.writeSequence p tag (.fields (numberOf n, q))) s = .next (answered s p 0x41 tag .inUse .empty))
    ∧ (∀ n m r, HouseMode.ofCode n = some m → ¬ BadModeRecord r → ∃ d, writtenModeRecord d = r
        ∧ exec (.writeModeRecord p tag (.fields (n, r))) s = .next (answered { s with
          tables := { s.tables with modes := s.tables.modes.set m.ix d } } p 0x41 tag .ok .empty))
    ∧ (∀ n q r, s.permits p .admin = true → Port.ofCode n = some q → ¬ BadRoleRecord r → ∃ d, writtenRoleRecord d = r
        ∧ exec (.writeRoleRecord p tag (.fields (n, r))) s = .next
          { answered s p 0x41 tag .ok .empty with
            tables := { s.tables with roles := s.tables.roles.set q.ix d } })
    ∧ (∀ n r, s.permits p .admin = false →
        exec (.writeRoleRecord p tag (.fields (n, r))) s = .next (answered s p 0x41 tag .denied .empty))
    ∧ (∀ line v,
        let x := s.tables.settings
        let run := fun setting => exec (.writeSystemSetting p tag (.fields (setting, line, v))) s
        let writes := fun setting (fits : Prop) y =>
          (fits → run setting = .next (answered { s with tables := { s.tables with settings := y } } p 0x41 tag .ok .empty))
          ∧ (¬ fits → run setting = .next (answered s p 0x41 tag .badRecord .empty))
        writes 0 (300 ≤ v ∧ v ≤ 3000) { x with holdTime := v }
        ∧ writes 1 (1 ≤ v ∧ v ≤ 60) { x with raiseTime := v }
        ∧ writes 2 (v ≤ 600) { x with deferLimit := v }
        ∧ writes 3 (1 ≤ v ∧ v ≤ 16) { x with warningLevel := v }
        ∧ writes 4 (v ≤ 100) { x with egressTime := v }
        ∧ writes 5 (v ≤ 600) { x with recoveryTime := v }
        ∧ writes 6 (v ≤ 600) { x with restartFade := v }
        ∧ (∀ m, HouseMode.ofCode v = some m → writes 7 True { x with startMode := m })
        ∧ (v = 0 ∨ 5 < v → writes 7 False x))
    ∧ (∀ (n : LineNo) v,
        let run := fun setting => exec (.writeSystemSetting p tag (.fields (setting, numberOf n, v))) s
        let bad := Host.Outcome.next (answered s p 0x41 tag .badRecord .empty)
        (50 ≤ v → v ≤ 5000 → run 8 = .next (answered { s with
          tables := { s.tables with settings := { s.tables.settings with
            pwmPeriod := s.tables.settings.pwmPeriod.set n v } }
          lines := s.lines.modify n fun y => { y with pendingPeriod := some v } } p 0x41 tag .ok .empty))
        ∧ (v < 50 ∨ 5000 < v → run 8 = bad)
        ∧ (∀ pol, Polarity.ofCode v = some pol → run 9 = .next (answered { s with
          tables := { s.tables with settings := { s.tables.settings with
            pwmPolarity := s.tables.settings.pwmPolarity.set n pol } }
          lines := s.lines.modify n fun y => { y with pendingPolarity := some pol } } p 0x41 tag .ok .empty))
        ∧ (1 < v → run 9 = bad))

/-- A write of a circuit record replaces it and starts no transition: the relay record is cleared by a change of kind
alone, and a transition is removed only where the circuit becomes forced or ceases to be (R41, R166, R167); the emergency
state and its recovery set stand (R161). It is refused, in this order, with DENIED, SHOW_ACTIVE, BUSY_SAVING, BAD_TARGET
where the circuit does not exist, and BAD_RECORD where a field is out of range or another circuit's record names the line
(R165, R166). -/
def Obligations.CircuitWriteReplacesTheRecord : Prop :=
  (∀ (s : State) p tag n raw, Ready s p →
    let run := exec (.writeCircuitRecord p tag (.fields (n, raw))) s
    EditRefused s p tag (s.permits p .edit) run
    ∧ (MayEdit s p → (n = 0 ∨ 192 < n) → run = .next (answered s p 0x41 tag .badTarget .empty))
    ∧ (∀ c : Circuit, MayEdit s p → n = numberOf c →
        (BadCircuitRecord raw ∨ ∃ r i d, writtenCircuitRecord r = raw ∧ r.route = .pwm i ∧ d ≠ c
          ∧ (s.record d).route = .pwm i) →
        run = .next (answered s p 0x41 tag .badRecord .empty)))
  ∧ ∀ (s : State) p tag (c : Circuit) raw, Ready s p → MayEdit s p → ¬ BadCircuitRecord raw → ∃ r,
    writtenCircuitRecord r = raw
    ∧ ((∀ i d, r.route = .pwm i → d ≠ c → (s.record d).route ≠ .pwm i) → ∃ t,
      exec (.writeCircuitRecord p tag (.fields (numberOf c, raw))) s = .next t
      ∧ t.tables = { s.tables with circuits := s.tables.circuits.set c r }
      ∧ (∀ d, d ≠ c → t.circuit d = s.circuit d) ∧ t.claims c = s.claims c
      ∧ (t.circuit c).relay =
          (if r.kind.isSwitched = (s.record c).kind.isSwitched then (s.circuit c).relay else Relay.clear)
      ∧ (t.circuit c).transition =
          (if s.emergency.state.forces = true ∧ r.emergency.isSome ≠ (s.record c).emergency.isSome then none
            else (s.circuit c).transition)
      ∧ Replied t p 0x41 tag .ok .empty ∧ Leased s t p
      ∧ t = { s with tables := t.tables, circuits := t.circuits, ports := t.ports })

/-! ## Start-up, saving, restart -/

/-- A full reset puts the part into STARTING with every port OFFLINE and empty, no claim, transition, tracker, slot,
deferred entry or player, no mode, no emergency, every line held low and every counter 0 (R28, R44, R45, R86, R130, R157,
R176, R183, R193, R196). -/
def Obligations.FullResetClears : Prop :=
  ∀ s : State, ∃ t, exec .fullReset s = .next t ∧ t.startup = .reading
    ∧ (∀ q, (t.port q).link = .offline ∧ (t.port q).orphanEnd = none ∧ (t.port q).queue = []
        ∧ (t.port q).overflow = false ∧ (t.port q).subscriptions = [] ∧ (t.port q).edit = none)
    ∧ (∀ c, t.claims c = [] ∧ (t.circuit c).transition = none ∧ (t.circuit c).relay = ⟨false, false, none⟩)
    ∧ t.trackers = [] ∧ (∀ n, t.slot n = none) ∧ t.deferred = [] ∧ t.deferWarned = false
    ∧ (∀ n, t.player n = ⟨.off, .idle, none, 0, 0, 100, none, none⟩) ∧ t.mode = none
    ∧ t.emergency.state = .normal ∧ t.emergency.accepted = none ∧ t.emergency.recovery = []
    ∧ (∀ n, (t.lines.get n).drive = .heldLow) ∧ t.frameCount = 0 ∧ t.rackDue = none ∧ t.save = none
    ∧ t.counterValues = List.replicate 29 0

/-- The image is taken when its read ends. A read that failed, or an image that fails a check, brings the defaults and
INVALID. An image of format 1, of the length its header gives, with the CRC-32 of what follows the header and with records
that all pass, brings its tables and VALID; so does the image the part last stored, which is the image of the tables saved,
where those are records a write lets through. The ports then listen at the loaded rates and the lines are held inactive at
the loaded polarities (R176, R183, R186, R196). An image from outside is handed over as the memory's bytes
(notes/assumptions/8.md); the layout behind the header is the model's (notes/assumptions/9.md), and it puts the bindings it
reads in the order of R89 (notes/assumptions/37.md). -/
def Obligations.ImageIsTaken : Prop :=
  (∀ (s : State) read, s.startup = .reading → ∃ t tables config,
    exec (.imageTaken read) s = .next t ∧ t.startup = .judging tables config
    ∧ (∀ image, (read = .stored ∧ image = s.memory ∨ ∃ b, read = .external b ∧ image = StoredImage.ofBytes b) →
        t.memory = image
        ∧ (∀ x y, image = some x → x.format = 1 → x.length = 7 + x.body.length → x.crc = crc32 x.body →
          readTables x.body = some y → Tables.loadable y = true → tables = Tables.ordered y ∧ config = .valid)
        ∧ ((image = none ∨ ∃ x, image = some x ∧ (x.format ≠ 1 ∨ x.length ≠ 7 + x.body.length ∨ x.crc ≠ crc32 x.body
            ∨ readTables x.body = none ∨ ∃ y, readTables x.body = some y ∧ Tables.loadable y = false)) →
          tables = defaultTables ∧ config = .invalid))
    ∧ (read = .failed → tables = defaultTables ∧ config = .invalid ∧ t.memory = s.memory)
    ∧ (∀ x, read = .stored → s.memory = some (imageOf x) → Tables.loadable x = true → Tables.Canonical x →
        tables = Tables.ordered x ∧ config = .valid)
    ∧ (∀ q, (t.port q).linkRate = (tables.roles.get q.ix).linkRate ∧ (t.port q).link = (s.port q).link)
    ∧ (∀ n, (t.lines.get n).drive = .heldInactive
        ∧ (t.lines.get n).polarity = tables.settings.pwmPolarity.get n))
  ∧ (∀ x : StoredImage, x.format < 256 → x.length < 65536 → x.length = 7 + x.body.length →
      StoredImage.ofBytes (Sys2Proof.Machine.StoredImage.bytes x) = some x)

/-- When start-up ends the judged tables are in force, the lines begin their first periods and the first rack sample stands
25 ms ahead (R173, R196). An asserted contact then forces the circuits: EGRESS runs from the level on each that has an
emergency level, the entry is counted, and EMERGENCY is announced with cause START (R156, R158, R163). The start mode is
then entered with source START, entry actions and all (R149 to R152, R154), CONFIG is announced (R196), and a replay that
the entry left owed is taken (notes/assumptions/24.md). That every line
has duty 0 in its first period, as R176 says, also where the contact forces the circuits, for which R156 says that the first
period already carries the egress path, is the model's choice (notes/assumptions/38.md). -/
def Obligations.StartupEndsRunning : Prop :=
  ∀ (s : State) tables config, s.startup = .judging tables config → ∃ t,
    exec .startupEnd s = .next t ∧ t.startup = .running ∧ t.tables = tables ∧ t.configState = config
    ∧ t.imageState = config ∧ t.mode = some tables.settings.startMode ∧ (∀ n, t.versions.get n = 0)
    ∧ t.rackDue = some (s.now + 25000)
    ∧ (∀ n, t.lines.get n = ⟨.running s.now, tables.settings.pwmPeriod.get n, none,
        tables.settings.pwmPolarity.get n, none, 0⟩)
    ∧ (∀ r, s.emergency.accepted = some r → r.asserted = true → t.emergency.state = .active)
    ∧ t.emergency.accepted = s.emergency.accepted
    ∧ (let a : State := { s with
          startup := .running, tables := tables, versions := .const 0, configState := config, imageState := config
          lines := .build fun n => ⟨.running s.now, tables.settings.pwmPeriod.get n, none,
            tables.settings.pwmPolarity.get n, none, 0⟩
          rackDue := some (s.now + 25000) }
      ∃ (b v : State) (preset : PresetOutcome) (sequence : SequenceOutcome),
        ((∀ r, s.emergency.accepted = some r → r.asserted = false) → b = a)
        ∧ (∀ r, s.emergency.accepted = some r → r.asserted = true →
          b.emergency = { s.emergency with state := .active, recovery := [] }
          ∧ (∀ c, b.circuit c = match (tables.circuits.get c).emergency with
              | some level => { s.circuit c with
                  transition := started .egress (some level) (a.level c) tables.settings.egressTime }
              | none => s.circuit c)
          ∧ b.counters = { s.counters with emergencyEntries := min (s.counters.emergencyEntries + 1) 65535 }
          ∧ Announced b (.emergency .active (some r) .start (forcible a))
          ∧ b = { a with
              circuits := b.circuits, emergency := b.emergency, counters := b.counters, ports := b.ports })
        ∧ ModeEntered b v tables.settings.startMode .start preset sequence
        ∧ t = (v.announce (.config config)).replay ∧ Announced t (.config config))

/-- A SAVE_CONFIG that passes begins a save of the tables as they stand: the stored image is bad from that instant,
the port is busy and its reply is owed; without EDIT it is DENIED, and during another port's save BUSY_SAVING. A save
ends: written whole, the memory holds a good image of the tables saved, SAVE_DONE goes to the port and the reply is OK;
failed, the stored image counts as bad, SAVE_FAILED goes to the port and the reply is SAVE_FAILED; CONFIG is announced, the
port is no longer busy, and a reply no longer owed is not sent (R181, R199). The stage of a failure and the header it leaves
are operands (notes/assumptions/11.md) and the layout of the image is the model's (notes/assumptions/9.md); that the reply's
header counts the notices of the save's end is deduced (notes/assumptions/34.md). -/
def Obligations.SaveBeginsAndEnds : Prop :=
  (∀ (s : State) p tag, Ready s p →
    (s.permits p .edit = true → s.save = none → ∃ t, exec (.saveConfig p tag (.fields ())) s = .next t
      ∧ t.save = some { port := p, tag := tag, replyOwed := true, tables := s.tables, earlier := s.memory }
      ∧ t.memory = none ∧ t.imageState = .invalid ∧ t.busy p = true
      ∧ (t.port p).lastReply = (s.port p).lastReply ∧ Leased s t p
      ∧ t = { s with save := t.save, memory := t.memory, imageState := t.imageState, ports := t.ports })
    ∧ (s.permits p .edit = true → s.save ≠ none →
        exec (.saveConfig p tag (.fields ())) s = .next (answered s p 0x42 tag .busySaving .empty))
    ∧ (s.permits p .edit = false →
        exec (.saveConfig p tag (.fields ())) s = .next (answered s p 0x42 tag .denied .empty)))
  ∧ (∀ (s : State) x, s.save = some x →
    (∃ t, exec .saveDone s = .next t ∧ t.save = none ∧ t.imageState = .valid ∧ t.configState = s.configState
      ∧ t.memory = some (imageOf x.tables) ∧ Announced t (.config .valid)
      ∧ (x.replyOwed = true → Replied t x.port 0x42 x.tag .ok .empty
          ∧ ((s.port x.port).isOnline = true → Told t x.port .saveDone))
      ∧ (x.replyOwed = false → (t.port x.port).lastReply = (s.port x.port).lastReply)
      ∧ t = { s with save := none, memory := t.memory, imageState := .valid, ports := t.ports })
    ∧ (∀ failure, ∃ t, exec (.saveFailed failure) s = .next t ∧ t.save = none ∧ t.imageState = .invalid
      ∧ t.configState = s.configState ∧ t.tables = s.tables ∧ Announced t (.config .invalid)
      ∧ (failure = .tables ∨ failure = .header ∨ failure = .erasing .whole → t.memory = none)
      ∧ (failure = .erasing .untouched → t.memory = x.earlier)
      ∧ (∀ format length crc, failure = .erasing (.part format length crc) →
          t.memory = some { format := format, length := length, crc := crc, body := match x.earlier with
            | some y => y.body
            | none => [] })
      ∧ (x.replyOwed = true → Replied t x.port 0x42 x.tag .saveFailed .empty
          ∧ ((s.port x.port).isOnline = true → Told t x.port .saveFailed))
      ∧ (x.replyOwed = false → (t.port x.port).lastReply = (s.port x.port).lastReply)
      ∧ t = { s with save := none, memory := t.memory, imageState := .invalid, ports := t.ports }))

/-- A RESTART that passes is answered OK and then taken. It clears claims, trackers, slots, the deferred queue, players,
key phases and blinks, and starts RESTART transitions on the circuits not forced; it keeps tables, versions, configuration
state, mode, contact, relays, lines, frame count, counters and subscription sets, and leaves no port LOST and no orphan
hold running; a recovery it overtakes whole brings NORMAL with EMERGENCY RECOVERY_COMPLETE, and the notices an ONLINE port
held before are gone, its overflow flag clear (R29, R44, R87, R161, R183, R200). The entry actions of the mode
kept come last, on the state the clearing leaves, and MODE is announced (R150 to R152, R154): the claims a restart leaves
are theirs. A circuit that neither the entry preset nor step 1 of the entry sequence names holds no claim, and its RESTART
transition stands; a player that the entry sequence does not start is clear; and where the record names neither action,
nothing more changes. Without ADMIN it is DENIED, and during a save BUSY_SAVING. The event number in a fade is the model's
own (notes/assumptions/22.md), and whom PREEMPTED names where a promotion follows is its choice
(notes/assumptions/41.md). -/
def Obligations.RestartClearsAndKeeps : Prop :=
  ∀ (s : State) p tag, Ready s p →
    (s.permits p .admin = true → s.save = none → ∃ t, exec (.restart p tag (.fields ())) s = .next t
      ∧ t.trackers = [] ∧ (∀ n, t.slot n = none) ∧ t.deferred = [] ∧ t.deferWarned = false
      ∧ t.tables = s.tables ∧ t.versions = s.versions ∧ t.configState = s.configState ∧ t.memory = s.memory
      ∧ t.mode = s.mode ∧ t.emergency.accepted = s.emergency.accepted ∧ t.emergency.debounce = s.emergency.debounce
      ∧ (s.emergency.state ≠ .recovering → t.emergency.state = s.emergency.state)
      ∧ (s.emergency.state = .recovering → s.emergency.recovery ≠ [] →
          (∀ c ∈ s.emergency.recovery, ∃ y, (s.circuit c).transition = some y ∧ y.cause = .recovery) →
          t.emergency.state = .normal ∧ t.emergency.recovery = []
          ∧ Announced t (.emergency .normal s.emergency.accepted .recoveryComplete 0))
      ∧ (∀ c, (t.circuit c).relay = (s.circuit c).relay ∧ (t.circuit c).raisedBy = none)
      ∧ (∀ c, ∀ x ∈ t.claims c, x.owner = .mode ∨ ∃ n, x.owner = .seq n)
      ∧ (∀ k, t.key k = { s.key k with phase := .none, blinkEnd := none })
      ∧ (∀ q, (t.port q).badFrames = (s.port q).badFrames ∧ (t.port q).busyReplies = (s.port q).busyReplies
          ∧ (t.port q).leaseLosses = (s.port q).leaseLosses)
      ∧ (∀ l, (t.loop l).pollMisses = (s.loop l).pollMisses ∧ (t.loop l).typeMismatches = (s.loop l).typeMismatches
          ∧ (t.loop l).exchange = (s.loop l).exchange)
      ∧ t.counters = { s.counters with poolRefusals := t.counters.poolRefusals }
      ∧ (∀ m, s.mode = some m →
          let r := s.tables.modes.get m.ix
          (∃ (w u x : State) (preset : PresetOutcome) (sequence : SequenceOutcome), RestartCleared s w
            ∧ PresetEntered w u r preset ∧ SequenceEntered u x r sequence
            ∧ t = x.announce (.mode m (some m) .restart preset sequence (entryRefused preset sequence)))
          ∧ (∀ c, c ∉ entryCircuits s r → t.claims c = []
            ∧ (s.forced c = true → (t.circuit c).transition = (s.circuit c).transition)
            ∧ (s.forced c = false →
              (t.circuit c).transition = started .restart none (s.level c) s.tables.settings.restartFade))
          ∧ (∀ n, (∀ m q, r.entrySequence ≠ some (.run n m q)) →
            t.player n = ⟨.off, .idle, none, 0, 0, 100, none, none⟩))
      ∧ (∀ m, s.mode = some m → (s.tables.modes.get m.ix).entryPreset = none →
          (s.tables.modes.get m.ix).entrySequence = none →
          (∀ c, t.claims c = [] ∧ (s.forced c = true → (t.circuit c).transition = (s.circuit c).transition)
            ∧ (s.forced c = false →
              (t.circuit c).transition = started .restart none (s.level c) s.tables.settings.restartFade))
          ∧ (∀ n, t.player n = ⟨.off, .idle, none, 0, 0, 100, none, none⟩) ∧ t.counters = s.counters
          ∧ ∀ q, (t.port q).noticesDropped = (s.port q).noticesDropped)
      ∧ t.lines = s.lines ∧ t.frameCount = s.frameCount ∧ t.rackDue = s.rackDue
      ∧ (∀ q, q ≠ p → (t.port q).link = (match (s.port q).link with
          | .online _ => .online (s.now + (s.role q).lease * 1000000)
          | .lost _ => .offline
          | .offline => .offline))
      ∧ (∀ q, q ≠ p → (t.port q).linkRate = (match (s.port q).link with
          | .online _ => (s.port q).linkRate
          | .lost _ => (s.role q).linkRate
          | .offline => (s.port q).linkRate))
      ∧ (∀ q, (t.port q).orphanEnd = none ∧ (t.port q).edit = none
          ∧ (t.port q).subscriptions = (s.port q).subscriptions)
      ∧ (t.port p).lastReply = some (replyFrom s p 0x43 tag .ok .empty) ∧ (t.port p).isOnline = true)
    ∧ (s.permits p .admin = true → s.save ≠ none →
        exec (.restart p tag (.fields ())) s = .next (answered s p 0x43 tag .busySaving .empty))
    ∧ (s.permits p .admin = false →
        exec (.restart p tag (.fields ())) s = .next (answered s p 0x43 tag .denied .empty))

/-! ## Port timers -/

/-- A lease that has run out makes the port LOST for 2 s: the loss is counted, queue, flag, subscriptions and edit
record are gone, its trackers are freed and its slots are FREE; a lease still running does nothing (R181). That an
event not due changes nothing is the model's choice (notes/assumptions/5.md). -/
def Obligations.LeaseExpiryLosesThePort : Prop :=
  ∀ (s : State) p e, (s.port p).link = .online e →
    (s.now < e → exec (.leaseExpiry p) s = .next s)
    ∧ (e ≤ s.now → ∃ t, exec (.leaseExpiry p) s = .next t
      ∧ (t.port p).link = .lost (s.now + 2000000)
      ∧ (t.port p).leaseLosses = min ((s.port p).leaseLosses + 1) 65535
      ∧ (t.port p).queue = [] ∧ (t.port p).overflow = false ∧ (t.port p).subscriptions = []
      ∧ (t.port p).edit = none ∧ (∀ k ∈ t.trackers, k.port ≠ p)
      ∧ (∀ n k, t.slot n = some k → k.owner ≠ p)
      ∧ (0 < (s.role p).orphanHold →
          (t.port p).orphanEnd = some (s.now + (s.role p).orphanHold * 1000000))
      ∧ (∀ q, q ≠ p → (t.port q).link = (s.port q).link ∧ (t.port q).subscriptions = (s.port q).subscriptions)
      ∧ t.tables = s.tables ∧ t.mode = s.mode ∧ t.loops = s.loops ∧ t.lines = s.lines)

/-- When the quiet time of a LOST port ends it is OFFLINE at the link rate of its role record (R180, R186), and when
its orphan hold ends all its claims are released over the role's orphan release time and ORPHANS_RELEASED tells how many
there were (R182). That an event not due changes nothing is the model's choice
(notes/assumptions/5.md). -/
def Obligations.QuietAndOrphanTimersEnd : Prop :=
  (∀ (s : State) p e, (s.port p).link = .lost e →
    (s.now < e → exec (.lostTimerExpiry p) s = .next s)
    ∧ (e ≤ s.now → exec (.lostTimerExpiry p) s = .next (s.onPort p fun x =>
        { x with link := .offline, linkRate := (s.role p).linkRate })))
  ∧ (∀ (s : State) p e, (s.port p).orphanEnd = some e →
    (s.now < e → exec (.orphanHoldExpiry p) s = .next s)
    ∧ (e ≤ s.now → ∃ v : State, exec (.orphanHoldExpiry p) s = .next v.replay
      ∧ ReleasedAs s v (.port p) (s.circuitsOf (.port p)) (s.role p).orphanRelease
      ∧ Announced v (.orphansReleased p (s.circuitsOf (.port p)).length)
      ∧ (∀ c, claimOf (.port p) (v.claims c) = none)
      ∧ (∀ c, s.inCommand c (.port p) = true → s.forced c = false →
          (v.circuit c).transition = started .release none (s.level c) (s.role p).orphanRelease)
      ∧ (v.port p).orphanEnd = none ∧ ClaimEvent (s.onPort p fun x => { x with orphanEnd := none }) v))

/-! ## Field loops -/

/-- A POLL goes to the next configured station of a running part's idle loop, the lowest address above the one last
polled and after the highest the lowest, with the indicators as they stand, and opens a reply window of 4 ms (R68, R69). On
a loop without a station, on one whose exchange is open and before start-up has ended none is sent. -/
def Obligations.PollOpensAWindow : Prop :=
  (∀ (s : State) l n, s.startup = .running → (s.loop l).exchange = none → NextStation s l n →
    exec (.poll l) s = .next (s.onLoop l fun x =>
      { x with
        exchange := some { station := n, windowEnd := s.now + 4000, removed := false }
        lastPolled := some n
        lastPoll := some
          { station := n
            indicators := (indices 8).map fun k =>
              let a : KeyAddr := { loop := l, station := n, key := k }
              if s.keyExists a then s.indicator a else .off } }))
  ∧ (∀ (s : State) l, s.startup ≠ .running ∨ (s.loop l).exchange ≠ none ∨ (∀ n, s.stationType l n = none) →
    exec (.poll l) s = .next s)

/-- What closes an exchange (R69, R70): a window that runs out, bytes that are no REPORT, and a REPORT whose type byte
does not name the station's type each count a miss, the last a type mismatch too; the third consecutive miss makes a PRESENT
station ABSENT and lost with its counts 0 and its keys UP in phase NONE with no chatter window but under a lockout, and no
other station changes (R71); it stops the raises of its keys one by one before it is announced (R71, R101). The order of
them is the model's choice (notes/assumptions/36.md), and so are where the replay is taken (notes/assumptions/24.md) and
what a stop tells where a promotion follows (notes/assumptions/41.md). An exchange whose station has been removed meanwhile
closes without a count (R68), and bytes outside a window are discarded. That bytes beyond the four of a REPORT, and fewer
than four, are a miss is the model's choice (notes/assumptions/42.md). -/
def Obligations.SilenceIsAMiss : Prop :=
  (∀ (s : State) l x, (s.loop l).exchange = some x → x.removed = false →
    (x.windowEnd ≤ s.now → ∃ t, exec (.replyWindowExpiry l) s = .next t ∧ Missed s t l x.station
      ∧ (t.loop l).typeMismatches = (s.loop l).typeMismatches)
    ∧ (∀ bytes, (∀ type keys, bytes ≠ reportOf type keys) → ∃ t, exec (.report l bytes) s = .next t
      ∧ Missed s t l x.station ∧ (t.loop l).typeMismatches = (s.loop l).typeMismatches)
    ∧ (∀ type keys, ¬ NamesType (s.stationType l x.station) type →
      ∃ t, exec (.report l (reportOf type keys)) s = .next t ∧ Missed s t l x.station
      ∧ (t.loop l).typeMismatches = min ((s.loop l).typeMismatches + 1) 65535))
  ∧ (∀ (s : State) l x bytes, (s.loop l).exchange = some x → x.removed = true →
    exec (.report l bytes) s = .next (s.onLoop l fun y => { y with exchange := none })
    ∧ (x.windowEnd ≤ s.now →
      exec (.replyWindowExpiry l) s = .next (s.onLoop l fun y => { y with exchange := none })))
  ∧ (∀ (s : State) l bytes, (s.loop l).exchange = none → exec (.report l bytes) s = .next s)
  ∧ (∀ (s : State) k, RaiseStopped s (s.stopRaise k) k)

/-- A good REPORT of a PRESENT station clears its miss count. Where no key has changed it does nothing else. Where one key
has changed: under a lockout the change is recorded and the quiet time starts anew; the eleventh change within 2 s locks
the key out; otherwise the change is counted, and, where no binding of the edges it gives is live, a key gone DOWN is
PRESSED with its hold timer started and PRESS announced, and a key gone UP gives TAP and RELEASE from PRESSED, RELEASE from
HELD, and no edge from NONE. With live entries the edge is announced first and they are carried out in table order (R92); a
RELEASE stops the key's raise before its entries, and a lockout stops it before it is counted and announced (R81, R101).
Where the replay is taken (notes/assumptions/24.md), and what a stop tells where a promotion follows
(notes/assumptions/41.md), are the model's choices. The second good REPORT in a row of an ABSENT station
makes it PRESENT with the reported states as the baseline, announced by STATION (R69, R70, R72, R75, R76, R78, R80 to R82). -/
def Obligations.GoodReportsAreTaken : Prop :=
  (∀ (s : State) k, RaiseStopped s (s.stopRaise k) k)
  ∧ ∀ (s : State) l x type keys, (s.loop l).exchange = some x → x.removed = false →
    NamesType (s.stationType l x.station) type →
    let run := exec (.report l (reportOf type keys)) s
    ((s.station l x.station).presence = .present →
      let t := (s.onLoop l fun y => { y with exchange := none }).onStation l x.station fun y => { y with misses := 0 }
      ((∀ k ∈ s.keysAt l x.station, (s.key k).down = keys.getLsbD k.key.val) → run = .next t)
      ∧ (∀ k ∈ s.keysAt l x.station, (s.key k).down ≠ keys.getLsbD k.key.val →
          (∀ j ∈ s.keysAt l x.station, j ≠ k → (s.key j).down = keys.getLsbD j.key.val) →
          let now := keys.getLsbD k.key.val
          (∀ e, (s.key k).lockout = some e →
            run = .next (t.onKey k fun r => { r with down := now, lockout := some (s.now + 5000000) }))
          ∧ ((s.key k).lockout = none →
            (∀ count, (∀ start n, (s.key k).window = some (start, n) →
                  (s.now < start + 2000000 → count = (start, n + 1)) ∧ (start + 2000000 ≤ s.now → count = (s.now, 1))) →
                ((s.key k).window = none → count = (s.now, 1)) → count.2 ≤ 10 →
                (now = true → s.liveEntries k .press = [] →
                  run = .next ((t.onKey k fun r =>
                    { r with
                      down := true
                      phase := .pressed (s.now + s.tables.settings.holdTime * 1000)
                      window := some count }).announce (.key k .press)))
                ∧ (now = false →
                  let up := t.onKey k fun r => { r with down := false, phase := .none, window := some count }
                  ((s.key k).phase = .none → run = .next up)
                  ∧ (s.liveEntries k .release = [] → s.raiseSet k = [] → s.replayOwed = false →
                    ((s.key k).phase = .held → run = .next (up.announce (.key k .release)))
                    ∧ (∀ e, (s.key k).phase = .pressed e → s.liveEntries k .tap = [] →
                        run = .next ((up.announce (.key k .tap)).announce (.key k .release)))))
                ∧ (let carried := fun (edge : Edge) (x : State) =>
                    (x.liveEntries k edge).foldl State.carryOut (x.announce (.key k edge))
                  let released := fun x : State => (x.liveEntries k .release).foldl State.carryOut
                    (((x.announce (.key k .release)).stopRaise k).replay)
                  let pressed := t.onKey k fun r =>
                    { r with
                      down := true
                      phase := .pressed (s.now + s.tables.settings.holdTime * 1000)
                      window := some count }
                  let up := t.onKey k fun r => { r with down := false, phase := .none, window := some count }
                  (now = true → run = .next (carried .press pressed))
                  ∧ (now = false → (s.key k).phase = .held → run = .next (released up))
                  ∧ (∀ e, now = false → (s.key k).phase = .pressed e → run = .next (released (carried .tap up)))))
            ∧ (∀ start, (s.key k).window = some (start, 10) → s.now < start + 2000000 →
                let w := t.onKey k fun r =>
                  { r with down := now, phase := .none, window := none, lockout := some (s.now + 5000000) }
                run = .next ((State.announce { w.stopRaise k with
                    counters := { s.counters with keyLockouts := min (s.counters.keyLockouts + 1) 65535 } }
                  (.keyLockout k .locked)).replay))
            ∧ (∀ start, (s.key k).window = some (start, 10) → s.now < start + 2000000 → s.raiseSet k = [] →
                s.replayOwed = false → run = .next (State.announce
                  { (t.onKey k fun r =>
                      { r with down := now, phase := .none, window := none, lockout := some (s.now + 5000000) }) with
                    counters := { s.counters with keyLockouts := min (s.counters.keyLockouts + 1) 65535 } }
                  (.keyLockout k .locked))))))
    ∧ ((s.station l x.station).presence = .absent → (s.station l x.station).goods = 0 →
      run = .next ((s.onLoop l fun y => { y with exchange := none }).onStation l x.station
        fun y => { y with goods := 1 }))
    ∧ ((s.station l x.station).presence = .absent → (s.station l x.station).goods ≠ 0 → ∃ t,
      run = .next t ∧ (t.loop l).exchange = none
      ∧ (t.station l x.station).presence = .present ∧ (t.station l x.station).misses = 0
      ∧ Announced t (.station l x.station .present)
      ∧ (∀ k ∈ s.keysAt l x.station, (t.key k).down = keys.getLsbD k.key.val)
      ∧ t.circuits = s.circuits ∧ t.players = s.players ∧ t.mode = s.mode ∧ t.tables = s.tables)

/-- The timers of a key: the quiet timer returns a locked-out key to NORMAL without an edge, the refusal blink timer
ends the blink, and the hold timer gives HOLD, whose notice every subscribed ONLINE port hears and which leaves the
key HELD where no binding of that edge is live (R77, R82, R84). That an event not due changes nothing is the model's
choice (notes/assumptions/5.md). -/
def Obligations.KeyTimersRunOut : Prop :=
  ∀ (s : State) (k : KeyAddr), s.keyExists k = true →
    (∀ t, (s.key k).lockout = some t → t ≤ s.now → exec (.quietTimerExpiry k) s =
      .next ((s.onKey k fun r => { r with lockout := none, phase := .none, window := none }).announce
        (.keyLockout k .cleared)))
    ∧ (∀ t, (s.key k).blinkEnd = some t → t ≤ s.now → exec (.refusalBlinkExpiry k) s =
      .next (s.onKey k fun r => { r with blinkEnd := none }))
    ∧ (∀ t, (s.key k).phase = .pressed t → t ≤ s.now → s.liveEntries k .hold = [] → exec (.holdTimerExpiry k) s =
      .next ((s.onKey k fun r => { r with phase := .held }).announce (.key k .hold)))
    ∧ ((s.key k).lockout = none → exec (.quietTimerExpiry k) s = .next s)
    ∧ ((s.key k).blinkEnd = none → exec (.refusalBlinkExpiry k) s = .next s)

/-- What the one live entry of a HOLD edge does (R92 to R99, R102, R103, R105, R106). ON and OFF place its level or 0 on
the group as owner FIELD with the key as cause; TOGGLE places 0 where a FIELD claim of the group has a target above 0, and
its level otherwise; RECALL places its preset; RAISE goes to 1000 and LOWER to 0 at the raise rate on the circuits no
higher rank of another owner commands, and those that get a fade join the key's raise set (R100); RELEASE releases the
FIELD claims over its fade time (R37); SEQ_RUN begins a run and SEQ_STOP stops a player, with their SEQ notices (R143);
SET_MODE enters the mode with its entry actions and the key as the MODE notice's source (R149 to R152). A locked ON, OFF, TOGGLE, RECALL
or RELEASE is handed to the deferred queue, which warns at its warning level (R122, R124), or counted dropped where the
queue refuses it; a locked RAISE or LOWER is dropped; a placement the pool cannot supply is counted and announced; an
undefined group, preset or sequence, like each of these refusals, blinks the key. The event number in a fade
(notes/assumptions/22.md), where the replay is taken (notes/assumptions/24.md), and whom PREEMPTED names where a promotion
follows (notes/assumptions/41.md) are the model's choices. -/
def Obligations.FieldActionsAreCarriedOut : Prop :=
  ∀ (s : State) (k : KeyAddr) t (b : Binding), s.keyExists k = true → (s.key k).phase = .pressed t → t ≤ s.now →
    s.replayOwed = false → s.liveEntries k .hold = [b] →
    let told := (s.onKey k fun r => { r with phase := .held }).announce (.key k .hold)
    let run := exec (.holdTimerExpiry k) s
    let item := fun level fade rank (c : Circuit) =>
      ({ circuit := c, target := level, fade := fade, rank := rank, cause := some k } : PlaceItem)
    let blinked := fun v : State => v.onKey k fun r => { r with blinkEnd := some (s.now + 3000000) }
    let short := fun cs => blinked { told with
      counters := { s.counters with poolRefusals := min (s.counters.poolRefusals + 1) 65535 } } |>.announce
        (.poolFull k (s.recordsNeeded .field cs) s.freeRecords)
    (∀ g level fade rank cs placed, s.members g = some cs → s.locked .field rank cs = false →
        (b.action = .on g level fade rank ∧ placed = level
          ∨ b.action = .off g fade rank ∧ placed = 0
          ∨ b.action = .toggle g level fade rank ∧ placed = 0 ∧
              (∃ c ∈ cs, ∃ x ∈ s.claims c, x.owner = .field ∧ 0 < x.target)
          ∨ b.action = .toggle g level fade rank ∧ placed = level ∧
              (∀ c ∈ cs, ∀ x ∈ s.claims c, x.owner = .field → x.target = 0)) →
        (s.recordsNeeded .field cs ≤ s.freeRecords → ∃ v : State, run = .next v.replay
          ∧ PlacedAs s v .field (cs.map (item placed fade rank)) false none ∧ CommandTold s v .field
          ∧ ClaimEvent told v)
        ∧ (s.freeRecords < s.recordsNeeded .field cs → run = .next (short cs)))
    ∧ (∀ a fade rank d, b.action = .recall a fade rank → s.presetDef a = some d →
        s.locked .field rank (d.pairs.map Prod.fst) = false →
        (s.recordsNeeded .field (d.pairs.map Prod.fst) ≤ s.freeRecords → ∃ v : State, run = .next v.replay
          ∧ PlacedAs s v .field (d.pairs.map fun y => item y.2 fade rank y.1) false none ∧ CommandTold s v .field
          ∧ ClaimEvent told v)
        ∧ (s.freeRecords < s.recordsNeeded .field (d.pairs.map Prod.fst) → run = .next (short (d.pairs.map Prod.fst))))
    ∧ (∀ (g : GroupNo) (rank : Rank) (cs : List Circuit) (way : Nat) (aim : Circuit → Nat) (up : List Circuit),
        s.members g = some cs →
        (b.action = .raise g rank ∧ way = (1000 : Nat) ∨ b.action = .lower g rank ∧ way = 0) →
        (∀ c, s.level c ≤ 1000 → aim c = (if way = 0 then s.level c else 1000 - s.level c)) →
        up = cs.filter (fun c =>
          (s.claims c).all fun x => !x.isEffective || x.owner == .field || decide (x.rank ≤ rank)) →
        (up = [] → run = .next told)
        ∧ (up ≠ [] → s.locked .field rank up = true → run = .next (blinked told))
        ∧ (up ≠ [] → s.locked .field rank up = false → s.freeRecords < s.recordsNeeded .field up →
            run = .next (short up))
        ∧ (s.locked .field rank up = false → s.recordsNeeded .field up ≤ s.freeRecords →
          ∃ (w v : State) (time : Circuit → Nat), run = .next v.replay
            ∧ PlacedAs s w .field (up.map fun c => item way (time c) rank c) false none ∧ CommandTold s w .field
            ∧ ClaimEvent told w ∧ v = { w with circuits := v.circuits }
            ∧ (∀ c, v.circuit c =
              if c ∈ up ∧ 0 < time c then { w.circuit c with raisedBy := some k } else w.circuit c)
            ∧ ∀ c, s.level c ≤ 1000 → time c = aim c * (s.tables.settings.raiseTime * 10) / 1000))
    ∧ (∀ g fade rank cs, s.members g = some cs → s.locked .field rank cs = false → b.action = .release g fade rank →
        ∃ v : State, run = .next v.replay ∧ ReleasedAs s v .field cs fade ∧ CommandTold s v .field
          ∧ ClaimEvent told v)
    ∧ (∀ n m q, b.action = .seqRun n q m →
        (s.tables.sequences.get q = none → run = .next (blinked told))
        ∧ (∀ d, s.tables.sequences.get q = some d → (s.player n).mode ≠ .off → (s.player n).sequence = some q →
            run = .next (told.setPlayer n { s.player n with mode := m.toPlayer }))
        ∧ (∀ d x rest, s.tables.sequences.get q = some d → d.steps = x :: rest →
            ((s.player n).mode = .off ∨ (s.player n).sequence ≠ some q) →
            ∃ (w v : State) (refused : Option StepRefusal), RunBegins told w n q m (.key k)
              ∧ Announced w (.seq n (some q) (.started (.key k)) 0 1) ∧ StepTaken w v n d x refused
              ∧ (refused = none → run = .next v.replay) ∧ (refused ≠ none → run = .next (blinked v).replay)))
    ∧ (∀ n, b.action = .seqStop n →
        ((s.player n).mode = .off → run = .next told)
        ∧ ((s.player n).mode ≠ .off → ∃ v : State, run = .next v.replay ∧ Stopped told v n (.key k)))
    ∧ (∀ m, b.action = .setMode m → (s.mode = some m → run = .next told)
        ∧ (s.mode ≠ some m → ∃ (v : State) (preset : PresetOutcome) (sequence : SequenceOutcome), run = .next v.replay
          ∧ ModeEntered told v m (.key k) preset sequence ∧ v.mode = some m))
    ∧ (∀ (cs : List Circuit) act fade rank, s.locked .field rank cs = true →
        ((∃ g level, b.action = .on g level fade rank ∧ s.members g = some cs ∧ act = .on cs level)
          ∨ (∃ g, b.action = .off g fade rank ∧ s.members g = some cs ∧ act = .off cs)
          ∨ (∃ g level, b.action = .toggle g level fade rank ∧ s.members g = some cs ∧ act = .toggle cs level)
          ∨ (∃ a d, b.action = .recall a fade rank ∧ s.presetDef a = some d ∧ cs = d.pairs.map Prod.fst
              ∧ act = .recall a)
          ∨ (∃ g, b.action = .release g fade rank ∧ s.members g = some cs ∧ act = .release cs)) →
        (s.deferred.length < 16 → 0 < s.tables.settings.deferLimit → ∃ v, run = .next v
          ∧ v.deferred = s.deferred ++
              [⟨k, act, fade, rank, b.gate, s.now, s.now + s.tables.settings.deferLimit * 1000000⟩]
          ∧ v.circuits = s.circuits ∧ v.counters = s.counters
          ∧ (s.deferWarned = false → s.tables.settings.warningLevel ≤ s.deferred.length + 1 →
              v = { told.announce (.deferWarning (s.deferred.length + 1) s.tables.settings.warningLevel) with
                deferred := v.deferred, deferWarned := true })
          ∧ (s.deferWarned = true ∨ s.deferred.length + 1 < s.tables.settings.warningLevel →
              v = { told with deferred := v.deferred }))
        ∧ (16 ≤ s.deferred.length ∨ s.tables.settings.deferLimit = 0 → run = .next (blinked { told with
            counters := { s.counters with deferredDropped := min (s.counters.deferredDropped + 1) 65535 } })))
    ∧ (∀ g, s.members g = none →
        ((∃ level fade rank, b.action = .on g level fade rank) ∨ (∃ fade rank, b.action = .off g fade rank)
          ∨ (∃ level fade rank, b.action = .toggle g level fade rank) ∨ (∃ rank, b.action = .raise g rank)
          ∨ (∃ rank, b.action = .lower g rank) ∨ ∃ fade rank, b.action = .release g fade rank) →
        run = .next (blinked told))
    ∧ (∀ a fade rank, b.action = .recall a fade rank → s.presetDef a = none → run = .next (blinked told))

/-! ## Outputs -/

/-- A rack sample judges the wish of every SWITCHED circuit from its level, changes a relay whose wish differs where
no dwell runs, and sends one frame with the outputs of the LINK circuits; the next sample stands 25 ms later (R170,
R173). That a dwell still runs at the very instant of its end, until its end is taken, is read from R171
(notes/assumptions/33.md). -/
def Obligations.RackSampleJudgesAndSends : Prop :=
  ∀ (s : State) e, s.rackDue = some e → e ≤ s.now → ∃ t, exec .rackSample s = .next t
    ∧ t.rackDue = some (e + 25000) ∧ t.frameCount = s.frameCount + 1
    ∧ (∃ f, t.rackFrame = some f ∧ f.count = s.frameCount ∧ f.slots = (indices 192).map fun c =>
        if (s.record c).route = .link then t.output c else 0)
    ∧ (∀ c, (t.circuit c).claims = (s.circuit c).claims ∧ (t.circuit c).transition = (s.circuit c).transition)
    ∧ (∀ c a lo hi, (s.record c).kind = .dimmed a lo hi → t.circuit c = s.circuit c)
    ∧ (∀ c h y dwell, (s.record c).kind = .switched h y dwell →
        let wish := if h ≤ s.level c then true else if s.level c < h - y then false else (s.circuit c).relay.wish
        (t.circuit c).relay.wish = wish
        ∧ (wish = (s.circuit c).relay.on → (t.circuit c).relay = { (s.circuit c).relay with wish := wish })
        ∧ (wish ≠ (s.circuit c).relay.on →
            ((s.circuit c).relay.dwellEnd = none ∨ ∃ d, (s.circuit c).relay.dwellEnd = some d ∧ d < s.now) →
            (t.circuit c).relay =
              { on := wish, wish := wish, dwellEnd := if dwell = 0 then none else some (s.now + dwell * 100000) })
        ∧ (∀ d, wish ≠ (s.circuit c).relay.on → (s.circuit c).relay.dwellEnd = some d → s.now ≤ d →
            (t.circuit c).relay = { (s.circuit c).relay with wish := wish }))
    ∧ t = { s with
        circuits := t.circuits, rackDue := t.rackDue, rackFrame := t.rackFrame, frameCount := t.frameCount }

/-- When a SWITCHED circuit's dwell end arrives the dwell stops running, and a wish that differs from the relay state is
carried out with a new dwell end from that instant (R171). -/
def Obligations.DwellEndCarriesOutTheWish : Prop :=
  ∀ (s : State) c h y dwell d, (s.record c).kind = .switched h y dwell → (s.circuit c).relay.dwellEnd = some d →
    d ≤ s.now → ∃ t, exec (.dwellEnd c) s = .next t
      ∧ ((s.circuit c).relay.wish = (s.circuit c).relay.on →
          (t.circuit c).relay = { (s.circuit c).relay with dwellEnd := none })
      ∧ ((s.circuit c).relay.wish ≠ (s.circuit c).relay.on →
          (t.circuit c).relay =
            { (s.circuit c).relay with
              on := (s.circuit c).relay.wish
              dwellEnd := if dwell = 0 then none else some (s.now + dwell * 100000) })
      ∧ t = s.onCircuit c fun x => { x with relay := (t.circuit c).relay }

/-- At its period's end a line takes its pending period and polarity, finds the duty of its circuit's output over the
period then in force, 0 where no record names the line, and begins the next period without a gap; nothing else changes
(R175). -/
def Obligations.PeriodEndBeginsTheNext : Prop :=
  ∀ (s : State) n start, (s.lines.get n).drive = .running start → start + (s.lines.get n).period ≤ s.now →
    let period := (s.lines.get n).pendingPeriod.getD (s.lines.get n).period
    ∃ duty, exec (.pwmPeriodEnd n) s = .next (s.onLine n fun _ =>
        { drive := .running (start + (s.lines.get n).period)
          period := period
          pendingPeriod := none
          polarity := (s.lines.get n).pendingPolarity.getD (s.lines.get n).polarity
          pendingPolarity := none
          duty := duty })
      ∧ ((∀ c, (s.record c).route ≠ .pwm n) → duty = 0)
      ∧ (∀ c, (s.record c).route = .pwm n → (∀ d, (s.record d).route = .pwm n → d = c) →
          duty = s.output c * period / 1000)

/-! ## Derived values -/

/-- The claims in command and the command level of a circuit (R8): none and the base level where no claim is EFFECTIVE;
the first EFFECTIVE claim at the top rank, with its level, where that rank is LTP; every EFFECTIVE claim at it, with the
highest of their levels, where it is HTP. -/
def Obligations.ArbitrationFollowsTheTopRank : Prop :=
  ∀ (s : State) c,
    ((∀ x ∈ s.claims c, x.isEffective = false) →
      commanding s.tables.ranks (s.claims c) = [] ∧ s.commandLevel c = (s.record c).base)
    ∧ (∀ r, (∃ x ∈ s.claims c, x.isEffective = true ∧ x.rank = r) →
      (∀ x ∈ s.claims c, x.isEffective = true → x.rank ≤ r) →
      (s.tables.ranks.get r = .ltp → ∃ x,
        (s.claims c).find? (fun x => x.isEffective && x.rank == r) = some x
        ∧ commanding s.tables.ranks (s.claims c) = [x] ∧ s.commandLevel c = x.level)
      ∧ (s.tables.ranks.get r = .htp →
        commanding s.tables.ranks (s.claims c) = (s.claims c).filter (fun x => x.isEffective && x.rank == r)
        ∧ (∃ x ∈ commanding s.tables.ranks (s.claims c), s.commandLevel c = x.level)
        ∧ ∀ x ∈ commanding s.tables.ranks (s.claims c), x.level ≤ s.commandLevel c))

/-- The lock question (R110): some slot in use whose locked set meets the circuits, whose lock rank is greater than the
rank asked for, and whose owner port is not the action's owner. A slot never locks its own port, every slot that meets the
first conditions locks the owners that are no port, and rank 7 is never locked. -/
def Obligations.LockQuestionIsAnswered : Prop :=
  ∀ (s : State) o (r : Rank) cs,
    (s.locked o r cs = true ↔ ∃ n k, s.slot n = some k ∧ (∃ c ∈ cs, c ∈ k.locked) ∧ r < k.lockRank
      ∧ Owner.port k.owner ≠ o)
    ∧ (∀ p, (∀ n k, s.slot n = some k → k.owner = p) → s.locked (.port p) r cs = false)
    ∧ ((∀ p, o ≠ .port p) → ∀ n k, s.slot n = some k → (∃ c ∈ cs, c ∈ k.locked) → r < k.lockRank →
        s.locked o r cs = true)
    ∧ s.locked o 7 cs = false

/-- The output of a DIMMED circuit lies between its min and max and meets them at level 0 and level 1000 (R168), and the
output of a SWITCHED circuit is 1000 with its relay ON and 0 with it OFF (R172). -/
def Obligations.OutputsFollowTheRecord : Prop :=
  (∀ k lo hi, lo ≤ hi → (∀ v, v ≤ 1000 → lo ≤ dimmedOutput k lo hi v ∧ dimmedOutput k lo hi v ≤ hi)
    ∧ dimmedOutput k lo hi 0 = lo ∧ dimmedOutput k lo hi 1000 = hi)
  ∧ (∀ lo hi v, dimmedOutput .linear lo hi v = lo + (hi - lo) * v / 1000
      ∧ dimmedOutput .square lo hi v = lo + (hi - lo) * (v * v / 1000) / 1000)
  ∧ (∀ (s : State) c k lo hi, (s.record c).kind = .dimmed k lo hi → s.output c = dimmedOutput k lo hi (s.level c))
  ∧ (∀ (s : State) c h y d, (s.record c).kind = .switched h y d →
      s.output c = if (s.circuit c).relay.on then 1000 else 0)
end

