-- ==== Sys2Proof/Laws/Word.lean ====
section
/-! SUPPORT. Laws of numbered tables: what an entry reads after each table operation, and that the list of indices holds every index. -/

namespace Sys2Proof

variable {α β : Type} {n : Nat}

theorem tabulate_getElem (f : Fin n → α) :
    ∀ (k : Nat) (h : k ≤ n) (rest : List α) (i : Nat) (hi : i < k)
      (hl : i < (tabulate f k h rest).length), (tabulate f k h rest)[i] = f ⟨i, by omega⟩
  | k + 1, h, rest, i, hi, hl => by
    have key : ∀ (k : Nat) (h : k ≤ n) (rest : List α) (j : Nat) (hj : j < rest.length)
        (hl : k + j < (tabulate f k h rest).length), (tabulate f k h rest)[k + j] = rest[j] := by
      intro k
      induction k with
      | zero => intro h rest j hj hl; simp [tabulate]
      | succ k ih =>
        intro h rest j hj hl
        have := ih (Nat.le_of_succ_le h) (f ⟨k, h⟩ :: rest) (j + 1) (by simpa using hj)
          (by rw [tabulate_length]; simp; omega)
        simp only [tabulate]
        simpa [Nat.add_assoc, Nat.add_comm 1 j] using this
    rcases Nat.lt_succ_iff_lt_or_eq.mp hi with h' | h'
    · simpa only [tabulate] using tabulate_getElem f k (Nat.le_of_succ_le h) (f ⟨k, h⟩ :: rest) i h' _
    · subst h'
      have := key i (Nat.le_of_succ_le h) (f ⟨i, h⟩ :: rest) 0 (by simp) (by rw [tabulate_length]; simp)
      simpa only [tabulate, Nat.add_zero, List.getElem_cons_zero] using this

namespace Tab

theorem get_eq (t : Tab α n) (i : Fin n) : t.get i = t.rows[i.val] := rfl

@[simp] theorem get_build (f : Fin n → α) (i : Fin n) : (build f).get i = f i := by
  have := tabulate_getElem f n (Nat.le_refl n) [] i.val i.isLt (by simp [tabulate_length])
  simpa [build, get_eq] using this

@[simp] theorem get_const (a : α) (i : Fin n) : (const a : Tab α n).get i = a := get_build _ i

@[simp] theorem get_each (t : Tab α n) (f : α → β) (i : Fin n) : (t.each f).get i = f (t.get i) := get_build _ i

@[simp] theorem get_set_self (t : Tab α n) (i : Fin n) (a : α) : (t.set i a).get i = a := by
  simp [get_eq, set]

theorem get_set_of_ne (t : Tab α n) {i j : Fin n} (a : α) (h : j ≠ i) : (t.set i a).get j = t.get j := by
  have h' : i.val ≠ j.val := fun e => h (Fin.ext e.symm)
  simp [get_eq, set, h']

theorem get_set (t : Tab α n) (i j : Fin n) (a : α) : (t.set i a).get j = if j = i then a else t.get j := by
  by_cases h : j = i
  · subst h; simp
  · simp [h, get_set_of_ne]

@[simp] theorem get_modify_self (t : Tab α n) (i : Fin n) (f : α → α) : (t.modify i f).get i = f (t.get i) := by
  simp [modify]

theorem get_modify_of_ne (t : Tab α n) {i j : Fin n} (f : α → α) (h : j ≠ i) : (t.modify i f).get j = t.get j :=
  get_set_of_ne t _ h

@[simp] theorem set_set (t : Tab α n) (i : Fin n) (a b : α) : (t.set i a).set i b = t.set i b := by
  simp [set, Vector.set_set]

@[simp] theorem modify_modify (t : Tab α n) (i : Fin n) (f g : α → α) :
    (t.modify i f).modify i g = t.modify i (fun x => g (f x)) := by
  simp [modify]

/-- Two tables with the same entries are one. -/
theorem ext {t u : Tab α n} (h : ∀ i, t.get i = u.get i) : t = u := by
  cases t; cases u
  congr 1
  ext i hi
  exact h ⟨i, hi⟩

theorem get_modify (t : Tab α n) (i j : Fin n) (f : α → α) :
    (t.modify i f).get j = if j = i then f (t.get i) else t.get j := get_set t i j _

end Tab

@[simp] theorem mem_indices (i : Fin n) : i ∈ indices n := by
  have h := tabulate_getElem (fun j : Fin n => j) n (Nat.le_refl n) [] i.val i.isLt (by simp [tabulate_length])
  have : i = (tabulate (fun j : Fin n => j) n (Nat.le_refl n) [])[i.val]'(by simp [tabulate_length]) := h.symm
  rw [this]
  exact List.getElem_mem _

@[simp] theorem indexOf_numberOf (i : Fin n) : indexOf n (numberOf i) = some i := by
  have : i.val + 1 ≤ n := i.isLt
  simp [indexOf, numberOf, this]

@[simp] theorem codeOf_val (i : Fin n) : codeOf n i.val = some i := by simp [codeOf]

end Sys2Proof
end

