-- ==== Sys2Proof/Laws/State.lean ====
section
/-! SUPPORT. What each named update of State leaves as it was: every field but the one it changes, each true by rfl. -/

namespace Sys2Proof.Machine.State

variable (s : State)

@[simp] theorem onPort_fields (p : Port) (f : PortState → PortState) :
    (s.onPort p f).now = s.now ∧ (s.onPort p f).pending = s.pending ∧ (s.onPort p f).startup = s.startup ∧
    (s.onPort p f).tables = s.tables ∧ (s.onPort p f).versions = s.versions ∧
    (s.onPort p f).configState = s.configState ∧ (s.onPort p f).imageState = s.imageState ∧
    (s.onPort p f).memory = s.memory ∧ (s.onPort p f).save = s.save ∧ (s.onPort p f).circuits = s.circuits ∧
    (s.onPort p f).trackers = s.trackers ∧ (s.onPort p f).slots = s.slots ∧ (s.onPort p f).deferred = s.deferred ∧
    (s.onPort p f).deferWarned = s.deferWarned ∧ (s.onPort p f).players = s.players ∧ (s.onPort p f).mode = s.mode ∧
    (s.onPort p f).emergency = s.emergency ∧ (s.onPort p f).loops = s.loops ∧ (s.onPort p f).lines = s.lines ∧
    (s.onPort p f).frameCount = s.frameCount ∧ (s.onPort p f).rackDue = s.rackDue ∧
    (s.onPort p f).rackFrame = s.rackFrame ∧ (s.onPort p f).counters = s.counters ∧ (s.onPort p f).event = s.event ∧
    (s.onPort p f).replayOwed = s.replayOwed := by
  and_intros <;> rfl

@[simp] theorem onPorts_fields (f : PortState → PortState) :
    (s.onPorts f).now = s.now ∧ (s.onPorts f).pending = s.pending ∧ (s.onPorts f).startup = s.startup ∧
    (s.onPorts f).tables = s.tables ∧ (s.onPorts f).versions = s.versions ∧
    (s.onPorts f).configState = s.configState ∧ (s.onPorts f).imageState = s.imageState ∧
    (s.onPorts f).memory = s.memory ∧ (s.onPorts f).save = s.save ∧ (s.onPorts f).circuits = s.circuits ∧
    (s.onPorts f).trackers = s.trackers ∧ (s.onPorts f).slots = s.slots ∧ (s.onPorts f).deferred = s.deferred ∧
    (s.onPorts f).deferWarned = s.deferWarned ∧ (s.onPorts f).players = s.players ∧ (s.onPorts f).mode = s.mode ∧
    (s.onPorts f).emergency = s.emergency ∧ (s.onPorts f).loops = s.loops ∧ (s.onPorts f).lines = s.lines ∧
    (s.onPorts f).frameCount = s.frameCount ∧ (s.onPorts f).rackDue = s.rackDue ∧
    (s.onPorts f).rackFrame = s.rackFrame ∧ (s.onPorts f).counters = s.counters ∧ (s.onPorts f).event = s.event ∧
    (s.onPorts f).replayOwed = s.replayOwed := by
  and_intros <;> rfl

@[simp] theorem notify_fields (p : Port) (n : Notice) :
    (s.notify p n).now = s.now ∧ (s.notify p n).pending = s.pending ∧ (s.notify p n).startup = s.startup ∧
    (s.notify p n).tables = s.tables ∧ (s.notify p n).versions = s.versions ∧
    (s.notify p n).configState = s.configState ∧ (s.notify p n).imageState = s.imageState ∧
    (s.notify p n).memory = s.memory ∧ (s.notify p n).save = s.save ∧ (s.notify p n).circuits = s.circuits ∧
    (s.notify p n).trackers = s.trackers ∧ (s.notify p n).slots = s.slots ∧ (s.notify p n).deferred = s.deferred ∧
    (s.notify p n).deferWarned = s.deferWarned ∧ (s.notify p n).players = s.players ∧ (s.notify p n).mode = s.mode ∧
    (s.notify p n).emergency = s.emergency ∧ (s.notify p n).loops = s.loops ∧ (s.notify p n).lines = s.lines ∧
    (s.notify p n).frameCount = s.frameCount ∧ (s.notify p n).rackDue = s.rackDue ∧
    (s.notify p n).rackFrame = s.rackFrame ∧ (s.notify p n).counters = s.counters ∧ (s.notify p n).event = s.event ∧
    (s.notify p n).replayOwed = s.replayOwed := by
  and_intros <;> rfl

@[simp] theorem announce_fields (n : Notice) :
    (s.announce n).now = s.now ∧ (s.announce n).pending = s.pending ∧ (s.announce n).startup = s.startup ∧
    (s.announce n).tables = s.tables ∧ (s.announce n).versions = s.versions ∧
    (s.announce n).configState = s.configState ∧ (s.announce n).imageState = s.imageState ∧
    (s.announce n).memory = s.memory ∧ (s.announce n).save = s.save ∧ (s.announce n).circuits = s.circuits ∧
    (s.announce n).trackers = s.trackers ∧ (s.announce n).slots = s.slots ∧ (s.announce n).deferred = s.deferred ∧
    (s.announce n).deferWarned = s.deferWarned ∧ (s.announce n).players = s.players ∧ (s.announce n).mode = s.mode ∧
    (s.announce n).emergency = s.emergency ∧ (s.announce n).loops = s.loops ∧ (s.announce n).lines = s.lines ∧
    (s.announce n).frameCount = s.frameCount ∧ (s.announce n).rackDue = s.rackDue ∧
    (s.announce n).rackFrame = s.rackFrame ∧ (s.announce n).counters = s.counters ∧ (s.announce n).event = s.event ∧
    (s.announce n).replayOwed = s.replayOwed := by
  and_intros <;> rfl

@[simp] theorem onCircuit_fields (c : Circuit) (f : CircuitState → CircuitState) :
    (s.onCircuit c f).now = s.now ∧ (s.onCircuit c f).pending = s.pending ∧ (s.onCircuit c f).startup = s.startup ∧
    (s.onCircuit c f).tables = s.tables ∧ (s.onCircuit c f).versions = s.versions ∧
    (s.onCircuit c f).configState = s.configState ∧ (s.onCircuit c f).imageState = s.imageState ∧
    (s.onCircuit c f).memory = s.memory ∧ (s.onCircuit c f).save = s.save ∧ (s.onCircuit c f).ports = s.ports ∧
    (s.onCircuit c f).trackers = s.trackers ∧ (s.onCircuit c f).slots = s.slots ∧
    (s.onCircuit c f).deferred = s.deferred ∧ (s.onCircuit c f).deferWarned = s.deferWarned ∧
    (s.onCircuit c f).players = s.players ∧ (s.onCircuit c f).mode = s.mode ∧
    (s.onCircuit c f).emergency = s.emergency ∧ (s.onCircuit c f).loops = s.loops ∧
    (s.onCircuit c f).lines = s.lines ∧ (s.onCircuit c f).frameCount = s.frameCount ∧
    (s.onCircuit c f).rackDue = s.rackDue ∧ (s.onCircuit c f).rackFrame = s.rackFrame ∧
    (s.onCircuit c f).counters = s.counters ∧ (s.onCircuit c f).event = s.event ∧
    (s.onCircuit c f).replayOwed = s.replayOwed := by
  and_intros <;> rfl

@[simp] theorem onClaims_fields (f : Claim → Claim) :
    (s.onClaims f).now = s.now ∧ (s.onClaims f).pending = s.pending ∧ (s.onClaims f).startup = s.startup ∧
    (s.onClaims f).tables = s.tables ∧ (s.onClaims f).versions = s.versions ∧
    (s.onClaims f).configState = s.configState ∧ (s.onClaims f).imageState = s.imageState ∧
    (s.onClaims f).memory = s.memory ∧ (s.onClaims f).save = s.save ∧ (s.onClaims f).ports = s.ports ∧
    (s.onClaims f).trackers = s.trackers ∧ (s.onClaims f).slots = s.slots ∧ (s.onClaims f).deferred = s.deferred ∧
    (s.onClaims f).deferWarned = s.deferWarned ∧ (s.onClaims f).players = s.players ∧ (s.onClaims f).mode = s.mode ∧
    (s.onClaims f).emergency = s.emergency ∧ (s.onClaims f).loops = s.loops ∧ (s.onClaims f).lines = s.lines ∧
    (s.onClaims f).frameCount = s.frameCount ∧ (s.onClaims f).rackDue = s.rackDue ∧
    (s.onClaims f).rackFrame = s.rackFrame ∧ (s.onClaims f).counters = s.counters ∧ (s.onClaims f).event = s.event ∧
    (s.onClaims f).replayOwed = s.replayOwed := by
  and_intros <;> rfl

@[simp] theorem setSlot_fields (n : SlotNo) (x : Option Slot) :
    (s.setSlot n x).now = s.now ∧ (s.setSlot n x).pending = s.pending ∧ (s.setSlot n x).startup = s.startup ∧
    (s.setSlot n x).tables = s.tables ∧ (s.setSlot n x).versions = s.versions ∧
    (s.setSlot n x).configState = s.configState ∧ (s.setSlot n x).imageState = s.imageState ∧
    (s.setSlot n x).memory = s.memory ∧ (s.setSlot n x).save = s.save ∧ (s.setSlot n x).ports = s.ports ∧
    (s.setSlot n x).circuits = s.circuits ∧ (s.setSlot n x).trackers = s.trackers ∧
    (s.setSlot n x).deferred = s.deferred ∧ (s.setSlot n x).deferWarned = s.deferWarned ∧
    (s.setSlot n x).players = s.players ∧ (s.setSlot n x).mode = s.mode ∧ (s.setSlot n x).emergency = s.emergency ∧
    (s.setSlot n x).loops = s.loops ∧ (s.setSlot n x).lines = s.lines ∧ (s.setSlot n x).frameCount = s.frameCount ∧
    (s.setSlot n x).rackDue = s.rackDue ∧ (s.setSlot n x).rackFrame = s.rackFrame ∧
    (s.setSlot n x).counters = s.counters ∧ (s.setSlot n x).event = s.event ∧
    (s.setSlot n x).replayOwed = s.replayOwed := by
  and_intros <;> rfl

@[simp] theorem setPlayer_fields (n : PlayerNo) (p : Player) :
    (s.setPlayer n p).now = s.now ∧ (s.setPlayer n p).pending = s.pending ∧ (s.setPlayer n p).startup = s.startup ∧
    (s.setPlayer n p).tables = s.tables ∧ (s.setPlayer n p).versions = s.versions ∧
    (s.setPlayer n p).configState = s.configState ∧ (s.setPlayer n p).imageState = s.imageState ∧
    (s.setPlayer n p).memory = s.memory ∧ (s.setPlayer n p).save = s.save ∧ (s.setPlayer n p).ports = s.ports ∧
    (s.setPlayer n p).circuits = s.circuits ∧ (s.setPlayer n p).trackers = s.trackers ∧
    (s.setPlayer n p).slots = s.slots ∧ (s.setPlayer n p).deferred = s.deferred ∧
    (s.setPlayer n p).deferWarned = s.deferWarned ∧ (s.setPlayer n p).mode = s.mode ∧
    (s.setPlayer n p).emergency = s.emergency ∧ (s.setPlayer n p).loops = s.loops ∧
    (s.setPlayer n p).lines = s.lines ∧ (s.setPlayer n p).frameCount = s.frameCount ∧
    (s.setPlayer n p).rackDue = s.rackDue ∧ (s.setPlayer n p).rackFrame = s.rackFrame ∧
    (s.setPlayer n p).counters = s.counters ∧ (s.setPlayer n p).event = s.event ∧
    (s.setPlayer n p).replayOwed = s.replayOwed := by
  and_intros <;> rfl

@[simp] theorem idlePlayer_fields (n : PlayerNo) :
    (s.idlePlayer n).now = s.now ∧ (s.idlePlayer n).pending = s.pending ∧ (s.idlePlayer n).startup = s.startup ∧
    (s.idlePlayer n).tables = s.tables ∧ (s.idlePlayer n).versions = s.versions ∧
    (s.idlePlayer n).configState = s.configState ∧ (s.idlePlayer n).imageState = s.imageState ∧
    (s.idlePlayer n).memory = s.memory ∧ (s.idlePlayer n).save = s.save ∧ (s.idlePlayer n).ports = s.ports ∧
    (s.idlePlayer n).circuits = s.circuits ∧ (s.idlePlayer n).trackers = s.trackers ∧
    (s.idlePlayer n).slots = s.slots ∧ (s.idlePlayer n).deferred = s.deferred ∧
    (s.idlePlayer n).deferWarned = s.deferWarned ∧ (s.idlePlayer n).mode = s.mode ∧
    (s.idlePlayer n).emergency = s.emergency ∧ (s.idlePlayer n).loops = s.loops ∧ (s.idlePlayer n).lines = s.lines ∧
    (s.idlePlayer n).frameCount = s.frameCount ∧ (s.idlePlayer n).rackDue = s.rackDue ∧
    (s.idlePlayer n).rackFrame = s.rackFrame ∧ (s.idlePlayer n).counters = s.counters ∧
    (s.idlePlayer n).event = s.event ∧ (s.idlePlayer n).replayOwed = s.replayOwed := by
  and_intros <;> rfl

@[simp] theorem takeRate_fields (n : PlayerNo) :
    (s.takeRate n).now = s.now ∧ (s.takeRate n).pending = s.pending ∧ (s.takeRate n).startup = s.startup ∧
    (s.takeRate n).tables = s.tables ∧ (s.takeRate n).versions = s.versions ∧
    (s.takeRate n).configState = s.configState ∧ (s.takeRate n).imageState = s.imageState ∧
    (s.takeRate n).memory = s.memory ∧ (s.takeRate n).save = s.save ∧ (s.takeRate n).ports = s.ports ∧
    (s.takeRate n).circuits = s.circuits ∧ (s.takeRate n).trackers = s.trackers ∧ (s.takeRate n).slots = s.slots ∧
    (s.takeRate n).deferred = s.deferred ∧ (s.takeRate n).deferWarned = s.deferWarned ∧
    (s.takeRate n).mode = s.mode ∧ (s.takeRate n).emergency = s.emergency ∧ (s.takeRate n).loops = s.loops ∧
    (s.takeRate n).lines = s.lines ∧ (s.takeRate n).frameCount = s.frameCount ∧ (s.takeRate n).rackDue = s.rackDue ∧
    (s.takeRate n).rackFrame = s.rackFrame ∧ (s.takeRate n).counters = s.counters ∧ (s.takeRate n).event = s.event ∧
    (s.takeRate n).replayOwed = s.replayOwed := by
  and_intros <;> rfl

@[simp] theorem startWait_fields (n : PlayerNo) (wait : Nat) :
    (s.startWait n wait).now = s.now ∧ (s.startWait n wait).pending = s.pending ∧
    (s.startWait n wait).startup = s.startup ∧ (s.startWait n wait).tables = s.tables ∧
    (s.startWait n wait).versions = s.versions ∧ (s.startWait n wait).configState = s.configState ∧
    (s.startWait n wait).imageState = s.imageState ∧ (s.startWait n wait).memory = s.memory ∧
    (s.startWait n wait).save = s.save ∧ (s.startWait n wait).ports = s.ports ∧
    (s.startWait n wait).circuits = s.circuits ∧ (s.startWait n wait).trackers = s.trackers ∧
    (s.startWait n wait).slots = s.slots ∧ (s.startWait n wait).deferred = s.deferred ∧
    (s.startWait n wait).deferWarned = s.deferWarned ∧ (s.startWait n wait).mode = s.mode ∧
    (s.startWait n wait).emergency = s.emergency ∧ (s.startWait n wait).loops = s.loops ∧
    (s.startWait n wait).lines = s.lines ∧ (s.startWait n wait).frameCount = s.frameCount ∧
    (s.startWait n wait).rackDue = s.rackDue ∧ (s.startWait n wait).rackFrame = s.rackFrame ∧
    (s.startWait n wait).counters = s.counters ∧ (s.startWait n wait).event = s.event ∧
    (s.startWait n wait).replayOwed = s.replayOwed := by
  and_intros <;> rfl

@[simp] theorem onLine_fields (n : LineNo) (f : PwmLine → PwmLine) :
    (s.onLine n f).now = s.now ∧ (s.onLine n f).pending = s.pending ∧ (s.onLine n f).startup = s.startup ∧
    (s.onLine n f).tables = s.tables ∧ (s.onLine n f).versions = s.versions ∧
    (s.onLine n f).configState = s.configState ∧ (s.onLine n f).imageState = s.imageState ∧
    (s.onLine n f).memory = s.memory ∧ (s.onLine n f).save = s.save ∧ (s.onLine n f).ports = s.ports ∧
    (s.onLine n f).circuits = s.circuits ∧ (s.onLine n f).trackers = s.trackers ∧ (s.onLine n f).slots = s.slots ∧
    (s.onLine n f).deferred = s.deferred ∧ (s.onLine n f).deferWarned = s.deferWarned ∧
    (s.onLine n f).players = s.players ∧ (s.onLine n f).mode = s.mode ∧ (s.onLine n f).emergency = s.emergency ∧
    (s.onLine n f).loops = s.loops ∧ (s.onLine n f).frameCount = s.frameCount ∧ (s.onLine n f).rackDue = s.rackDue ∧
    (s.onLine n f).rackFrame = s.rackFrame ∧ (s.onLine n f).counters = s.counters ∧ (s.onLine n f).event = s.event ∧
    (s.onLine n f).replayOwed = s.replayOwed := by
  and_intros <;> rfl

@[simp] theorem onLoop_fields (l : LoopNo) (f : LoopState → LoopState) :
    (s.onLoop l f).now = s.now ∧ (s.onLoop l f).pending = s.pending ∧ (s.onLoop l f).startup = s.startup ∧
    (s.onLoop l f).tables = s.tables ∧ (s.onLoop l f).versions = s.versions ∧
    (s.onLoop l f).configState = s.configState ∧ (s.onLoop l f).imageState = s.imageState ∧
    (s.onLoop l f).memory = s.memory ∧ (s.onLoop l f).save = s.save ∧ (s.onLoop l f).ports = s.ports ∧
    (s.onLoop l f).circuits = s.circuits ∧ (s.onLoop l f).trackers = s.trackers ∧ (s.onLoop l f).slots = s.slots ∧
    (s.onLoop l f).deferred = s.deferred ∧ (s.onLoop l f).deferWarned = s.deferWarned ∧
    (s.onLoop l f).players = s.players ∧ (s.onLoop l f).mode = s.mode ∧ (s.onLoop l f).emergency = s.emergency ∧
    (s.onLoop l f).lines = s.lines ∧ (s.onLoop l f).frameCount = s.frameCount ∧ (s.onLoop l f).rackDue = s.rackDue ∧
    (s.onLoop l f).rackFrame = s.rackFrame ∧ (s.onLoop l f).counters = s.counters ∧ (s.onLoop l f).event = s.event ∧
    (s.onLoop l f).replayOwed = s.replayOwed := by
  and_intros <;> rfl

@[simp] theorem onStation_fields (l : LoopNo) (n : StationNo) (f : StationState → StationState) :
    (s.onStation l n f).now = s.now ∧ (s.onStation l n f).pending = s.pending ∧
    (s.onStation l n f).startup = s.startup ∧ (s.onStation l n f).tables = s.tables ∧
    (s.onStation l n f).versions = s.versions ∧ (s.onStation l n f).configState = s.configState ∧
    (s.onStation l n f).imageState = s.imageState ∧ (s.onStation l n f).memory = s.memory ∧
    (s.onStation l n f).save = s.save ∧ (s.onStation l n f).ports = s.ports ∧
    (s.onStation l n f).circuits = s.circuits ∧ (s.onStation l n f).trackers = s.trackers ∧
    (s.onStation l n f).slots = s.slots ∧ (s.onStation l n f).deferred = s.deferred ∧
    (s.onStation l n f).deferWarned = s.deferWarned ∧ (s.onStation l n f).players = s.players ∧
    (s.onStation l n f).mode = s.mode ∧ (s.onStation l n f).emergency = s.emergency ∧
    (s.onStation l n f).lines = s.lines ∧ (s.onStation l n f).frameCount = s.frameCount ∧
    (s.onStation l n f).rackDue = s.rackDue ∧ (s.onStation l n f).rackFrame = s.rackFrame ∧
    (s.onStation l n f).counters = s.counters ∧ (s.onStation l n f).event = s.event ∧
    (s.onStation l n f).replayOwed = s.replayOwed := by
  and_intros <;> rfl

@[simp] theorem onKey_fields (k : KeyAddr) (f : KeyRecord → KeyRecord) :
    (s.onKey k f).now = s.now ∧ (s.onKey k f).pending = s.pending ∧ (s.onKey k f).startup = s.startup ∧
    (s.onKey k f).tables = s.tables ∧ (s.onKey k f).versions = s.versions ∧
    (s.onKey k f).configState = s.configState ∧ (s.onKey k f).imageState = s.imageState ∧
    (s.onKey k f).memory = s.memory ∧ (s.onKey k f).save = s.save ∧ (s.onKey k f).ports = s.ports ∧
    (s.onKey k f).circuits = s.circuits ∧ (s.onKey k f).trackers = s.trackers ∧ (s.onKey k f).slots = s.slots ∧
    (s.onKey k f).deferred = s.deferred ∧ (s.onKey k f).deferWarned = s.deferWarned ∧
    (s.onKey k f).players = s.players ∧ (s.onKey k f).mode = s.mode ∧ (s.onKey k f).emergency = s.emergency ∧
    (s.onKey k f).lines = s.lines ∧ (s.onKey k f).frameCount = s.frameCount ∧ (s.onKey k f).rackDue = s.rackDue ∧
    (s.onKey k f).rackFrame = s.rackFrame ∧ (s.onKey k f).counters = s.counters ∧ (s.onKey k f).event = s.event ∧
    (s.onKey k f).replayOwed = s.replayOwed := by
  and_intros <;> rfl

@[simp] theorem onCounters_fields (f : GlobalCounters → GlobalCounters) :
    (s.onCounters f).now = s.now ∧ (s.onCounters f).pending = s.pending ∧ (s.onCounters f).startup = s.startup ∧
    (s.onCounters f).tables = s.tables ∧ (s.onCounters f).versions = s.versions ∧
    (s.onCounters f).configState = s.configState ∧ (s.onCounters f).imageState = s.imageState ∧
    (s.onCounters f).memory = s.memory ∧ (s.onCounters f).save = s.save ∧ (s.onCounters f).ports = s.ports ∧
    (s.onCounters f).circuits = s.circuits ∧ (s.onCounters f).trackers = s.trackers ∧
    (s.onCounters f).slots = s.slots ∧ (s.onCounters f).deferred = s.deferred ∧
    (s.onCounters f).deferWarned = s.deferWarned ∧ (s.onCounters f).players = s.players ∧
    (s.onCounters f).mode = s.mode ∧ (s.onCounters f).emergency = s.emergency ∧ (s.onCounters f).loops = s.loops ∧
    (s.onCounters f).lines = s.lines ∧ (s.onCounters f).frameCount = s.frameCount ∧
    (s.onCounters f).rackDue = s.rackDue ∧ (s.onCounters f).rackFrame = s.rackFrame ∧
    (s.onCounters f).event = s.event ∧ (s.onCounters f).replayOwed = s.replayOwed := by
  and_intros <;> rfl

@[simp] theorem countPoolRefusal_fields :
    (s.countPoolRefusal).now = s.now ∧ (s.countPoolRefusal).pending = s.pending ∧
    (s.countPoolRefusal).startup = s.startup ∧ (s.countPoolRefusal).tables = s.tables ∧
    (s.countPoolRefusal).versions = s.versions ∧ (s.countPoolRefusal).configState = s.configState ∧
    (s.countPoolRefusal).imageState = s.imageState ∧ (s.countPoolRefusal).memory = s.memory ∧
    (s.countPoolRefusal).save = s.save ∧ (s.countPoolRefusal).ports = s.ports ∧
    (s.countPoolRefusal).circuits = s.circuits ∧ (s.countPoolRefusal).trackers = s.trackers ∧
    (s.countPoolRefusal).slots = s.slots ∧ (s.countPoolRefusal).deferred = s.deferred ∧
    (s.countPoolRefusal).deferWarned = s.deferWarned ∧ (s.countPoolRefusal).players = s.players ∧
    (s.countPoolRefusal).mode = s.mode ∧ (s.countPoolRefusal).emergency = s.emergency ∧
    (s.countPoolRefusal).loops = s.loops ∧ (s.countPoolRefusal).lines = s.lines ∧
    (s.countPoolRefusal).frameCount = s.frameCount ∧ (s.countPoolRefusal).rackDue = s.rackDue ∧
    (s.countPoolRefusal).rackFrame = s.rackFrame ∧ (s.countPoolRefusal).event = s.event ∧
    (s.countPoolRefusal).replayOwed = s.replayOwed := by
  and_intros <;> rfl

@[simp] theorem countDropped_fields :
    (s.countDropped).now = s.now ∧ (s.countDropped).pending = s.pending ∧ (s.countDropped).startup = s.startup ∧
    (s.countDropped).tables = s.tables ∧ (s.countDropped).versions = s.versions ∧
    (s.countDropped).configState = s.configState ∧ (s.countDropped).imageState = s.imageState ∧
    (s.countDropped).memory = s.memory ∧ (s.countDropped).save = s.save ∧ (s.countDropped).ports = s.ports ∧
    (s.countDropped).circuits = s.circuits ∧ (s.countDropped).trackers = s.trackers ∧
    (s.countDropped).slots = s.slots ∧ (s.countDropped).deferred = s.deferred ∧
    (s.countDropped).deferWarned = s.deferWarned ∧ (s.countDropped).players = s.players ∧
    (s.countDropped).mode = s.mode ∧ (s.countDropped).emergency = s.emergency ∧ (s.countDropped).loops = s.loops ∧
    (s.countDropped).lines = s.lines ∧ (s.countDropped).frameCount = s.frameCount ∧
    (s.countDropped).rackDue = s.rackDue ∧ (s.countDropped).rackFrame = s.rackFrame ∧
    (s.countDropped).event = s.event ∧ (s.countDropped).replayOwed = s.replayOwed := by
  and_intros <;> rfl

@[simp] theorem countExpired_fields :
    (s.countExpired).now = s.now ∧ (s.countExpired).pending = s.pending ∧ (s.countExpired).startup = s.startup ∧
    (s.countExpired).tables = s.tables ∧ (s.countExpired).versions = s.versions ∧
    (s.countExpired).configState = s.configState ∧ (s.countExpired).imageState = s.imageState ∧
    (s.countExpired).memory = s.memory ∧ (s.countExpired).save = s.save ∧ (s.countExpired).ports = s.ports ∧
    (s.countExpired).circuits = s.circuits ∧ (s.countExpired).trackers = s.trackers ∧
    (s.countExpired).slots = s.slots ∧ (s.countExpired).deferred = s.deferred ∧
    (s.countExpired).deferWarned = s.deferWarned ∧ (s.countExpired).players = s.players ∧
    (s.countExpired).mode = s.mode ∧ (s.countExpired).emergency = s.emergency ∧ (s.countExpired).loops = s.loops ∧
    (s.countExpired).lines = s.lines ∧ (s.countExpired).frameCount = s.frameCount ∧
    (s.countExpired).rackDue = s.rackDue ∧ (s.countExpired).rackFrame = s.rackFrame ∧
    (s.countExpired).event = s.event ∧ (s.countExpired).replayOwed = s.replayOwed := by
  and_intros <;> rfl

@[simp] theorem countLockout_fields :
    (s.countLockout).now = s.now ∧ (s.countLockout).pending = s.pending ∧ (s.countLockout).startup = s.startup ∧
    (s.countLockout).tables = s.tables ∧ (s.countLockout).versions = s.versions ∧
    (s.countLockout).configState = s.configState ∧ (s.countLockout).imageState = s.imageState ∧
    (s.countLockout).memory = s.memory ∧ (s.countLockout).save = s.save ∧ (s.countLockout).ports = s.ports ∧
    (s.countLockout).circuits = s.circuits ∧ (s.countLockout).trackers = s.trackers ∧
    (s.countLockout).slots = s.slots ∧ (s.countLockout).deferred = s.deferred ∧
    (s.countLockout).deferWarned = s.deferWarned ∧ (s.countLockout).players = s.players ∧
    (s.countLockout).mode = s.mode ∧ (s.countLockout).emergency = s.emergency ∧ (s.countLockout).loops = s.loops ∧
    (s.countLockout).lines = s.lines ∧ (s.countLockout).frameCount = s.frameCount ∧
    (s.countLockout).rackDue = s.rackDue ∧ (s.countLockout).rackFrame = s.rackFrame ∧
    (s.countLockout).event = s.event ∧ (s.countLockout).replayOwed = s.replayOwed := by
  and_intros <;> rfl

@[simp] theorem countEntry_fields :
    (s.countEntry).now = s.now ∧ (s.countEntry).pending = s.pending ∧ (s.countEntry).startup = s.startup ∧
    (s.countEntry).tables = s.tables ∧ (s.countEntry).versions = s.versions ∧
    (s.countEntry).configState = s.configState ∧ (s.countEntry).imageState = s.imageState ∧
    (s.countEntry).memory = s.memory ∧ (s.countEntry).save = s.save ∧ (s.countEntry).ports = s.ports ∧
    (s.countEntry).circuits = s.circuits ∧ (s.countEntry).trackers = s.trackers ∧ (s.countEntry).slots = s.slots ∧
    (s.countEntry).deferred = s.deferred ∧ (s.countEntry).deferWarned = s.deferWarned ∧
    (s.countEntry).players = s.players ∧ (s.countEntry).mode = s.mode ∧ (s.countEntry).emergency = s.emergency ∧
    (s.countEntry).loops = s.loops ∧ (s.countEntry).lines = s.lines ∧ (s.countEntry).frameCount = s.frameCount ∧
    (s.countEntry).rackDue = s.rackDue ∧ (s.countEntry).rackFrame = s.rackFrame ∧ (s.countEntry).event = s.event ∧
    (s.countEntry).replayOwed = s.replayOwed := by
  and_intros <;> rfl

@[simp] theorem onTables_fields (f : Tables → Tables) :
    (s.onTables f).now = s.now ∧ (s.onTables f).pending = s.pending ∧ (s.onTables f).startup = s.startup ∧
    (s.onTables f).versions = s.versions ∧ (s.onTables f).configState = s.configState ∧
    (s.onTables f).imageState = s.imageState ∧ (s.onTables f).memory = s.memory ∧ (s.onTables f).save = s.save ∧
    (s.onTables f).ports = s.ports ∧ (s.onTables f).circuits = s.circuits ∧ (s.onTables f).trackers = s.trackers ∧
    (s.onTables f).slots = s.slots ∧ (s.onTables f).deferred = s.deferred ∧
    (s.onTables f).deferWarned = s.deferWarned ∧ (s.onTables f).players = s.players ∧ (s.onTables f).mode = s.mode ∧
    (s.onTables f).emergency = s.emergency ∧ (s.onTables f).loops = s.loops ∧ (s.onTables f).lines = s.lines ∧
    (s.onTables f).frameCount = s.frameCount ∧ (s.onTables f).rackDue = s.rackDue ∧
    (s.onTables f).rackFrame = s.rackFrame ∧ (s.onTables f).counters = s.counters ∧ (s.onTables f).event = s.event ∧
    (s.onTables f).replayOwed = s.replayOwed := by
  and_intros <;> rfl

@[simp] theorem setEmergency_fields (e : EmergencyState) (l : List Circuit) :
    (s.setEmergency e l).now = s.now ∧ (s.setEmergency e l).pending = s.pending ∧
    (s.setEmergency e l).startup = s.startup ∧ (s.setEmergency e l).tables = s.tables ∧
    (s.setEmergency e l).versions = s.versions ∧ (s.setEmergency e l).configState = s.configState ∧
    (s.setEmergency e l).imageState = s.imageState ∧ (s.setEmergency e l).memory = s.memory ∧
    (s.setEmergency e l).save = s.save ∧ (s.setEmergency e l).ports = s.ports ∧
    (s.setEmergency e l).circuits = s.circuits ∧ (s.setEmergency e l).trackers = s.trackers ∧
    (s.setEmergency e l).slots = s.slots ∧ (s.setEmergency e l).deferred = s.deferred ∧
    (s.setEmergency e l).deferWarned = s.deferWarned ∧ (s.setEmergency e l).players = s.players ∧
    (s.setEmergency e l).mode = s.mode ∧ (s.setEmergency e l).loops = s.loops ∧
    (s.setEmergency e l).lines = s.lines ∧ (s.setEmergency e l).frameCount = s.frameCount ∧
    (s.setEmergency e l).rackDue = s.rackDue ∧ (s.setEmergency e l).rackFrame = s.rackFrame ∧
    (s.setEmergency e l).counters = s.counters ∧ (s.setEmergency e l).event = s.event ∧
    (s.setEmergency e l).replayOwed = s.replayOwed := by
  and_intros <;> rfl

@[simp] theorem announceSeq_fields (n : PlayerNo) (e : SeqEvent) :
    (s.announceSeq n e).now = s.now ∧ (s.announceSeq n e).pending = s.pending ∧
    (s.announceSeq n e).startup = s.startup ∧ (s.announceSeq n e).tables = s.tables ∧
    (s.announceSeq n e).versions = s.versions ∧ (s.announceSeq n e).configState = s.configState ∧
    (s.announceSeq n e).imageState = s.imageState ∧ (s.announceSeq n e).memory = s.memory ∧
    (s.announceSeq n e).save = s.save ∧ (s.announceSeq n e).circuits = s.circuits ∧
    (s.announceSeq n e).trackers = s.trackers ∧ (s.announceSeq n e).slots = s.slots ∧
    (s.announceSeq n e).deferred = s.deferred ∧ (s.announceSeq n e).deferWarned = s.deferWarned ∧
    (s.announceSeq n e).players = s.players ∧ (s.announceSeq n e).mode = s.mode ∧
    (s.announceSeq n e).emergency = s.emergency ∧ (s.announceSeq n e).loops = s.loops ∧
    (s.announceSeq n e).lines = s.lines ∧ (s.announceSeq n e).frameCount = s.frameCount ∧
    (s.announceSeq n e).rackDue = s.rackDue ∧ (s.announceSeq n e).rackFrame = s.rackFrame ∧
    (s.announceSeq n e).counters = s.counters ∧ (s.announceSeq n e).event = s.event ∧
    (s.announceSeq n e).replayOwed = s.replayOwed := by
  and_intros <;> rfl

@[simp] theorem announceEmergency_fields (cause : EmergencyCause) :
    (s.announceEmergency cause).now = s.now ∧ (s.announceEmergency cause).pending = s.pending ∧
    (s.announceEmergency cause).startup = s.startup ∧ (s.announceEmergency cause).tables = s.tables ∧
    (s.announceEmergency cause).versions = s.versions ∧ (s.announceEmergency cause).configState = s.configState ∧
    (s.announceEmergency cause).imageState = s.imageState ∧ (s.announceEmergency cause).memory = s.memory ∧
    (s.announceEmergency cause).save = s.save ∧ (s.announceEmergency cause).circuits = s.circuits ∧
    (s.announceEmergency cause).trackers = s.trackers ∧ (s.announceEmergency cause).slots = s.slots ∧
    (s.announceEmergency cause).deferred = s.deferred ∧ (s.announceEmergency cause).deferWarned = s.deferWarned ∧
    (s.announceEmergency cause).players = s.players ∧ (s.announceEmergency cause).mode = s.mode ∧
    (s.announceEmergency cause).emergency = s.emergency ∧ (s.announceEmergency cause).loops = s.loops ∧
    (s.announceEmergency cause).lines = s.lines ∧ (s.announceEmergency cause).frameCount = s.frameCount ∧
    (s.announceEmergency cause).rackDue = s.rackDue ∧ (s.announceEmergency cause).rackFrame = s.rackFrame ∧
    (s.announceEmergency cause).counters = s.counters ∧ (s.announceEmergency cause).event = s.event ∧
    (s.announceEmergency cause).replayOwed = s.replayOwed := by
  and_intros <;> rfl

@[simp] theorem respond_fields (p : Port) (kind tag : Byte) (status : Status) (body : ReplyBody) :
    (s.respond p kind tag status body).now = s.now ∧ (s.respond p kind tag status body).pending = s.pending ∧
    (s.respond p kind tag status body).startup = s.startup ∧ (s.respond p kind tag status body).tables = s.tables ∧
    (s.respond p kind tag status body).versions = s.versions ∧
    (s.respond p kind tag status body).configState = s.configState ∧
    (s.respond p kind tag status body).imageState = s.imageState ∧
    (s.respond p kind tag status body).memory = s.memory ∧ (s.respond p kind tag status body).save = s.save ∧
    (s.respond p kind tag status body).circuits = s.circuits ∧
    (s.respond p kind tag status body).trackers = s.trackers ∧ (s.respond p kind tag status body).slots = s.slots ∧
    (s.respond p kind tag status body).deferred = s.deferred ∧
    (s.respond p kind tag status body).deferWarned = s.deferWarned ∧
    (s.respond p kind tag status body).players = s.players ∧ (s.respond p kind tag status body).mode = s.mode ∧
    (s.respond p kind tag status body).emergency = s.emergency ∧
    (s.respond p kind tag status body).loops = s.loops ∧ (s.respond p kind tag status body).lines = s.lines ∧
    (s.respond p kind tag status body).frameCount = s.frameCount ∧
    (s.respond p kind tag status body).rackDue = s.rackDue ∧
    (s.respond p kind tag status body).rackFrame = s.rackFrame ∧
    (s.respond p kind tag status body).counters = s.counters ∧ (s.respond p kind tag status body).event = s.event ∧
    (s.respond p kind tag status body).replayOwed = s.replayOwed := by
  and_intros <;> rfl

@[simp] theorem refreshLease_fields (p : Port) :
    (s.refreshLease p).now = s.now ∧ (s.refreshLease p).pending = s.pending ∧
    (s.refreshLease p).startup = s.startup ∧ (s.refreshLease p).tables = s.tables ∧
    (s.refreshLease p).versions = s.versions ∧ (s.refreshLease p).configState = s.configState ∧
    (s.refreshLease p).imageState = s.imageState ∧ (s.refreshLease p).memory = s.memory ∧
    (s.refreshLease p).save = s.save ∧ (s.refreshLease p).circuits = s.circuits ∧
    (s.refreshLease p).trackers = s.trackers ∧ (s.refreshLease p).slots = s.slots ∧
    (s.refreshLease p).deferred = s.deferred ∧ (s.refreshLease p).deferWarned = s.deferWarned ∧
    (s.refreshLease p).players = s.players ∧ (s.refreshLease p).mode = s.mode ∧
    (s.refreshLease p).emergency = s.emergency ∧ (s.refreshLease p).loops = s.loops ∧
    (s.refreshLease p).lines = s.lines ∧ (s.refreshLease p).frameCount = s.frameCount ∧
    (s.refreshLease p).rackDue = s.rackDue ∧ (s.refreshLease p).rackFrame = s.rackFrame ∧
    (s.refreshLease p).counters = s.counters ∧ (s.refreshLease p).event = s.event ∧
    (s.refreshLease p).replayOwed = s.replayOwed := by
  and_intros <;> rfl

end Sys2Proof.Machine.State
end

