-- ==== Sys2Proof/Laws/Claims.lean ====
section
/-! SUPPORT. Claim lists stay in the order of R7 under every change of the Claim Table, and what such a change leaves of a circuit. -/

namespace Sys2Proof.Machine

/-! ## Lists in order -/

theorem Listed.sublist {l m : List Claim} (h : m.Sublist l) (k : Listed l) : Listed m :=
  ⟨k.1.sublist h, k.2.sublist (h.map _)⟩

theorem Listed.map {l : List Claim} (f : Claim → Claim) (hf : ∀ c, (f c).owner = c.owner ∧ (f c).rank = c.rank)
    (k : Listed l) : Listed (l.map f) := by
  refine ⟨?_, ?_⟩
  · rw [List.pairwise_map]
    exact k.1.imp fun {a b} h => by rw [(hf a).2, (hf b).2]; exact h
  · have : (l.map f).map Claim.owner = l.map Claim.owner := by
      rw [List.map_map]; exact List.map_congr_left fun c _ => (hf c).1
    rw [this]; exact k.2

theorem Listed.without {l : List Claim} (o : Owner) (k : Listed l) : Listed (without o l) :=
  k.sublist List.filter_sublist

theorem mem_without {o : Owner} {l : List Claim} {c : Claim} : c ∈ without o l ↔ c ∈ l ∧ c.owner ≠ o := by
  simp [without]

theorem mem_enterRank {c x : Claim} {l : List Claim} : x ∈ enterRank c l ↔ x = c ∨ x ∈ l := by
  have h : x ∈ l ↔ x ∈ l.takeWhile (fun x => decide (c.rank < x.rank)) ∨
      x ∈ l.dropWhile (fun x => decide (c.rank < x.rank)) := by
    rw [← List.mem_append, List.takeWhile_append_dropWhile]
  simp only [enterRank, List.mem_append, List.mem_cons, h]
  tauto

/-- A claim enters its rank at the front, and the list stays in order (R7). -/
theorem Listed.enterRank {c : Claim} {l : List Claim} (k : Listed l) (h : ∀ x ∈ l, x.owner ≠ c.owner) :
    Listed (enterRank c l) := by
  have perm : (Sys2Proof.Machine.enterRank c l).Perm (c :: l) := by
    unfold Sys2Proof.Machine.enterRank
    refine List.perm_middle.trans ?_
    rw [List.takeWhile_append_dropWhile]
  refine ⟨?_, ?_⟩
  · unfold Sys2Proof.Machine.enterRank
    have front : ∀ x ∈ l.takeWhile (fun x => decide (c.rank < x.rank)), c.rank < x.rank := fun x hx => by
      simpa using List.mem_takeWhile_imp hx
    have back : ∀ x ∈ l.dropWhile (fun x => decide (c.rank < x.rank)), x.rank ≤ c.rank := by
      have sorted := k.1
      clear perm h k front
      induction l with
      | nil => simp
      | cons a l ih =>
        rw [List.pairwise_cons] at sorted
        by_cases ha : c.rank < a.rank
        · simpa [List.dropWhile_cons, ha] using ih sorted.2
        · have ha' : a.rank ≤ c.rank := not_lt.mp ha
          intro x hx
          rw [List.dropWhile_cons, if_neg (by simpa using ha)] at hx
          rcases List.mem_cons.mp hx with rfl | hx
          · exact ha'
          · exact le_trans (sorted.1 x hx) ha'
    have whole : (l.takeWhile (fun x => decide (c.rank < x.rank)) ++
        l.dropWhile (fun x => decide (c.rank < x.rank))).Pairwise (fun a b => b.rank ≤ a.rank) := by
      rw [List.takeWhile_append_dropWhile]; exact k.1
    rw [List.pairwise_append] at whole
    rw [List.pairwise_append, List.pairwise_cons]
    refine ⟨whole.1, ⟨fun x hx => back x hx, whole.2.1⟩, fun x hx y hy => ?_⟩
    rcases List.mem_cons.mp hy with rfl | hy
    · exact le_of_lt (front x hx)
    · exact whole.2.2 x hx y hy
  · refine (perm.map Claim.owner).nodup_iff.mpr ?_
    rw [List.map_cons, List.nodup_cons]
    refine ⟨fun hm => ?_, k.2⟩
    obtain ⟨x, hx, e⟩ := List.mem_map.mp hm
    exact h x hx e

/-! ## What a change of the Claim Table leaves of a circuit -/

/-- `y` is `x` after changes of the Claim Table: its list stays in order, its relay stands, and no transition toward a
fixed level appears. -/
structure SameCircuit (x y : CircuitState) : Prop where
  listed : Listed x.claims → Listed y.claims
  relay : y.relay = x.relay
  fixed : ∀ t, y.transition = some t → t.fixed.isSome → x.transition = some t

namespace SameCircuit

theorem refl (x : CircuitState) : SameCircuit x x := ⟨id, rfl, fun _ h _ => h⟩

theorem trans {x y z : CircuitState} (a : SameCircuit x y) (b : SameCircuit y z) : SameCircuit x z :=
  ⟨fun h => b.listed (a.listed h), b.relay.trans a.relay, fun t h k => a.fixed t (b.fixed t h k) k⟩

theorem of_map (x : CircuitState) (f : Claim → Claim) (hf : ∀ c, (f c).owner = c.owner ∧ (f c).rank = c.rank) :
    SameCircuit x { x with claims := x.claims.map f } :=
  ⟨fun h => h.map f hf, rfl, fun _ h _ => h⟩

theorem of_raise (x : CircuitState) (k : Option KeyAddr) : SameCircuit x { x with raisedBy := k } :=
  ⟨id, rfl, fun _ h _ => h⟩

theorem leaveRaise (x : CircuitState) (o : Owner) : SameCircuit x (x.leaveRaise o) := by
  unfold CircuitState.leaveRaise
  split
  · exact of_raise x none
  · exact refl x

theorem continueTransition (x : CircuitState) (level : Nat) : SameCircuit x (x.continueTransition level) := by
  refine ⟨id, rfl, fun t h k => ?_⟩
  simp only [CircuitState.continueTransition, Option.map_eq_some_iff] at h
  obtain ⟨u, hu, e⟩ := h
  unfold Transition.continued at e
  split at e
  · rw [← e]; exact hu
  · rename_i n
    rw [← e] at k
    simp only [Bool.or_eq_true, not_or] at n
    exact absurd k n.1

theorem enter (x : CircuitState) (c : Claim) : SameCircuit x { x with claims := enterRank c (without c.owner x.claims) } :=
  ⟨fun h => (h.without c.owner).enterRank fun _ hx => (mem_without.mp hx).2, rfl, fun _ h _ => h⟩

/-- A placement's own changes (R13 to R15). -/
theorem placed (x : CircuitState) (modes : Tab MergeMode 8) (level : Nat) (o : Owner) (wait : Bool)
    (link : Option TrackerLink) (event : Nat) (it : PlaceItem) :
    SameCircuit x (x.placed modes level o wait link event it) := by
  unfold CircuitState.placed
  dsimp only
  split
  · exact (enter x _).trans (leaveRaise _ o)
  · split
    · split
      · exact ((enter x _).trans (leaveRaise _ o)).trans (continueTransition _ level)
      · exact ((enter x _).trans (leaveRaise _ o)).trans (continueTransition _ level)
    · exact (enter x _).trans (leaveRaise _ o)

theorem promoted_keys (level event : Nat) (b : Bool) (c : Claim) :
    (c.promoted level event b).owner = c.owner ∧ (c.promoted level event b).rank = c.rank := by
  unfold Claim.promoted
  split
  · exact ⟨rfl, rfl⟩
  · split <;> exact ⟨rfl, rfl⟩

/-- The promotions on a circuit (R16). -/
theorem promote (x : CircuitState) (modes : Tab MergeMode 8) (r : CircuitRecord) (e : EmergencyState) (event : Nat) :
    SameCircuit x (x.promote modes r e event) := by
  unfold CircuitState.promote
  dsimp only
  split
  · split
    · exact (of_map x _ fun c => promoted_keys _ _ _ c).trans (continueTransition _ _)
    · exact of_map x _ fun c => promoted_keys _ _ _ c
  · exact refl x

/-- A release's own changes (R19). -/
theorem released (x : CircuitState) (modes : Tab MergeMode 8) (level : Nat) (forced : Bool) (o : Owner) (time : Nat) :
    SameCircuit x (x.released modes level forced o time) := by
  have h : SameCircuit x { x with claims := without o x.claims } := ⟨fun h => h.without o, rfl, fun _ h _ => h⟩
  unfold CircuitState.released
  dsimp only
  split
  · refine ((h.trans (leaveRaise _ o)).trans ⟨id, rfl, fun t e k => ?_⟩)
    simp only [CircuitState.startTransition] at e
    split at e
    · exact absurd e (by simp)
    · rw [Option.some.injEq] at e
      rw [← e] at k
      exact absurd k (by simp)
  · exact h.trans (leaveRaise _ o)

theorem complete_keys (n : Nat) (c : Claim) : (c.complete n).owner = c.owner ∧ (c.complete n).rank = c.rank := by
  unfold Claim.complete
  split <;> exact ⟨rfl, rfl⟩

/-- The completions on a circuit (R34). -/
theorem complete (x : CircuitState) (n : Nat) : SameCircuit x (x.complete n) := by
  unfold CircuitState.complete
  exact (of_map x _ fun c => complete_keys n c).trans (of_raise _ _)

end SameCircuit
end Sys2Proof.Machine
end

