-- ==== Sys2Proof/Laws/Stock.lean ====
section
/-! SUPPORT. The claim pool and the trackers: what a change of one circuit makes of the length of its claim list, that a placement which its pool supplies stays within it (R11, R21), and that trackers taken when free stay within theirs (R45, R46). -/

namespace Sys2Proof.Machine

/-! ## Lengths of claim lists -/

theorem enterRank_length (c : Claim) (l : List Claim) : (enterRank c l).length = l.length + 1 := by
  have h : (l.takeWhile (fun x => decide (c.rank < x.rank))).length
      + (l.dropWhile (fun x => decide (c.rank < x.rank))).length = l.length := by
    rw [← List.length_append, List.takeWhile_append_dropWhile]
  unfold enterRank
  rw [List.length_append, List.length_cons]
  omega

theorem without_length (o : Owner) (l : List Claim) :
    (without o l).length + (if (claimOf o l).isNone then 0 else 1) ≤ l.length := by
  unfold without claimOf
  induction l with
  | nil => simp
  | cons c l ih =>
    by_cases h : (c.owner == o) = true
    · rw [List.find?_cons_of_pos (p := fun c : Claim => c.owner == o) h,
        List.filter_cons_of_neg (by simpa using h)]
      have := List.length_filter_le (fun c : Claim => !(c.owner == o)) l
      simp only [Option.isNone_some, Bool.false_eq_true, if_false, List.length_cons]
      omega
    · rw [List.find?_cons_of_neg (p := fun c : Claim => c.owner == o) h,
        List.filter_cons_of_pos (by simpa using h), List.length_cons, List.length_cons]
      omega

theorem leaveRaise_claims (x : CircuitState) (o : Owner) : (x.leaveRaise o).claims = x.claims := by
  unfold CircuitState.leaveRaise
  split <;> rfl

/-- A placement adds a record where its owner holds no claim, and none where it does (R11, R13). -/
theorem placed_length (x : CircuitState) (modes : Tab MergeMode 8) (level : Nat) (o : Owner) (wait : Bool)
    (link : Option TrackerLink) (event : Nat) (it : PlaceItem) :
    (x.placed modes level o wait link event it).claims.length
      ≤ x.claims.length + if (claimOf o x.claims).isNone then 1 else 0 := by
  have h : ∀ c : Claim, (enterRank c (without o x.claims)).length
      ≤ x.claims.length + if (claimOf o x.claims).isNone then 1 else 0 := fun c => by
    have := without_length o x.claims
    rw [enterRank_length]
    split <;> simp_all
  unfold CircuitState.placed
  dsimp only
  split
  · rw [leaveRaise_claims]; exact h _
  · split
    · split
      · show ((CircuitState.leaveRaise _ o).claims).length ≤ _
        rw [leaveRaise_claims]; exact h _
      · show ((CircuitState.leaveRaise _ o).claims).length ≤ _
        rw [leaveRaise_claims]; exact h _
    · rw [leaveRaise_claims]; exact h _

theorem promote_length (x : CircuitState) (modes : Tab MergeMode 8) (r : CircuitRecord) (e : EmergencyState) (event : Nat) :
    (x.promote modes r e event).claims.length = x.claims.length := by
  unfold CircuitState.promote
  dsimp only
  split
  · split <;> exact List.length_map ..
  · rfl

theorem released_length (x : CircuitState) (modes : Tab MergeMode 8) (level : Nat) (forced : Bool) (o : Owner) (time : Nat) :
    (x.released modes level forced o time).claims.length ≤ x.claims.length := by
  have h : (without o x.claims).length ≤ x.claims.length := List.length_filter_le _ _
  unfold CircuitState.released
  dsimp only
  split
  · show ((CircuitState.leaveRaise _ o).claims).length ≤ _
    rw [leaveRaise_claims]; exact h
  · rw [leaveRaise_claims]; exact h

/-! ## The pool -/

namespace State

/-- The records in use, circuit by circuit (R21). -/
theorem records_sum (s : State) : s.recordsInUse = ((indices 192).map fun c => (s.claims c).length).sum := by
  unfold recordsInUse
  congr 1
  have whole : s.circuits.rows.toList = (indices 192).map s.circuit := by
    refine List.ext_getElem (by simp [indices, tabulate_length]) fun i h k => ?_
    have lt : i < 192 := by simpa using h
    have own : (indices 192)[i]'(by simpa using k) = ⟨i, lt⟩ :=
      tabulate_getElem (fun j : Fin 192 => j) 192 (Nat.le_refl 192) [] i lt _
    rw [List.getElem_map, own]
    show _ = s.circuits.rows[i]
    simp
  rw [whole, List.map_map]
  rfl

theorem records_le {s t : State} (h : ∀ c, (t.claims c).length ≤ (s.claims c).length) : t.recordsInUse ≤ s.recordsInUse := by
  rw [records_sum, records_sum]
  exact List.sum_le_sum fun c _ => h c

theorem records_of_circuits {s t : State} (h : t.circuits = s.circuits) : t.recordsInUse = s.recordsInUse := by
  unfold recordsInUse
  rw [h]

/-- A list sums up to no more than another and what a third adds to it. -/
theorem records_grow {s t : State} (g : Circuit → Nat) (h : ∀ c, (t.claims c).length ≤ (s.claims c).length + g c) :
    t.recordsInUse ≤ s.recordsInUse + ((indices 192).map g).sum := by
  rw [records_sum, records_sum, ← List.sum_map_add]
  exact List.sum_le_sum fun c _ => h c

end State

/-! ## Placements that are supplied -/

/-- A placement of `s` that has its records and its tracker: the pool holds the records it needs (R11), and a pool tracker
it takes is free, where its port holds fewer than 8 (R46). -/
structure Supplied (s : State) (pl : Placement) : Prop where
  room : s.recordsNeeded pl.owner (pl.items.map PlaceItem.circuit) ≤ s.freeRecords
  free : ∀ i p tag, pl.tracker = .pool i p tag →
    (∀ t ∈ s.trackers, t.id ≠ i) ∧ (s.trackers.filter fun t => t.port == p).length < Config.trackersPerPort

/-- A placement without a pool tracker is supplied where its records are. -/
theorem Supplied.of_room {s : State} {pl : Placement}
    (h : s.recordsNeeded pl.owner (pl.items.map PlaceItem.circuit) ≤ s.freeRecords)
    (k : ∀ i p tag, pl.tracker ≠ .pool i p tag) : Supplied s pl := ⟨h, fun i p tag e => absurd e (k i p tag)⟩

/-- A placement that the checks did not refuse has its records (R11). -/
theorem room_of_refusal {s : State} {o : Owner} {r : Rank} {cs : List Circuit} {asks : Bool}
    (h : s.placeRefusal o r cs asks = none) : s.recordsNeeded o cs ≤ s.freeRecords := by
  unfold State.placeRefusal at h
  split at h
  · cases h
  · split at h
    · cases h
    · omega

/-- The circuits that a placement names where its owner holds no claim are no more than the records it needs. -/
theorem named_needed (s : State) (pl : Placement) :
    ((indices 192).map fun c => if (pl.on c).isSome && (claimOf pl.owner (s.claims c)).isNone then 1 else 0).sum
      ≤ s.recordsNeeded pl.owner (pl.items.map PlaceItem.circuit) := by
  have count : ∀ (p : Circuit → Bool) (l : List Circuit),
      (l.map fun c => if p c then 1 else 0).sum = (l.filter p).length := fun p l => by
    induction l with
    | nil => rfl
    | cons c l ih =>
      rw [List.map_cons, List.sum_cons, ih]
      cases h : p c
      · rw [List.filter_cons_of_neg (by simp [h])]; simp
      · rw [List.filter_cons_of_pos h, List.length_cons]; simp; omega
  have all : (indices 192).Nodup := by decide +kernel
  rw [count]
  unfold State.recordsNeeded
  refine List.Nodup.length_le_of_subset (all.filter _) fun c m => ?_
  simp only [List.mem_filter, Bool.and_eq_true] at m ⊢
  refine ⟨?_, m.2.2⟩
  obtain ⟨it, h⟩ := Option.isSome_iff_exists.mp m.2.1
  exact List.mem_map.mpr ⟨it, List.mem_of_find?_eq_some h, by simpa using List.find?_some h⟩

/-- A supplied placement leaves the claim pool within its size (R21). -/
theorem place_pool {s t : State} {pl : Placement} (h : Supplied s pl)
    (circuits : t.circuits = s.promoteWhere (s.placeMid pl) (pl.items.map PlaceItem.circuit).contains)
    (k : s.recordsInUse ≤ Config.poolSize) : t.recordsInUse ≤ Config.poolSize := by
  have grow := State.records_grow (s := s) (t := t)
    (fun c => if (pl.on c).isSome && (claimOf pl.owner (s.claims c)).isNone then 1 else 0) fun c => by
      have len : (t.claims c).length = ((s.placeMid pl).get c).claims.length := by
        unfold State.claims State.circuit
        rw [circuits]
        unfold State.promoteWhere
        rw [Tab.get_build]
        split
        · exact promote_length _ _ _ _ _
        · rfl
      rw [len]
      unfold State.placeMid
      rw [Tab.get_build]
      cases on : pl.on c with
      | none => simp [State.claims]
      | some it =>
        refine (placed_length _ _ _ _ _ _ _ _).trans ?_
        simp [State.claims]
  have need := named_needed s pl
  have room := h.room
  unfold State.freeRecords at room
  omega

/-! ## Trackers -/

namespace TrackersFit

theorem of_map {l : List Tracker} (h : TrackersFit l) (f : Tracker → Tracker)
    (same : ∀ t, (f t).id = t.id ∧ (f t).port = t.port) : TrackersFit (l.map f) where
  pool := by rw [List.length_map]; exact h.pool
  numbers := by
    have e : Tracker.id ∘ f = Tracker.id := funext fun t => (same t).1
    rw [List.map_map, e]
    exact h.numbers
  ports p := by
    rw [List.filter_map, List.length_map]
    have e : (fun t : Tracker => t.port == p) ∘ f = fun t => t.port == p := funext fun t => by
      show ((f t).port == p) = _
      rw [(same t).2]
    rw [e]
    exact h.ports p

theorem of_filter {l : List Tracker} (h : TrackersFit l) (f : Tracker → Bool) : TrackersFit (l.filter f) where
  pool := (List.length_filter_le _ _).trans h.pool
  numbers := h.numbers.sublist (List.filter_sublist.map _)
  ports p := ((List.filter_sublist.filter _).length_le).trans (h.ports p)

/-- A tracker that is free, of a port that holds fewer than 8, fits in (R46). -/
theorem append {l : List Tracker} (h : TrackersFit l) (t : Tracker) (free : ∀ x ∈ l, x.id ≠ t.id)
    (few : (l.filter fun x => x.port == t.port).length < Config.trackersPerPort) : TrackersFit (l ++ [t]) := by
  have numbers : ((l ++ [t]).map Tracker.id).Nodup := by
    rw [List.map_append, List.nodup_append]
    refine ⟨h.numbers, List.nodup_singleton _, fun a ha b hb e => ?_⟩
    obtain ⟨x, m, rfl⟩ := List.mem_map.mp ha
    obtain rfl : b = t.id := by simpa using hb
    exact free x m e
  refine ⟨?_, numbers, fun p => ?_⟩
  · have k := numbers.length_le_card
    rw [List.length_map, Fintype.card_fin] at k
    exact k
  · rw [List.filter_append, List.length_append]
    by_cases e : t.port = p
    · subst e
      have : ([t].filter fun x => x.port == t.port).length = 1 := by simp
      omega
    · have : ([t].filter fun x => x.port == p).length = 0 := by simp [e]
      have := h.ports p
      omega

end TrackersFit

/-! ## Stock -/

namespace Stocked

/-- What holds neither claims nor trackers does not bear on them. -/
theorem of_eq {s t : State} (h : Stocked s) (c : t.circuits = s.circuits) (k : t.trackers = s.trackers) : Stocked t :=
  ⟨by rw [State.records_of_circuits c]; exact h.pool, by rw [k]; exact h.trackers⟩

/-- Claim lists that are no longer, with the trackers of before. -/
theorem of_le {s t : State} (h : Stocked s) (c : ∀ i, (t.circuits.get i).claims.length ≤ (s.circuits.get i).claims.length)
    (k : t.trackers = s.trackers) : Stocked t :=
  ⟨(State.records_le c).trans h.pool, by rw [k]; exact h.trackers⟩

end Stocked
end Sys2Proof.Machine
end

