-- ==== Sys2Proof/Laws/Frames.lean ====
section
/-! SUPPORT. What the shared operations leave as it was. `ClaimsOnly` says once what an event of the Claim Table can reach, `Steady` what players and replays can reach, `Broad` what keys and mode changes can reach; each operation has one lemma. -/

namespace Sys2Proof.Machine

/-- A fold keeps what each of its steps keeps. -/
theorem foldl_keeps {σ β : Type} (R : σ → σ → Prop) (refl : ∀ s, R s s) (trans : ∀ a b c, R a b → R b c → R a c)
    (f : σ → β → σ) (h : ∀ s b, R s (f s b)) : ∀ (l : List β) (s : σ), R s (l.foldl f s)
  | [], s => refl s
  | b :: l, s => trans _ _ _ (h s b) (foldl_keeps R refl trans f h l (f s b))

/-! ## One port -/

/-- `y` is `x` but for notices posted to it (R190), which keep its queue and counter within their sizes, and leave what it
was told before. -/
structure SamePort (x y : PortState) : Prop where
  link : y.link = x.link
  orphanEnd : y.orphanEnd = x.orphanEnd
  linkRate : y.linkRate = x.linkRate
  subscriptions : y.subscriptions = x.subscriptions
  badFrames : y.badFrames = x.badFrames
  busyReplies : y.busyReplies = x.busyReplies
  leaseLosses : y.leaseLosses = x.leaseLosses
  edit : y.edit = x.edit
  lastReply : y.lastReply = x.lastReply
  queue : x.queue.length ≤ Config.queueSlots → y.queue.length ≤ Config.queueSlots
  dropped : x.noticesDropped ≤ Config.counterTop → y.noticesDropped ≤ Config.counterTop
  told : ∀ n, n ∈ x.queue ∨ x.overflow = true → n ∈ y.queue ∨ y.overflow = true

theorem SamePort.refl (x : PortState) : SamePort x x :=
  ⟨rfl, rfl, rfl, rfl, rfl, rfl, rfl, rfl, rfl, id, id, fun _ => id⟩

theorem SamePort.trans {x y z : PortState} (a : SamePort x y) (b : SamePort y z) : SamePort x z where
  link := b.link.trans a.link
  orphanEnd := b.orphanEnd.trans a.orphanEnd
  linkRate := b.linkRate.trans a.linkRate
  subscriptions := b.subscriptions.trans a.subscriptions
  badFrames := b.badFrames.trans a.badFrames
  busyReplies := b.busyReplies.trans a.busyReplies
  leaseLosses := b.leaseLosses.trans a.leaseLosses
  edit := b.edit.trans a.edit
  lastReply := b.lastReply.trans a.lastReply
  queue h := b.queue (a.queue h)
  dropped h := b.dropped (a.dropped h)
  told n h := b.told n (a.told n h)

theorem SamePort.bounded {x y : PortState} (h : SamePort x y) (b : x.Bounded) : y.Bounded :=
  ⟨h.queue b.1, h.badFrames ▸ b.2.1, h.busyReplies ▸ b.2.2.1, h.leaseLosses ▸ b.2.2.2.1, h.dropped b.2.2.2.2⟩

theorem bump_le (n : Nat) : bump n ≤ Config.counterTop := Nat.min_le_right _ _

theorem enqueue_same (x : PortState) (n : Notice) : SamePort x (x.enqueue n) := by
  unfold PortState.enqueue
  split
  · rename_i h
    refine ⟨rfl, rfl, rfl, rfl, rfl, rfl, rfl, rfl, rfl, fun _ => ?_, id,
      fun _ => .imp (List.mem_append_left _) id⟩
    simpa [Nat.succ_le_iff] using h
  · exact ⟨rfl, rfl, rfl, rfl, rfl, rfl, rfl, rfl, rfl, id, fun _ => bump_le _, fun _ _ => .inr rfl⟩

theorem PortState.notify_same (x : PortState) (n : Notice) : SamePort x (x.notify n) := by
  unfold PortState.notify
  split
  · exact enqueue_same x n
  · exact SamePort.refl x

theorem PortState.hear_same (x : PortState) (n : Notice) : SamePort x (x.hear n) := by
  unfold PortState.hear
  split
  · exact enqueue_same x n
  · exact SamePort.refl x

/-! ## Three frames -/

/-- What no event of the Claim Table, player, replay, key or mode change touches, and what all of them keep: a port
changes by notices alone, claim lists stay in order, relays stand, no transition toward a fixed level appears, forcing
neither begins nor ends, a FREE slot stays FREE, a slot keeps its owner, slots in use only in SHOW stay so, and the claim
pool and the trackers stay within their sizes. -/
structure Broad (s t : State) : Prop where
  now : t.now = s.now
  pending : t.pending = s.pending
  startup : t.startup = s.startup
  tables : t.tables = s.tables
  versions : t.versions = s.versions
  configState : t.configState = s.configState
  imageState : t.imageState = s.imageState
  memory : t.memory = s.memory
  save : t.save = s.save
  lines : t.lines = s.lines
  frameCount : t.frameCount = s.frameCount
  rackDue : t.rackDue = s.rackDue
  rackFrame : t.rackFrame = s.rackFrame
  contact : t.emergency.line = s.emergency.line ∧ t.emergency.accepted = s.emergency.accepted
    ∧ t.emergency.debounce = s.emergency.debounce
  ports : ∀ i, SamePort (s.ports.get i) (t.ports.get i)
  circuits : ∀ c, SameCircuit (s.circuits.get c) (t.circuits.get c)
  forces : t.emergency.state.forces = s.emergency.state.forces
  recovery : (s.emergency.state ≠ .recovering → s.emergency.recovery = [])
    → (t.emergency.state ≠ .recovering → t.emergency.recovery = [])
  slots : ∀ n y, t.slots.get n = some y → ∃ x, s.slots.get n = some x ∧ y.owner = x.owner
  slotsInShow : (∀ n, s.slots.get n ≠ none → s.mode = some .inShow) → ∀ n, t.slots.get n ≠ none → t.mode = some .inShow
  loopCounters : (∀ i, (s.loops.get i).Bounded) → ∀ i, (t.loops.get i).Bounded
  counters : s.counters.Bounded → t.counters.Bounded
  deferred : s.deferred.length ≤ Config.deferredSlots → t.deferred.length ≤ Config.deferredSlots
  stock : Stocked s → Stocked t

/-- `Broad`, with the mode and the loops untouched too. -/
structure Steady (s t : State) : Prop extends Broad s t where
  mode : t.mode = s.mode
  loops : t.loops = s.loops

/-- `Steady`, with the players, the deferred queue and the global counters untouched too. -/
structure ClaimsOnly (s t : State) : Prop extends Steady s t where
  queue : t.deferred = s.deferred
  deferWarned : t.deferWarned = s.deferWarned
  players : t.players = s.players
  counts : t.counters = s.counters

theorem Broad.refl (s : State) : Broad s s :=
  ⟨rfl, rfl, rfl, rfl, rfl, rfl, rfl, rfl, rfl, rfl, rfl, rfl, rfl, ⟨rfl, rfl, rfl⟩, fun _ => .refl _, fun _ => .refl _,
    rfl, id, fun _ y h => ⟨y, h, rfl⟩, id, id, id, id, id⟩

theorem Broad.trans {a b c : State} (h : Broad a b) (k : Broad b c) : Broad a c where
  now := k.now.trans h.now
  pending := k.pending.trans h.pending
  startup := k.startup.trans h.startup
  tables := k.tables.trans h.tables
  versions := k.versions.trans h.versions
  configState := k.configState.trans h.configState
  imageState := k.imageState.trans h.imageState
  memory := k.memory.trans h.memory
  save := k.save.trans h.save
  lines := k.lines.trans h.lines
  frameCount := k.frameCount.trans h.frameCount
  rackDue := k.rackDue.trans h.rackDue
  rackFrame := k.rackFrame.trans h.rackFrame
  contact := ⟨k.contact.1.trans h.contact.1, k.contact.2.1.trans h.contact.2.1, k.contact.2.2.trans h.contact.2.2⟩
  ports i := (h.ports i).trans (k.ports i)
  circuits i := (h.circuits i).trans (k.circuits i)
  forces := k.forces.trans h.forces
  recovery x := k.recovery (h.recovery x)
  slots n y x := by
    obtain ⟨u, hu, e⟩ := k.slots n y x
    obtain ⟨v, hv, e'⟩ := h.slots n u hu
    exact ⟨v, hv, e.trans e'⟩
  slotsInShow x := k.slotsInShow (h.slotsInShow x)
  loopCounters x := k.loopCounters (h.loopCounters x)
  counters x := k.counters (h.counters x)
  deferred x := k.deferred (h.deferred x)
  stock x := k.stock (h.stock x)

theorem Steady.refl (s : State) : Steady s s := ⟨.refl s, rfl, rfl⟩

theorem Steady.trans {a b c : State} (h : Steady a b) (k : Steady b c) : Steady a c :=
  ⟨h.toBroad.trans k.toBroad, k.mode.trans h.mode, k.loops.trans h.loops⟩

theorem ClaimsOnly.refl (s : State) : ClaimsOnly s s := ⟨.refl s, rfl, rfl, rfl, rfl⟩

theorem ClaimsOnly.trans {a b c : State} (h : ClaimsOnly a b) (k : ClaimsOnly b c) : ClaimsOnly a c :=
  ⟨h.toSteady.trans k.toSteady, k.queue.trans h.queue, k.deferWarned.trans h.deferWarned, k.players.trans h.players,
    k.counts.trans h.counts⟩

theorem foldl_claims {β : Type} (f : State → β → State) (h : ∀ s b, ClaimsOnly s (f s b)) (l : List β) (s : State) :
    ClaimsOnly s (l.foldl f s) :=
  foldl_keeps ClaimsOnly ClaimsOnly.refl (fun _ _ _ => ClaimsOnly.trans) f h l s

theorem foldl_steady {β : Type} (f : State → β → State) (h : ∀ s b, Steady s (f s b)) (l : List β) (s : State) :
    Steady s (l.foldl f s) :=
  foldl_keeps Steady Steady.refl (fun _ _ _ => Steady.trans) f h l s

theorem foldl_broad {β : Type} (f : State → β → State) (h : ∀ s b, Broad s (f s b)) (l : List β) (s : State) :
    Broad s (l.foldl f s) :=
  foldl_keeps Broad Broad.refl (fun _ _ _ => Broad.trans) f h l s

/-! ## Single updates -/

/-- An update of the circuits, the trackers, the event number and the replay note. -/
theorem ClaimsOnly.of_circuits (s : State) (c : Tab CircuitState 192) (t : List Tracker) (e : Nat) (r : Bool)
    (h : ∀ i, SameCircuit (s.circuits.get i) (c.get i))
    (k : Stocked s → Stocked { s with circuits := c, trackers := t, event := e, replayOwed := r }) :
    ClaimsOnly s { s with circuits := c, trackers := t, event := e, replayOwed := r } :=
  ⟨⟨⟨rfl, rfl, rfl, rfl, rfl, rfl, rfl, rfl, rfl, rfl, rfl, rfl, rfl, ⟨rfl, rfl, rfl⟩, fun _ => .refl _, h,
    rfl, id, fun _ y h => ⟨y, h, rfl⟩, id, id, id, id, k⟩, rfl, rfl⟩, rfl, rfl, rfl, rfl⟩

/-- An update of the trackers, and of the slots in use. -/
theorem ClaimsOnly.of_slots (s : State) (t : List Tracker) (k : Tab (Option Slot) 4)
    (h : ∀ n y, k.get n = some y → ∃ x, s.slots.get n = some x ∧ y.owner = x.owner)
    (fit : TrackersFit s.trackers → TrackersFit t) : ClaimsOnly s { s with trackers := t, slots := k } :=
  ⟨⟨⟨rfl, rfl, rfl, rfl, rfl, rfl, rfl, rfl, rfl, rfl, rfl, rfl, rfl, ⟨rfl, rfl, rfl⟩, fun _ => .refl _,
    fun _ => .refl _, rfl, id, h,
    fun p n hn => by
      obtain ⟨y, hy⟩ := Option.ne_none_iff_exists'.mp hn
      obtain ⟨x, hx, _⟩ := h n y hy
      exact p n (by rw [hx]; simp),
    id, id, id, fun x => ⟨x.pool, fit x.trackers⟩⟩, rfl, rfl⟩, rfl, rfl, rfl, rfl⟩

/-- An update of the ports by notices. -/
theorem ClaimsOnly.of_ports (s : State) (x : Tab PortState 4) (h : ∀ i, SamePort (s.ports.get i) (x.get i)) :
    ClaimsOnly s { s with ports := x } :=
  ⟨⟨⟨rfl, rfl, rfl, rfl, rfl, rfl, rfl, rfl, rfl, rfl, rfl, rfl, rfl, ⟨rfl, rfl, rfl⟩, h, fun _ => .refl _,
    rfl, id, fun _ y h => ⟨y, h, rfl⟩, id, id, id, id, fun x => x.of_eq rfl rfl⟩, rfl, rfl⟩, rfl, rfl, rfl, rfl⟩

/-- An update of the players, the deferred queue, its flag, the counters and the replay note. -/
theorem Steady.of_update (s : State) (p : Tab Player 4) (d : List Deferred) (w : Bool) (g : GlobalCounters) (r : Bool)
    (hd : s.deferred.length ≤ Config.deferredSlots → d.length ≤ Config.deferredSlots)
    (hg : s.counters.Bounded → g.Bounded) :
    Steady s { s with players := p, deferred := d, deferWarned := w, counters := g, replayOwed := r } :=
  ⟨⟨rfl, rfl, rfl, rfl, rfl, rfl, rfl, rfl, rfl, rfl, rfl, rfl, rfl, ⟨rfl, rfl, rfl⟩, fun _ => .refl _,
    fun _ => .refl _, rfl, id, fun _ y h => ⟨y, h, rfl⟩, id, id, hg, hd, fun x => x.of_eq rfl rfl⟩, rfl, rfl⟩

/-- An update of the loops. -/
theorem Broad.of_loops (s : State) (l : Tab LoopState 4)
    (h : (∀ i, (s.loops.get i).Bounded) → ∀ i, (l.get i).Bounded) : Broad s { s with loops := l } :=
  ⟨rfl, rfl, rfl, rfl, rfl, rfl, rfl, rfl, rfl, rfl, rfl, rfl, rfl, ⟨rfl, rfl, rfl⟩, fun _ => .refl _,
    fun _ => .refl _, rfl, id, fun _ y h => ⟨y, h, rfl⟩, id, h, id, id, fun x => x.of_eq rfl rfl⟩

/-- An update of the mode alone is broad where no slot is in use, or the mode entered is SHOW. -/
theorem Broad.of_mode (s : State) (m : HouseMode) (h : m = .inShow ∨ ∀ n, s.slots.get n = none) :
    Broad s { s with mode := some m } :=
  ⟨rfl, rfl, rfl, rfl, rfl, rfl, rfl, rfl, rfl, rfl, rfl, rfl, rfl, ⟨rfl, rfl, rfl⟩, fun _ => .refl _,
    fun _ => .refl _, rfl, id, fun _ y h => ⟨y, h, rfl⟩,
    fun _ n hn => by
      rcases h with e | e
      · exact congrArg some e
      · exact absurd (e n) hn,
    id, id, id, fun x => x.of_eq rfl rfl⟩

namespace State

/-! ## Events of the Claim Table -/

theorem notify_claims (s : State) (p : Port) (n : Notice) : ClaimsOnly s (s.notify p n) :=
  .of_ports s _ fun i => by
    by_cases h : i = p.ix
    · subst h; simpa using PortState.notify_same _ n
    · simpa [Tab.get_modify_of_ne _ _ h] using SamePort.refl _

theorem announce_claims (s : State) (n : Notice) : ClaimsOnly s (s.announce n) :=
  .of_ports s _ fun i => by simpa using PortState.hear_same _ n

theorem onClaims_claims (s : State) (f : Claim → Claim) (ho : ∀ c, (f c).owner = c.owner)
    (hr : ∀ c, (f c).rank = c.rank) : ClaimsOnly s (s.onClaims f) :=
  .of_circuits s _ s.trackers s.event s.replayOwed (fun i => by
    simpa using SameCircuit.of_map _ _ (fun c => ⟨ho c, hr c⟩))
    fun x => x.of_le (fun i => by simp) rfl

theorem unlink_owner (l : TrackerLink) (c : Claim) : (c.unlink l).owner = c.owner := by
  unfold Claim.unlink; split <;> rfl

theorem unlink_rank (l : TrackerLink) (c : Claim) : (c.unlink l).rank = c.rank := by
  unfold Claim.unlink; split <;> rfl

theorem setOwed_claims (s : State) (r : Bool) : ClaimsOnly s { s with replayOwed := r } :=
  .of_circuits s s.circuits s.trackers s.event r (fun _ => .refl _) fun x => x.of_eq rfl rfl

theorem setSlot_claims (s : State) (n : SlotNo) (x : Option Slot)
    (h : ∀ y, x = some y → ∃ k, s.slot n = some k ∧ y.owner = k.owner) : ClaimsOnly s (s.setSlot n x) :=
  .of_slots s s.trackers _ (fun m y hm => by
    rw [Tab.get_set] at hm
    split at hm
    · rename_i e; subst e; exact h y hm
    · exact ⟨y, hm, rfl⟩) id

theorem endSlot_claims (s : State) (n : SlotNo) (r : EndReason) : ClaimsOnly s (s.endSlot n r) := by
  unfold endSlot
  split
  · exact .refl s
  · rename_i k _
    exact (((onClaims_claims s _ (unlink_owner _) (unlink_rank _)).trans (setSlot_claims _ n none fun _ h => absurd h (by simp))).trans
      (notify_claims _ k.owner _)).trans (setOwed_claims _ true)

theorem endSlots_claims (s : State) (which : Slot → Bool) (r : EndReason) : ClaimsOnly s (s.endSlots which r) := by
  unfold endSlots
  refine foldl_claims _ (fun s n => ?_) _ s
  split
  · exact endSlot_claims s n r
  · exact .refl s

theorem decrement_claims (s : State) (drops : List TrackerLink) : ClaimsOnly s (s.decrement drops) :=
  .of_slots s _ _ (fun n y h => by
    rw [Tab.get_build, Option.map_eq_some_iff] at h
    obtain ⟨x, hx, e⟩ := h
    refine ⟨x, hx, ?_⟩
    rw [← e]
    unfold Slot.decrement
    split <;> rfl) fun h => h.of_map _ fun _ => ⟨rfl, rfl⟩

theorem setTrackers_claims (s : State) (t : List Tracker) (fit : TrackersFit s.trackers → TrackersFit t) :
    ClaimsOnly s { s with trackers := t } :=
  .of_slots s t s.slots (fun _ y h => ⟨y, h, rfl⟩) fit

theorem freeZeroTrackers_claims (s : State) : ClaimsOnly s s.freeZeroTrackers := by
  unfold freeZeroTrackers
  have same : ((s.trackers.filter fun t => t.count == 0).foldl (fun s t => s.notify t.port (.fadeDone t.tag)) s).trackers
      = s.trackers :=
    foldl_keeps (fun a b : State => b.trackers = a.trackers) (fun _ => rfl) (fun _ _ _ h k => k.trans h)
      (fun s (t : Tracker) => s.notify t.port (.fadeDone t.tag)) (fun _ _ => rfl) _ s
  exact (foldl_claims _ (fun s (t : Tracker) => notify_claims s t.port _) _ s).trans
    (setTrackers_claims _ _ fun h => by rw [same] at h; exact h.of_filter _)

theorem announceEmergency_claims (s : State) (c : EmergencyCause) : ClaimsOnly s (s.announceEmergency c) :=
  announce_claims s _

/-- An update of the emergency state and recovery set that neither begins nor ends forcing. -/
theorem setEmergency_claims (s : State) (e : EmergencyState) (l : List Circuit)
    (hf : e.forces = s.emergency.state.forces) (hr : e ≠ .recovering → l = []) : ClaimsOnly s (s.setEmergency e l) :=
  ⟨⟨⟨rfl, rfl, rfl, rfl, rfl, rfl, rfl, rfl, rfl, rfl, rfl, rfl, rfl, ⟨rfl, rfl, rfl⟩, fun _ => .refl _,
    fun _ => .refl _, hf, fun _ => hr, fun _ y h => ⟨y, h, rfl⟩, id, id, id, id, fun x => x.of_eq rfl rfl⟩, rfl, rfl⟩, rfl, rfl, rfl, rfl⟩

theorem reportRecoveries_claims (s : State) (cs : List Circuit) : ClaimsOnly s (s.reportRecoveries cs) := by
  unfold reportRecoveries
  split
  · rename_i h
    dsimp only
    split
    · exact (setEmergency_claims s _ _ (by rw [h]; rfl) fun _ => rfl).trans (announceEmergency_claims _ _)
    · exact setEmergency_claims s _ _ (by rw [h]) fun x => absurd rfl x
  · exact .refl s

theorem settle_claims (s : State) (drops : List TrackerLink) (reports : List Circuit) :
    ClaimsOnly s (s.settle drops reports) := by
  unfold settle endDoneSlots
  exact (((decrement_claims s drops).trans (freeZeroTrackers_claims _)).trans (reportRecoveries_claims _ _)).trans
    (endSlots_claims _ _ _)

theorem commandNotices_claims (s : State) (t : Standings) (actor : Option Owner) :
    ClaimsOnly s (s.commandNotices t actor) := by
  have pre : ∀ p (s : State) o, ClaimsOnly s (s.notifyPreempted t actor p o) := fun p s o => by
    unfold notifyPreempted; dsimp only; split
    · exact notify_claims s p _
    · exact .refl s
  have res : ∀ p (s : State), ClaimsOnly s (s.notifyRestored t actor p) := fun p s => by
    unfold notifyRestored; dsimp only; split
    · exact notify_claims s p _
    · exact .refl s
  exact foldl_claims _ (fun s p => (foldl_claims _ (pre p) _ s).trans (res p _)) _ s

theorem setTracker_claims (s : State) (use : TrackerUse) (n : Nat)
    (free : ∀ i p tag, use = .pool i p tag →
      (∀ t ∈ s.trackers, t.id ≠ i) ∧ (s.trackers.filter fun t => t.port == p).length < Config.trackersPerPort) :
    ClaimsOnly s (s.setTracker use n) := by
  cases use
  · exact .refl s
  · obtain ⟨fresh, few⟩ := free _ _ _ rfl
    exact setTrackers_claims s _ fun h => h.append _ fresh few
  · exact setSlot_claims s _ _ fun y h => by
      rw [Option.map_eq_some_iff] at h
      obtain ⟨x, hx, e⟩ := h
      exact ⟨x, hx, by rw [← e]⟩

/-- The circuits after promotions where `on` picks them. -/
theorem promoteWhere_same (s : State) (mid : Tab CircuitState 192) (on : Circuit → Bool) (c : Circuit) :
    SameCircuit (mid.get c) ((s.promoteWhere mid on).get c) := by
  unfold promoteWhere
  rw [Tab.get_build]
  split
  · exact SameCircuit.promote _ _ _ _ _
  · exact .refl _

theorem promoteWhere_length (s : State) (mid : Tab CircuitState 192) (on : Circuit → Bool) (c : Circuit) :
    ((s.promoteWhere mid on).get c).claims.length = (mid.get c).claims.length := by
  unfold promoteWhere
  rw [Tab.get_build]
  split
  · exact promote_length _ _ _ _ _
  · rfl

/-- All that a placement which its pool supplies can reach (R17). -/
theorem place_claims (s : State) (pl : Placement) (h : Supplied s pl) : ClaimsOnly s (s.place pl) := by
  unfold place
  dsimp only
  refine (((ClaimsOnly.of_circuits s _ s.trackers (s.event + 1) s.replayOwed (fun c => ?_)
    fun x => ⟨place_pool h rfl x.pool, x.trackers⟩).trans
    (setTracker_claims _ _ _ h.free)).trans (commandNotices_claims _ _ _)).trans (settle_claims _ _ _)
  refine SameCircuit.trans ?_ (promoteWhere_same s _ _ c)
  unfold placeMid
  rw [Tab.get_build]
  split
  · exact .refl _
  · exact SameCircuit.placed _ _ _ _ _ _ _ _

/-- All that a release can reach (R19). -/
theorem release_claims (s : State) (o : Owner) (cs : List Circuit) (time : Nat) : ClaimsOnly s (s.release o cs time) := by
  unfold release
  dsimp only
  refine ((ClaimsOnly.of_circuits s _ s.trackers (s.event + 1) s.replayOwed (fun c => ?_)
    fun x => x.of_le (fun c => ?_) rfl).trans (commandNotices_claims _ _ _)).trans (settle_claims _ _ _)
  rotate_left
  · rw [promoteWhere_length, Tab.get_build]
    split
    · exact released_length _ _ _ _ _ _
    · exact le_rfl
  refine SameCircuit.trans ?_ (promoteWhere_same s _ _ c)
  rw [Tab.get_build]
  split
  · exact SameCircuit.released _ _ _ _ _ _
  · exact .refl _

theorem releaseAll_claims (s : State) (o : Owner) (time : Nat) : ClaimsOnly s (s.releaseAll o time) :=
  release_claims s o _ time

/-- All that the completion of fades can reach (R34). -/
theorem completeFades_claims (s : State) (n : Nat) : ClaimsOnly s (s.completeFades n) := by
  unfold completeFades
  dsimp only
  refine ((ClaimsOnly.of_circuits s _ s.trackers (s.event + 1) s.replayOwed (fun c => ?_)
    fun x => x.of_le (fun c => ?_) rfl).trans (commandNotices_claims _ _ _)).trans (settle_claims _ _ _)
  rotate_left
  · rw [promoteWhere_length, Tab.get_each]
    exact (List.length_map ..).le
  refine SameCircuit.trans ?_ (promoteWhere_same s _ _ c)
  rw [Tab.get_each]
  exact SameCircuit.complete _ _

theorem dropTrackers_claims (s : State) (p : Port) : ClaimsOnly s (s.dropTrackers p) := by
  unfold dropTrackers
  have same : ((s.trackers.filter fun t => t.port == p).foldl (fun s t => s.onClaims (Claim.unlink (.pool t.id))) s).trackers
      = s.trackers :=
    foldl_keeps (fun a b : State => b.trackers = a.trackers) (fun _ => rfl) (fun _ _ _ h k => k.trans h)
      (fun s (t : Tracker) => s.onClaims (Claim.unlink (.pool t.id))) (fun _ _ => rfl) _ s
  exact (foldl_claims _ (fun s _ => onClaims_claims s _ (unlink_owner _) (unlink_rank _)) _ s).trans
    (setTrackers_claims _ _ fun h => by rw [same] at h; exact h.of_filter _)

theorem joinRaise_claims (s : State) (k : KeyAddr) (cs : List Circuit) : ClaimsOnly s (s.joinRaise k cs) := by
  unfold joinRaise
  refine .of_circuits s _ s.trackers s.event s.replayOwed (fun c => ?_) fun x => x.of_le (fun c => ?_) rfl
  · rw [Tab.get_build]
    split
    · exact SameCircuit.of_raise _ _
    · exact .refl _
  · rw [Tab.get_build]
    split <;> exact le_rfl

/-- The stop of a raise needs no record: it places anew what FIELD holds (R101). -/
theorem stopRaise_supplied (s : State) (k : KeyAddr) :
    Supplied s (fieldPlacement ((s.raiseSet k).filterMap s.stopItem)) := by
  have none : s.recordsNeeded .field (((s.raiseSet k).filterMap s.stopItem).map PlaceItem.circuit) = 0 := by
    unfold recordsNeeded
    rw [List.length_eq_zero_iff, List.filter_eq_nil_iff]
    intro c m
    obtain ⟨it, hit, rfl⟩ := List.mem_map.mp m
    obtain ⟨d, _, e⟩ := List.mem_filterMap.mp hit
    unfold stopItem at e
    rw [Option.map_eq_some_iff] at e
    obtain ⟨x, hx, rfl⟩ := e
    simp [hx]
  refine .of_room ?_ fun _ _ _ => by unfold fieldPlacement; simp
  exact none.le.trans (Nat.zero_le _)

/-- All that the stop of a raise can reach (R101). -/
theorem stopRaise_claims (s : State) (k : KeyAddr) : ClaimsOnly s (s.stopRaise k) := by
  unfold stopRaise
  split
  · exact .refl s
  · exact place_claims s _ (stopRaise_supplied s k)

/-- A raise that was not refused is supplied (R98). -/
theorem raiseOn_claims (s : State) (k : KeyAddr) (way : RaiseWay) (r : Rank) (cs : List Circuit)
    (h : s.placeRefusal .field r cs true = none) : ClaimsOnly s (s.raiseOn k way r cs) := by
  unfold raiseOn
  refine (place_claims s _ (.of_room ?_ fun _ _ _ => by unfold fieldPlacement; simp)).trans (joinRaise_claims _ k cs)
  have own : (cs.map (s.raiseItem k way r)).map PlaceItem.circuit = cs := by
    rw [List.map_map]
    exact List.map_id cs
  unfold fieldPlacement
  rw [own]
  exact room_of_refusal h

/-- A placement of FIELD that was not refused is supplied (R12). -/
theorem fieldWork_supplied {s : State} {items : List PlaceItem} {r : Rank}
    (h : s.fieldRefusal (.place items r) = none) : Supplied s (fieldPlacement items) :=
  .of_room (room_of_refusal h) fun _ _ _ => by unfold fieldPlacement; simp

theorem doFieldWork_claims (s : State) (w : FieldWork) (h : s.fieldRefusal w = none) : ClaimsOnly s (s.doFieldWork w) := by
  cases w
  · exact place_claims s _ (fieldWork_supplied h)
  · exact release_claims s _ _ _

/-- All that the work of a replayed entry can reach (R104, R126). -/
theorem doReplayedWork_claims (s : State) (w : FieldWork) (h : s.fieldRefusal w = none) :
    ClaimsOnly s (s.doReplayedWork w) := by
  have work : ClaimsOnly { s with slots := .const none } (doFieldWork { s with slots := .const none } w) := by
    cases w with
    | place items r =>
      have given := fieldWork_supplied h
      exact place_claims _ _ ⟨given.room, given.free⟩
    | release cs time r => exact release_claims _ _ _ _
  exact
    { work with
      slots := fun _ y e => ⟨y, e, rfl⟩
      slotsInShow := fun p n k => work.mode.trans (p n k)
      stock := fun x => work.stock (x.of_eq rfl rfl) |>.of_eq rfl rfl }

/-- All that the settling of the slots after a replay can reach (R117). -/
theorem settleSlots_claims (s : State) (lost : SlotNo → Nat) : ClaimsOnly s (s.settleSlots lost) := by
  unfold settleSlots endDoneSlots
  refine ClaimsOnly.trans (ClaimsOnly.of_slots s s.trackers _ (fun n y h => ?_) id) (endSlots_claims _ _ _)
  rw [Tab.get_build, Option.map_eq_some_iff] at h
  obtain ⟨x, hx, e⟩ := h
  refine ⟨x, hx, ?_⟩
  rw [← e]
  unfold Slot.decrement
  split <;> rfl

/-! ## Counters, keys and loops -/

theorem onCounters_steady (s : State) (f : GlobalCounters → GlobalCounters) (h : s.counters.Bounded → (f s.counters).Bounded) :
    Steady s (s.onCounters f) :=
  .of_update s s.players s.deferred s.deferWarned _ s.replayOwed id h

theorem countPoolRefusal_steady (s : State) : Steady s s.countPoolRefusal :=
  onCounters_steady s _ fun h => ⟨h.1, h.2.1, h.2.2.1, bump_le _, h.2.2.2.2⟩

theorem countDropped_steady (s : State) : Steady s s.countDropped :=
  onCounters_steady s _ fun h => ⟨h.1, bump_le _, h.2.2.1, h.2.2.2.1, h.2.2.2.2⟩

theorem countExpired_steady (s : State) : Steady s s.countExpired :=
  onCounters_steady s _ fun h => ⟨h.1, h.2.1, bump_le _, h.2.2.2.1, h.2.2.2.2⟩

theorem countLockout_steady (s : State) : Steady s s.countLockout :=
  onCounters_steady s _ fun h => ⟨bump_le _, h.2.1, h.2.2.1, h.2.2.2.1, h.2.2.2.2⟩

theorem countEntry_steady (s : State) : Steady s s.countEntry :=
  onCounters_steady s _ fun h => ⟨h.1, h.2.1, h.2.2.1, h.2.2.2.1, bump_le _⟩

theorem setPlayer_steady (s : State) (n : PlayerNo) (p : Player) : Steady s (s.setPlayer n p) :=
  .of_update s _ s.deferred s.deferWarned s.counters s.replayOwed id id

theorem onLoop_broad (s : State) (l : LoopNo) (f : LoopState → LoopState)
    (h : (s.loops.get l).Bounded → (f (s.loops.get l)).Bounded) : Broad s (s.onLoop l f) :=
  .of_loops s _ fun b i => by
    rw [Tab.get_modify]
    split
    · exact h (b l)
    · exact b i

theorem onStation_broad (s : State) (l : LoopNo) (n : StationNo) (f : StationState → StationState) :
    Broad s (s.onStation l n f) := onLoop_broad s l _ fun h => h

theorem onKey_broad (s : State) (k : KeyAddr) (f : KeyRecord → KeyRecord) : Broad s (s.onKey k f) :=
  onStation_broad s _ _ _

theorem blink_broad (s : State) (k : KeyAddr) : Broad s (s.blink k) := by
  unfold blink
  split
  · exact onKey_broad s k _
  · exact .refl s

theorem announce_steady (s : State) (n : Notice) : Steady s (s.announce n) := (announce_claims s n).toSteady

theorem place_steady (s : State) (pl : Placement) (h : Supplied s pl) : Steady s (s.place pl) :=
  (place_claims s pl h).toSteady

theorem releaseAll_steady (s : State) (o : Owner) (time : Nat) : Steady s (s.releaseAll o time) :=
  (releaseAll_claims s o time).toSteady

/-! ### Players -/

theorem idlePlayer_steady (s : State) (n : PlayerNo) : Steady s (s.idlePlayer n) := setPlayer_steady s n _

theorem faultPlayer_steady (s : State) (n : PlayerNo) (r : StepRefusal) : Steady s (s.faultPlayer n r) :=
  ((idlePlayer_steady s n).trans (announce_steady _ _)).trans (releaseAll_steady _ _ _)

theorem stopPlayer_steady (s : State) (n : PlayerNo) (r : RunSource) : Steady s (s.stopPlayer n r) :=
  ((idlePlayer_steady s n).trans (announce_steady _ _)).trans (releaseAll_steady _ _ _)

theorem holdStep_steady (s : State) (n : PlayerNo) : Steady s (s.holdStep n) :=
  (setPlayer_steady s n _).trans (announce_steady _ _)

theorem startWait_steady (s : State) (n : PlayerNo) (w : Nat) : Steady s (s.startWait n w) := setPlayer_steady s n _

/-- A step's placement that was not refused is supplied (R138). -/
theorem stepPlacement_supplied {s : State} {n : PlayerNo} {q : SequenceDef} {x : SeqStep} {d : PresetDef}
    (h : s.placeRefusal (.seq n) q.rank (PresetDef.circuits d) true = none) : Supplied s (stepPlacement n q x d) :=
  .of_room (by
    have e : (stepPlacement n q x d).items.map PlaceItem.circuit = PresetDef.circuits d := by
      unfold stepPlacement recallItems PresetDef.circuits
      rw [List.map_map]
      rfl
    rw [e]
    exact room_of_refusal h) fun _ _ _ => by unfold stepPlacement; simp

theorem takeAction_steady (s : State) (n : PlayerNo) : Steady s (s.takeAction n).1 := by
  unfold takeAction
  split
  · exact .refl s
  · split
    · dsimp only; exact (releaseAll_steady s _ _).trans (startWait_steady _ _ _)
    · split
      · dsimp only; exact faultPlayer_steady s n _
      · split
        · rename_i free
          dsimp only
          exact (place_steady s _ (stepPlacement_supplied free)).trans (startWait_steady _ _ _)
        · dsimp only; exact holdStep_steady s n
        · dsimp only; exact (countPoolRefusal_steady s).trans (faultPlayer_steady _ n _)

theorem takeStep_steady (s : State) (n : PlayerNo) : Steady s (s.takeStep n).1 :=
  (setPlayer_steady s n _).trans (takeAction_steady _ n)

theorem retryStep_steady (s : State) (n : PlayerNo) : Steady s (s.retryStep n) := by
  unfold retryStep
  split
  · split
    · exact .refl s
    · exact takeStep_steady s n
  · exact .refl s
  · exact .refl s

theorem releaseHeld_steady (s : State) (n : PlayerNo) (q : SequenceNo) : Steady s (s.releaseHeld n q) := by
  unfold releaseHeld
  split
  · exact .refl s
  · split
    · exact .refl s
    · exact releaseAll_steady s _ _

theorem startRun_steady (s : State) (n : PlayerNo) (q : SequenceNo) (m : RunMode) (r : RunSource) :
    Steady s (s.startRun n q m r).1 :=
  (((releaseHeld_steady s n q).trans (setPlayer_steady _ n _)).trans (announce_steady _ _)).trans
    (takeStep_steady _ n)

theorem writeRate_steady (s : State) (n : PlayerNo) (rate : Nat) : Steady s (s.writeRate n rate) := by
  unfold writeRate
  split
  · exact .refl s
  · exact setPlayer_steady s n _

/-- All that a run request can reach (R133 to R136). -/
theorem runRequest_steady (s : State) (n : PlayerNo) (q : SequenceNo) (m : RunMode) (r : RunSource) :
    Steady s (s.runRequest n q m r).1 := by
  unfold runRequest
  split
  · exact startRun_steady s n q m r
  · split
    · dsimp only; exact setPlayer_steady s n _
    · dsimp only; exact (stopPlayer_steady s n r).trans (startRun_steady _ n q m r)

theorem offRequest_steady (s : State) (n : PlayerNo) (r : RunSource) : Steady s (s.offRequest n r) := by
  unfold offRequest
  split
  · exact .refl s
  · exact stopPlayer_steady s n r

theorem endRun_steady (s : State) (n : PlayerNo) (q : SequenceDef) : Steady s (s.endRun n q) := by
  unfold endRun
  split
  · exact ((idlePlayer_steady s n).trans (setPlayer_steady _ n _)).trans (announce_steady _ _)
  · exact ((idlePlayer_steady s n).trans (announce_steady _ _)).trans (releaseAll_steady _ _ _)

/-- All that the expiry of a wait can reach (R139, R140). -/
theorem moveOn_steady (s : State) (n : PlayerNo) : Steady s (s.moveOn n) := by
  unfold moveOn
  split
  · exact .refl s
  · simp only
    split
    · exact (setPlayer_steady s n _).trans (takeStep_steady _ n)
    · unfold endPass
      simp only
      split
      · exact ((setPlayer_steady s n _).trans (announce_steady _ _)).trans
          ((setPlayer_steady _ n _).trans (takeStep_steady _ n))
      · exact ((setPlayer_steady s n _).trans (announce_steady _ _)).trans (endRun_steady _ n _)

/-! ### The deferred queue and replay -/

theorem setDeferred_steady (s : State) (d : List Deferred)
    (h : s.deferred.length ≤ Config.deferredSlots → d.length ≤ Config.deferredSlots) :
    Steady s { s with deferred := d } :=
  .of_update s s.players d s.deferWarned s.counters s.replayOwed h id

theorem setWarned_steady (s : State) (w : Bool) : Steady s { s with deferWarned := w } :=
  .of_update s s.players s.deferred w s.counters s.replayOwed id id

theorem setOwed_steady (s : State) (w : Bool) : Steady s { s with replayOwed := w } := (setOwed_claims s w).toSteady

theorem defer_steady (s : State) (d : Deferred) (h : s.acceptsDeferred = true) : Steady s (s.defer d) := by
  have room : (s.deferred ++ [d]).length ≤ Config.deferredSlots := by
    simp only [acceptsDeferred, Bool.and_eq_true, decide_eq_true_eq] at h
    simpa using h.1
  unfold defer
  dsimp only
  split
  · exact ((setDeferred_steady s _ fun _ => room).trans (announce_steady _ _)).trans (setWarned_steady _ true)
  · exact setDeferred_steady s _ fun _ => room

theorem afterRemoval_steady (s : State) : Steady s s.afterRemoval := by
  unfold afterRemoval
  split
  · exact setWarned_steady s false
  · exact .refl s

theorem replayEntry_deferred (s : State) (d : Deferred) :
    (s.replayEntry d).deferred.length ≤ s.deferred.length + 1 := by
  unfold replayEntry
  split
  · split
    · rename_i free
      rw [(doReplayedWork_claims s _ free).queue]
      exact Nat.le_succ _
    · simp
    · exact Nat.le_succ _
  · exact Nat.le_succ _

theorem foldl_replayEntry_deferred :
    ∀ (l : List Deferred) (s : State), (l.foldl replayEntry s).deferred.length ≤ s.deferred.length + l.length
  | [], s => Nat.le_refl _
  | d :: l, s => by
    have h := foldl_replayEntry_deferred l (s.replayEntry d)
    have k := replayEntry_deferred s d
    simp only [List.foldl_cons, List.length_cons]
    omega

/-- One state reaches another, their deferred queues aside. -/
def SteadyAside (s t : State) : Prop := Steady { s with deferred := [] } { t with deferred := [] }

theorem aside_of_steady {s t : State} (h : Steady s t) : SteadyAside s t :=
  ⟨⟨h.now, h.pending, h.startup, h.tables, h.versions, h.configState, h.imageState, h.memory, h.save, h.lines,
    h.frameCount, h.rackDue, h.rackFrame, h.contact, h.ports, h.circuits, h.forces, h.recovery, h.slots,
    h.slotsInShow, h.loopCounters, h.counters, id, fun x => (h.stock (x.of_eq rfl rfl)).of_eq rfl rfl⟩, h.mode, h.loops⟩

theorem SteadyAside.steady {s t : State} (h : SteadyAside s t) (d : t.deferred.length ≤ s.deferred.length) :
    Steady s t :=
  ⟨⟨h.now, h.pending, h.startup, h.tables, h.versions, h.configState, h.imageState, h.memory, h.save, h.lines,
    h.frameCount, h.rackDue, h.rackFrame, h.contact, h.ports, h.circuits, h.forces, h.recovery, h.slots,
    h.slotsInShow, h.loopCounters, h.counters, fun x => Nat.le_trans d x,
    fun x => (h.stock (x.of_eq rfl rfl)).of_eq rfl rfl⟩, h.mode, h.loops⟩

theorem replayEntry_aside (s : State) (d : Deferred) : SteadyAside s (s.replayEntry d) := by
  unfold replayEntry
  split
  · split
    · rename_i free
      exact aside_of_steady (doReplayedWork_claims s _ free).toSteady
    · exact Steady.refl _
    · exact aside_of_steady (countDropped_steady s)
  · exact aside_of_steady (countExpired_steady s)

theorem replayQueue_steady (s : State) : Steady s s.replayQueue := by
  have h : SteadyAside s (s.deferred.foldl replayEntry { s with deferred := [] }) :=
    foldl_keeps SteadyAside (fun _ => Steady.refl _) (fun _ _ _ => Steady.trans) _ replayEntry_aside _
      { s with deferred := [] }
  have k := h.steady (by simpa using foldl_replayEntry_deferred s.deferred { s with deferred := [] })
  unfold replayQueue
  dsimp only
  split
  · exact k.trans (afterRemoval_steady _)
  · exact k

theorem retryPlayers_steady (s : State) : Steady s s.retryPlayers := foldl_steady _ retryStep_steady _ s

/-- All that one replay can reach (R125, R126). -/
theorem takeReplay_steady (s : State) : Steady s s.takeReplay :=
  ((replayQueue_steady s).trans (retryPlayers_steady _)).trans (settleSlots_claims _ _).toSteady

theorem replayWithin_steady : ∀ (n : Nat) (s : State), Steady s (replayWithin n s)
  | 0, s => setOwed_steady s false
  | n + 1, s => by
    unfold replayWithin
    split
    · exact ((setOwed_steady s false).trans (takeReplay_steady _)).trans (replayWithin_steady n _)
    · exact .refl s

/-- All that a replay can reach (R125). -/
theorem replay_steady (s : State) : Steady s s.replay := replayWithin_steady 5 s

theorem replayWithin_clear : ∀ (n : Nat) (s : State), (replayWithin n s).replayOwed = false
  | 0, _ => rfl
  | n + 1, s => by
    unfold replayWithin
    split
    · exact replayWithin_clear n _
    · rename_i h
      simpa using h

/-- After a replay none is owed. -/
@[simp] theorem replay_clear (s : State) : s.replay.replayOwed = false := replayWithin_clear 5 s

/-- Where no replay is owed, nothing happens. -/
theorem replay_of_clear (s : State) (h : s.replayOwed = false) : s.replay = s := by
  unfold replay replayWithin
  simp [h]

/-! ### Modes and keys -/

theorem endSlot_free (s : State) (n : SlotNo) (r : EndReason) : (s.endSlot n r).slot n = none := by
  unfold endSlot
  split
  · assumption
  · exact Tab.get_set_self _ _ _

/-- Where every slot in use is to end, every slot is FREE afterwards (R119). -/
theorem endSlots_all (s : State) (r : EndReason) (n : SlotNo) : (s.endSlots (fun _ => true) r).slot n = none := by
  have keep : ∀ (l : List SlotNo) (s : State), s.slot n = none →
      (l.foldl (fun s n => if (s.slot n).any (fun _ => true) then s.endSlot n r else s) s).slot n = none := by
    intro l
    induction l with
    | nil => intro s h; exact h
    | cons m l ih =>
      intro s h
      refine ih _ ?_
      dsimp only
      split
      · cases e : (s.endSlot m r).slot n with
        | none => rfl
        | some y =>
          obtain ⟨x, hx, _⟩ := (endSlot_claims s m r).slots n y e
          rw [State.slot] at h
          rw [h] at hx
          exact absurd hx (by simp)
      · exact h
  have reach : ∀ (l : List SlotNo) (s : State), n ∈ l →
      (l.foldl (fun s n => if (s.slot n).any (fun _ => true) then s.endSlot n r else s) s).slot n = none := by
    intro l
    induction l with
    | nil => intro s h; exact absurd h (by simp)
    | cons m l ih =>
      intro s h
      rcases List.mem_cons.mp h with e | h
      · subst e
        refine keep l _ ?_
        dsimp only
        split
        · exact endSlot_free s n r
        · rename_i h
          cases e : s.slot n with
          | none => rfl
          | some y => exact absurd (by simp [e]) h
      · exact ih _ h
  exact reach _ s (mem_indices n)

theorem enterMode_broad (s : State) (m : HouseMode) : Broad s (s.enterMode m) := by
  unfold enterMode
  dsimp only
  split
  · rename_i h
    have k : ClaimsOnly { s with mode := some m } ({ s with mode := some m }.endSlots (fun _ => true) .modeLeft) :=
      endSlots_claims _ _ _
    exact
      { k.toBroad with
        slotsInShow := fun _ n hn => absurd (endSlots_all _ _ n) hn
        stock := fun x => k.stock (x.of_eq rfl rfl) }
  · rename_i h
    by_cases e : m = .inShow
    · exact .of_mode s m (.inl e)
    · have out : s.mode ≠ some .inShow := fun x => h (by simp [inShow, x, e])
      exact
        { Broad.refl s with
          slotsInShow := fun p n hn => absurd (p n hn) out
          stock := fun x => x.of_eq rfl rfl }

/-- An entry preset that was not refused is supplied (R150). -/
theorem entryPlacement_supplied {s : State} {r : ModeRecord} {d : PresetDef}
    (h : s.placeRefusal .mode r.entryRank (PresetDef.circuits d) false = none) : Supplied s (entryPlacement r d) :=
  .of_room (by
    have e : (entryPlacement r d).items.map PlaceItem.circuit = PresetDef.circuits d := by
      unfold entryPlacement recallItems PresetDef.circuits
      rw [List.map_map]
      rfl
    rw [e]
    exact room_of_refusal h) fun _ _ _ => by unfold entryPlacement; simp

theorem enterPreset_steady (s : State) (r : ModeRecord) : Steady s (s.enterPreset r).1 := by
  unfold enterPreset
  split
  · exact .refl s
  · split
    · exact .refl s
    · split
      · rename_i free
        dsimp only
        exact place_steady s _ (entryPlacement_supplied free)
      · dsimp only; exact countPoolRefusal_steady s

theorem enterSequence_steady (s : State) (r : ModeRecord) : Steady s (s.enterSequence r).1 := by
  unfold enterSequence
  split
  · exact .refl s
  · split
    · exact .refl s
    · dsimp only; exact stopPlayer_steady s _ _
  · split
    · exact .refl s
    · exact runRequest_steady s _ _ _ _

/-- All that a mode change can reach (R149). -/
theorem changeMode_broad (s : State) (m : HouseMode) (src : ModeSource) : Broad s (s.changeMode m src).1 := by
  unfold changeMode
  dsimp only
  exact ((((enterMode_broad s m).trans (releaseAll_steady _ _ _).toBroad).trans (enterPreset_steady _ _).toBroad).trans
    (enterSequence_steady _ _).toBroad).trans (announce_steady _ _).toBroad

/-- After a mode change the mode is the one entered (R149). -/
theorem changeMode_mode (s : State) (m : HouseMode) (src : ModeSource) : (s.changeMode m src).1.mode = some m := by
  have h : (s.enterMode m).mode = some m := by
    unfold enterMode
    dsimp only
    split
    · exact (endSlots_claims _ _ _).mode
    · rfl
  unfold changeMode
  dsimp only
  rw [(announce_steady _ _).mode, (enterSequence_steady _ _).mode, (enterPreset_steady _ _).mode,
    (releaseAll_steady _ _ _).mode, h]

theorem requestMode_broad (s : State) (m : HouseMode) (src : ModeSource) : Broad s (s.requestMode m src).1 := by
  unfold requestMode
  split
  · exact .refl s
  · exact changeMode_broad s m src

theorem dropForPool_broad (s : State) (k : KeyAddr) (cs : List Circuit) : Broad s (s.dropForPool k cs) := by
  unfold dropForPool
  exact ((countPoolRefusal_steady s).toBroad.trans (blink_broad _ k)).trans (announce_steady _ _).toBroad

theorem deferOrDrop_broad (s : State) (d : Deferred) : Broad s (s.deferOrDrop d) := by
  unfold deferOrDrop
  split
  · rename_i h; exact (defer_steady s d h).toBroad
  · exact (countDropped_steady s).toBroad.trans (blink_broad _ _)

theorem fieldAction_broad (s : State) (w : FieldWork) (d : Deferred) : Broad s (s.fieldAction w d) := by
  unfold fieldAction
  split
  · rename_i free
    exact (doFieldWork_claims s w free).toBroad
  · exact deferOrDrop_broad s d
  · exact dropForPool_broad s _ _

theorem raiseAction_broad (s : State) (k : KeyAddr) (way : RaiseWay) (r : Rank) (g : List Circuit) :
    Broad s (s.raiseAction k way r g) := by
  unfold raiseAction
  dsimp only
  split
  · exact .refl s
  · split
    · rename_i free
      exact (raiseOn_claims s k way r _ free).toBroad
    · exact blink_broad s k
    · exact dropForPool_broad s k _

theorem seqRunAction_broad (s : State) (k : KeyAddr) (n : PlayerNo) (q : SequenceNo) (m : RunMode) :
    Broad s (s.seqRunAction k n q m) := by
  unfold seqRunAction
  split
  · exact blink_broad s k
  · dsimp only
    split
    · exact (runRequest_steady s n q m _).toBroad.trans (blink_broad _ k)
    · exact (runRequest_steady s n q m _).toBroad

theorem doBinding_broad (s : State) (b : Binding) : Broad s (s.doBinding b) := by
  unfold doBinding
  split
  all_goals first
    | exact seqRunAction_broad s _ _ _ _
    | exact (offRequest_steady s _ _).toBroad
    | exact requestMode_broad s _ _
    | (split
       · exact blink_broad s _
       · first
         | exact fieldAction_broad s _ _
         | exact raiseAction_broad s _ _ _ _)

theorem carryOut_broad (s : State) (b : Binding) : Broad s (s.carryOut b) :=
  (doBinding_broad s b).trans (replay_steady _).toBroad

/-- All that an edge can reach (R92). -/
theorem takeEdge_broad (s : State) (k : KeyAddr) (e : Edge) : Broad s (s.takeEdge k e) := by
  unfold takeEdge
  dsimp only
  refine Broad.trans ?_ (foldl_broad _ carryOut_broad _ _)
  split
  · exact ((announce_claims s _).trans (stopRaise_claims _ k)).toBroad.trans (replay_steady _).toBroad
  · exact (announce_steady s _).toBroad

theorem lockOut_broad (s : State) (k : KeyAddr) (d : Bool) : Broad s (s.lockOut k d) := by
  unfold lockOut
  dsimp only
  exact ((((onKey_broad s k _).trans (stopRaise_claims _ k).toBroad).trans (countLockout_steady _).toBroad).trans
    (announce_steady _ _).toBroad).trans (replay_steady _).toBroad

theorem acceptChange_broad (s : State) (k : KeyAddr) (d : Bool) (w : Nat × Nat) : Broad s (s.acceptChange k d w) := by
  unfold acceptChange
  split
  · exact (onKey_broad s k _).trans (takeEdge_broad _ k _)
  · dsimp only
    split
    · exact ((onKey_broad s k _).trans (takeEdge_broad _ k _)).trans (takeEdge_broad _ k _)
    · exact (onKey_broad s k _).trans (takeEdge_broad _ k _)
    · exact onKey_broad s k _

theorem takeKey_broad (s : State) (k : KeyAddr) (d : Bool) : Broad s (s.takeKey k d) := by
  unfold takeKey
  dsimp only
  split
  · exact .refl s
  · split
    · exact onKey_broad s k _
    · split
      · exact lockOut_broad s k d
      · exact acceptChange_broad s k d _

theorem loseStation_broad (s : State) (l : LoopNo) (n : StationNo) : Broad s (s.loseStation l n) := by
  unfold loseStation
  dsimp only
  exact (((onStation_broad s l n _).trans (foldl_claims _ stopRaise_claims _ _).toBroad).trans
    (announce_steady _ _).toBroad).trans (replay_steady _).toBroad

theorem regainStation_broad (s : State) (l : LoopNo) (n : StationNo) (keys : Byte) :
    Broad s (s.regainStation l n keys) := by
  unfold regainStation
  dsimp only
  exact ((onStation_broad s l n _).trans (foldl_broad _ (fun s k => onKey_broad s k _) _ _)).trans
    (announce_steady _ _).toBroad

theorem goodReply_broad (s : State) (l : LoopNo) (n : StationNo) (keys : Byte) : Broad s (s.goodReply l n keys) := by
  unfold goodReply
  split
  · exact (onStation_broad s l n _).trans (foldl_broad _ (fun s k => takeKey_broad s k _) _ _)
  · split
    · exact onStation_broad s l n _
    · exact regainStation_broad s l n keys

theorem missReply_broad (s : State) (l : LoopNo) (n : StationNo) : Broad s (s.missReply l n) := by
  have h : Broad s (s.onLoop l fun x => { x with pollMisses := bump x.pollMisses }) :=
    onLoop_broad s l _ fun b => ⟨bump_le _, b.2⟩
  unfold missReply
  dsimp only
  split
  · split
    · exact h.trans (onStation_broad _ l n _)
    · exact h.trans (loseStation_broad _ l n)
  · exact h.trans (onStation_broad _ l n _)

/-- All that a REPORT can reach (R69). -/
theorem takeReport_broad (s : State) (l : LoopNo) (n : StationNo) (bytes : List Byte) :
    Broad s (s.takeReport l n bytes) := by
  unfold takeReport
  split
  · exact missReply_broad s l n
  · exact (onLoop_broad s l _ fun b => ⟨b.1, bump_le _⟩).trans (missReply_broad _ l n)
  · exact goodReply_broad s l n _

theorem closeExchange_broad (s : State) (l : LoopNo) : Broad s (s.closeExchange l) := onLoop_broad s l _ id

end State
end Sys2Proof.Machine
end

