-- ==== Sys2Proof/Laws/Ports.lean ====
section
/-! SUPPORT. How a request of a ready port is served: one lemma for the requests taken, one for the malformed, and the state a plain reply leaves. -/

namespace Sys2Proof.Machine

namespace State

@[simp] theorem onPort_onPort (s : State) (p : Port) (f g : PortState → PortState) :
    (s.onPort p f).onPort p g = s.onPort p fun x => g (f x) := by
  simp [onPort]

@[simp] theorem port_onPort (s : State) (p : Port) (f : PortState → PortState) : (s.onPort p f).port p = f (s.port p) := by
  simp [onPort, port]

theorem port_onPort_of_ne (s : State) {p q : Port} (f : PortState → PortState) (h : q.ix ≠ p.ix) :
    (s.onPort p f).port q = s.port q := by
  simp [onPort, port, Tab.get_modify_of_ne _ _ h]

theorem onPort_congr (s : State) (p : Port) {f g : PortState → PortState} (h : f (s.port p) = g (s.port p)) :
    s.onPort p f = s.onPort p g := by
  unfold onPort Tab.modify
  rw [show f (s.ports.get p.ix) = g (s.ports.get p.ix) from h]

@[simp] theorem respond_replayOwed (s : State) (p : Port) (kind tag : Byte) (status : Status) (body : ReplyBody) :
    (s.respond p kind tag status body).replayOwed = s.replayOwed := rfl

/-- A reply after the lease was started anew is the plain answer. -/
theorem respond_refreshLease (s : State) (p : Port) (kind tag : Byte) (status : Status) (body : ReplyBody) :
    (s.refreshLease p).respond p kind tag status body = answered s p kind tag status body := by
  unfold respond refreshLease answered
  rw [onPort_onPort]
  rfl

/-- The state a BUSY reply leaves (R185). -/
theorem answerBusy_refreshLease (s : State) (p : Port) (kind tag : Byte) :
    (s.refreshLease p).answerBusy p kind tag = s.onPort p fun x =>
      { x with
        link := .online (s.now + (s.role p).lease * Config.second)
        orphanEnd := none
        busyReplies := bump x.busyReplies
        lastReply := some (replyFrom s p kind tag .busy .empty) } := by
  unfold answerBusy respond refreshLease
  rw [onPort_onPort, onPort_onPort]
  rfl

/-- A reply always stands in the port's record with the header of the state that gave it. -/
theorem replied_respond (s : State) (p : Port) (kind tag : Byte) (status : Status) (body : ReplyBody) :
    Replied (s.respond p kind tag status body) p kind tag status body := by
  unfold Replied replyFrom respond
  simp

theorem busy_refreshLease (s : State) (p q : Port) : (s.refreshLease p).busy q = s.busy q := rfl

end State

open State

/-- A ready port's frame is admitted with its fields (R185). -/
theorem receive_ready {α : Type} {s : State} {p : Port} (kind tag : Byte) {f : α} {formed : α → Bool}
    (h : Ready s p) (hf : formed f = true) :
    s.receive p kind tag (.fields f) formed = .taken (s.refreshLease p) f := by
  unfold receive judgeRequest
  simp [h.running, h.listening, busy_refreshLease, h.free, hf]

/-- A ready port takes a well-formed request (R185). -/
theorem serve_ready {α : Type} {s : State} {p : Port} (kind tag : Byte) {f : α} {formed : α → Bool}
    (answer : State → α → Answer) (h : Ready s p) (hf : formed f = true) :
    serve s p kind tag (.fields f) formed answer = (answer (s.refreshLease p) f).reply p kind tag := by
  unfold serve receive judgeRequest
  simp [h.running, h.listening, busy_refreshLease, h.free, hf]

/-- A ready port answers a malformed payload with BAD_REQUEST (R185). -/
theorem serve_malformed {α : Type} {s : State} {p : Port} (kind tag : Byte) {formed : α → Bool}
    (answer : State → α → Answer) (h : Ready s p) :
    serve s p kind tag .malformed formed answer = answered s p kind tag .badRequest .empty := by
  unfold serve receive judgeRequest
  simp [h.running, h.listening, busy_refreshLease, h.free, respond_refreshLease]

/-- A ready port answers fields out of range with BAD_REQUEST (R185). -/
theorem serve_unformed {α : Type} {s : State} {p : Port} (kind tag : Byte) {f : α} {formed : α → Bool}
    (answer : State → α → Answer) (h : Ready s p) (hf : formed f = false) :
    serve s p kind tag (.fields f) formed answer = answered s p kind tag .badRequest .empty := by
  unfold serve receive judgeRequest
  simp [h.running, h.listening, busy_refreshLease, h.free, hf, respond_refreshLease]

/-- A port with a save in progress answers BUSY (R185). -/
theorem serve_busy {α : Type} {s : State} {p : Port} (kind tag : Byte) (payload : Payload α) (formed : α → Bool)
    (answer : State → α → Answer) (run : s.startup = .running) (lost : s.isLost p = false) (busy : s.busy p = true) :
    serve s p kind tag payload formed answer = (s.refreshLease p).answerBusy p kind tag := by
  unfold serve receive judgeRequest
  simp [run, lost, busy_refreshLease, busy]

/-- A LOST port ignores every frame (R180). -/
theorem serve_lost {α : Type} {s : State} {p : Port} (kind tag : Byte) (payload : Payload α) (formed : α → Bool)
    (answer : State → α → Answer) (run : s.startup = .running) (lost : s.isLost p = true) :
    serve s p kind tag payload formed answer = s := by
  unfold serve receive
  simp [run, lost]

/-- A part that has not taken the image takes no frame (R183). -/
theorem serve_reading {α : Type} {s : State} {p : Port} (kind tag : Byte) (payload : Payload α) (formed : α → Bool)
    (answer : State → α → Answer) (h : s.startup = .reading) : serve s p kind tag payload formed answer = s := by
  unfold serve receive
  simp [h]

/-- A part that judges and loads answers NOT_READY (R183). -/
theorem serve_judging {α : Type} {s : State} {p : Port} (kind tag : Byte) (payload : Payload α) (formed : α → Bool)
    (answer : State → α → Answer) {t : Tables} {v : Validity} (h : s.startup = .judging t v) :
    serve s p kind tag payload formed answer = s.respond p kind tag .notReady .empty := by
  unfold serve receive
  simp [h]

/-- A plain answer is sent after the replay it asks for. -/
theorem reply_plain (t : State) (status : Status) (p : Port) (kind tag : Byte) :
    (Answer.plain t status).reply p kind tag = t.replay.respond p kind tag status .empty := rfl

/-- An answer OK is sent after the replay it asks for. -/
theorem reply_ok (t : State) (body : ReplyBody) (p : Port) (kind tag : Byte) :
    (Answer.ok t body).reply p kind tag = t.replay.respond p kind tag .ok body := rfl

/-- The reply of an answer after which no replay is owed. -/
theorem reply_of_clear {a : Answer} (h : a.state.replayOwed = false) (p : Port) (kind tag : Byte) :
    a.reply p kind tag = a.state.respond p kind tag a.status (a.body a.state) := by
  unfold Answer.reply
  rw [replay_of_clear _ h]

end Sys2Proof.Machine
end

