-- ==== Sys2Proof/Laws/Events.lean ====
section
/-! SUPPORT. What an event of the Claim Table leaves behind: notices, trackers, slots and reports change claims in their links alone (`Relinked`), and each event's circuits are those its own changes and promotions gave, but for links. -/

namespace Sys2Proof.Machine

/-! ## Links -/

/-- `b` is linked as `a` is, or not at all. -/
def LinkLost (a b : Claim) : Prop := b.tracker = a.tracker ∨ b.tracker = none

theorem LinkLost.trans {a b c : Claim} (h : LinkLost a b) (k : LinkLost b c) : LinkLost a c := by
  unfold LinkLost at *
  rcases k with k | k
  · rw [k]; exact h
  · exact .inr k

/-- `y` is `x` but for tracker links that claims have lost. -/
structure LinksOnly (x y : CircuitState) : Prop where
  claims : y.claims.map Claim.unlinked = x.claims.map Claim.unlinked
  transition : y.transition = x.transition
  raisedBy : y.raisedBy = x.raisedBy
  relay : y.relay = x.relay
  links : List.Forall₂ LinkLost x.claims y.claims

theorem forall₂_trans {α : Type} {R : α → α → Prop} (t : ∀ a b c, R a b → R b c → R a c) :
    ∀ {l m n : List α}, List.Forall₂ R l m → List.Forall₂ R m n → List.Forall₂ R l n
  | _, _, _, .nil, .nil => .nil
  | _, _, _, .cons h hs, .cons k ks => .cons (t _ _ _ h k) (forall₂_trans t hs ks)

theorem LinksOnly.refl (x : CircuitState) : LinksOnly x x :=
  ⟨rfl, rfl, rfl, rfl, List.forall₂_same.mpr fun _ _ => .inl rfl⟩

theorem LinksOnly.trans {x y z : CircuitState} (a : LinksOnly x y) (b : LinksOnly y z) : LinksOnly x z :=
  ⟨b.claims.trans a.claims, b.transition.trans a.transition, b.raisedBy.trans a.raisedBy, b.relay.trans a.relay,
    forall₂_trans (R := LinkLost) (fun _ _ _ h k => h.trans k) a.links b.links⟩

/-- Every circuit of `t` is that of `s` but for links. -/
def Relinked (s t : State) : Prop := ∀ c, LinksOnly (s.circuit c) (t.circuit c)

theorem Relinked.refl (s : State) : Relinked s s := fun _ => .refl _

theorem Relinked.trans {a b c : State} (h : Relinked a b) (k : Relinked b c) : Relinked a c :=
  fun i => (h i).trans (k i)

theorem Relinked.of_eq {s t : State} (h : t.circuits = s.circuits) : Relinked s t := fun c => by
  unfold State.circuit; rw [h]; exact .refl _

namespace State

theorem notify_relinked (s : State) (p : Port) (n : Notice) : Relinked s (s.notify p n) := .of_eq rfl

theorem announce_relinked (s : State) (n : Notice) : Relinked s (s.announce n) := .of_eq rfl

theorem unlink_unlinked (l : TrackerLink) (c : Claim) : (c.unlink l).unlinked = c.unlinked := by
  unfold Claim.unlink; split <;> rfl

theorem unlink_relinked (s : State) (l : TrackerLink) : Relinked s (s.onClaims (Claim.unlink l)) := fun c => by
  unfold onClaims circuit
  rw [Tab.get_each]
  refine ⟨?_, rfl, rfl, rfl, ?_⟩
  · rw [List.map_map]
    exact List.map_congr_left fun x _ => unlink_unlinked l x
  · refine List.forall₂_map_right_iff.mpr (List.forall₂_same.mpr fun x _ => ?_)
    unfold LinkLost Claim.unlink
    split
    · exact .inr rfl
    · exact .inl rfl

theorem endSlot_relinked (s : State) (n : SlotNo) (r : EndReason) : Relinked s (s.endSlot n r) := by
  unfold endSlot
  split
  · exact .refl s
  · exact (unlink_relinked s _).trans (.of_eq rfl)

theorem endSlots_relinked (s : State) (which : Slot → Bool) (r : EndReason) : Relinked s (s.endSlots which r) :=
  foldl_keeps Relinked .refl (fun _ _ _ => .trans) _ (fun s n => by
    split
    · exact endSlot_relinked s n r
    · exact .refl s) _ s

theorem foldl_notify_relinked {β : Type} (p : β → Port) (n : β → Notice) (l : List β) (s : State) :
    Relinked s (l.foldl (fun s b => s.notify (p b) (n b)) s) :=
  foldl_keeps Relinked .refl (fun _ _ _ => .trans) _ (fun s b => notify_relinked s (p b) (n b)) l s

theorem freeZeroTrackers_relinked (s : State) : Relinked s s.freeZeroTrackers := by
  unfold freeZeroTrackers
  exact (foldl_notify_relinked (fun t : Tracker => t.port) (fun t => .fadeDone t.tag) _ s).trans (.of_eq rfl)

theorem reportRecoveries_relinked (s : State) (cs : List Circuit) : Relinked s (s.reportRecoveries cs) := by
  unfold reportRecoveries
  split
  · dsimp only
    split
    · exact .of_eq rfl
    · exact .of_eq rfl
  · exact .refl s

theorem settle_relinked (s : State) (drops : List TrackerLink) (reports : List Circuit) :
    Relinked s (s.settle drops reports) := by
  unfold settle endDoneSlots
  exact ((Relinked.of_eq (t := s.decrement drops) rfl).trans (freeZeroTrackers_relinked _)).trans
    ((reportRecoveries_relinked _ _).trans (endSlots_relinked _ _ _))

theorem commandNotices_relinked (s : State) (t : Standings) (actor : Option Owner) :
    Relinked s (s.commandNotices t actor) := by
  have pre : ∀ p (s : State) o, Relinked s (s.notifyPreempted t actor p o) := fun p s o => by
    unfold notifyPreempted; dsimp only; split
    · exact notify_relinked s p _
    · exact .refl s
  have res : ∀ p (s : State), Relinked s (s.notifyRestored t actor p) := fun p s => by
    unfold notifyRestored; dsimp only; split
    · exact notify_relinked s p _
    · exact .refl s
  exact foldl_keeps Relinked .refl (fun _ _ _ => .trans) _
    (fun s p => (foldl_keeps Relinked .refl (fun _ _ _ => .trans) _ (pre p) _ s).trans (res p _)) _ s

theorem setTracker_relinked (s : State) (use : TrackerUse) (n : Nat) : Relinked s (s.setTracker use n) := by
  cases use <;> exact .of_eq rfl

/-! ## Which links are lost -/

end State

/-- `b` is `a`, or `a` without its link to a slot that is FREE in `t` (R116). -/
def SlotLost (t : State) (a b : Claim) : Prop :=
  b = a ∨ b = a.unlinked ∧ ∃ n, a.tracker = some (.slot n) ∧ t.slot n = none

/-- Claims of `t` are those of `s` but for links to slots that have ended, and a FREE slot is FREE still. -/
structure SlotLinks (s t : State) : Prop where
  claims : ∀ c, List.Forall₂ (SlotLost t) (s.claims c) (t.claims c)
  free : ∀ n, s.slot n = none → t.slot n = none

theorem forall₂_mem {α β : Type} {R : α → β → Prop} {x : α} :
    ∀ {l : List α} {m : List β}, List.Forall₂ R l m → x ∈ l → ∃ y ∈ m, R x y
  | _, _, .nil, h => absurd h (by simp)
  | _, _, .cons a as, h => by
    rcases List.mem_cons.mp h with rfl | h
    · exact ⟨_, List.mem_cons_self .., a⟩
    · obtain ⟨y, hy, e⟩ := forall₂_mem as h
      exact ⟨y, List.mem_cons_of_mem _ hy, e⟩

namespace SlotLinks

theorem of_eq {s t : State} (h : t.circuits = s.circuits) (k : ∀ n, s.slot n = none → t.slot n = none) : SlotLinks s t :=
  ⟨fun c => by
    have : t.claims c = s.claims c := by unfold State.claims State.circuit; rw [h]
    rw [this]; exact List.forall₂_same.mpr fun _ _ => .inl rfl, k⟩

theorem refl (s : State) : SlotLinks s s := of_eq rfl fun _ h => h

theorem trans {a b c : State} (h : SlotLinks a b) (k : SlotLinks b c) : SlotLinks a c where
  free n e := k.free n (h.free n e)
  claims i := by
    have lift : List.Forall₂ (SlotLost c) (a.claims i) (b.claims i) :=
      (h.claims i).imp fun x y e => by
        rcases e with e | ⟨e, n, l, f⟩
        · exact .inl e
        · exact .inr ⟨e, n, l, k.free n f⟩
    refine forall₂_trans (R := SlotLost c) (fun x y z e f => ?_) lift (k.claims i)
    rcases e with rfl | ⟨rfl, n, l, g⟩
    · exact f
    · rcases f with rfl | ⟨rfl, m, l', _⟩
      · exact .inr ⟨rfl, n, l, g⟩
      · simp [Claim.unlinked] at l'

theorem mem {s t : State} (h : SlotLinks s t) {c : Circuit} {x : Claim} (m : x ∈ s.claims c) :
    ∃ y ∈ t.claims c, SlotLost t x y := forall₂_mem (h.claims c) m

end SlotLinks

namespace State

theorem slot_of_slots {s t : State} (h : t.slots = s.slots) (n : SlotNo) : t.slot n = s.slot n := by
  unfold slot; rw [h]

theorem slot_setSlot (s : State) (n m : SlotNo) (x : Option Slot) :
    (s.setSlot n x).slot m = if m = n then x else s.slot m := Tab.get_set s.slots n m x

/-- What the end of a slot in use leaves of circuits, slots, trackers and ports (R116). -/
theorem endSlot_some {s : State} {n : SlotNo} {k : Slot} (h : s.slot n = some k) (r : EndReason) :
    (s.endSlot n r).circuits = (s.onClaims (Claim.unlink (.slot n))).circuits
    ∧ (s.endSlot n r).slots = s.slots.set n none ∧ (s.endSlot n r).trackers = s.trackers
    ∧ (s.endSlot n r).ports = (s.notify k.owner (.standbyEnd n r)).ports := by
  unfold endSlot
  rw [h]
  exact ⟨rfl, rfl, rfl, rfl⟩

theorem claims_onClaims (s : State) (f : Claim → Claim) (c : Circuit) : (s.onClaims f).claims c = (s.claims c).map f := by
  unfold onClaims State.claims circuit
  rw [Tab.get_each]

theorem claims_of_circuits {s t : State} (h : t.circuits = s.circuits) (c : Circuit) : t.claims c = s.claims c := by
  unfold State.claims circuit; rw [h]

theorem endSlot_links (s : State) (n : SlotNo) (r : EndReason) : SlotLinks s (s.endSlot n r) := by
  cases h : s.slot n with
  | none =>
    have : s.endSlot n r = s := by unfold endSlot; rw [h]
    rw [this]; exact .refl s
  | some k =>
    obtain ⟨hc, hs, _, _⟩ := endSlot_some h r
    have slots : ∀ m, (s.endSlot n r).slot m = if m = n then none else s.slot m := fun m => by
      unfold slot; rw [hs]; exact Tab.get_set s.slots n m none
    refine ⟨fun c => ?_, fun m e => by rw [slots]; split <;> [rfl; exact e]⟩
    rw [claims_of_circuits hc, claims_onClaims]
    refine List.forall₂_map_right_iff.mpr (List.forall₂_same.mpr fun x _ => ?_)
    unfold Claim.unlink
    split
    · rename_i e
      exact .inr ⟨rfl, n, e, by rw [slots]; simp⟩
    · exact .inl rfl

theorem endSlots_links (s : State) (which : Slot → Bool) (r : EndReason) : SlotLinks s (s.endSlots which r) :=
  foldl_keeps SlotLinks .refl (fun _ _ _ => .trans) _ (fun s n => by
    split
    · exact endSlot_links s n r
    · exact .refl s) _ s

theorem freeZeroTrackers_links (s : State) : SlotLinks s s.freeZeroTrackers := by
  unfold freeZeroTrackers
  have : ∀ (l : List Tracker) (s : State),
      (l.foldl (fun s t => s.notify t.port (.fadeDone t.tag)) s).circuits = s.circuits
      ∧ (l.foldl (fun s t => s.notify t.port (.fadeDone t.tag)) s).slots = s.slots := fun l => by
    induction l with
    | nil => exact fun _ => ⟨rfl, rfl⟩
    | cons t l ih => exact fun s => ih (s.notify t.port (.fadeDone t.tag))
  exact .of_eq (this _ s).1 fun n h => (slot_of_slots (t := (s.trackers.filter fun t => t.count == 0).foldl
    (fun s t => s.notify t.port (.fadeDone t.tag)) s) (this _ s).2 n).trans h

theorem reportRecoveries_links (s : State) (cs : List Circuit) : SlotLinks s (s.reportRecoveries cs) := by
  unfold reportRecoveries
  split
  · dsimp only
    split
    · exact .of_eq rfl fun _ h => h
    · exact .of_eq rfl fun _ h => h
  · exact .refl s

theorem decrement_links (s : State) (drops : List TrackerLink) : SlotLinks s (s.decrement drops) :=
  .of_eq rfl fun n h => by
    have e : (s.decrement drops).slot n = (s.slot n).map (Slot.decrement (drops.count (.slot n))) := Tab.get_build _ n
    rw [e, h]
    rfl

theorem settle_links (s : State) (drops : List TrackerLink) (reports : List Circuit) :
    SlotLinks s (s.settle drops reports) := by
  unfold settle endDoneSlots
  exact ((decrement_links s drops).trans (freeZeroTrackers_links _)).trans
    ((reportRecoveries_links _ _).trans (endSlots_links _ _ _))

/-- The notices of command change neither circuits nor slots nor trackers. -/
theorem commandNotices_same (s : State) (t : Standings) (actor : Option Owner) :
    (s.commandNotices t actor).circuits = s.circuits ∧ (s.commandNotices t actor).slots = s.slots
      ∧ (s.commandNotices t actor).trackers = s.trackers ∧ (s.commandNotices t actor).tables = s.tables := by
  let R := fun a b : State =>
    b.circuits = a.circuits ∧ b.slots = a.slots ∧ b.trackers = a.trackers ∧ b.tables = a.tables
  have refl : ∀ a, R a a := fun a => ⟨rfl, rfl, rfl, rfl⟩
  have trans : ∀ a b c, R a b → R b c → R a c := fun a b c h k =>
    ⟨k.1.trans h.1, k.2.1.trans h.2.1, k.2.2.1.trans h.2.2.1, k.2.2.2.trans h.2.2.2⟩
  have pre : ∀ p (s : State) o, R s (s.notifyPreempted t actor p o) := fun p s o => by
    unfold notifyPreempted; dsimp only; split <;> exact ⟨rfl, rfl, rfl, rfl⟩
  have res : ∀ p (s : State), R s (s.notifyRestored t actor p) := fun p s => by
    unfold notifyRestored; dsimp only; split <;> exact ⟨rfl, rfl, rfl, rfl⟩
  exact foldl_keeps R refl trans _
    (fun s p => trans _ _ _ (foldl_keeps R refl trans _ (pre p) _ s) (res p _)) _ s

theorem commandNotices_links (s : State) (t : Standings) (actor : Option Owner) :
    SlotLinks s (s.commandNotices t actor) :=
  .of_eq (commandNotices_same s t actor).1 fun n h =>
    (slot_of_slots (commandNotices_same s t actor).2.1 n).trans h

theorem setTracker_links (s : State) (use : TrackerUse) (m : Nat) : SlotLinks s (s.setTracker use m) := by
  cases use with
  | untracked => exact .refl s
  | pool i p t => exact .of_eq rfl fun _ h => h
  | slot k =>
    refine .of_eq rfl fun n h => ?_
    unfold setTracker
    rw [slot_setSlot]
    split
    · rename_i e; rw [← e, h]; rfl
    · exact h

/-- The circuits after a placement's own changes and promotions, before links are settled. -/
def placeAfter (s : State) (pl : Placement) : Tab CircuitState 192 :=
  s.promoteWhere (s.placeMid pl) (pl.items.map PlaceItem.circuit).contains

/-- A placement with its claims changed and its tracker set, before its notices. -/
def placeStart (s : State) (pl : Placement) : State :=
  { s with circuits := s.placeAfter pl, event := s.event + 1 }.setTracker pl.tracker
    ((pl.items.map PlaceItem.circuit).filter fun c =>
      ((claimOf pl.owner ((s.placeMid pl).get c).claims).bind Claim.tracker).isSome).length

/-- The links a placement takes away. -/
def placeDrops (s : State) (pl : Placement) : List TrackerLink :=
  s.linksOf pl.owner (pl.items.map PlaceItem.circuit)
    ++ s.promotionDropsWhere (s.placeMid pl) (pl.items.map PlaceItem.circuit).contains

theorem place_eq (s : State) (pl : Placement) : s.place pl = ((s.placeStart pl).commandNotices
    { before := s.circuits, mid := s.placeMid pl, after := s.placeAfter pl } (some pl.owner)).settle
      (s.placeDrops pl) [] := rfl

theorem placeStart_circuits (s : State) (pl : Placement) : (s.placeStart pl).circuits = s.placeAfter pl := by
  unfold placeStart; cases pl.tracker <;> rfl

theorem place_links (s : State) (pl : Placement) : SlotLinks (s.placeStart pl) (s.place pl) := by
  rw [place_eq]
  exact (commandNotices_links _ _ _).trans (settle_links _ _ _)

/-! ## The circuits an event leaves -/

/-- The circuit a placement leaves, but for links: its own change, then the promotions (R13 to R17). -/
theorem place_circuit (s : State) (pl : Placement) (c : Circuit) :
    LinksOnly
      (match pl.on c with
        | none => s.circuit c
        | some it => ((s.circuit c).placed s.tables.ranks (s.level c) pl.owner pl.wait pl.tracker.link s.event it).promote
            s.tables.ranks (s.record c) s.emergency.state s.event)
      ((s.place pl).circuit c) := by
  unfold place
  dsimp only
  refine LinksOnly.trans ?_ ((((setTracker_relinked _ _ _).trans (commandNotices_relinked _ _ _)).trans
    (settle_relinked _ _ _)) c)
  have mem : (pl.items.map PlaceItem.circuit).contains c = (pl.on c).isSome := by
    unfold Placement.on
    rw [Bool.eq_iff_iff, List.find?_isSome]
    simp [List.mem_map]
  unfold circuit promoteWhere placeMid
  simp only [Tab.get_build, mem]
  cases pl.on c <;> exact .refl _

/-- The circuit a release leaves, but for links (R19). -/
theorem release_circuit (s : State) (o : Owner) (cs : List Circuit) (time : Nat) (c : Circuit) :
    LinksOnly
      (if cs.contains c then
        ((s.circuit c).released s.tables.ranks (s.level c) (s.forced c) o time).promote s.tables.ranks (s.record c)
          s.emergency.state s.event
      else s.circuit c)
      ((s.release o cs time).circuit c) := by
  unfold release
  dsimp only
  refine LinksOnly.trans ?_ (((commandNotices_relinked _ _ _).trans (settle_relinked _ _ _)) c)
  unfold circuit promoteWhere
  simp only [Tab.get_build]
  split <;> exact .refl _

/-- The circuit the completion of fades leaves, but for links (R34). -/
theorem completeFades_circuit (s : State) (n : Nat) (c : Circuit) :
    LinksOnly
      (if s.completing n c then
        ((s.circuit c).complete n).promote s.tables.ranks (s.record c) s.emergency.state s.event
      else (s.circuit c).complete n)
      ((s.completeFades n).circuit c) := by
  unfold completeFades
  dsimp only
  refine LinksOnly.trans ?_ (((commandNotices_relinked _ _ _).trans (settle_relinked _ _ _)) c)
  unfold circuit promoteWhere
  simp only [Tab.get_build, Tab.get_each]
  exact .refl _

/-- The circuit a write of the rank table leaves, but for links (R3). -/
theorem setRanks_circuit (s : State) (modes : Tab MergeMode 8) (c : Circuit) :
    LinksOnly ((s.circuit c).promote modes (s.record c) s.emergency.state s.event) ((s.setRanks modes).circuit c) := by
  unfold setRanks
  dsimp only
  refine LinksOnly.trans ?_ ((settle_relinked _ _ _) c)
  unfold circuit promoteWhere
  simp only [Tab.get_build]
  exact .refl _

end State

/-! ## What arbitration reads does not depend on links -/

theorem isEffective_unlinked (x : Claim) : x.unlinked.isEffective = x.isEffective := rfl
theorem level_unlinked (x : Claim) : x.unlinked.level = x.level := rfl

theorem effectiveAt_unlinked (l : List Claim) (r : Rank) :
    effectiveAt (l.map Claim.unlinked) r = (effectiveAt l r).map Claim.unlinked := by
  unfold effectiveAt
  rw [List.filter_map]
  rfl

theorem topRank_unlinked (l : List Claim) : topRank (l.map Claim.unlinked) = topRank l := by
  unfold topRank
  rw [List.filter_map, List.map_map]
  rfl

theorem commanding_unlinked (modes : Tab MergeMode 8) (l : List Claim) :
    commanding modes (l.map Claim.unlinked) = (commanding modes l).map Claim.unlinked := by
  unfold commanding
  rw [topRank_unlinked]
  split
  · rfl
  · split
    · rw [effectiveAt_unlinked, List.map_take]
    · rw [effectiveAt_unlinked]

theorem inCommandOf_unlinked (modes : Tab MergeMode 8) (l : List Claim) (o : Owner) :
    inCommandOf modes (l.map Claim.unlinked) o = inCommandOf modes l o := by
  unfold inCommandOf
  rw [commanding_unlinked, List.any_map]
  rfl

theorem commandLevelOf_unlinked (modes : Tab MergeMode 8) (base : Nat) (l : List Claim) :
    commandLevelOf modes base (l.map Claim.unlinked) = commandLevelOf modes base l := by
  unfold commandLevelOf
  rw [commanding_unlinked, List.map_map]
  rfl

/-- Circuits that differ in links alone stand at one level. -/
theorem LinksOnly.level {x y : CircuitState} (h : LinksOnly x y) (modes : Tab MergeMode 8) (r : CircuitRecord)
    (e : EmergencyState) : y.levelUnder modes r e = x.levelUnder modes r e := by
  have c : commandLevelOf modes r.base y.claims = commandLevelOf modes r.base x.claims := by
    rw [← commandLevelOf_unlinked modes r.base y.claims, h.claims, commandLevelOf_unlinked]
  unfold CircuitState.levelUnder
  rw [h.transition, c]

theorem LinksOnly.inCommand {x y : CircuitState} (h : LinksOnly x y) (modes : Tab MergeMode 8) (o : Owner) :
    inCommandOf modes y.claims o = inCommandOf modes x.claims o := by
  rw [← inCommandOf_unlinked modes y.claims, h.claims, inCommandOf_unlinked]

/-- Owner and wish of each claim, in list order, are the same where only links differ. -/
theorem LinksOnly.wishes {x y : CircuitState} (h : LinksOnly x y) :
    y.claims.map (fun c => (c.owner, c.wish)) = x.claims.map (fun c => (c.owner, c.wish)) := by
  have k := congrArg (List.map fun c : Claim => (c.owner, c.wish)) h.claims
  rw [List.map_map, List.map_map] at k
  exact k

theorem claimOf_unlinked (o : Owner) (l : List Claim) :
    claimOf o (l.map Claim.unlinked) = (claimOf o l).map Claim.unlinked := by
  unfold claimOf
  rw [List.find?_map]
  rfl

theorem LinksOnly.claimOf {x y : CircuitState} (h : LinksOnly x y) (o : Owner) :
    (Machine.claimOf o y.claims).map Claim.unlinked = (Machine.claimOf o x.claims).map Claim.unlinked := by
  rw [← claimOf_unlinked, h.claims, claimOf_unlinked]

end Sys2Proof.Machine
end

