-- ==== Sys2Proof/Laws/Placement.lean ====
section
/-! SUPPORT. What a placement and a release do, said once: a claim that enters its rank at the front is in command exactly where no EFFECTIVE claim of another owner stands above it, and the claims an event leaves are those of `PlacedAs` and `ReleasedAs`. -/

namespace Sys2Proof.Machine

/-! ## Command of a claim that enters its rank at the front -/

theorem topRank_eq_some {l : List Claim} {r : Rank} : topRank l = some r ↔
    (∃ x ∈ l, x.isEffective = true ∧ x.rank = r) ∧ ∀ x ∈ l, x.isEffective = true → x.rank ≤ r := by
  unfold topRank
  rw [List.max?_eq_some_iff]
  simp only [List.mem_map, List.mem_filter]
  constructor
  · rintro ⟨⟨x, hx, e⟩, h⟩
    exact ⟨⟨x, hx.1, hx.2, e⟩, fun y hy k => h _ ⟨y, ⟨hy, k⟩, rfl⟩⟩
  · rintro ⟨⟨x, hx, k, e⟩, h⟩
    exact ⟨⟨x, ⟨hx, k⟩, e⟩, by rintro _ ⟨y, hy, rfl⟩; exact h y hy.1 hy.2⟩

theorem commanding_mem {modes : Tab MergeMode 8} {l : List Claim} {x : Claim} (h : x ∈ commanding modes l) :
    x ∈ l ∧ x.isEffective = true ∧ topRank l = some x.rank := by
  unfold commanding at h
  split at h
  · simp at h
  · rename_i r e
    have m : x ∈ effectiveAt l r := by
      split at h
      · exact List.mem_of_mem_take h
      · exact h
    unfold effectiveAt at m
    rw [List.mem_filter] at m
    simp only [Bool.and_eq_true, beq_iff_eq] at m
    exact ⟨m.1, m.2.1, by rw [m.2.2]; exact e⟩

/-- An EFFECTIVE claim that enters its rank at the front is in command exactly where no other EFFECTIVE claim stands
above it (R7, R8). -/
theorem inCommand_enterRank (modes : Tab MergeMode 8) (x : Claim) (l : List Claim) (hx : x.isEffective = true)
    (ho : ∀ y ∈ l, y.owner ≠ x.owner) :
    inCommandOf modes (enterRank x l) x.owner = true ↔ ∀ y ∈ l, y.isEffective = true → y.rank ≤ x.rank := by
  unfold inCommandOf
  rw [List.any_eq_true]
  constructor
  · rintro ⟨z, hz, e⟩ y hy ye
    obtain ⟨zm, _, top⟩ := commanding_mem hz
    have zx : z = x := by
      rcases mem_enterRank.mp zm with h | h
      · exact h
      · exact absurd (beq_iff_eq.mp e) (ho z h)
    rw [topRank_eq_some] at top
    have := top.2 y (mem_enterRank.mpr (.inr hy)) ye
    rwa [zx] at this
  · intro h
    refine ⟨x, ?_, by simp⟩
    have top : topRank (enterRank x l) = some x.rank := by
      rw [topRank_eq_some]
      refine ⟨⟨x, mem_enterRank.mpr (.inl rfl), hx, rfl⟩, fun y hy ye => ?_⟩
      rcases mem_enterRank.mp hy with rfl | hy
      · exact le_refl _
      · exact h y hy ye
    have front : ∃ t, effectiveAt (enterRank x l) x.rank = x :: t := by
      unfold effectiveAt enterRank
      rw [List.filter_append, List.filter_cons_of_pos (by simp [hx])]
      have : (l.takeWhile fun y => decide (x.rank < y.rank)).filter (fun c => c.isEffective && c.rank == x.rank) = [] := by
        rw [List.filter_eq_nil_iff]
        intro y hy
        have := List.mem_takeWhile_imp hy
        simp only [decide_eq_true_eq] at this
        simp only [Bool.and_eq_true, beq_iff_eq, not_and]
        intro _ e
        exact absurd this (by rw [e]; exact lt_irrefl _)
      rw [this]
      exact ⟨_, rfl⟩
    obtain ⟨t, ht⟩ := front
    unfold commanding
    rw [top]
    dsimp only
    split
    · rw [ht]; simp
    · rw [ht]; simp

/-! ## Claims of other owners -/

theorem claimOf_append (q : Owner) (l m : List Claim) : claimOf q (l ++ m) = (claimOf q l).or (claimOf q m) := by
  unfold claimOf; exact List.find?_append

theorem claimOf_enterRank (q : Owner) (x : Claim) (l : List Claim) (h : x.owner ≠ q) :
    claimOf q (enterRank x l) = claimOf q l := by
  unfold enterRank
  rw [claimOf_append]
  have : claimOf q (x :: l.dropWhile fun y => decide (x.rank < y.rank)) =
      claimOf q (l.dropWhile fun y => decide (x.rank < y.rank)) := by
    unfold claimOf
    rw [List.find?_cons_of_neg (by simpa using h)]
  rw [this, ← claimOf_append, List.takeWhile_append_dropWhile]

theorem claimOf_without_of_ne {q o : Owner} (l : List Claim) (h : q ≠ o) : claimOf q (without o l) = claimOf q l := by
  unfold claimOf without
  rw [List.find?_filter]
  congr 1
  funext c
  by_cases e : c.owner = q <;> simp [e, h]

theorem claimOf_without (o : Owner) (l : List Claim) : claimOf o (without o l) = none := by
  unfold claimOf
  rw [List.find?_eq_none]
  intro x hx
  simpa using (mem_without.mp hx).2

theorem claimOf_map (q : Owner) (f : Claim → Claim) (l : List Claim) (h : ∀ c, (f c).owner = c.owner) :
    claimOf q (l.map f) = (claimOf q l).map f := by
  unfold claimOf
  rw [List.find?_map]
  congr 2
  funext c
  simp [h]

theorem claimOf_eq_none {o : Owner} {l : List Claim} : claimOf o l = none ↔ ∀ x ∈ l, x.owner ≠ o := by
  unfold claimOf
  rw [List.find?_eq_none]
  simp

theorem promoted_wish (level event : Nat) (b : Bool) (c : Claim) : (c.promoted level event b).wish = c.wish := by
  unfold Claim.promoted
  split
  · rfl
  · split <;> rfl

/-- A promotion leaves every owner's wish (R16). -/
theorem promote_wish (x : CircuitState) (modes : Tab MergeMode 8) (r : CircuitRecord) (e : EmergencyState) (event : Nat)
    (q : Owner) : (claimOf q (x.promote modes r e event).claims).map Claim.wish = (claimOf q x.claims).map Claim.wish := by
  have map : ∀ (f : Claim → Claim), (∀ c, (f c).owner = c.owner) → (∀ c, (f c).wish = c.wish) →
      (claimOf q (x.claims.map f)).map Claim.wish = (claimOf q x.claims).map Claim.wish := fun f ho hw => by
    rw [claimOf_map q f _ ho, Option.map_map]
    congr 1
    funext c
    exact hw c
  unfold CircuitState.promote
  split
  · dsimp only
    split
    · exact map _ (fun c => (SameCircuit.promoted_keys _ _ _ c).1) fun c => promoted_wish _ _ _ c
    · exact map _ (fun c => (SameCircuit.promoted_keys _ _ _ c).1) fun c => promoted_wish _ _ _ c
  · rfl

theorem LinksOnly.wish {x y : CircuitState} (h : LinksOnly x y) (q : Owner) :
    (Machine.claimOf q y.claims).map Claim.wish = (Machine.claimOf q x.claims).map Claim.wish := by
  have k := congrArg (Option.map Claim.wish) (h.claimOf q)
  rw [Option.map_map, Option.map_map] at k
  exact k

/-! ## A placement on one circuit -/

/-- The list a placement's own change leaves: one claim enters the list without the owner's. -/
theorem placed_claims (x : CircuitState) (modes : Tab MergeMode 8) (level : Nat) (o : Owner) (wait : Bool)
    (link : Option TrackerLink) (event : Nat) (it : PlaceItem) :
    ∃ c : Claim, (x.placed modes level o wait link event it).claims = enterRank c (without o x.claims)
      ∧ c.owner = o ∧ c.wish = (it.rank, it.target, it.cause)
      ∧ ((wait && mustWait modes (without o x.claims) it.rank) = true → c.state = .waiting it.fade)
      ∧ ((wait && mustWait modes (without o x.claims) it.rank) = false →
          (0 < it.fade → (∀ y ∈ x.claims, y.owner ≠ o → y.isEffective = true → y.rank ≤ it.rank) →
            c.state = .effective (some { start := level, duration := it.fade, spent := 0, event := event }))
          ∧ ((it.fade = 0 ∨ ¬ ∀ y ∈ x.claims, y.owner ≠ o → y.isEffective = true → y.rank ≤ it.rank) →
            c.state = .effective none))
      ∧ (c.state = .effective none → c.tracker = none) ∧ (c.state ≠ .effective none → c.tracker = link) := by
  have front := inCommand_enterRank modes
    { owner := o, rank := it.rank, state := .effective none, target := it.target, cause := it.cause, tracker := none }
    (without o x.claims) rfl fun y hy => (mem_without.mp hy).2
  have cond : (∀ y ∈ without o x.claims, y.isEffective = true → y.rank ≤ it.rank) ↔
      ∀ y ∈ x.claims, y.owner ≠ o → y.isEffective = true → y.rank ≤ it.rank := by
    simp only [mem_without, and_imp]
  dsimp only at front
  rw [cond] at front
  unfold CircuitState.placed
  dsimp only
  split
  · rename_i h
    exact ⟨_, leaveRaise_claims _ o, rfl, rfl, fun _ => rfl, fun k => absurd (h.symm.trans k) (by simp), nofun,
      fun _ => rfl⟩
  · rename_i h
    split
    · rename_i k
      have claims : ∀ (y : CircuitState) v, (y.continueTransition v).claims = y.claims := fun _ _ => rfl
      by_cases f : 0 < it.fade
      · rw [if_pos f]
        exact ⟨_, (claims _ _).trans (leaveRaise_claims _ o), rfl, rfl, fun e => absurd e h, fun _ =>
          ⟨fun _ _ => rfl, fun g => absurd g (not_or.mpr ⟨by omega, not_not.mpr (front.mp k)⟩)⟩, nofun, fun _ => rfl⟩
      · rw [if_neg f]
        exact ⟨_, (claims _ _).trans (leaveRaise_claims _ o), rfl, rfl, fun e => absurd e h, fun _ =>
          ⟨fun g => absurd g f, fun _ => rfl⟩, fun _ => rfl, fun e => absurd rfl e⟩
    · rename_i k
      exact ⟨_, leaveRaise_claims _ o, rfl, rfl, fun e => absurd e h,
        fun _ => ⟨fun _ f => absurd (front.mpr f) k, fun _ => rfl⟩, fun _ => rfl, fun e => absurd rfl e⟩

theorem promote_keeps_effective (x : CircuitState) (modes : Tab MergeMode 8) (r : CircuitRecord) (e : EmergencyState)
    (event : Nat) {c : Claim} (h : c ∈ x.claims) (k : c.isEffective = true ∨ promotable modes x.claims = false) :
    c ∈ (x.promote modes r e event).claims := by
  have keep : promotable modes x.claims = true → ∀ b level, c.promoted level event b = c := fun p b level => by
    unfold Claim.promoted
    rcases k with k | k
    · unfold Claim.isEffective at k
      split
      · rfl
      · rename_i st; rw [st] at k; simp at k
    · rw [p] at k; simp at k
  unfold CircuitState.promote
  split
  · rename_i p
    dsimp only
    split
    · exact List.mem_map.mpr ⟨c, h, keep p _ _⟩
    · exact List.mem_map.mpr ⟨c, h, keep p _ _⟩
  · exact h

theorem effectiveAt_enterRank_waiting (c : Claim) (l : List Claim) (h : c.isEffective = false) (r : Rank) :
    effectiveAt (enterRank c l) r = effectiveAt l r := by
  unfold effectiveAt enterRank
  rw [List.filter_append, List.filter_cons_of_neg (by simp [h]), ← List.filter_append,
    List.takeWhile_append_dropWhile]

theorem commanding_enterRank_waiting (modes : Tab MergeMode 8) (c : Claim) (l : List Claim) (h : c.isEffective = false) :
    commanding modes (enterRank c l) = commanding modes l := by
  have top : topRank (enterRank c l) = topRank l := by
    unfold topRank enterRank
    rw [List.filter_append, List.filter_cons_of_neg (by simp [h]), ← List.filter_append,
      List.takeWhile_append_dropWhile]
  unfold commanding
  rw [top]
  simp only [effectiveAt_enterRank_waiting c l h]

theorem promote_map (x : CircuitState) (modes : Tab MergeMode 8) (r : CircuitRecord) (e : EmergencyState) (event : Nat) :
    (x.promote modes r e event).claims = x.claims ∨ ∃ level, (x.promote modes r e event).claims =
      x.claims.map fun c => c.promoted level event (inCommandOf modes (x.claims.map Claim.woken) c.owner) := by
  unfold CircuitState.promote
  split
  · dsimp only
    split <;> exact .inr ⟨_, rfl⟩
  · exact .inl rfl

/-- A promotion leaves the list's owners and wishes in their order. -/
theorem promote_wishes (x : CircuitState) (modes : Tab MergeMode 8) (r : CircuitRecord) (e : EmergencyState)
    (event : Nat) : (x.promote modes r e event).claims.map (fun c => (c.owner, c.wish)) =
      x.claims.map fun c => (c.owner, c.wish) := by
  rcases promote_map x modes r e event with h | ⟨level, h⟩
  · rw [h]
  · rw [h, List.map_map]
    exact List.map_congr_left fun c _ => by
      simp only [Function.comp, promoted_wish, (SameCircuit.promoted_keys _ _ _ c).1]

/-- A promotion leaves the state of an EFFECTIVE claim. -/
theorem promote_standing (x : CircuitState) (modes : Tab MergeMode 8) (r : CircuitRecord) (e : EmergencyState)
    (event : Nat) {q : Owner} {c : Claim} (h : claimOf q x.claims = some c) (k : c.isEffective = true) :
    (claimOf q (x.promote modes r e event).claims).map Claim.state = some c.state := by
  rcases promote_map x modes r e event with m | ⟨level, m⟩
  · rw [m, h]; rfl
  · rw [m, claimOf_map q _ _ fun c => (SameCircuit.promoted_keys _ _ _ c).1, h]
    simp only [Option.map_some, Option.some.injEq]
    unfold Claim.promoted
    split
    · rfl
    · rename_i st; unfold Claim.isEffective at k; rw [st] at k; simp at k

/-! ## The judgement of WAITING claims -/

theorem continuedFrom_eq (level : Nat) (t : Transition) : t.continued level = continuedFrom level t := by
  unfold Transition.continued continuedFrom Transition.due Transition.elapsed Config.tenth
  cases t.fixed with
  | some v => simp
  | none =>
    by_cases h : t.spent < t.duration * 100000
    · simp [h]
    · simp [h, Nat.not_lt.mp h]

theorem continueTransition_transition (x : CircuitState) (level : Nat) :
    (x.continueTransition level).transition = x.transition.map (continuedFrom level) := by
  show x.transition.map (fun t => t.continued level) = _
  congr 1
  funext t
  exact continuedFrom_eq level t

/-- A change of claims that keeps owners, ranks and who is EFFECTIVE keeps who is in command (R8). -/
theorem inCommandOf_map (modes : Tab MergeMode 8) (f : Claim → Claim) (l : List Claim) (o : Owner)
    (h : ∀ c, (f c).owner = c.owner ∧ (f c).rank = c.rank ∧ (f c).isEffective = c.isEffective) :
    inCommandOf modes (l.map f) o = inCommandOf modes l o := by
  have at_ : ∀ r, effectiveAt (l.map f) r = (effectiveAt l r).map f := fun r => by
    unfold effectiveAt
    rw [List.filter_map]
    congr 2
    funext c
    simp [h c]
  have top : topRank (l.map f) = topRank l := by
    unfold topRank
    rw [List.filter_map, List.map_map]
    congr 1
    rw [show (Claim.isEffective ∘ f) = Claim.isEffective from funext fun c => (h c).2.2]
    exact List.map_congr_left fun c _ => (h c).2.1
  have cmd : commanding modes (l.map f) = (commanding modes l).map f := by
    unfold commanding
    rw [top]
    split
    · rfl
    · split
      · rw [at_, List.map_take]
      · rw [at_]
  unfold inCommandOf
  rw [cmd, List.any_map]
  congr 1
  funext c
  simp [h c]

/-- What decides command in a claim: owner, rank and whether it is EFFECTIVE (R8). -/
def Claim.standing (c : Claim) : Claim :=
  { owner := c.owner, rank := c.rank, state := if c.isEffective then .effective none else .waiting 0, target := 0,
    cause := none, tracker := none }

theorem inCommandOf_standing (modes : Tab MergeMode 8) (l : List Claim) (o : Owner) :
    inCommandOf modes (l.map Claim.standing) o = inCommandOf modes l o :=
  inCommandOf_map modes _ l o fun c => ⟨rfl, rfl, by
    unfold Claim.standing
    cases h : c.isEffective <;> simp [Claim.isEffective]⟩

/-- Who is in command once every WAITING claim is EFFECTIVE does not depend on the fades promotion gives (R16). -/
theorem inCommandOf_promoted (modes : Tab MergeMode 8) (level event : Nat) (b : Claim → Bool) (l : List Claim)
    (o : Owner) : inCommandOf modes (l.map fun c => c.promoted level event (b c)) o =
      inCommandOf modes (l.map Claim.woken) o := by
  rw [← inCommandOf_standing, ← inCommandOf_standing modes (l.map Claim.woken), List.map_map, List.map_map]
  congr 1
  refine List.map_congr_left fun c _ => ?_
  show (c.promoted level event (b c)).standing = c.woken.standing
  cases st : c.state with
  | effective f => simp only [Claim.promoted, Claim.woken, st]
  | waiting h =>
    simp only [Claim.promoted, Claim.woken, st]
    split <;> rfl

/-- What a promotion makes of a circuit's claims and transition (R16, R39), said once. -/
theorem promote_cases (x : CircuitState) (modes : Tab MergeMode 8) (r : CircuitRecord) (e : EmergencyState)
    (event : Nat) :
    ((commandFading modes x.claims = true ∨ ∀ c ∈ x.claims, c.isEffective = true) ∧ x.promote modes r e event = x)
    ∨ commandFading modes x.claims = false
      ∧ (x.promote modes r e event).claims = x.claims.map (fun c => c.promoted (x.levelUnder modes r e) event
          (inCommandOf modes (x.promote modes r e event).claims c.owner))
      ∧ (x.promote modes r e event).transition =
          if x.claims.any (fun c => !c.isEffective && inCommandOf modes (x.promote modes r e event).claims c.owner) then
            x.transition.map (continuedFrom (x.levelUnder modes r e))
          else x.transition := by
  by_cases p : promotable modes x.claims = true
  · right
    have fading : commandFading modes x.claims = false := by
      unfold promotable at p
      simp only [Bool.and_eq_true, Bool.not_eq_true'] at p
      exact p.2
    have claims : (x.promote modes r e event).claims = x.claims.map (fun c => c.promoted (x.levelUnder modes r e) event
        (inCommandOf modes (x.claims.map Claim.woken) c.owner)) := by
      unfold CircuitState.promote
      rw [if_pos p]
      dsimp only
      split <;> rfl
    have cmd : ∀ o, inCommandOf modes (x.promote modes r e event).claims o =
        inCommandOf modes (x.claims.map Claim.woken) o := fun o => by
      rw [claims]
      exact inCommandOf_promoted modes _ _ (fun c => inCommandOf modes (x.claims.map Claim.woken) c.owner) _ o
    simp only [cmd]
    refine ⟨fading, claims, ?_⟩
    unfold CircuitState.promote
    rw [if_pos p]
    dsimp only
    split
    · exact continueTransition_transition _ _
    · rfl
  · left
    refine ⟨?_, by unfold CircuitState.promote; rw [if_neg p]⟩
    unfold promotable at p
    by_cases f : commandFading modes x.claims = true
    · exact .inl f
    · right
      intro c hc
      by_contra k
      exact p (by simp only [Bool.and_eq_true, List.any_eq_true]; exact ⟨⟨c, hc, by simpa using k⟩, by simpa using f⟩)

theorem mem_of_claimOf {o : Owner} {l : List Claim} {c : Claim} (h : claimOf o l = some c) : c ∈ l ∧ c.owner = o :=
  ⟨List.mem_of_find?_eq_some h, by simpa using List.find?_some h⟩

theorem isEffective_waiting {c : Claim} {h : Nat} (e : c.state = .waiting h) : c.isEffective = false := by
  unfold Claim.isEffective; rw [e]

/-- The judgement of the WAITING claims of a circuit (R16). -/
theorem promote_judged (x : CircuitState) (modes : Tab MergeMode 8) (r : CircuitRecord) (e : EmergencyState)
    (event : Nat) : Judged modes r e event x (x.promote modes r e event) := by
  rcases promote_cases x modes r e event with ⟨idle, eq⟩ | ⟨fading, claims, transition⟩
  · rw [eq]
    have none : ∀ {c h}, commandFading modes x.claims = false → c ∈ x.claims → c.state = .waiting h → False :=
      fun f m w => by
        rcases idle with k | k
        · rw [k] at f; simp at f
        · have := isEffective_waiting w
          rw [k _ m] at this
          simp at this
    refine ⟨fun o c h _ => by rw [h]; rfl, fun o c h _ k w => by rw [k, Option.map_some, w], ?_, ?_, ?_, fun _ => rfl⟩
    · exact fun o c h f k w => (none f (mem_of_claimOf k).1 w).elim
    · exact fun o c h f k w => (none f (mem_of_claimOf k).1 w).elim
    · rintro f ⟨c, m, w, _⟩
      rcases idle with k | k
      · rw [k] at f; simp at f
      · rw [k _ m] at w; simp at w
  · have own : ∀ {o c}, claimOf o x.claims = some c → claimOf o (x.promote modes r e event).claims =
        some (c.promoted (x.levelUnder modes r e) event (inCommandOf modes (x.promote modes r e event).claims o)) :=
      fun {o c} h => by
        conv_lhs => rw [claims]
        rw [claimOf_map o _ _ fun c => (SameCircuit.promoted_keys _ _ _ c).1, h, Option.map_some, (mem_of_claimOf h).2]
    refine ⟨fun o c h k => ?_, fun o c h f => ?_, fun o c h _ k w cmd pos => ?_, fun o c h _ k w out => ?_,
      fun _ ⟨c, m, w, cmd⟩ => ?_, fun k => ?_⟩
    · rw [own h, Option.map_some]
      unfold Claim.promoted
      split
      · rfl
      · rename_i st; rw [isEffective_waiting st] at k; simp at k
    · rw [fading] at f; simp at f
    · rw [own k, Option.map_some]
      unfold Claim.promoted
      rw [w]
      dsimp only
      rw [if_pos (by simp [cmd, pos])]
    · rw [own k, Option.map_some]
      unfold Claim.promoted
      rw [w]
      dsimp only
      rw [if_neg (by rcases out with out | out <;> simp [out])]
    · rw [transition, if_pos]
      rw [List.any_eq_true]
      exact ⟨c, m, by simp [w, cmd]⟩
    · rw [transition, if_neg]
      rcases k with k | k
      · rw [fading] at k; simp at k
      · rw [List.any_eq_true]
        rintro ⟨c, m, h⟩
        simp only [Bool.and_eq_true, Bool.not_eq_true'] at h
        rw [k c m h.1] at h
        simp at h

theorem LinksOnly.state {x y : CircuitState} (h : LinksOnly x y) (q : Owner) :
    (Machine.claimOf q y.claims).map Claim.state = (Machine.claimOf q x.claims).map Claim.state := by
  have k := congrArg (Option.map Claim.state) (h.claimOf q)
  rw [Option.map_map, Option.map_map] at k
  exact k

/-- A claim and what a loss of links leaves of it. -/
theorem LinksOnly.claim {x y : CircuitState} (h : LinksOnly x y) {o : Owner} {c : Claim}
    (k : Machine.claimOf o x.claims = some c) :
    ∃ d, Machine.claimOf o y.claims = some d ∧ d.state = c.state ∧ (c.tracker = none → d.tracker = none) := by
  have fold : ∀ {l m : List Claim}, m.map Claim.unlinked = l.map Claim.unlinked → List.Forall₂ LinkLost l m →
      Machine.claimOf o l = some c →
      ∃ d, Machine.claimOf o m = some d ∧ d.state = c.state ∧ (c.tracker = none → d.tracker = none) := by
    intro l m e f
    induction f with
    | nil => intro k; cases k
    | @cons a b l m ab _ ih =>
      intro k
      simp only [List.map_cons, List.cons.injEq] at e
      have owner : b.owner = a.owner := show b.unlinked.owner = a.unlinked.owner by rw [e.1]
      have state : b.state = a.state := show b.unlinked.state = a.unlinked.state by rw [e.1]
      unfold Machine.claimOf at k ⊢
      by_cases own : (a.owner == o) = true
      · rw [List.find?_cons_of_pos (p := fun c : Claim => c.owner == o) own] at k
        cases k
        rw [List.find?_cons_of_pos (p := fun c : Claim => c.owner == o) (by rw [owner]; exact own)]
        refine ⟨b, rfl, state, fun n => ?_⟩
        rcases ab with t | t
        · rw [t, n]
        · exact t
      · rw [List.find?_cons_of_neg (p := fun c : Claim => c.owner == o) own] at k
        rw [List.find?_cons_of_neg (p := fun c : Claim => c.owner == o) (by rw [owner]; exact own)]
        exact ih e.2 k
  exact fold h.claims h.links k

/-- Links lost after the judgement do not bear on it. -/
theorem Judged.after {modes : Tab MergeMode 8} {r : CircuitRecord} {e : EmergencyState} {event : Nat}
    {x y z : CircuitState} (h : Judged modes r e event x y) (k : LinksOnly y z) : Judged modes r e event x z where
  stands o c a b := (k.state o).trans (h.stands o c a b)
  waits o c t f a b := (k.state o).trans (h.waits o c t f a b)
  fades o c t f a b cmd pos := (k.state o).trans (h.fades o c t f a b (by rw [← k.inCommand]; exact cmd) pos)
  completes o c t f a b out := by
    have g := h.completes o c t f a b (by rw [← k.inCommand]; exact out)
    obtain ⟨d, hd, e⟩ := Option.map_eq_some_iff.mp g
    obtain ⟨d', hd', st, tr⟩ := k.claim hd
    simp only [Prod.mk.injEq] at e
    rw [hd', Option.map_some, st, tr e.2, e.1]
  continues f w := k.transition.trans (h.continues f (by
    obtain ⟨c, m, g, cmd⟩ := w
    exact ⟨c, m, g, by rw [← k.inCommand]; exact cmd⟩))
  rests f := k.transition.trans (h.rests (f.imp id fun g c m w => by rw [← k.inCommand]; exact g c m w))

/-- What the judgement reads of a circuit: its transition, and its claims but for their links. -/
theorem Judged.before {modes : Tab MergeMode 8} {r : CircuitRecord} {e : EmergencyState} {event : Nat}
    {x y w : CircuitState} (h : Judged modes r e event x y) (l : w.claims.map Claim.unlinked = x.claims.map Claim.unlinked)
    (t : w.transition = x.transition) : Judged modes r e event w y := by
  have cmd : commandFading modes w.claims = commandFading modes x.claims := by
    have u : ∀ m : List Claim, commandFading modes (m.map Claim.unlinked) = commandFading modes m := fun m => by
      unfold commandFading
      rw [commanding_unlinked, List.any_map]
      rfl
    rw [← u, l, u]
  have level : w.levelUnder modes r e = x.levelUnder modes r e := by
    have c : commandLevelOf modes r.base w.claims = commandLevelOf modes r.base x.claims := by
      rw [← commandLevelOf_unlinked modes r.base w.claims, l, commandLevelOf_unlinked]
    unfold CircuitState.levelUnder
    rw [t, c]
  have own : ∀ {o c}, claimOf o w.claims = some c → ∃ d, claimOf o x.claims = some d ∧ d.state = c.state := fun {o c} k => by
    have g : (claimOf o x.claims).map Claim.unlinked = some c.unlinked := by
      rw [← claimOf_unlinked, ← l, claimOf_unlinked, k]; rfl
    obtain ⟨d, hd, e⟩ := Option.map_eq_some_iff.mp g
    exact ⟨d, hd, show d.unlinked.state = c.unlinked.state by rw [e]⟩
  have mem : ∀ {a b : List Claim} {c}, a.map Claim.unlinked = b.map Claim.unlinked → c ∈ a →
      ∃ d ∈ b, d.owner = c.owner ∧ d.isEffective = c.isEffective := fun {a b c} q m => by
    have g : c.unlinked ∈ b.map Claim.unlinked := by rw [← q]; exact List.mem_map_of_mem m
    obtain ⟨d, hd, e⟩ := List.mem_map.mp g
    exact ⟨d, hd, show d.unlinked.owner = c.unlinked.owner by rw [e], by rw [← isEffective_unlinked d, e]; rfl⟩
  have eff : ∀ {c d : Claim}, d.state = c.state → d.isEffective = c.isEffective := fun q => by
    unfold Claim.isEffective; rw [q]
  exact
    { stands := fun o c k f => by
        obtain ⟨d, hd, st⟩ := own k
        rw [h.stands o d hd (by rw [eff st]; exact f), st]
      waits := fun o c n f k s => by
        obtain ⟨d, hd, st⟩ := own k
        exact h.waits o d n (by rw [← cmd]; exact f) hd (st.trans s)
      fades := fun o c n f k s => by
        obtain ⟨d, hd, st⟩ := own k
        rw [level]
        exact h.fades o d n (by rw [← cmd]; exact f) hd (st.trans s)
      completes := fun o c n f k s => by
        obtain ⟨d, hd, st⟩ := own k
        exact h.completes o d n (by rw [← cmd]; exact f) hd (st.trans s)
      continues := fun f ⟨c, m, g, q⟩ => by
        obtain ⟨d, hd, o, g'⟩ := mem l m
        rw [t, level]
        exact h.continues (by rw [← cmd]; exact f) ⟨d, hd, g'.trans g, by rw [o]; exact q⟩
      rests := fun f => by
        rw [t]
        refine h.rests (f.imp (fun f => by rw [← cmd]; exact f) fun g c m q => ?_)
        obtain ⟨d, hd, o, g'⟩ := mem l.symm m
        rw [← o]
        exact g d hd (g'.trans q) }

/-- A FIXED transition stands through the judgement (R39). -/
theorem Judged.fixed {modes : Tab MergeMode 8} {r : CircuitRecord} {e : EmergencyState} {event : Nat}
    {x y : CircuitState} (h : Judged modes r e event x y) {t : Transition} (k : x.transition = some t)
    (f : t.fixed.isSome = true) : y.transition = some t := by
  have same : ∀ level, continuedFrom level t = t := fun level => by
    unfold continuedFrom
    rw [if_neg]
    rintro ⟨n, _⟩
    rw [n] at f
    simp at f
  by_cases c : commandFading modes x.claims = false
    ∧ ∃ c ∈ x.claims, c.isEffective = false ∧ inCommandOf modes y.claims c.owner = true
  · rw [h.continues c.1 c.2, k, Option.map_some, same]
  · refine (h.rests ?_).trans k
    by_cases d : commandFading modes x.claims = true
    · exact .inl d
    · exact .inr fun a m w => by
        by_contra g
        exact c ⟨by simpa using d, a, m, w, by simpa using g⟩

/-- A transition just started stands through the judgement: its circuit stands at its from level (R37, R39). -/
theorem Judged.started {modes : Tab MergeMode 8} {r : CircuitRecord} {e : EmergencyState} {event : Nat}
    {x y : CircuitState} (h : Judged modes r e event x y) {cause : TransitionCause} {level time : Nat}
    (k : x.transition = Machine.started cause none level time) :
    y.transition = Machine.started cause none level time := by
  have same : x.transition.map (continuedFrom (x.levelUnder modes r e)) = x.transition := by
    unfold Machine.started at k
    split at k
    · rw [k]; rfl
    · rename_i pos
      have l : x.levelUnder modes r e = level := by
        unfold CircuitState.levelUnder
        rw [k]
        dsimp only
        unfold Transition.level travel Transition.elapsed
        split <;> simp
      rw [k, l, Option.map_some]
      unfold continuedFrom
      split
      · simp
      · rfl
  by_cases c : commandFading modes x.claims = false
    ∧ ∃ c ∈ x.claims, c.isEffective = false ∧ inCommandOf modes y.claims c.owner = true
  · rw [h.continues c.1 c.2, same, k]
  · refine (h.rests ?_).trans k
    by_cases d : commandFading modes x.claims = true
    · exact .inl d
    · exact .inr fun a m w => by
        by_contra g
        exact c ⟨by simpa using d, a, m, w, by simpa using g⟩

/-- What a placement's own change makes of the transition (R39): continued where its claim is left in command. -/
theorem placed_transition (x : CircuitState) (modes : Tab MergeMode 8) (level : Nat) (o : Owner) (wait : Bool)
    (link : Option TrackerLink) (event : Nat) (it : PlaceItem) :
    ((wait && mustWait modes (without o x.claims) it.rank) = false →
      (∀ y ∈ x.claims, y.owner ≠ o → y.isEffective = true → y.rank ≤ it.rank) →
      (x.placed modes level o wait link event it).transition = x.transition.map (continuedFrom level))
    ∧ (((wait && mustWait modes (without o x.claims) it.rank) = true
        ∨ ¬ ∀ y ∈ x.claims, y.owner ≠ o → y.isEffective = true → y.rank ≤ it.rank) →
      (x.placed modes level o wait link event it).transition = x.transition) := by
  have front := inCommand_enterRank modes
    { owner := o, rank := it.rank, state := .effective none, target := it.target, cause := it.cause, tracker := none }
    (without o x.claims) rfl fun y hy => (mem_without.mp hy).2
  have cond : (∀ y ∈ without o x.claims, y.isEffective = true → y.rank ≤ it.rank) ↔
      ∀ y ∈ x.claims, y.owner ≠ o → y.isEffective = true → y.rank ≤ it.rank := by
    simp only [mem_without, and_imp]
  dsimp only at front
  rw [cond] at front
  have leave : ∀ y : CircuitState, (y.leaveRaise o).transition = y.transition := fun y => by
    unfold CircuitState.leaveRaise; split <;> rfl
  rw [← front]
  unfold CircuitState.placed
  dsimp only
  split
  · rename_i h
    exact ⟨fun k => absurd (h.symm.trans k) (by simp), fun _ => leave _⟩
  · rename_i h
    split
    · rename_i k
      exact ⟨fun _ _ => (continueTransition_transition _ _).trans (by rw [leave]),
        fun g => absurd g (not_or.mpr ⟨h, not_not.mpr k⟩)⟩
    · rename_i k
      exact ⟨fun _ g => absurd g k, fun _ => leave _⟩

/-- What a claim gives the order of a list is its rank alone (R7). -/
theorem enterRank_wishes {c d : Claim} (l : List Claim) (h : (c.owner, c.wish) = (d.owner, d.wish)) :
    (enterRank c l).map (fun x => (x.owner, x.wish)) = (enterRank d l).map fun x => (x.owner, x.wish) := by
  have r : c.rank = d.rank := congrArg (fun x => x.2.1) h
  unfold enterRank
  rw [r]
  simp only [List.map_append, List.map_cons, h]

namespace State

theorem placeAfter_get (s : State) (pl : Placement) (c : Circuit) :
    (s.placeAfter pl).get c = match pl.on c with
      | none => s.circuit c
      | some it => ((s.circuit c).placed s.tables.ranks (s.level c) pl.owner pl.wait pl.tracker.link s.event it).promote
          s.tables.ranks (s.record c) s.emergency.state s.event := by
  have mem : (pl.items.map PlaceItem.circuit).contains c = (pl.on c).isSome := by
    unfold Placement.on
    rw [Bool.eq_iff_iff, List.find?_isSome]
    simp [List.mem_map]
  unfold placeAfter promoteWhere placeMid
  simp only [Tab.get_build, mem]
  cases pl.on c <;> rfl

/-- The claim a placement leaves on a circuit it names, before slots settle. -/
theorem place_claim (s : State) (pl : Placement) {c : Circuit} {it : PlaceItem} (on : pl.on c = some it) :
    ∃ x ∈ ((s.placeAfter pl).get c).claims, x.owner = pl.owner ∧ x.wish = (it.rank, it.target, it.cause)
      ∧ ((pl.wait && mustWait s.tables.ranks (without pl.owner (s.claims c)) it.rank) = true → x.state = .waiting it.fade)
      ∧ ((pl.wait && mustWait s.tables.ranks (without pl.owner (s.claims c)) it.rank) = false →
          (0 < it.fade → Commands s pl.owner c it.rank →
            x.state = .effective (some { start := s.level c, duration := it.fade, spent := 0, event := s.event }))
          ∧ ((it.fade = 0 ∨ ¬ Commands s pl.owner c it.rank) → x.state = .effective none))
      ∧ (x.state = .effective none → x.tracker = none) ∧ (x.state ≠ .effective none → x.tracker = pl.tracker.link) := by
  rw [placeAfter_get, on]
  dsimp only
  obtain ⟨x, hl, ho, hw, wt, nw, tr⟩ := placed_claims (s.circuit c) s.tables.ranks (s.level c) pl.owner pl.wait
    pl.tracker.link s.event it
  have m : x ∈ ((s.circuit c).placed s.tables.ranks (s.level c) pl.owner pl.wait pl.tracker.link s.event it).claims := by
    rw [hl]; exact mem_enterRank.mpr (.inl rfl)
  refine ⟨x, promote_keeps_effective _ s.tables.ranks (s.record c) s.emergency.state s.event m ?_, ho, hw, wt, nw, tr⟩
  cases b : (pl.wait && mustWait s.tables.ranks (without pl.owner (s.circuit c).claims) it.rank) with
  | true =>
    right
    rw [hl]
    unfold promotable commandFading
    rw [commanding_enterRank_waiting _ _ _ (by unfold Claim.isEffective; rw [wt b])]
    have : commandFading s.tables.ranks (without pl.owner (s.circuit c).claims) = true := by
      unfold mustWait at b
      simp only [Bool.and_eq_true] at b
      exact b.2.2
    unfold commandFading at this
    rw [this]; simp
  | false =>
    left
    obtain ⟨a, n⟩ := nw b
    unfold Claim.isEffective
    by_cases f : 0 < it.fade ∧ ∀ y ∈ (s.circuit c).claims, y.owner ≠ pl.owner → y.isEffective = true → y.rank ≤ it.rank
    · rw [a f.1 f.2]
    · rw [n (by
        by_cases g : it.fade = 0
        · exact .inl g
        · exact .inr fun u => f ⟨by omega, u⟩)]

/-- A placement starts no transition (R13). -/
theorem placed_still (x : CircuitState) (modes : Tab MergeMode 8) (level : Nat) (o : Owner) (wait : Bool)
    (link : Option TrackerLink) (event : Nat) (it : PlaceItem) (h : x.transition = none) :
    (x.placed modes level o wait link event it).transition = none := by
  have leave : ∀ y : CircuitState, (y.leaveRaise o).transition = y.transition := fun y => by
    unfold CircuitState.leaveRaise; split <;> rfl
  unfold CircuitState.placed
  dsimp only
  split
  · rw [leave]; exact h
  · split
    · unfold CircuitState.continueTransition
      dsimp only
      rw [leave]
      show Option.map _ x.transition = none
      rw [h]; rfl
    · rw [leave]; exact h

/-- A FIELD placement takes the circuit out of its raise set (R100). -/
theorem placed_raisedBy (x : CircuitState) (modes : Tab MergeMode 8) (level : Nat) (o : Owner) (wait : Bool)
    (link : Option TrackerLink) (event : Nat) (it : PlaceItem) :
    (x.placed modes level o wait link event it).raisedBy = if o = .field then none else x.raisedBy := by
  have leave : ∀ y : CircuitState, y.raisedBy = x.raisedBy →
      (y.leaveRaise o).raisedBy = if o = .field then none else x.raisedBy := fun y e => by
    unfold CircuitState.leaveRaise; split <;> [rfl; exact e]
  unfold CircuitState.placed
  dsimp only
  split
  · exact leave _ rfl
  · split
    · exact leave _ rfl
    · exact leave _ rfl

/-- A promotion changes no raise set (R100). -/
theorem promote_raisedBy (x : CircuitState) (modes : Tab MergeMode 8) (r : CircuitRecord) (e : EmergencyState)
    (event : Nat) : (x.promote modes r e event).raisedBy = x.raisedBy := by
  unfold CircuitState.promote
  split
  · dsimp only
    split <;> rfl
  · rfl

/-- A FIELD release takes the circuit out of its raise set (R100). -/
theorem released_raisedBy (x : CircuitState) (modes : Tab MergeMode 8) (level : Nat) (forced : Bool) (o : Owner)
    (time : Nat) : (x.released modes level forced o time).raisedBy = if o = .field then none else x.raisedBy := by
  unfold CircuitState.released CircuitState.leaveRaise
  dsimp only
  split <;> split <;> rfl

/-- A promotion starts no transition (R16). -/
theorem promote_still (x : CircuitState) (modes : Tab MergeMode 8) (r : CircuitRecord) (e : EmergencyState)
    (event : Nat) (h : x.transition = none) : (x.promote modes r e event).transition = none := by
  unfold CircuitState.promote
  split
  · dsimp only
    split
    · unfold CircuitState.continueTransition
      dsimp only
      rw [h]; rfl
    · exact h
  · exact h

/-- A placement's own changes on a circuit (R13 to R15, R39). -/
theorem placed_changed (s : State) (pl : Placement) (c : Circuit) (it : PlaceItem) :
    Changed s pl.owner pl.wait c it
      ((s.circuit c).placed s.tables.ranks (s.level c) pl.owner pl.wait pl.tracker.link s.event it) where
  enters := by
    obtain ⟨x, hl, ho, hw, wt, nw, _⟩ := placed_claims (s.circuit c) s.tables.ranks (s.level c) pl.owner pl.wait
      pl.tracker.link s.event it
    exact ⟨x, hl, ho, hw, wt, nw⟩
  continues := (placed_transition _ _ _ _ _ _ _ _).1
  rests := (placed_transition _ _ _ _ _ _ _ _).2

/-- What a placement leaves of the claims (R13 to R17). -/
theorem place_placed (s : State) (pl : Placement) :
    PlacedAs s (s.place pl) pl.owner pl.items pl.wait pl.tracker.link where
  named c it h := by
    obtain ⟨x, m, ho, hw, wt, nw, done, going⟩ := place_claim s pl (c := c) (it := it) h
    have m' : x ∈ (s.placeStart pl).claims c := by
      unfold State.claims circuit; rw [placeStart_circuits]; exact m
    obtain ⟨y, hy, e⟩ := (place_links s pl).mem m'
    rcases e with rfl | ⟨rfl, n, l, f⟩
    · exact ⟨y, hy, ho, hw, wt, nw, done, fun k _ => going k⟩
    · refine ⟨x.unlinked, hy, ho, hw, wt, nw, fun _ => rfl, fun k slots => ?_⟩
      have t := going k
      rw [l] at t
      exact absurd f (slots n t.symm)
  order c it h := by
    have on : pl.on c = some it := h
    have k := (place_circuit s pl c).wishes
    rw [on] at k
    dsimp only at k
    obtain ⟨x, hl, ho, hw, _⟩ := placed_claims (s.circuit c) s.tables.ranks (s.level c) pl.owner pl.wait
      pl.tracker.link s.event it
    refine k.trans ((promote_wishes _ _ _ _ _).trans ?_)
    rw [hl]
    exact enterRank_wishes _ (by rw [ho, hw]; rfl)
  others c q h := by
    have k := (place_circuit s pl c).wish q
    refine k.trans ?_
    cases on : pl.on c with
    | none => rfl
    | some it =>
      dsimp only
      rw [promote_wish]
      obtain ⟨x, hl, ho, _⟩ := placed_claims (s.circuit c) s.tables.ranks (s.level c) pl.owner pl.wait
        pl.tracker.link s.event it
      rw [hl, claimOf_enterRank _ _ _ (by rw [ho]; exact h.symm), claimOf_without_of_ne _ h]
      rfl
  standing c q x h hx he := by
    refine ((place_circuit s pl c).state q).trans ?_
    cases on : pl.on c with
    | none =>
      show (claimOf q (s.claims c)).map Claim.state = _
      rw [hx]; rfl
    | some it =>
      dsimp only
      obtain ⟨y, hl, ho, _⟩ := placed_claims (s.circuit c) s.tables.ranks (s.level c) pl.owner pl.wait
        pl.tracker.link s.event it
      refine promote_standing _ _ _ _ _ ?_ he
      rw [hl, claimOf_enterRank _ _ _ (by rw [ho]; exact h.symm), claimOf_without_of_ne _ h]
      exact hx
  elsewhere c h := by
    have k := place_circuit s pl c
    have on : pl.on c = none := h
    rw [on] at k
    exact ⟨k.claims, k.transition⟩
  judged c it h := by
    have on : pl.on c = some it := h
    have k := place_circuit s pl c
    rw [on] at k
    exact ⟨_, placed_changed s pl c it, (promote_judged _ _ _ _ _).after k⟩
  fixed c t h f := by
    have k := place_circuit s pl c
    cases on : pl.on c with
    | none => rw [on] at k; exact k.transition.trans h
    | some it =>
      rw [on] at k
      have own : ((s.circuit c).placed s.tables.ranks (s.level c) pl.owner pl.wait pl.tracker.link s.event it).transition =
          some t := by
        obtain ⟨a, b⟩ := placed_transition (s.circuit c) s.tables.ranks (s.level c) pl.owner pl.wait pl.tracker.link
          s.event it
        have same : (s.circuit c).transition.map (continuedFrom (s.level c)) = (s.circuit c).transition := by
          rw [h, Option.map_some]
          unfold continuedFrom
          rw [if_neg]
          rintro ⟨n, _⟩
          rw [n] at f
          simp at f
        by_cases w : (pl.wait && mustWait s.tables.ranks (without pl.owner (s.circuit c).claims) it.rank) = false
          ∧ ∀ y ∈ (s.circuit c).claims, y.owner ≠ pl.owner → y.isEffective = true → y.rank ≤ it.rank
        · rw [a w.1 w.2, same, h]
        · rw [b, h]
          by_cases u : (pl.wait && mustWait s.tables.ranks (without pl.owner (s.circuit c).claims) it.rank) = true
          · exact .inl u
          · exact .inr fun g => w ⟨by simpa using u, g⟩
      exact ((promote_judged _ _ _ _ _).after k).fixed own f
  still c h := by
    have k := (place_circuit s pl c).transition
    cases on : pl.on c with
    | none => rw [on] at k; exact k.trans h
    | some it =>
      rw [on] at k
      exact k.trans (promote_still _ _ _ _ _ (placed_still _ _ _ _ _ _ _ _ h))
  raises c := by
    have k := (place_circuit s pl c).raisedBy
    have on : itemOn pl.items c = pl.on c := rfl
    rw [k, on]
    cases pl.on c with
    | none => simp
    | some it =>
      dsimp only
      rw [promote_raisedBy, placed_raisedBy]
      simp

theorem promote_claimOf_none (x : CircuitState) (modes : Tab MergeMode 8) (r : CircuitRecord) (e : EmergencyState)
    (event : Nat) (q : Owner) (h : claimOf q x.claims = none) : claimOf q (x.promote modes r e event).claims = none := by
  have k := promote_wish x modes r e event q
  rw [h] at k
  simpa using k

theorem released_claims (x : CircuitState) (modes : Tab MergeMode 8) (level : Nat) (forced : Bool) (o : Owner)
    (time : Nat) : (x.released modes level forced o time).claims = without o x.claims := by
  unfold CircuitState.released
  dsimp only
  split
  · unfold CircuitState.startTransition; exact leaveRaise_claims _ o
  · exact leaveRaise_claims _ o

/-- What a release's own change makes of the transition (R19, R37). -/
theorem released_transition (s : State) (o : Owner) (c : Circuit) (time : Nat) :
    (s.inCommand c o = true → s.forced c = false →
      ((s.circuit c).released s.tables.ranks (s.level c) (s.forced c) o time).transition =
        started .release none (s.level c) time)
    ∧ ((s.inCommand c o = false ∨ s.forced c = true) →
      ((s.circuit c).released s.tables.ranks (s.level c) (s.forced c) o time).transition =
        (s.circuit c).transition) := by
  have leave : ∀ y : CircuitState, (y.leaveRaise o).transition = y.transition := fun y => by
    unfold CircuitState.leaveRaise; split <;> rfl
  have cmd : inCommandOf s.tables.ranks (s.circuit c).claims o = s.inCommand c o := rfl
  unfold CircuitState.released
  dsimp only
  rw [cmd]
  refine ⟨fun a b => ?_, fun a => ?_⟩
  · rw [if_pos (by simp [a, b])]
    rfl
  · rw [if_neg (by rcases a with a | a <;> simp [a]), leave]

/-- What a release leaves of the claims (R19). -/
theorem release_released (s : State) (o : Owner) (cs : List Circuit) (time : Nat) :
    ReleasedAs s (s.release o cs time) o cs time where
  gone c h := by
    have k := (release_circuit s o cs time c).wish o
    rw [if_pos (by simpa using h), promote_wish, released_claims, claimOf_without] at k
    exact Option.map_eq_none_iff.mp k
  order c h := by
    have k := (release_circuit s o cs time c).wishes
    rw [if_pos (by simpa using h), promote_wishes, released_claims] at k
    exact k
  others c q h := by
    refine ((release_circuit s o cs time c).wish q).trans ?_
    split
    · rw [promote_wish, released_claims, claimOf_without_of_ne _ h]; rfl
    · rfl
  standing c q x h hx he := by
    refine ((release_circuit s o cs time c).state q).trans ?_
    split
    · refine promote_standing _ _ _ _ _ ?_ he
      rw [released_claims, claimOf_without_of_ne _ h]
      exact hx
    · show (claimOf q (s.claims c)).map Claim.state = _
      rw [hx]; rfl
  elsewhere c h := by
    have k := release_circuit s o cs time c
    rw [if_neg (by simpa using h)] at k
    exact ⟨k.claims, k.transition⟩
  moved c h cmd free := by
    have k := release_circuit s o cs time c
    rw [if_pos (by simpa using h)] at k
    exact ((promote_judged _ _ _ _ _).after k).started ((released_transition s o c time).1 cmd free)
  judged c h := by
    have k := release_circuit s o cs time c
    rw [if_pos (by simpa using h)] at k
    exact ⟨_, released_claims _ _ _ _ _ _, (released_transition s o c time).1, (released_transition s o c time).2,
      (promote_judged _ _ _ _ _).after k⟩
  raises c := by
    rw [(release_circuit s o cs time c).raisedBy]
    by_cases h : c ∈ cs
    · rw [if_pos (by simpa using h), promote_raisedBy, released_raisedBy]
      simp [h]
    · rw [if_neg (by simpa using h), if_neg (fun k => h k.2)]

/-- A release of all of an owner's claims leaves it none. -/
theorem releaseAll_none (s : State) (o : Owner) (time : Nat) (c : Circuit) :
    claimOf o ((s.releaseAll o time).claims c) = none := by
  unfold releaseAll
  by_cases h : c ∈ s.circuitsOf o
  · exact (release_released s o _ time).gone c h
  · have k := (release_circuit s o (s.circuitsOf o) time c).wish o
    rw [if_neg (by simpa using h)] at k
    have n : claimOf o (s.claims c) = none := by
      unfold circuitsOf at h
      simpa using h
    have n' : claimOf o (s.circuit c).claims = none := n
    rw [n'] at k
    exact Option.map_eq_none_iff.mp k

end State
end Sys2Proof.Machine
end

