-- ==== Sys2Proof/Laws/Settle.lean ====
section
/-! SUPPORT. What an event of the Claim Table tells and settles: notices posted stay told, pool trackers lose the links their claims lost, and slots end with their last link. -/

namespace Sys2Proof.Machine

/-! ## Told notices stay told -/

/-- No port changes its link or subscriptions, and every notice told in `s` is told in `t`. -/
structure Heard (s t : State) : Prop where
  online : ∀ q, (t.port q).isOnline = (s.port q).isOnline
  subscriptions : ∀ q, (t.port q).subscriptions = (s.port q).subscriptions
  told : ∀ q n, Told s q n → Told t q n

namespace Heard

theorem of_ports {s t : State} (h : t.ports = s.ports) : Heard s t := by
  have k : ∀ q, t.port q = s.port q := fun q => by unfold State.port; rw [h]
  exact ⟨fun q => by rw [k], fun q => by rw [k], fun q n => by unfold Told; rw [k]; exact id⟩

theorem refl (s : State) : Heard s s := of_ports rfl

theorem trans {a b c : State} (h : Heard a b) (k : Heard b c) : Heard a c :=
  ⟨fun q => (k.online q).trans (h.online q), fun q => (k.subscriptions q).trans (h.subscriptions q),
    fun q n e => k.told q n (h.told q n e)⟩

end Heard

/-- What an event can reach leaves what ports were told (R190). -/
theorem Broad.heard {s t : State} (h : Broad s t) : Heard s t where
  online q := by
    unfold PortState.isOnline
    rw [show (t.port q).link = (s.port q).link from (h.ports q.ix).link]
  subscriptions q := (h.ports q.ix).subscriptions
  told q := (h.ports q.ix).told

theorem enqueue_told (x : PortState) (n : Notice) : n ∈ (x.enqueue n).queue ∨ (x.enqueue n).overflow = true := by
  unfold PortState.enqueue
  split
  · exact .inl (by simp)
  · exact .inr rfl

namespace State

theorem notify_told (s : State) (p : Port) (n : Notice) (h : (s.port p).isOnline = true) : Told (s.notify p n) p n := by
  have port : (s.notify p n).port p = (s.port p).notify n := by
    have := Tab.get_modify s.ports p.ix p.ix (fun x => x.notify n)
    rw [if_pos rfl] at this
    exact this
  unfold Told
  rw [port]
  unfold PortState.notify
  rw [if_pos h]
  exact enqueue_told _ n

theorem announce_heard (s : State) (n : Notice) : Heard s (s.announce n) := (announce_claims s n).heard

theorem announce_announced (s : State) (n : Notice) : Announced (s.announce n) n := fun q h k => by
  have port : (s.announce n).port q = (s.port q).hear n := Tab.get_each s.ports _ q.ix
  rw [(announce_heard s n).online] at h
  rw [(announce_heard s n).subscriptions] at k
  unfold Told
  rw [port]
  unfold PortState.hear
  rw [if_pos (by simp [h, k])]
  exact enqueue_told _ n

end State

theorem Heard.announced {s t : State} (h : Heard s t) {n : Notice} (k : Announced s n) : Announced t n := fun q a b => by
  rw [h.online] at a
  rw [h.subscriptions] at b
  exact h.told q n (k q a b)

namespace State

theorem endSlot_told {s : State} {n : SlotNo} {k : Slot} (h : s.slot n = some k) (r : EndReason)
    (on : (s.port k.owner).isOnline = true) : Told (s.endSlot n r) k.owner (.standbyEnd n r) :=
  (Heard.of_ports (endSlot_some h r).2.2.2).told _ _ (notify_told s _ _ on)

theorem reportRecoveries_heard (s : State) (cs : List Circuit) : Heard s (s.reportRecoveries cs) :=
  (reportRecoveries_claims s cs).heard

theorem settle_heard (s : State) (drops : List TrackerLink) (reports : List Circuit) :
    Heard s (s.settle drops reports) := (settle_claims s drops reports).heard

theorem notify_heard (s : State) (p : Port) (n : Notice) : Heard s (s.notify p n) := (notify_claims s p n).heard

theorem notifyPreempted_heard (t : Standings) (actor : Option Owner) (p : Port) (s : State) (o : Owner) :
    Heard s (s.notifyPreempted t actor p o) := by
  unfold notifyPreempted; dsimp only; split
  · exact notify_heard s p _
  · exact .refl s

theorem notifyRestored_heard (t : Standings) (actor : Option Owner) (p : Port) (s : State) :
    Heard s (s.notifyRestored t actor p) := by
  unfold notifyRestored; dsimp only; split
  · exact notify_heard s p _
  · exact .refl s

theorem commandNotices_heard (s : State) (t : Standings) (actor : Option Owner) :
    Heard s (s.commandNotices t actor) := (commandNotices_claims s t actor).heard

/-- The notices of command leave no replay owed. -/
theorem commandNotices_owed (s : State) (t : Standings) (actor : Option Owner) :
    (s.commandNotices t actor).replayOwed = s.replayOwed := by
  let R := fun a b : State => b.replayOwed = a.replayOwed
  have trans : ∀ a b c, R a b → R b c → R a c := fun _ _ _ h k => k.trans h
  have pre : ∀ p (s : State) o, R s (s.notifyPreempted t actor p o) := fun p s o => by
    unfold notifyPreempted; dsimp only; split <;> rfl
  have res : ∀ p (s : State), R s (s.notifyRestored t actor p) := fun p s => by
    unfold notifyRestored; dsimp only; split <;> rfl
  exact foldl_keeps R (fun _ => rfl) trans _
    (fun s p => trans _ _ _ (foldl_keeps R (fun _ => rfl) trans _ (pre p) _ s) (res p _)) _ s

theorem Port.mem_all (p : Port) : p ∈ Port.all := by cases p <;> decide

theorem Owner.mem_all (o : Owner) : o ∈ Owner.all := by
  cases o with
  | port p => cases p <;> decide
  | field => decide
  | seq n => revert n; decide
  | mode => decide

/-- A port told of what an owner took from it, and of what came back to it (R23, R24). -/
theorem commandNotices_told (s : State) (t : Standings) (actor : Option Owner) (p : Port)
    (on : (s.port p).isOnline = true) :
    (∀ o, 0 < t.preempted s.tables.ranks actor p o →
      Told (s.commandNotices t actor) p (.preempted o (t.preempted s.tables.ranks actor p o)))
    ∧ (0 < t.restored s.tables.ranks actor p →
      Told (s.commandNotices t actor) p (.restored (t.restored s.tables.ranks actor p))) := by
  let R := fun a b : State => Heard a b ∧ b.tables = a.tables
  have refl : ∀ a, R a a := fun a => ⟨.refl a, rfl⟩
  have trans : ∀ a b c, R a b → R b c → R a c := fun a b c h k => ⟨h.1.trans k.1, k.2.trans h.2⟩
  have pre : ∀ q (s : State) o, R s (s.notifyPreempted t actor q o) := fun q s o =>
    ⟨notifyPreempted_heard t actor q s o, by unfold notifyPreempted; dsimp only; split <;> rfl⟩
  have res : ∀ q (s : State), R s (s.notifyRestored t actor q) := fun q s =>
    ⟨notifyRestored_heard t actor q s, by unfold notifyRestored; dsimp only; split <;> rfl⟩
  have port : ∀ (s : State) q, R s ((Owner.all.foldl (fun s o => s.notifyPreempted t actor q o) s).notifyRestored t actor q) :=
    fun s q => trans _ _ _ (foldl_keeps R refl trans _ (pre q) _ s) (res q _)
  have fold : ∀ {β : Type} (f : State → β → State) (_ : ∀ s b, R s (f s b)) (n : Notice) (l : List β) (s : State) (b : β),
      b ∈ l → (∀ u, R s u → Told (f u b) p n) → Told (l.foldl f s) p n := fun f h n l => by
    induction l with
    | nil => intro s b m; simp at m
    | cons a l ih =>
      intro s b m k
      rw [List.foldl_cons]
      rcases List.mem_cons.mp m with rfl | m
      · exact (foldl_keeps R refl trans f h l _).1.told p n (k s (refl s))
      · exact ih (f s a) b m fun u e => k u (trans _ _ _ (h s a) e)
  constructor
  · intro o h
    unfold commandNotices
    refine fold _ port _ Port.all s p (Port.mem_all p) fun u hu => ?_
    refine (notifyRestored_heard t actor p _).told _ _ (fold _ (pre p) _ Owner.all u o (Owner.mem_all o) fun w hw => ?_)
    have e : w.tables = s.tables := hw.2.trans hu.2
    unfold notifyPreempted
    rw [e]
    dsimp only
    rw [if_pos h]
    exact notify_told w p _ (by rw [hw.1.online, hu.1.online]; exact on)
  · intro h
    unfold commandNotices
    refine fold _ port _ Port.all s p (Port.mem_all p) fun u hu => ?_
    have w := foldl_keeps R refl trans _ (pre p) Owner.all u
    unfold notifyRestored
    rw [w.2.trans hu.2]
    dsimp only
    rw [if_pos h]
    exact notify_told _ p _ (by rw [w.1.online, hu.1.online]; exact on)

/-! ## Command told by placements and releases -/

theorem standings_told {s v : State} {mid after : Tab CircuitState 192} {o : Owner}
    (hv : ∀ c q, inCommandOf s.tables.ranks (after.get c).claims q = v.inCommand c q) (q : Port)
    (h : Owner.port q ≠ o) :
    ({ before := s.circuits, mid := mid, after := after } : Standings).preempted s.tables.ranks (some o) q o =
      takenFrom s v q o
    ∧ ({ before := s.circuits, mid := mid, after := after } : Standings).restored s.tables.ranks (some o) q =
      givenBack s v q := by
  have ne : (some o == some (Owner.port q)) = false := by simpa using h.symm
  have ne' : ¬ (some o = some (Owner.port q)) := by simpa using h.symm
  constructor
  · unfold Standings.preempted Standings.lostOn takenFrom
    rw [List.filter_filter]
    congr 2
    funext c
    unfold Standings.took Standings.lost
    dsimp only
    rw [hv, hv, ne]
    show _ = (inCommandOf s.tables.ranks (s.claims c) (.port q) && _ && _)
    simp only [beq_self_eq_true, Bool.true_or, Bool.and_true, Bool.not_false]
    rw [Bool.and_comm]
    rfl
  · unfold Standings.restored givenBack
    rw [if_neg ne']
    congr 2
    funext c
    dsimp only
    rw [hv]
    unfold held
    rfl

/-- An event of an actor tells the other ports what it took from them and gave back (R23, R24). -/
theorem told_of_event {s start v : State} {mid after : Tab CircuitState 192} {o : Owner} {drops : List TrackerLink}
    {reports : List Circuit} (tables : start.tables = s.tables)
    (hv : v = (start.commandNotices { before := s.circuits, mid := mid, after := after } (some o)).settle drops reports)
    (cmd : ∀ c q, inCommandOf s.tables.ranks (after.get c).claims q = v.inCommand c q) : CommandTold s v o := by
  have heard : Heard start v := by
    rw [hv]; exact (commandNotices_heard _ _ _).trans (settle_heard _ _ _)
  have tell := fun q (on : (v.port q).isOnline = true) =>
    commandNotices_told start { before := s.circuits, mid := mid, after := after } (some o) q
      (by rw [← heard.online]; exact on)
  have count := fun q (h : Owner.port q ≠ o) => standings_told (mid := mid) (after := after) cmd q h
  constructor
  · intro q h on pos
    have k := (tell q on).1 o
    rw [tables, (count q h).1] at k
    rw [hv] at pos k ⊢
    exact (settle_heard _ _ _).told _ _ (k pos)
  · intro q h on pos
    have k := (tell q on).2
    rw [tables, (count q h).2] at k
    rw [hv] at pos k ⊢
    exact (settle_heard _ _ _).told _ _ (k pos)

/-- A placement tells the other ports (R23, R24). -/
theorem place_told (s : State) (pl : Placement) : CommandTold s (s.place pl) pl.owner := by
  have tables : (s.place pl).tables = s.tables := by
    rw [place_eq]
    refine ((commandNotices_claims _ _ _).trans (settle_claims _ _ _)).tables.trans ?_
    unfold placeStart
    cases pl.tracker <;> rfl
  refine told_of_event (start := s.placeStart pl) ?_ (place_eq s pl) fun c q => ?_
  · unfold placeStart; cases pl.tracker <;> rfl
  · have k := (place_circuit s pl c).inCommand s.tables.ranks q
    rw [placeAfter_get]
    unfold inCommand
    rw [tables]
    exact k.symm

/-- A release tells the other ports (R23, R24). -/
theorem release_told (s : State) (o : Owner) (cs : List Circuit) (time : Nat) : CommandTold s (s.release o cs time) o := by
  have tables : (s.release o cs time).tables = s.tables := by
    exact (release_claims s o cs time).tables
  let mid : Tab CircuitState 192 := .build fun c =>
    if cs.contains c then (s.circuit c).released s.tables.ranks (s.level c) (s.forced c) o time else s.circuit c
  refine told_of_event (mid := mid) (after := s.promoteWhere mid cs.contains)
    (start := { s with circuits := s.promoteWhere mid cs.contains, event := s.event + 1 }) rfl rfl fun c q => ?_
  have k := (release_circuit s o cs time c).inCommand s.tables.ranks q
  unfold inCommand
  rw [tables]
  refine Eq.trans ?_ k.symm
  unfold promoteWhere
  simp only [Tab.get_build, mid]
  split <;> rfl

/-! ## What settling leaves -/

/-- What a placement leaves of the ports' ears: notices told stay told. -/
theorem place_heard (s : State) (pl : Placement) : Heard s (s.place pl) := by
  have start : Heard s (s.placeStart pl) := .of_ports (by unfold placeStart; cases pl.tracker <;> rfl)
  rw [place_eq]
  exact start.trans ((commandNotices_heard _ _ _).trans (settle_heard _ _ _))

theorem release_heard (s : State) (o : Owner) (cs : List Circuit) (time : Nat) : Heard s (s.release o cs time) :=
  (release_claims s o cs time).heard

theorem endSlot_slot (s : State) (n m : SlotNo) (r : EndReason) :
    (s.endSlot n r).slot m = if m = n then none else s.slot m := by
  cases h : s.slot n with
  | none =>
    have : s.endSlot n r = s := by unfold endSlot; rw [h]
    rw [this]
    split
    · rename_i e; rw [e, h]
    · rfl
  | some k =>
    have e : (s.endSlot n r).slot m = (s.slots.set n none).get m := by
      unfold slot; rw [(endSlot_some h r).2.1]
    rw [e, Tab.get_set]
    rfl

theorem endSlot_owed (s : State) (n : SlotNo) (r : EndReason) :
    (s.endSlot n r).replayOwed = (s.replayOwed || (s.slot n).isSome) := by
  unfold endSlot
  cases s.slot n <;> simp

theorem endSlot_trackers (s : State) (n : SlotNo) (r : EndReason) : (s.endSlot n r).trackers = s.trackers := by
  cases h : s.slot n with
  | none => unfold endSlot; rw [h]
  | some k => exact (endSlot_some h r).2.2.1

/-- The slots that meet `which` end, each telling its ONLINE owner, and leave a replay owed; the others stand (R116). -/
theorem endSlots_slots (s : State) (which : Slot → Bool) (r : EndReason) :
    (∀ n, (s.endSlots which r).slot n = if (s.slot n).any which then none else s.slot n)
    ∧ (s.endSlots which r).trackers = s.trackers
    ∧ ((s.endSlots which r).replayOwed = true ↔ s.replayOwed = true ∨ ∃ n, (s.slot n).any which = true)
    ∧ (∀ n k, s.slot n = some k → which k = true → (s.port k.owner).isOnline = true →
        Told (s.endSlots which r) k.owner (.standbyEnd n r)) := by
  have fold : ∀ (l : List SlotNo), l.Nodup → ∀ s : State,
      let t := l.foldl (fun s n => if (s.slot n).any which then s.endSlot n r else s) s
      (∀ n, t.slot n = if n ∈ l ∧ (s.slot n).any which then none else s.slot n)
      ∧ t.trackers = s.trackers
      ∧ (t.replayOwed = true ↔ s.replayOwed = true ∨ ∃ n ∈ l, (s.slot n).any which = true)
      ∧ Heard s t
      ∧ (∀ n ∈ l, ∀ k, s.slot n = some k → which k = true → (s.port k.owner).isOnline = true →
          Told t k.owner (.standbyEnd n r)) := by
    intro l
    induction l with
    | nil => exact fun _ s => ⟨fun n => by simp, rfl, by simp, .refl s, by simp⟩
    | cons a l ih =>
      intro nd s
      rw [List.nodup_cons] at nd
      obtain ⟨slots, tr, owed, heard, told⟩ := ih nd.2 (if (s.slot a).any which then s.endSlot a r else s)
      rw [List.foldl_cons]
      have other : ∀ n, n ≠ a → (if (s.slot a).any which then s.endSlot a r else s).slot n = s.slot n := fun n h => by
        split
        · rw [endSlot_slot, if_neg h]
        · rfl
      have hs : Heard s (if (s.slot a).any which then s.endSlot a r else s) := by
        split
        · exact (endSlot_claims s a r).heard
        · exact .refl s
      refine ⟨fun n => ?_, tr.trans ?_, owed.trans ?_, hs.trans heard, fun n m k e w on => ?_⟩
      · rw [slots]
        by_cases h : n = a
        · subst h
          simp only [nd.1, false_and, if_false, List.mem_cons, true_or, true_and]
          split
          · rw [endSlot_slot, if_pos rfl]
          · rfl
        · rw [other n h]
          simp only [List.mem_cons, h, false_or]
      · split
        · exact endSlot_trackers s a r
        · rfl
      · have rest : (∃ n ∈ l, ((if (s.slot a).any which then s.endSlot a r else s).slot n).any which = true) ↔
            ∃ n ∈ l, (s.slot n).any which = true := by
          constructor
          · rintro ⟨n, m, h⟩; exact ⟨n, m, by rwa [other n (fun e => nd.1 (e ▸ m))] at h⟩
          · rintro ⟨n, m, h⟩; exact ⟨n, m, by rwa [other n (fun e => nd.1 (e ▸ m))]⟩
        rw [rest]
        simp only [List.mem_cons, exists_eq_or_imp]
        split
        · rename_i h
          rw [endSlot_owed]
          have : (s.slot a).isSome = true := by
            cases g : s.slot a with
            | none => rw [g] at h; simp at h
            | some _ => rfl
          simp [this, h]
        · rename_i h
          simp [h]
      · rcases List.mem_cons.mp m with rfl | m
        · refine heard.told _ _ ?_
          rw [if_pos (by rw [e]; exact w)]
          exact endSlot_told e r on
        · exact told n m k (by rw [other n (fun h => nd.1 (h ▸ m))]; exact e) w (by rw [hs.online]; exact on)
  obtain ⟨slots, tr, owed, _, told⟩ := fold (indices 4) (by decide) s
  refine ⟨fun n => ?_, tr, owed.trans (by simp), fun n k e w on => told n (mem_indices n) k e w on⟩
  have := slots n
  simp only [mem_indices, true_and] at this
  exact this

/-- What `settle` leaves of trackers and slots, by the links taken away (R47 to R49, R116, R117). -/
theorem settle_settles (s : State) (drops : List TrackerLink) (reports : List Circuit) :
    (s.settle drops reports).trackers =
      (s.trackers.map fun t => { t with count := t.count - drops.count (.pool t.id) }).filter (fun t => t.count != 0)
    ∧ (∀ t ∈ s.trackers, t.count ≤ drops.count (.pool t.id) → (s.port t.port).isOnline = true →
        Told (s.settle drops reports) t.port (.fadeDone t.tag))
    ∧ (∀ n, (s.settle drops reports).slot n = ((s.slot n).map (Slot.decrement (drops.count (.slot n)))).filter
        fun k => k.phase != .going 0)
    ∧ (∀ n k, s.slot n = some k → (k.decrement (drops.count (.slot n))).phase = .going 0 →
        (s.port k.owner).isOnline = true → Told (s.settle drops reports) k.owner (.standbyEnd n .done))
    ∧ ((s.settle drops reports).replayOwed = true ↔
        s.replayOwed = true ∨ ∃ n, s.slot n ≠ none ∧ (s.settle drops reports).slot n = none) := by
  have post : ∀ (l : List Tracker) (u : State),
      let w := l.foldl (fun s t => s.notify t.port (.fadeDone t.tag)) u
      w.slots = u.slots ∧ w.replayOwed = u.replayOwed
      ∧ (∀ t ∈ l, (u.port t.port).isOnline = true → Told w t.port (.fadeDone t.tag)) := by
    intro l
    induction l with
    | nil => exact fun _ => ⟨rfl, rfl, by simp⟩
    | cons a l ih =>
      intro u
      obtain ⟨h, o, k⟩ := ih (u.notify a.port (.fadeDone a.tag))
      dsimp only [List.foldl_cons]
      refine ⟨h, o, fun t m on => ?_⟩
      rcases List.mem_cons.mp m with rfl | m
      · exact (foldl_keeps Heard .refl (fun _ _ _ => .trans) _ (fun s (b : Tracker) => notify_heard s b.port (.fadeDone b.tag))
          l _).told _ _
          (notify_told u _ _ on)
      · exact k t m (by rw [(notify_heard u a.port _).online]; exact on)
  let u := s.decrement drops
  let x := u.freeZeroTrackers
  let y := x.reportRecoveries reports
  have hu : u.trackers = s.trackers.map fun t => { t with count := t.count - drops.count (.pool t.id) } := rfl
  have us : ∀ n, u.slot n = (s.slot n).map (Slot.decrement (drops.count (.slot n))) := fun n => Tab.get_build _ n
  have hx : x.trackers = u.trackers.filter fun t => !(t.count == 0) := rfl
  have px := post (u.trackers.filter fun t => t.count == 0) u
  have xs : ∀ n, x.slot n = u.slot n := fun n => slot_of_slots (s := u) (t := x) px.1 n
  have xo : x.replayOwed = s.replayOwed := px.2.1
  have hy : y.trackers = x.trackers ∧ y.slots = x.slots ∧ y.replayOwed = x.replayOwed := by
    show (x.reportRecoveries reports).trackers = _ ∧ (x.reportRecoveries reports).slots = _
      ∧ (x.reportRecoveries reports).replayOwed = _
    unfold reportRecoveries
    split
    · dsimp only
      split <;> exact ⟨rfl, rfl, rfl⟩
    · exact ⟨rfl, rfl, rfl⟩
  have ys : ∀ n, y.slot n = u.slot n := fun n => (slot_of_slots hy.2.1 n).trans (xs n)
  obtain ⟨zs, zt, zo, ztold⟩ := endSlots_slots y (fun k => k.phase == .going 0) .done
  have done : s.settle drops reports = y.endSlots (fun k => k.phase == .going 0) .done := rfl
  have heard : Heard s y := (Heard.of_ports (s := s) (t := u) rfl).trans
    ((freeZeroTrackers_claims u).heard.trans (reportRecoveries_heard _ _))
  have slots : ∀ n, (s.settle drops reports).slot n =
      ((s.slot n).map (Slot.decrement (drops.count (.slot n)))).filter fun k => k.phase != .going 0 := fun n => by
    rw [done, zs, ys, us]
    cases (s.slot n).map (Slot.decrement (drops.count (.slot n))) with
    | none => rfl
    | some k =>
      simp only [Option.any_some, Option.filter_some]
      by_cases e : k.phase = .going 0 <;> simp [e]
  refine ⟨?_, fun t m le on => ?_, slots, fun n k e g on => ?_, ?_⟩
  · rw [done, zt, hy.1, hx, hu]
    rfl
  · rw [done]
    refine ((reportRecoveries_heard _ _).trans (endSlots_claims _ _ _).heard).told _ _ ?_
    have told := px.2.2 { t with count := t.count - drops.count (.pool t.id) } (by
      rw [List.mem_filter, hu]
      exact ⟨List.mem_map.mpr ⟨t, m, rfl⟩, by simpa using Nat.sub_eq_zero_of_le le⟩) on
    exact (Heard.of_ports (s := (u.trackers.filter fun t => t.count == 0).foldl
      (fun s t => s.notify t.port (.fadeDone t.tag)) u) (t := x) rfl).told _ _ told
  · rw [done]
    have own : (k.decrement (drops.count (.slot n))).owner = k.owner := by unfold Slot.decrement; split <;> rfl
    have told := ztold n (k.decrement (drops.count (.slot n))) (by rw [ys, us, e]; rfl) (by simpa using g)
      (by rw [own, heard.online]; exact on)
    rwa [own] at told
  · rw [done, zo, hy.2.2, xo]
    refine or_congr Iff.rfl (exists_congr fun n => ?_)
    rw [zs, ys, us]
    cases s.slot n with
    | none => simp
    | some k => simp

end State
end Sys2Proof.Machine
end

