-- ==== Sys2Proof/Laws/Links.lean ====
section
/-! SUPPORT. How placements, releases and completed fades settle trackers: the links an event takes away are those `linksLost` counts, and what is left is `LinksSettle`. -/

namespace Sys2Proof.Machine

/-! ## Sums over circuits -/

theorem indices_nodup : (indices 192).Nodup := by decide +kernel

theorem sum_filter {α : Type} (on : α → Bool) (f : α → Nat) (l : List α) :
    ((l.filter on).map f).sum = (l.map fun a => if on a then f a else 0).sum := by
  induction l with
  | nil => rfl
  | cons a l ih =>
    rw [List.filter_cons, List.map_cons, List.sum_cons, ← ih]
    split <;> simp

/-- A sum over distinct circuits is a sum over all of them. -/
theorem sum_named {cs : List Circuit} (h : cs.Nodup) (f : Circuit → Nat) :
    (cs.map f).sum = ((indices 192).map fun c => if cs.contains c then f c else 0).sum := by
  rw [← sum_filter]
  have p : cs.Perm ((indices 192).filter cs.contains) := by
    rw [List.perm_ext_iff_of_nodup h (indices_nodup.filter _)]
    intro c
    simp
  exact (p.map f).sum_eq

theorem sum_add {α : Type} (f g : α → Nat) (l : List α) :
    (l.map fun a => f a + g a).sum = (l.map f).sum + (l.map g).sum := List.sum_map_add

theorem length_filter_sum {α : Type} (p : α → Bool) (l : List α) :
    (l.filter p).length = (l.map fun a => if p a then 1 else 0).sum := by
  rw [← sum_filter p (fun _ => 1), List.map_const', List.sum_replicate]
  simp

/-! ## One claim of an owner -/

/-- In a list in order the claim of an owner is the one that stands there. -/
theorem claimOf_mem {L : List Claim} (h : (L.map Claim.owner).Nodup) {x : Claim} (m : x ∈ L) :
    claimOf x.owner L = some x := by
  unfold claimOf
  induction L with
  | nil => simp at m
  | cons a L ih =>
    rw [List.map_cons, List.nodup_cons] at h
    rcases List.mem_cons.mp m with rfl | m
    · simp
    · rw [List.find?_cons_of_neg, ih h.2 m]
      intro e
      exact h.1 (List.mem_map.mpr ⟨x, m, (by simpa using e : a.owner = x.owner).symm⟩)

/-- The claims of an owner that meet a test: its one claim, or none. -/
theorem countP_owner {L : List Claim} (h : (L.map Claim.owner).Nodup) (o : Owner) (p : Claim → Bool) :
    L.countP (fun x => x.owner == o && p x) = if (claimOf o L).any p then 1 else 0 := by
  induction L with
  | nil => rfl
  | cons a L ih =>
    rw [List.map_cons, List.nodup_cons] at h
    rw [List.countP_cons]
    by_cases e : a.owner = o
    · have none : L.countP (fun x => x.owner == o && p x) = 0 := by
        rw [List.countP_eq_zero]
        intro x m
        have : x.owner ≠ o := fun k => h.1 (by rw [e, ← k]; exact List.mem_map_of_mem m)
        simp [this]
      have : claimOf o (a :: L) = some a := by unfold claimOf; rw [List.find?_cons_of_pos (by simpa using e)]
      rw [none, this]
      simp [e]
    · have : claimOf o (a :: L) = claimOf o L := by
        unfold claimOf; rw [List.find?_cons_of_neg (by simpa using e)]
      rw [this, ih h.2]
      simp [e]

theorem countP_without (o : Owner) (p : Claim → Bool) (L : List Claim) :
    L.countP p = L.countP (fun x => x.owner == o && p x) + (without o L).countP p := by
  unfold without
  rw [List.countP_filter]
  induction L with
  | nil => rfl
  | cons a L ih =>
    simp only [List.countP_cons]
    rw [ih]
    by_cases e : a.owner = o <;> by_cases q : p a = true <;> simp [e, q] <;> omega

theorem countP_enterRank (x : Claim) (l : List Claim) (p : Claim → Bool) :
    (enterRank x l).countP p = (if p x then 1 else 0) + l.countP p := by
  have perm : (enterRank x l).Perm (x :: l) := by
    unfold enterRank
    refine List.perm_middle.trans ?_
    rw [List.takeWhile_append_dropWhile]
  rw [perm.countP_eq, List.countP_cons, Nat.add_comm]

theorem countP_add {α : Type} {p q r : α → Bool} {l : List α}
    (h : ∀ x ∈ l, (if p x then 1 else 0) + (if q x then 1 else 0) = if r x then 1 else 0) :
    l.countP p + l.countP q = l.countP r := by
  induction l with
  | nil => rfl
  | cons a l ih =>
    have i := ih fun x m => h x (List.mem_cons_of_mem _ m)
    have e := h a (List.mem_cons_self ..)
    simp only [List.countP_cons]
    omega

/-! ## Promotions -/

/-- The claim `x` is complete in the list `l`, having waited or faded before. -/
def arrivedIn (l : List Claim) (x : Claim) : Bool :=
  x.state != .effective none && (claimOf x.owner l).any fun y => y.state == .effective none

theorem arrivedIn_congr {l m : List Claim} (x : Claim)
    (h : (claimOf x.owner l).map Claim.state = (claimOf x.owner m).map Claim.state) : arrivedIn l x = arrivedIn m x := by
  unfold arrivedIn
  congr 1
  cases a : claimOf x.owner l <;> cases b : claimOf x.owner m <;> rw [a, b] at h <;> simp_all

theorem arrivedIn_self {L : List Claim} (h : (L.map Claim.owner).Nodup) {x : Claim} (m : x ∈ L) :
    arrivedIn L x = false := by
  unfold arrivedIn
  rw [claimOf_mem h m]
  simp

/-- The links promotions take away are those of the claims they complete (R16, R47). -/
theorem promotionDrops_count (x : CircuitState) (modes : Tab MergeMode 8) (r : CircuitRecord) (e : EmergencyState)
    (event : Nat) (h : (x.claims.map Claim.owner).Nodup) (l : TrackerLink) :
    (x.promotionDrops modes).count l =
      x.claims.countP fun c => c.tracker == some l && arrivedIn (x.promote modes r e event).claims c := by
  unfold CircuitState.promotionDrops
  by_cases p : promotable modes x.claims = true
  · rw [if_pos p, List.count_filterMap]
    refine List.countP_congr fun c m => ?_
    have claims : ∃ level, (x.promote modes r e event).claims =
        x.claims.map fun c => c.promoted level event (inCommandOf modes (x.claims.map Claim.woken) c.owner) := by
      unfold CircuitState.promote
      rw [if_pos p]
      dsimp only
      split <;> exact ⟨_, rfl⟩
    obtain ⟨level, claims⟩ := claims
    unfold arrivedIn
    rw [claims, claimOf_map c.owner _ _ fun c => (SameCircuit.promoted_keys _ _ _ c).1, claimOf_mem h m]
    unfold Claim.promoted Claim.promotionDrop
    cases st : c.state with
    | effective f => cases f <;> simp [st]
    | waiting held =>
      dsimp only
      by_cases b : inCommandOf modes (x.claims.map Claim.woken) c.owner = true ∧ 0 < held <;> simp [st, b]
  · rw [if_neg p]
    have claims : (x.promote modes r e event).claims = x.claims := by
      unfold CircuitState.promote; rw [if_neg p]
    rw [claims]
    symm
    rw [List.count_nil, List.countP_eq_zero]
    intro c m
    rw [arrivedIn_self h m]
    simp

/-- A claim that a promotion completes had waited; an EFFECTIVE claim keeps its state. -/
theorem arrivedIn_promote (x : CircuitState) (modes : Tab MergeMode 8) (r : CircuitRecord) (e : EmergencyState)
    (event : Nat) (h : (x.claims.map Claim.owner).Nodup) {c : Claim} (m : c ∈ x.claims) (k : c.isEffective = true) :
    arrivedIn (x.promote modes r e event).claims c = false := by
  have st := promote_standing x modes r e event (claimOf_mem h m) k
  unfold arrivedIn
  cases b : claimOf c.owner (x.promote modes r e event).claims with
  | none => simp
  | some y =>
    rw [b] at st
    simp only [Option.map_some, Option.some.injEq] at st
    simp [st]

namespace State

/-! ## The links an event takes away -/

/-- Claims are read alike in the circuits an event leaves and in the circuits before slots settled. -/
theorem arrived_eq {v : State} {c : Circuit} {y : CircuitState} (h : LinksOnly y (v.circuit c)) (x : Claim) :
    arrived v c x = arrivedIn y.claims x := arrivedIn_congr x (h.state x.owner)

theorem linksLost_eq (s v : State) (o : Option Owner) (cs : List Circuit) (l : TrackerLink) :
    linksLost s v o cs l = ((indices 192).map fun c => (s.claims c).countP fun x =>
      x.tracker == some l && (o == some x.owner && cs.contains c || arrived v c x)).sum := by
  unfold linksLost
  simp only [List.countP_eq_length_filter]

theorem linksOf_count (s : State) (o : Owner) {cs : List Circuit} (h : cs.Nodup) (l : TrackerLink) :
    (s.linksOf o cs).count l = ((indices 192).map fun c =>
      if cs.contains c then (if (claimOf o (s.claims c)).any (fun x => x.tracker == some l) then 1 else 0) else 0).sum := by
  unfold linksOf
  rw [List.count_filterMap, List.countP_eq_length_filter, length_filter_sum, sum_named h]
  congr 2
  funext c
  congr 2
  cases claimOf o (s.claims c) <;> simp

theorem promotionDropsWhere_count (s : State) (mid : Tab CircuitState 192) (on : Circuit → Bool) (l : TrackerLink) :
    (s.promotionDropsWhere mid on).count l = ((indices 192).map fun c =>
      if on c then ((mid.get c).promotionDrops s.tables.ranks).count l else 0).sum := by
  unfold promotionDropsWhere
  rw [List.count_flatMap, ← sum_filter]
  rfl

/-- The claims without the owner's that lose a link: those a promotion completes. -/
theorem without_lost (o : Owner) (L : List Claim) (h : (L.map Claim.owner).Nodup) (l : TrackerLink) (a : Claim → Bool) :
    L.countP (fun x => x.tracker == some l && (some o == some x.owner && true || a x)) =
      (if (claimOf o L).any (fun x => x.tracker == some l) then 1 else 0)
        + (without o L).countP fun x => x.tracker == some l && a x := by
  rw [countP_without o]
  congr 1
  · rw [← countP_owner h o]
    refine List.countP_congr fun x _ => ?_
    by_cases e : x.owner = o
    · simp [e]
    · simp [e]
  · refine List.countP_congr fun x m => ?_
    have ne : ¬ (o = x.owner) := fun e => (mem_without.mp m).2 e.symm
    simp [ne]

/-- A circuit an event does not touch loses no link. -/
theorem untouched_lost (L : List Claim) (h : (L.map Claim.owner).Nodup) (l : TrackerLink) (o : Option Owner) :
    L.countP (fun x => x.tracker == some l && (o == some x.owner && false || arrivedIn L x)) = 0 := by
  rw [List.countP_eq_zero]
  intro x m
  rw [arrivedIn_self h m]
  simp

/-- The links a release takes away (R47). -/
theorem release_drops (s : State) (o : Owner) {cs : List Circuit} (time : Nat) (h : ListsInOrder s) (nd : cs.Nodup)
    (l : TrackerLink) :
    (s.linksOf o cs ++ s.promotionDropsWhere (.build fun c =>
      if cs.contains c then (s.circuit c).released s.tables.ranks (s.level c) (s.forced c) o time else s.circuit c)
        cs.contains).count l = linksLost s (s.release o cs time) (some o) cs l := by
  rw [List.count_append, linksOf_count s o nd, promotionDropsWhere_count, linksLost_eq, ← sum_add]
  congr 2
  funext c
  have links := release_circuit s o cs time c
  have nodup : ((s.claims c).map Claim.owner).Nodup := (h c).2
  simp only [arrived_eq links, Tab.get_build]
  cases b : cs.contains c with
  | false =>
    simp only [Bool.false_eq_true, if_false]
    exact (untouched_lost _ nodup l (some o)).symm
  | true =>
    simp only [if_true]
    rw [without_lost o _ nodup]
    congr 1
    have claims := released_claims (s.circuit c) s.tables.ranks (s.level c) (s.forced c) o time
    have sub : (((s.circuit c).released s.tables.ranks (s.level c) (s.forced c) o time).claims.map Claim.owner).Nodup := by
      rw [claims]; exact ((h c).without o).2
    rw [promotionDrops_count _ _ (s.record c) s.emergency.state s.event sub, claims]
    rfl

/-- The links a placement takes away: those of `linksLost`, and those of its own claims that a promotion completes at
once (R16, R47). -/
def promotedAtOnce (s : State) (pl : Placement) (l : TrackerLink) (c : Circuit) : Nat :=
  if (claimOf pl.owner ((s.placeMid pl).get c).claims).any (fun x =>
      x.tracker == some l && arrivedIn ((s.placeAfter pl).get c).claims x) then 1 else 0

theorem place_named (pl : Placement) (c : Circuit) : (pl.items.map PlaceItem.circuit).contains c = (pl.on c).isSome := by
  unfold Placement.on
  rw [Bool.eq_iff_iff, List.find?_isSome]
  simp [List.mem_map]

theorem placeMid_get (s : State) (pl : Placement) (c : Circuit) :
    (s.placeMid pl).get c = match pl.on c with
      | none => s.circuit c
      | some it => (s.circuit c).placed s.tables.ranks (s.level c) pl.owner pl.wait pl.tracker.link s.event it := by
  unfold placeMid
  exact Tab.get_build _ c

theorem place_drops (s : State) (pl : Placement) (h : ListsInOrder s) (nd : (pl.items.map PlaceItem.circuit).Nodup)
    (l : TrackerLink) :
    (s.placeDrops pl).count l = linksLost s (s.place pl) (some pl.owner) (pl.items.map PlaceItem.circuit) l
      + ((pl.items.map PlaceItem.circuit).map (s.promotedAtOnce pl l)).sum := by
  unfold placeDrops
  rw [List.count_append, linksOf_count s pl.owner nd, promotionDropsWhere_count, linksLost_eq, sum_named nd, ← sum_add,
    ← sum_add]
  congr 2
  funext c
  have links := place_circuit s pl c
  have nodup : ((s.claims c).map Claim.owner).Nodup := (h c).2
  simp only [arrived_eq links, place_named]
  unfold promotedAtOnce
  rw [placeMid_get, placeAfter_get]
  cases on : pl.on c with
  | none =>
    simp only [Option.isSome_none, Bool.false_eq_true, if_false]
    have := untouched_lost (s.claims c) nodup l (some pl.owner)
    unfold State.claims at this ⊢
    rw [this]
  | some it =>
    simp only [Option.isSome_some, if_true]
    obtain ⟨x, claims, own, _⟩ := placed_claims (s.circuit c) s.tables.ranks (s.level c) pl.owner pl.wait
      pl.tracker.link s.event it
    have listed : Listed (enterRank x (without pl.owner (s.circuit c).claims)) :=
      ((h c).without pl.owner).enterRank fun y hy => by rw [own]; exact (mem_without.mp hy).2
    rw [without_lost pl.owner _ nodup, Nat.add_assoc]
    congr 1
    rw [promotionDrops_count _ _ (s.record c) s.emergency.state s.event (by rw [claims]; exact listed.2)]
    have mem : claimOf pl.owner (enterRank x (without pl.owner (s.circuit c).claims)) = some x := by
      rw [← own]
      exact claimOf_mem (by rw [own]; exact listed.2) (mem_enterRank.mpr (.inl rfl))
    conv_lhs => rw [claims, countP_enterRank]
    rw [claims, mem, Nat.add_comm]
    simp only [Option.any_some]
    rfl

/-- The claims a tracked placement links: those that travel when it is done, and those a promotion completes at once. -/
theorem place_linked (s : State) (pl : Placement) (h : ListsInOrder s) {l : TrackerLink}
    (link : pl.tracker.link = some l) :
    ((pl.items.map PlaceItem.circuit).filter fun c =>
      ((claimOf pl.owner ((s.placeMid pl).get c).claims).bind Claim.tracker).isSome).length =
    ((pl.items.map PlaceItem.circuit).filter (travels (s.place pl) pl.owner)).length
      + ((pl.items.map PlaceItem.circuit).map (s.promotedAtOnce pl l)).sum := by
  rw [length_filter_sum, length_filter_sum, ← sum_add]
  congr 1
  refine List.map_congr_left fun c m => ?_
  have named : (pl.on c).isSome = true := by
    rw [← place_named]; simpa using m
  obtain ⟨it, on⟩ := Option.isSome_iff_exists.mp named
  have links := place_circuit s pl c
  rw [on] at links
  dsimp only at links
  unfold promotedAtOnce
  rw [placeMid_get, placeAfter_get, on]
  dsimp only
  obtain ⟨x, claims, own, _, _, _, bare, tied⟩ := placed_claims (s.circuit c) s.tables.ranks (s.level c) pl.owner pl.wait
    pl.tracker.link s.event it
  have listed : Listed (enterRank x (without pl.owner (s.circuit c).claims)) :=
    ((h c).without pl.owner).enterRank fun y hy => by rw [own]; exact (mem_without.mp hy).2
  have mem : claimOf pl.owner (enterRank x (without pl.owner (s.circuit c).claims)) = some x := by
    rw [← own]
    exact claimOf_mem (by rw [own]; exact listed.2) (mem_enterRank.mpr (.inl rfl))
  have state := links.state pl.owner
  let z := ((s.circuit c).placed s.tables.ranks (s.level c) pl.owner pl.wait pl.tracker.link s.event it).promote
    s.tables.ranks (s.record c) s.emergency.state s.event
  have wish := promote_wish ((s.circuit c).placed s.tables.ranks (s.level c) pl.owner pl.wait pl.tracker.link s.event it)
    s.tables.ranks (s.record c) s.emergency.state s.event pl.owner
  rw [claims, mem] at wish
  obtain ⟨y, hy⟩ : ∃ y, claimOf pl.owner z.claims = some y := by
    cases k : claimOf pl.owner z.claims with
    | none =>
      have k' := k
      dsimp only [z] at k'
      rw [k'] at wish
      simp at wish
    | some y => exact ⟨y, rfl⟩
  have trav : travels (s.place pl) pl.owner c = (y.state != .effective none) := by
    have e : (claimOf pl.owner ((s.place pl).claims c)).map Claim.state = some y.state :=
      state.trans (by dsimp only [z] at hy; rw [hy]; rfl)
    unfold travels
    cases k : claimOf pl.owner ((s.place pl).claims c) with
    | none => rw [k] at e; simp at e
    | some w =>
      rw [k] at e
      simp only [Option.map_some, Option.some.injEq] at e
      dsimp only
      rw [e]
  have came : arrivedIn z.claims x = (x.state != .effective none && y.state == .effective none) := by
    unfold arrivedIn
    rw [own, hy]
    simp
  have came' := came
  dsimp only [z] at came'
  rw [claims, mem, trav]
  simp only [Option.bind_some, Option.any_some, came']
  by_cases e : x.state = .effective none
  · have keep : y.state = .effective none := by
      have st := promote_standing ((s.circuit c).placed s.tables.ranks (s.level c) pl.owner pl.wait pl.tracker.link
        s.event it) s.tables.ranks (s.record c) s.emergency.state s.event (q := pl.owner) (c := x)
        (by rw [claims]; exact mem) (by unfold Claim.isEffective; rw [e])
      dsimp only [z] at hy
      rw [hy] at st
      simpa [e] using st
    simp [e, bare e, keep]
  · have tr : x.tracker = some l := (tied e).trans link
    by_cases k : y.state = .effective none <;> simp [e, tr, k]

/-- `settle_settles` read for the state that stands when the event is over. -/
theorem settled_of_drops {a v : State} {drops : List TrackerLink} {reports : List Circuit}
    (hv : v = a.settle drops reports) (online : ∀ q, (v.port q).isOnline = (a.port q).isOnline) :
    v.trackers = (a.trackers.map fun t => { t with count := t.count - drops.count (.pool t.id) }).filter
        (fun t => t.count != 0)
    ∧ (∀ t ∈ a.trackers, t.count ≤ drops.count (.pool t.id) → (v.port t.port).isOnline = true →
        Told v t.port (.fadeDone t.tag))
    ∧ (∀ n k m, a.slot n = some k → k.phase = .going m → drops.count (.slot n) < m →
        v.slot n = some { k with phase := .going (m - drops.count (.slot n)) })
    ∧ (∀ n k m, a.slot n = some k → k.phase = .going m → m ≤ drops.count (.slot n) →
        v.slot n = none ∧ ((v.port k.owner).isOnline = true → Told v k.owner (.standbyEnd n .done)))
    ∧ (∀ n k, a.slot n = some k → k.phase = .armed → v.slot n = some k)
    ∧ (∀ n, a.slot n = none → v.slot n = none)
    ∧ (v.replayOwed = true ↔ a.replayOwed = true ∨ ∃ n, a.slot n ≠ none ∧ v.slot n = none) := by
  subst hv
  obtain ⟨tr, done, slots, ended, owed⟩ := settle_settles a drops reports
  have going : ∀ (k : Slot) m n, k.phase = .going m → k.decrement n = { k with phase := .going (m - n) } :=
    fun k m n h => by unfold Slot.decrement; rw [h]
  refine ⟨tr, fun t m le on => done t m le (by rw [← online]; exact on), fun n k m e g lt => ?_, fun n k m e g le => ?_,
    fun n k e g => ?_, fun n e => ?_, owed⟩
  · rw [slots, e, Option.map_some, going k m _ g]
    simp only [Option.filter_some]
    have : (SlotPhase.going (m - drops.count (.slot n)) != SlotPhase.going 0) = true := by simp; omega
    rw [if_pos this]
  · have z : m - drops.count (.slot n) = 0 := by omega
    refine ⟨?_, fun on => ended n k e ?_ (by rw [← online]; exact on)⟩
    · rw [slots, e, Option.map_some, going k m _ g, z]
      simp
    · rw [going k m _ g, z]
  · have : k.decrement (drops.count (.slot n)) = k := by unfold Slot.decrement; rw [g]
    rw [slots, e, Option.map_some, this]
    simp [g]
  · rw [slots, e]; rfl

/-- An event without a tracker of its own settles trackers and slots by the links it takes away. -/
theorem LinksSettle.of_notices {s start v : State} {t : Standings} {actor o : Option Owner} {cs : List Circuit}
    {drops : List TrackerLink} {reports : List Circuit} (slots : start.slots = s.slots)
    (trackers : start.trackers = s.trackers) (owed : start.replayOwed = s.replayOwed)
    (count : ∀ l, drops.count l = linksLost s v o cs l)
    (hv : v = (start.commandNotices t actor).settle drops reports) : LinksSettle s v o cs [] none := by
  have same := commandNotices_same start t actor
  have slot : ∀ n, (start.commandNotices t actor).slot n = s.slot n := fun n =>
    (slot_of_slots (s := start) same.2.1 n).trans (slot_of_slots slots n)
  obtain ⟨tr, done, going, ended, armed, free, owes⟩ := settled_of_drops hv
    (by rw [hv]; exact (settle_heard _ _ _).online)
  simp only [count] at tr done going ended
  refine ⟨?_, fun t m => done t (by rw [same.2.2.1, trackers]; exact m), fun n k m _ e => going n k m ((slot n).trans e),
    fun n k m _ e => ended n k m ((slot n).trans e), fun n k _ e => armed n k ((slot n).trans e),
    fun n e => free n ((slot n).trans e), ?_⟩
  · rw [tr, List.append_nil, same.2.2.1, trackers]
  · rw [owes, commandNotices_owed, owed]
    simp only [slot]

/-- How a release settles trackers and slots (R47 to R49, R116, R117). -/
theorem release_settles (s : State) (o : Owner) {cs : List Circuit} (time : Nat) (h : ListsInOrder s) (nd : cs.Nodup) :
    LinksSettle s (s.release o cs time) (some o) cs [] none := by
  have drops := release_drops s o time h nd
  let mid : Tab CircuitState 192 := .build fun c =>
    if cs.contains c then (s.circuit c).released s.tables.ranks (s.level c) (s.forced c) o time else s.circuit c
  let start : State := { s with circuits := s.promoteWhere mid cs.contains, event := s.event + 1 }
  let t : Standings := { before := s.circuits, mid := mid, after := s.promoteWhere mid cs.contains }
  exact LinksSettle.of_notices (start := start) (t := t) rfl rfl rfl drops rfl

/-- The links completed fades take away (R34, R47). -/
theorem completeFades_drops (s : State) (n : Nat) (h : ListsInOrder s) (l : TrackerLink) :
    ((indices 192).flatMap (fun c => ((s.claims c).filter (Claim.completes n)).filterMap Claim.tracker)
      ++ s.promotionDropsWhere (s.circuits.each fun x => x.complete n) (s.completing n)).count l =
    linksLost s (s.completeFades n) none [] l := by
  rw [List.count_append, promotionDropsWhere_count, linksLost_eq, List.count_flatMap, ← sum_add]
  congr 2
  funext c
  have links := completeFades_circuit s n c
  have nodup : ((s.claims c).map Claim.owner).Nodup := (h c).2
  simp only [arrived_eq links, Function.comp, List.contains_nil, Bool.and_false, Bool.false_or, Tab.get_each]
  have done : ∀ x, Claim.completes n x = true → x.complete n = { x with state := .effective none, tracker := none }
      ∧ x.isEffective = true ∧ x.state ≠ .effective none := fun x k => by
    refine ⟨by unfold Claim.complete; rw [if_pos k], ?_, ?_⟩
    · unfold Claim.completes Claim.fade at k
      unfold Claim.isEffective
      cases st : x.state with
      | effective f => rfl
      | waiting w => rw [st] at k; simp at k
    · intro e
      unfold Claim.completes Claim.fade at k
      rw [e] at k
      simp at k
  have keep : ∀ x, Claim.completes n x = false → x.complete n = x := fun x k => by
    unfold Claim.complete; rw [if_neg (by simp [k])]
  have owner : ∀ x, (Claim.complete n x).owner = x.owner := fun x => by unfold Claim.complete; split <;> rfl
  have claims : ((s.circuit c).complete n).claims = (s.claims c).map (Claim.complete n) := rfl
  have nodup' : (((s.circuit c).complete n).claims.map Claim.owner).Nodup := by
    rw [claims, List.map_map]
    have : Claim.owner ∘ Claim.complete n = Claim.owner := funext owner
    rw [this]; exact nodup
  have first : List.count l (((s.claims c).filter (Claim.completes n)).filterMap Claim.tracker) =
      (s.claims c).countP fun x => Claim.completes n x && x.tracker == some l := by
    rw [List.count_filterMap, List.countP_filter]
    refine List.countP_congr fun x _ => ?_
    simp [and_comm]
  rw [first]
  by_cases b : s.completing n c = true
  · rw [if_pos b, if_pos b]
    show _ + List.count l (((s.circuit c).complete n).promotionDrops s.tables.ranks) = _
    rw [promotionDrops_count _ _ (s.record c) s.emergency.state s.event nodup']
    let z := ((s.circuit c).complete n).promote s.tables.ranks (s.record c) s.emergency.state s.event
    show _ + ((s.claims c).map (Claim.complete n)).countP (fun x => x.tracker == some l && arrivedIn z.claims x) =
      (s.claims c).countP fun x => x.tracker == some l && arrivedIn z.claims x
    rw [List.countP_map]
    refine countP_add fun x m => ?_
    cases k : Claim.completes n x with
    | false => simp [keep x k]
    | true =>
      obtain ⟨e, eff, st⟩ := done x k
      have mem : claimOf x.owner ((s.circuit c).complete n).claims = some (x.complete n) := by
        rw [← owner x]
        exact claimOf_mem nodup' (List.mem_map_of_mem m)
      have stands := promote_standing ((s.circuit c).complete n) s.tables.ranks (s.record c) s.emergency.state s.event
        mem (by rw [e]; rfl)
      have came : arrivedIn z.claims x = true := by
        unfold arrivedIn
        cases w : claimOf x.owner z.claims with
        | none => dsimp only [z] at w; rw [w] at stands; simp at stands
        | some y =>
          dsimp only [z] at w
          rw [w, e] at stands
          simp only [Option.map_some, Option.some.injEq] at stands
          simp [stands, st]
      simp [e, came]
  · rw [if_neg b, if_neg b, Nat.add_zero]
    have none : ∀ x ∈ s.claims c, Claim.completes n x = false := fun x m => by
      unfold completing at b
      cases k : Claim.completes n x with
      | false => rfl
      | true => exact absurd (List.any_eq_true.mpr ⟨x, m, k⟩) b
    have same : ((s.circuit c).complete n).claims = s.claims c := by
      rw [claims]
      exact (List.map_congr_left fun x m => keep x (none x m)).trans (List.map_id _)
    rw [same]
    refine List.countP_congr fun x m => ?_
    rw [none x m, arrivedIn_self nodup m]
    simp

/-- How completed fades settle trackers and slots (R34, R47 to R49, R117). -/
theorem completeFades_settles (s : State) (n : Nat) (h : ListsInOrder s) :
    LinksSettle s (s.completeFades n) none [] [] none := by
  have drops := completeFades_drops s n h
  let mid : Tab CircuitState 192 := s.circuits.each fun x => x.complete n
  let start : State := { s with circuits := s.promoteWhere mid (s.completing n), event := s.event + 1 }
  let t : Standings := { before := s.circuits, mid := mid, after := s.promoteWhere mid (s.completing n) }
  exact LinksSettle.of_notices (start := start) (t := t) rfl rfl rfl drops rfl

/-- No claim of a placement is linked to a tracker other than its own. -/
theorem promotedAtOnce_zero (s : State) (pl : Placement) (l : TrackerLink) (h : pl.tracker.link ≠ some l) (c : Circuit)
    (named : (pl.on c).isSome = true) (lists : ListsInOrder s) : s.promotedAtOnce pl l c = 0 := by
  obtain ⟨it, on⟩ := Option.isSome_iff_exists.mp named
  unfold promotedAtOnce
  rw [placeMid_get, on]
  dsimp only
  obtain ⟨x, claims, own, _, _, _, bare, tied⟩ := placed_claims (s.circuit c) s.tables.ranks (s.level c) pl.owner pl.wait
    pl.tracker.link s.event it
  have listed : Listed (enterRank x (without pl.owner (s.circuit c).claims)) :=
    ((lists c).without pl.owner).enterRank fun y hy => by rw [own]; exact (mem_without.mp hy).2
  have mem : claimOf pl.owner (enterRank x (without pl.owner (s.circuit c).claims)) = some x := by
    rw [← own]
    exact claimOf_mem (by rw [own]; exact listed.2) (mem_enterRank.mpr (.inl rfl))
  rw [claims, mem]
  have : x.tracker ≠ some l := by
    by_cases e : x.state = .effective none
    · rw [bare e]; simp
    · rw [tied e]; exact h
  simp [this]

theorem place_drops_other (s : State) (pl : Placement) (h : ListsInOrder s)
    (nd : (pl.items.map PlaceItem.circuit).Nodup) {l : TrackerLink} (ne : pl.tracker.link ≠ some l) :
    (s.placeDrops pl).count l = linksLost s (s.place pl) (some pl.owner) (pl.items.map PlaceItem.circuit) l := by
  rw [place_drops s pl h nd l]
  have : ((pl.items.map PlaceItem.circuit).map (s.promotedAtOnce pl l)).sum = 0 := by
    rw [List.sum_eq_zero]
    intro n m
    obtain ⟨c, mc, e⟩ := List.mem_map.mp m
    rw [← e]
    exact promotedAtOnce_zero s pl l ne c (by rw [← place_named]; simpa using mc) h
  rw [this, Nat.add_zero]

/-- How an untracked placement settles trackers and slots. -/
theorem place_settles (s : State) (pl : Placement) (h : ListsInOrder s) (nd : (pl.items.map PlaceItem.circuit).Nodup)
    (un : pl.tracker = .untracked) :
    LinksSettle s (s.place pl) (some pl.owner) (pl.items.map PlaceItem.circuit) [] none := by
  have start : (s.placeStart pl).slots = s.slots ∧ (s.placeStart pl).trackers = s.trackers
      ∧ (s.placeStart pl).replayOwed = s.replayOwed := by
    unfold placeStart; rw [un]; exact ⟨rfl, rfl, rfl⟩
  exact LinksSettle.of_notices start.1 start.2.1 start.2.2
    (fun l => place_drops_other s pl h nd (by rw [un]; simp [TrackerUse.link])) (place_eq s pl)

/-- The settling of an event that takes a pool tracker, by the links it adds and takes away. -/
theorem settled_pool {s a v : State} {o : Option Owner} {cs : List Circuit} {drops : List TrackerLink} {i : Fin 32}
    {p : Port} {tag : Byte} {added m : Nat} (hv : v = a.settle drops []) (slots : ∀ n, a.slot n = s.slot n)
    (owed : a.replayOwed = s.replayOwed)
    (trackers : a.trackers = s.trackers ++ [{ id := i, port := p, tag := tag, count := added }])
    (fresh : ∀ t ∈ s.trackers, t.id ≠ i) (other : ∀ l, l ≠ .pool i → drops.count l = linksLost s v o cs l)
    (count : added - drops.count (.pool i) = m) :
    (0 < m → LinksSettle s v o cs [{ id := i, port := p, tag := tag, count := m }] none)
    ∧ (m = 0 → LinksSettle s v o cs [] none ∧ ((v.port p).isOnline = true → Told v p (.fadeDone tag))) := by
  obtain ⟨vt, done, going, ended, armed, free, owes⟩ := settled_of_drops hv
    (by rw [hv]; exact (settle_heard _ _ _).online)
  rw [trackers] at vt done
  have old : ∀ t ∈ s.trackers, drops.count (.pool t.id) = linksLost s v o cs (.pool t.id) := fun t mt =>
    other _ (by simpa using fresh t mt)
  have slot : ∀ n, drops.count (.slot n) = linksLost s v o cs (.slot n) := fun n => other _ (by simp)
  simp only [slot] at going ended
  have all : ∀ taken, v.trackers = ((s.trackers.map fun t => { t with
        count := t.count - linksLost s v o cs (.pool t.id) }).filter fun t => t.count != 0) ++ taken →
      LinksSettle s v o cs taken none := fun taken e =>
    { trackers := e
      done := fun t mt le => done t (List.mem_append_left _ mt) (by rw [old t mt]; exact le)
      going := fun n k m _ e => going n k m ((slots n).trans e)
      ended := fun n k m _ e => ended n k m ((slots n).trans e)
      armed := fun n k _ e => armed n k ((slots n).trans e)
      free := fun n e => free n ((slots n).trans e)
      owed := by rw [owes, owed]; simp only [slots] }
  have olds : (s.trackers.map fun t : Tracker => { t with count := t.count - drops.count (.pool t.id) }) =
      s.trackers.map fun t => { t with count := t.count - linksLost s v o cs (.pool t.id) } :=
    List.map_congr_left fun t mt => by rw [old t mt]
  rw [List.map_append, List.filter_append, olds, List.map_singleton] at vt
  dsimp only at vt
  rw [count] at vt
  refine ⟨fun pos => all _ ?_, fun z => ⟨all _ ?_, fun on => ?_⟩⟩
  · rw [vt, List.filter_cons_of_pos (by simp; omega), List.filter_nil]
  · rw [vt, List.filter_cons_of_neg (by simp [z]), List.filter_nil]
  · exact done { id := i, port := p, tag := tag, count := added }
      (List.mem_append_right _ (List.mem_singleton.mpr rfl)) (by dsimp only; omega) on

/-- The settling of an event whose tracker is that of slot `n`, by the links it adds and takes away. -/
theorem settled_slot {s a v : State} {o : Option Owner} {cs : List Circuit} {drops : List TrackerLink} {n : SlotNo}
    {added m : Nat} (hv : v = a.settle drops [])
    (slots : ∀ k, a.slot k = if k = n then (s.slot n).map fun y => { y with phase := SlotPhase.going added } else s.slot k)
    (owed : a.replayOwed = s.replayOwed) (trackers : a.trackers = s.trackers)
    (other : ∀ l, l ≠ .slot n → drops.count l = linksLost s v o cs l) (count : added - drops.count (.slot n) = m) :
    LinksSettle s v o cs [] (some n)
    ∧ ∀ k, s.slot n = some k →
      (0 < m → v.slot n = some { k with phase := .going m })
      ∧ (m = 0 → v.slot n = none ∧ ((v.port k.owner).isOnline = true → Told v k.owner (.standbyEnd n .done))) := by
  obtain ⟨vt, done, going, ended, armed, free, owes⟩ := settled_of_drops hv
    (by rw [hv]; exact (settle_heard _ _ _).online)
  rw [trackers] at vt done
  have pool : ∀ i, drops.count (.pool i) = linksLost s v o cs (.pool i) := fun i => other _ (by simp)
  simp only [pool] at vt done
  have off : ∀ {k : SlotNo}, some n ≠ some k → k ≠ n := fun ne e => ne (by rw [e])
  have lost : ∀ {k : SlotNo}, k ≠ n → drops.count (.slot k) = linksLost s v o cs (.slot k) := fun ne =>
    other _ (by simpa using ne)
  refine ⟨{ trackers := by rw [vt, List.append_nil], done := done
            going := fun k y m ne e g lt => ?_, ended := fun k y m ne e g le => ?_
            armed := fun k y ne e => armed k y (by rw [slots, if_neg (off ne)]; exact e)
            free := fun k e => free k ?_, owed := ?_ }, fun k e => ⟨fun pos => ?_, fun z => ?_⟩⟩
  · have := going k y m (by rw [slots, if_neg (off ne)]; exact e) g (by rw [lost (off ne)]; exact lt)
    rwa [lost (off ne)] at this
  · exact ended k y m (by rw [slots, if_neg (off ne)]; exact e) g (by rw [lost (off ne)]; exact le)
  · rw [slots]
    split
    · rename_i q; rw [← q, e]; rfl
    · exact e
  · rw [owes, owed]
    refine or_congr Iff.rfl (exists_congr fun k => and_congr ?_ Iff.rfl)
    rw [slots]
    split
    · rename_i q; rw [q]; simp
    · exact Iff.rfl
  · have h := going n _ added (by rw [slots, if_pos rfl, e]; rfl) rfl (by omega)
    rw [count] at h
    exact h
  · exact ended n { k with phase := .going added } added (by rw [slots, if_pos rfl, e]; rfl) rfl (by omega)

/-- How a placement with a pool tracker settles: the tracker counts the claims that travel, and one with none is freed at
once (R46 to R49). -/
theorem place_settles_pool (s : State) (pl : Placement) (h : ListsInOrder s)
    (nd : (pl.items.map PlaceItem.circuit).Nodup) {i : Fin 32} {p : Port} {tag : Byte} (tr : pl.tracker = .pool i p tag)
    (fresh : ∀ t ∈ s.trackers, t.id ≠ i) {m : Nat}
    (hm : travelling s (s.place pl) pl.owner (pl.items.map PlaceItem.circuit) (.pool i) = m) :
    (0 < m → LinksSettle s (s.place pl) (some pl.owner) (pl.items.map PlaceItem.circuit)
      [{ id := i, port := p, tag := tag, count := m }] none)
    ∧ (m = 0 → LinksSettle s (s.place pl) (some pl.owner) (pl.items.map PlaceItem.circuit) [] none
      ∧ (((s.place pl).port p).isOnline = true → Told (s.place pl) p (.fadeDone tag))) := by
  have link : pl.tracker.link = some (.pool i) := by rw [tr]; rfl
  have linked := place_linked s pl h link
  have lost := place_drops s pl h nd (.pool i)
  have same := commandNotices_same (s.placeStart pl)
    { before := s.circuits, mid := s.placeMid pl, after := s.placeAfter pl } (some pl.owner)
  have start : (s.placeStart pl).slots = s.slots ∧ (s.placeStart pl).replayOwed = s.replayOwed := by
    unfold placeStart; rw [tr]; exact ⟨rfl, rfl⟩
  have trackers : (s.placeStart pl).trackers = s.trackers ++ [{
      id := i, port := p, tag := tag
      count := ((pl.items.map PlaceItem.circuit).filter fun c =>
        ((claimOf pl.owner ((s.placeMid pl).get c).claims).bind Claim.tracker).isSome).length }] := by
    unfold placeStart; rw [tr]; rfl
  refine settled_pool (place_eq s pl)
    (fun n => (slot_of_slots (s := s.placeStart pl) same.2.1 n).trans (slot_of_slots start.1 n))
    ((commandNotices_owed _ _ _).trans start.2) (same.2.2.1.trans trackers) fresh
    (fun l ne => place_drops_other s pl h nd (by rw [link]; simpa using ne.symm)) ?_
  rw [lost, linked, ← hm]
  unfold travelling
  omega

/-- How a placement whose tracker is a slot's settles: the slot is GOING with the claims that travel, and one with none
ends at once (R113, R117). -/
theorem place_settles_slot (s : State) (pl : Placement) (h : ListsInOrder s)
    (nd : (pl.items.map PlaceItem.circuit).Nodup) {n : SlotNo} (tr : pl.tracker = .slot n) {m : Nat}
    (hm : travelling s (s.place pl) pl.owner (pl.items.map PlaceItem.circuit) (.slot n) = m) :
    LinksSettle s (s.place pl) (some pl.owner) (pl.items.map PlaceItem.circuit) [] (some n)
    ∧ ∀ k, s.slot n = some k →
      (0 < m → (s.place pl).slot n = some { k with phase := .going m })
      ∧ (m = 0 → (s.place pl).slot n = none
        ∧ (((s.place pl).port k.owner).isOnline = true → Told (s.place pl) k.owner (.standbyEnd n .done))) := by
  have link : pl.tracker.link = some (.slot n) := by rw [tr]; rfl
  have linked := place_linked s pl h link
  have lost := place_drops s pl h nd (.slot n)
  have same := commandNotices_same (s.placeStart pl)
    { before := s.circuits, mid := s.placeMid pl, after := s.placeAfter pl } (some pl.owner)
  have start : (s.placeStart pl).trackers = s.trackers ∧ (s.placeStart pl).replayOwed = s.replayOwed := by
    unfold placeStart; rw [tr]; exact ⟨rfl, rfl⟩
  refine settled_slot (place_eq s pl) (fun k => ?_) ((commandNotices_owed _ _ _).trans start.2)
    (same.2.2.1.trans start.1) (fun l ne => place_drops_other s pl h nd (by rw [link]; simpa using ne.symm))
    (added := ((pl.items.map PlaceItem.circuit).filter fun c =>
      ((claimOf pl.owner ((s.placeMid pl).get c).claims).bind Claim.tracker).isSome).length) ?_
  · rw [slot_of_slots (s := s.placeStart pl) same.2.1 k]
    unfold placeStart
    rw [tr]
    unfold setTracker
    rw [slot_setSlot]
    rfl
  · rw [lost, linked, ← hm]
    unfold travelling
    omega

end State
end Sys2Proof.Machine
end

