-- ==== Sys2Proof/Laws/Recovery.lean ====
section
/-! SUPPORT. What an event of the Claim Table leaves of a recovery (R40, R161): the circuits whose RECOVERY transition it overtakes or removes leave the recovery set, and the last one brings NORMAL; and with it the frame of such an event, `ClaimEvent`. -/

namespace Sys2Proof.Machine

/-! ## Changes that touch no recovery -/

/-- No recovery appears or goes, the emergency stands, and notices told stay told. -/
structure Quiet (s t : State) : Prop where
  heard : Heard s t
  emergency : t.emergency = s.emergency
  recovering : ∀ c, (t.circuit c).recovering = (s.circuit c).recovering

namespace Quiet

theorem of_links {s t : State} (h : Heard s t) (e : t.emergency = s.emergency) (k : Relinked s t) : Quiet s t :=
  ⟨h, e, fun c => by unfold CircuitState.recovering; rw [(k c).transition]⟩

theorem of_ports {s t : State} (p : t.ports = s.ports) (e : t.emergency = s.emergency) (c : t.circuits = s.circuits) :
    Quiet s t := of_links (.of_ports p) e (.of_eq c)

theorem refl (s : State) : Quiet s s := of_ports rfl rfl rfl

theorem trans {a b c : State} (h : Quiet a b) (k : Quiet b c) : Quiet a c :=
  ⟨h.heard.trans k.heard, k.emergency.trans h.emergency, fun i => (k.recovering i).trans (h.recovering i)⟩

theorem foldl {β : Type} (f : State → β → State) (h : ∀ s b, Quiet s (f s b)) (l : List β) (s : State) :
    Quiet s (l.foldl f s) := foldl_keeps Quiet refl (fun _ _ _ => trans) f h l s

end Quiet

namespace State

theorem notify_quiet (s : State) (p : Port) (n : Notice) : Quiet s (s.notify p n) :=
  .of_links (notify_heard s p n) rfl (notify_relinked s p n)

theorem announce_quiet (s : State) (n : Notice) : Quiet s (s.announce n) :=
  .of_links (announce_heard s n) rfl (announce_relinked s n)

theorem endSlot_quiet (s : State) (n : SlotNo) (r : EndReason) : Quiet s (s.endSlot n r) :=
  .of_links (endSlot_claims s n r).heard (by unfold endSlot; split <;> rfl) (endSlot_relinked s n r)

theorem endSlots_quiet (s : State) (which : Slot → Bool) (r : EndReason) : Quiet s (s.endSlots which r) :=
  .foldl _ (fun s n => by
    split
    · exact endSlot_quiet s n r
    · exact .refl s) _ s

theorem freeZeroTrackers_quiet (s : State) : Quiet s s.freeZeroTrackers := by
  unfold freeZeroTrackers
  exact (Quiet.foldl _ (fun s (t : Tracker) => notify_quiet s t.port (.fadeDone t.tag)) _ s).trans
    (.of_ports rfl rfl rfl)

theorem commandNotices_quiet (s : State) (t : Standings) (actor : Option Owner) :
    Quiet s (s.commandNotices t actor) := by
  have pre : ∀ p (s : State) o, Quiet s (s.notifyPreempted t actor p o) := fun p s o => by
    unfold notifyPreempted; dsimp only; split
    · exact notify_quiet s p _
    · exact .refl s
  have res : ∀ p (s : State), Quiet s (s.notifyRestored t actor p) := fun p s => by
    unfold notifyRestored; dsimp only; split
    · exact notify_quiet s p _
    · exact .refl s
  exact .foldl _ (fun s p => (Quiet.foldl _ (pre p) _ s).trans (res p _)) _ s

theorem setTracker_quiet (s : State) (use : TrackerUse) (n : Nat) : Quiet s (s.setTracker use n) := by
  cases use <;> exact .of_ports rfl rfl rfl

end State

/-! ## What an event leaves of a recovery -/

/-- `t` is `s` after events that told the Emergency Plane of every recovery they ended (R40, R161). -/
structure Recovers (s t : State) : Prop where
  heard : Heard s t
  less : ∀ c, (t.circuit c).recovering = true → (s.circuit c).recovering = true
  accepted : t.emergency.accepted = s.emergency.accepted
  still : s.emergency.state ≠ .recovering →
    t.emergency.state = s.emergency.state ∧ t.emergency.recovery = s.emergency.recovery
  stays : s.emergency.state = .recovering → s.emergency.recovery = [] ∨ recoveriesLeft s t ≠ [] →
    t.emergency.state = .recovering ∧ t.emergency.recovery = recoveriesLeft s t
  ends : s.emergency.state = .recovering → s.emergency.recovery ≠ [] → recoveriesLeft s t = [] →
    t.emergency.state = .normal ∧ t.emergency.recovery = []
      ∧ Announced t (.emergency .normal s.emergency.accepted .recoveryComplete 0)

theorem recoveriesLeft_same {s t : State} (h : ∀ c, (t.circuit c).recovering = (s.circuit c).recovering) :
    recoveriesLeft s t = s.emergency.recovery := by
  unfold recoveriesLeft
  rw [List.filter_eq_self]
  intro c _
  rw [h]
  cases (s.circuit c).recovering <;> rfl

theorem Quiet.recovers {s t : State} (h : Quiet s t) : Recovers s t where
  heard := h.heard
  less c := by rw [h.recovering]; exact id
  accepted := by rw [h.emergency]
  still _ := by rw [h.emergency]; exact ⟨rfl, rfl⟩
  stays e _ := by rw [h.emergency, recoveriesLeft_same h.recovering]; exact ⟨e, rfl⟩
  ends _ k l := by rw [recoveriesLeft_same h.recovering] at l; exact absurd l k

namespace Recovers

theorem refl (s : State) : Recovers s s := (Quiet.refl s).recovers

theorem trans {a b c : State} (h : Recovers a b) (k : Recovers b c) : Recovers a c := by
  have left : recoveriesLeft a c = (recoveriesLeft a b).filter fun i =>
      !(b.circuit i).recovering || (c.circuit i).recovering := by
    unfold recoveriesLeft
    rw [List.filter_filter]
    refine List.filter_congr fun i _ => ?_
    have x := h.less i
    have y := k.less i
    revert x y
    cases (a.circuit i).recovering <;> cases (b.circuit i).recovering <;> cases (c.circuit i).recovering <;> simp
  have from_ : b.emergency.recovery = recoveriesLeft a b → recoveriesLeft b c = recoveriesLeft a c := fun e => by
    rw [left, ← e]; rfl
  refine ⟨h.heard.trans k.heard, fun i e => h.less i (k.less i e), k.accepted.trans h.accepted, fun n => ?_,
    fun e s => ?_, fun e n z => ?_⟩
  · obtain ⟨p, q⟩ := h.still n
    obtain ⟨u, v⟩ := k.still (by rw [p]; exact n)
    exact ⟨u.trans p, v.trans q⟩
  · have some_ : a.emergency.recovery = [] ∨ recoveriesLeft a b ≠ [] := s.imp id fun s t => s (by rw [left, t]; rfl)
    obtain ⟨p, q⟩ := h.stays e some_
    obtain ⟨u, v⟩ := k.stays p (by
      rcases s with s | s
      · left
        rw [q]
        unfold recoveriesLeft
        rw [s]
        rfl
      · right; rw [from_ q]; exact s)
    exact ⟨u, v.trans (from_ q)⟩
  · by_cases s : recoveriesLeft a b = []
    · obtain ⟨p, q, t⟩ := h.ends e n s
      obtain ⟨u, v⟩ := k.still (by rw [p]; simp)
      exact ⟨u.trans p, v.trans q, k.heard.announced t⟩
    · obtain ⟨p, q⟩ := h.stays e (.inr s)
      rw [← h.accepted]
      exact k.ends p (by rw [q]; exact s) (by rw [from_ q]; exact z)

/-- The report that ends an event: the circuits it names are those whose recovery the event ended. -/
theorem report {s u : State} (heard : Heard s u) (emergency : u.emergency = s.emergency)
    (less : ∀ c, (u.circuit c).recovering = true → (s.circuit c).recovering = true) (reports : List Circuit)
    (h : s.emergency.state = .recovering →
      ∀ c, c ∈ reports ↔ (s.circuit c).recovering = true ∧ (u.circuit c).recovering = false) :
    Recovers s (u.reportRecoveries reports) := by
  have circuits : ∀ c, ((u.reportRecoveries reports).circuit c).recovering = (u.circuit c).recovering := fun c => by
    unfold CircuitState.recovering
    rw [(State.reportRecoveries_relinked u reports c).transition]
  have left : s.emergency.state = .recovering → recoveriesLeft s (u.reportRecoveries reports) =
      s.emergency.recovery.filter fun c => !reports.contains c := fun e => by
    unfold recoveriesLeft
    refine List.filter_congr fun c _ => ?_
    rw [circuits, Bool.eq_iff_iff]
    have := h e c
    simp only [Bool.or_eq_true, Bool.not_eq_true', List.contains_eq_mem, decide_eq_false_iff_not, this]
    cases (s.circuit c).recovering <;> cases (u.circuit c).recovering <;> simp
  refine ⟨heard.trans (State.reportRecoveries_heard u reports), fun c e => less c (by rw [← circuits]; exact e), ?_,
    fun n => ?_, fun e k => ?_, fun e k l => ?_⟩
  · unfold State.reportRecoveries
    split
    · dsimp only
      split <;>
      · show u.emergency.accepted = _
        rw [emergency]
    · rw [emergency]
  · unfold State.reportRecoveries
    rw [if_neg (by rw [emergency]; exact n), emergency]
    exact ⟨rfl, rfl⟩
  · rw [left e] at k ⊢
    unfold State.reportRecoveries
    rw [if_pos (by rw [emergency]; exact e), emergency]
    dsimp only
    rw [if_neg (by
      rcases k with k | k
      · simp [k]
      · cases f : s.emergency.recovery.filter (fun c => !reports.contains c) with
        | nil => exact absurd f k
        | cons _ _ => simp)]
    exact ⟨rfl, rfl⟩
  · rw [left e] at l
    unfold State.reportRecoveries
    rw [if_pos (by rw [emergency]; exact e), emergency]
    dsimp only
    have empty : s.emergency.recovery.isEmpty = false := by
      cases f : s.emergency.recovery with
      | nil => exact absurd f k
      | cons _ _ => rfl
    rw [l, empty, if_pos (by rfl)]
    refine ⟨rfl, rfl, ?_⟩
    have none : (u.setEmergency .normal []).forcedCount = 0 := by
      unfold State.forcedCount
      rw [List.length_eq_zero_iff, List.filter_eq_nil_iff]
      intro c _
      simp [State.forced, forcedLevel, State.setEmergency, EmergencyState.forces]
    have told := State.announce_announced (u.setEmergency .normal [])
      (.emergency .normal s.emergency.accepted .recoveryComplete 0)
    unfold State.announceEmergency
    rw [none]
    show Announced ((u.setEmergency .normal []).announce (.emergency .normal u.emergency.accepted .recoveryComplete 0)) _
    rw [emergency]
    exact told

end Recovers

/-! ## The frame of an event -/

/-- An event's frame follows from what it can reach and what it leaves of a recovery. -/
theorem Broad.emergency_of {s t : State} (h : Broad s t) {e : EmergencyState} {l : List Circuit}
    (k : t.emergency.state = e ∧ t.emergency.recovery = l) :
    t.emergency = { s.emergency with state := e, recovery := l } := by
  obtain ⟨a, b, c⟩ := h.contact
  show EmergencyPlane.mk t.emergency.line t.emergency.accepted t.emergency.debounce t.emergency.state
    t.emergency.recovery = _
  rw [a, b, c, k.1, k.2]

theorem ClaimEvent.of_rest {s t : State} (h : Broad s t) (r : Recovers s t)
    (rest : t = { s with
      circuits := t.circuits, trackers := t.trackers, slots := t.slots, ports := t.ports, emergency := t.emergency,
      event := t.event, replayOwed := t.replayOwed }) : ClaimEvent s t where
  rest := rest
  relays c := (h.circuits c).relay
  contact := h.emergency_of ⟨rfl, rfl⟩
  recoveries := r.less
  emergency n := h.emergency_of (r.still n)
  recovering e k := (h.emergency_of (r.stays e k)).trans (by rw [← e])
  recovered e k l := ⟨h.emergency_of ⟨(r.ends e k l).1, (r.ends e k l).2.1⟩, (r.ends e k l).2.2⟩
  ports q := by
    have k := h.ports q.ix
    unfold State.port
    simp only [← k.link, ← k.orphanEnd, ← k.linkRate, ← k.subscriptions, ← k.badFrames, ← k.busyReplies,
      ← k.leaseLosses, ← k.edit, ← k.lastReply]

theorem ClaimsOnly.event {s t : State} (h : ClaimsOnly s t) (r : Recovers s t) : ClaimEvent s t :=
  .of_rest h.toBroad r (by
    cases s; cases t
    obtain ⟨⟨b, hm, hl⟩, hq, hw, hp, hc⟩ := h
    have := b.now; have := b.pending; have := b.startup; have := b.tables; have := b.versions
    have := b.configState; have := b.imageState; have := b.memory; have := b.save; have := b.lines
    have := b.frameCount; have := b.rackDue; have := b.rackFrame
    simp_all)

namespace State

/-! ## Events of the Claim Table -/

theorem continueTransition_recovering (x : CircuitState) (level : Nat) :
    (x.continueTransition level).recovering = x.recovering := by
  unfold CircuitState.recovering CircuitState.continueTransition
  cases x.transition with
  | none => rfl
  | some t =>
    dsimp only [Option.map_some]
    unfold Transition.continued
    split <;> rfl

theorem leaveRaise_recovering (x : CircuitState) (o : Owner) : (x.leaveRaise o).recovering = x.recovering := by
  unfold CircuitState.leaveRaise; split <;> rfl

/-- A promotion ends no recovery: what it continues is the same recovery (R39). -/
theorem promote_recovering (x : CircuitState) (modes : Tab MergeMode 8) (r : CircuitRecord) (e : EmergencyState)
    (event : Nat) : (x.promote modes r e event).recovering = x.recovering := by
  unfold CircuitState.promote
  split
  · dsimp only
    split
    · exact continueTransition_recovering _ _
    · rfl
  · rfl

/-- A placement ends no recovery (R39). -/
theorem placed_recovering (x : CircuitState) (modes : Tab MergeMode 8) (level : Nat) (o : Owner) (wait : Bool)
    (link : Option TrackerLink) (event : Nat) (it : PlaceItem) :
    (x.placed modes level o wait link event it).recovering = x.recovering := by
  unfold CircuitState.placed
  dsimp only
  split
  · exact leaveRaise_recovering _ o
  · split
    · exact (continueTransition_recovering _ _).trans (leaveRaise_recovering _ o)
    · exact leaveRaise_recovering _ o

/-- A release ends the recovery of a circuit where its claim was in command, unless the circuit is forced (R40). -/
theorem released_recovering (x : CircuitState) (modes : Tab MergeMode 8) (level : Nat) (forced : Bool) (o : Owner)
    (time : Nat) : (x.released modes level forced o time).recovering =
      (x.recovering && !(inCommandOf modes x.claims o && !forced)) := by
  unfold CircuitState.released
  dsimp only
  split
  · rename_i h
    rw [h]
    unfold CircuitState.startTransition CircuitState.recovering
    dsimp only
    by_cases zero : time = 0
    · simp [zero]
    · rw [if_neg zero]
      simp
  · rename_i h
    rw [leaveRaise_recovering]
    rw [show (inCommandOf modes x.claims o && !forced) = false by simpa using h]
    unfold CircuitState.recovering
    simp

theorem promoteWhere_recovering (s : State) (mid : Tab CircuitState 192) (on : Circuit → Bool) (c : Circuit) :
    ((s.promoteWhere mid on).get c).recovering = (mid.get c).recovering := by
  unfold promoteWhere
  rw [Tab.get_build]
  split
  · exact promote_recovering _ _ _ _ _
  · rfl

/-- What follows an event's own changes and its notices (R25, R40, R48, R117). -/
theorem settle_recovers {s u : State} (heard : Heard s u) (emergency : u.emergency = s.emergency)
    (less : ∀ c, (u.circuit c).recovering = true → (s.circuit c).recovering = true) (drops : List TrackerLink)
    (reports : List Circuit) (h : s.emergency.state = .recovering →
      ∀ c, c ∈ reports ↔ (s.circuit c).recovering = true ∧ (u.circuit c).recovering = false) :
    Recovers s (u.settle drops reports) := by
  have pre : Quiet u (u.decrement drops).freeZeroTrackers :=
    (Quiet.of_ports (s := u) (t := u.decrement drops) rfl rfl rfl).trans (freeZeroTrackers_quiet _)
  unfold settle endDoneSlots
  refine Recovers.trans (Recovers.report (heard.trans pre.heard) (pre.emergency.trans emergency)
    (fun c e => less c (by rw [← pre.recovering]; exact e)) reports fun e c => ?_) (endSlots_quiet _ _ _).recovers
  rw [pre.recovering]
  exact h e c

theorem place_recovers (s : State) (pl : Placement) : Recovers s (s.place pl) := by
  have circuits : ∀ c, ((s.placeAfter pl).get c).recovering = (s.circuit c).recovering := fun c => by
    unfold placeAfter
    rw [promoteWhere_recovering]
    unfold placeMid
    rw [Tab.get_build]
    split
    · rfl
    · exact placed_recovering _ _ _ _ _ _ _ _
  have start : Quiet s (s.placeStart pl) := by
    unfold placeStart
    refine Quiet.trans (b := { s with circuits := s.placeAfter pl, event := s.event + 1 }) ?_ (setTracker_quiet _ _ _)
    exact ⟨.of_ports rfl, rfl, circuits⟩
  have pre := start.trans (commandNotices_quiet (s.placeStart pl)
    { before := s.circuits, mid := s.placeMid pl, after := s.placeAfter pl } (some pl.owner))
  rw [place_eq]
  exact settle_recovers pre.heard pre.emergency (fun c e => by rw [← pre.recovering]; exact e) _ _ fun _ c => by
    rw [pre.recovering]
    simp

theorem completeFades_recovers (s : State) (n : Nat) : Recovers s (s.completeFades n) := by
  unfold completeFades
  dsimp only
  have own : Quiet s { s with
      circuits := s.promoteWhere (s.circuits.each fun x => x.complete n) (s.completing n), event := s.event + 1 } :=
    ⟨.of_ports rfl, rfl, fun c => by
      unfold circuit
      rw [promoteWhere_recovering, Tab.get_each]
      rfl⟩
  have pre := own.trans (commandNotices_quiet _
    { before := s.circuits
      mid := s.circuits.each fun x => x.complete n
      after := s.promoteWhere (s.circuits.each fun x => x.complete n) (s.completing n) } none)
  exact settle_recovers pre.heard pre.emergency (fun c e => by rw [← pre.recovering]; exact e) _ _ fun _ c => by
    rw [pre.recovering]
    simp

theorem release_recovers (s : State) (o : Owner) (cs : List Circuit) (time : Nat) :
    Recovers s (s.release o cs time) := by
  let mid : Tab CircuitState 192 := .build fun c =>
    if cs.contains c then (s.circuit c).released s.tables.ranks (s.level c) (s.forced c) o time else s.circuit c
  let own : State := { s with circuits := s.promoteWhere mid cs.contains, event := s.event + 1 }
  have circuits : ∀ c, (own.circuit c).recovering =
      ((s.circuit c).recovering && !(cs.contains c && (s.inCommand c o && !s.forced c))) := fun c => by
    show ((s.promoteWhere mid cs.contains).get c).recovering = _
    rw [promoteWhere_recovering]
    unfold mid
    rw [Tab.get_build]
    split
    · rename_i h
      rw [released_recovering, h]
      rfl
    · rename_i h
      rw [show cs.contains c = false by simpa using h]
      simp
  have pre := commandNotices_quiet own { before := s.circuits, mid := mid, after := s.promoteWhere mid cs.contains } (some o)
  show Recovers s ((own.commandNotices { before := s.circuits, mid := mid, after := s.promoteWhere mid cs.contains }
    (some o)).settle (s.linksOf o cs ++ s.promotionDropsWhere mid cs.contains)
      (cs.filter fun c => s.inCommand c o && !s.forced c && (s.circuit c).recovering))
  refine settle_recovers ((Heard.of_ports (s := s) (t := own) rfl).trans pre.heard) pre.emergency (fun c e => ?_) _ _
    fun _ c => ?_
  · rw [pre.recovering, circuits] at e
    simp only [Bool.and_eq_true] at e
    exact e.1
  · rw [pre.recovering, circuits, List.mem_filter]
    cases (s.circuit c).recovering <;> cases s.inCommand c o <;> cases s.forced c <;> simp

theorem releaseAll_recovers (s : State) (o : Owner) (time : Nat) : Recovers s (s.releaseAll o time) :=
  release_recovers s o _ time

/-- The judgement of the WAITING claims (R16) that a completion of fades brings, and a write of the rank table. -/
theorem ended_eq (n : Nat) : Claim.ended n = Claim.completes n := funext fun x => by
  unfold Claim.ended Claim.completes Claim.fade Fade.due
  cases x.state with
  | waiting _ => rfl
  | effective f => cases f <;> rfl

/-- Where fades of the event complete, the WAITING claims are judged on the completed claims (R16, R34). -/
theorem completeFades_judged (s : State) (n : Nat) (c : Circuit) (h : (s.claims c).any (Claim.ended n) = true) :
    ((s.circuit c).complete n).claims = (s.claims c).map (fun x =>
      if Claim.ended n x then { x with state := .effective none, tracker := none } else x)
    ∧ Judged s.tables.ranks (s.record c) s.emergency.state s.event ((s.circuit c).complete n)
      ((s.completeFades n).circuit c) := by
  have k := completeFades_circuit s n c
  rw [ended_eq] at h ⊢
  rw [if_pos (show s.completing n c = true from h)] at k
  exact ⟨rfl, (promote_judged _ _ _ _ _).after k⟩

/-- Where none completes, claims keep all but links, and the transition stands (R34). -/
theorem completeFades_stands (s : State) (n : Nat) (c : Circuit) (h : (s.claims c).any (Claim.ended n) = false) :
    ((s.completeFades n).claims c).map Claim.unlinked = (s.claims c).map Claim.unlinked
    ∧ ((s.completeFades n).circuit c).transition = (s.circuit c).transition := by
  have k := completeFades_circuit s n c
  rw [ended_eq] at h
  rw [if_neg (show ¬ s.completing n c = true by unfold completing; rw [h]; simp)] at k
  refine ⟨k.claims.trans (congrArg _ ?_), k.transition⟩
  refine (List.map_congr_left fun x m => ?_).trans (List.map_id _)
  rw [List.any_eq_false] at h
  unfold Claim.complete
  exact if_neg (h x m)

theorem setRanks_judged (s : State) (modes : Tab MergeMode 8) (c : Circuit) :
    Judged modes (s.record c) s.emergency.state s.event (s.circuit c) ((s.setRanks modes).circuit c) :=
  (promote_judged _ _ _ _ _).after (setRanks_circuit s modes c)

/-- The frames of the events of the Claim Table. -/
theorem place_event (s : State) (pl : Placement) (h : Supplied s pl) : ClaimEvent s (s.place pl) :=
  (place_claims s pl h).event (place_recovers s pl)

theorem release_event (s : State) (o : Owner) (cs : List Circuit) (time : Nat) : ClaimEvent s (s.release o cs time) :=
  (release_claims s o cs time).event (release_recovers s o cs time)

theorem completeFades_event (s : State) (n : Nat) : ClaimEvent s (s.completeFades n) :=
  (completeFades_claims s n).event (completeFades_recovers s n)

theorem endSlot_event (s : State) (n : SlotNo) (r : EndReason) : ClaimEvent s (s.endSlot n r) :=
  (endSlot_claims s n r).event (endSlot_quiet s n r).recovers

theorem settleSlots_quiet (s : State) (lost : SlotNo → Nat) : Quiet s (s.settleSlots lost) := by
  unfold settleSlots endDoneSlots
  exact (Quiet.of_ports (s := s)
    (t := { s with slots := .build fun n => (s.slot n).map (Slot.decrement (lost n)) }) rfl rfl rfl).trans
    (endSlots_quiet _ _ _)

theorem doFieldWork_recovers (s : State) (w : FieldWork) : Recovers s (s.doFieldWork w) := by
  cases w
  · exact place_recovers s _
  · exact release_recovers s _ _ _

theorem doReplayedWork_recovers (s : State) (w : FieldWork) : Recovers s (s.doReplayedWork w) := by
  have k := doFieldWork_recovers { s with slots := .const none } w
  unfold doReplayedWork
  generalize State.doFieldWork { s with slots := .const none } w = u at k
  exact ((Quiet.of_ports (s := s) (t := { s with slots := .const none }) rfl rfl rfl).recovers.trans k).trans
    (Quiet.of_ports (s := u) (t := { u with slots := s.slots }) rfl rfl rfl).recovers

end State
end Sys2Proof.Machine
end

