-- ==== Sys2Proof/Laws/Requests.lean ====
section
/-! SUPPORT. How PLACE, RECALL and GO are answered: their refusals in order, the circuits a target expands into, and the tracker or slot a placement runs on, each said once. -/

namespace Sys2Proof.Machine

open State

/-! ## Expanded targets name no circuit twice -/

theorem circuitsOfNumbers_map {l : List Nat} {cs : List Circuit} (h : circuitsOfNumbers l = some cs) :
    l = cs.map numberOf := by
  unfold circuitsOfNumbers at h
  induction l generalizing cs with
  | nil => simp at h; subst h; rfl
  | cons n l ih =>
    simp only [List.mapM_cons, Option.pure_def, Option.bind_eq_bind, Option.bind_eq_some_iff, Option.some.injEq] at h
    obtain ⟨c, hc, t, ht, rfl⟩ := h
    rw [List.map_cons, ← ih ht]
    unfold indexOf at hc
    split at hc
    · rename_i k
      cases hc
      simp only [numberOf]
      congr 1
      omega
    · simp at hc

theorem circuitsOfNumbers_nodup {l : List Nat} {cs : List Circuit} (h : circuitsOfNumbers l = some cs) (nd : l.Nodup) :
    cs.Nodup := by
  rw [circuitsOfNumbers_map h] at nd
  exact List.Nodup.of_map _ nd

theorem members_nodup {s : State} (fit : StoresFit s) {g : GroupNo} {cs : List Circuit} (h : s.members g = some cs) :
    cs.Nodup := by
  unfold members at h
  split at h
  · cases h; exact indices_nodup
  · split at h
    · simp at h
    · cases h; exact fit.live.2.2.2.1 _

theorem expand_nodup {s : State} (fit : StoresFit s) {t : Target} (formed : Target.formed t = true)
    {cs : List Circuit} (h : s.expand t = some cs) : cs.Nodup := by
  cases t with
  | group n =>
    unfold expand State.group at h
    rw [Option.bind_eq_some_iff] at h
    obtain ⟨g, _, h⟩ := h
    exact members_nodup fit h
  | circuits l =>
    refine circuitsOfNumbers_nodup (l := l) h ?_
    unfold Target.formed at formed
    simp at formed
    exact formed.2.2

theorem preset_nodup {s : State} (fit : StoresFit s) {n : Nat} {d : PresetDef} (h : s.presetNumbered n = some d) :
    (d.pairs.map Prod.fst).Nodup := by
  unfold presetNumbered at h
  rw [Option.bind_eq_some_iff] at h
  obtain ⟨i, _, h⟩ := h
  exact fit.live.2.2.2.2 i d h

/-! ## A lease started anew does not bear on claims -/

theorem PlacedAs.of_lease {s v : State} {p : Port} {o : Owner} {items : List PlaceItem} {wait : Bool}
    {link : Option TrackerLink} (h : PlacedAs (s.refreshLease p) v o items wait link) : PlacedAs s v o items wait link :=
  ⟨h.named, h.order, h.others, h.standing, h.elsewhere,
    fun c it m => (h.judged c it m).imp fun _ k => ⟨⟨k.1.enters, k.1.continues, k.1.rests⟩, k.2⟩, h.still, h.fixed, h.raises⟩

theorem ReleasedAs.of_lease {s v : State} {p : Port} {o : Owner} {cs : List Circuit} {time : Nat}
    (h : ReleasedAs (s.refreshLease p) v o cs time) : ReleasedAs s v o cs time :=
  ⟨h.gone, h.order, h.others, h.standing, h.elsewhere, h.moved, h.judged, h.raises⟩

theorem CommandTold.of_lease {s v : State} {p : Port} {o : Owner} (h : CommandTold (s.refreshLease p) v o) :
    CommandTold s v o := ⟨h.taken, h.given⟩

theorem LinksSettle.of_lease {s v : State} {p : Port} {o : Option Owner} {cs : List Circuit} {taken : List Tracker}
    {cue : Option SlotNo} (h : LinksSettle (s.refreshLease p) v o cs taken cue) : LinksSettle s v o cs taken cue :=
  ⟨h.trackers, h.done, h.going, h.ended, h.armed, h.free, h.owed⟩

/-! ## Refusals -/

/-- The checks of R11 on a port's work, each with the circuits it passes over. -/
theorem portRefusal_eq (s : State) (p : Port) (w : PortWork) (cs : List Circuit)
    (h : w.items.map PlaceItem.circuit = cs) : s.portRefusal p w =
    if (∃ c ∈ cs, s.mayReach p c = false) ∨ (s.role p).maxRank.val < w.rank then some .denied
    else if s.locked (.port p) (rankOf w.rank) cs = true then some .locked
    else if s.freeRecords < s.recordsNeeded (.port p) cs then some .poolFull else none := by
  unfold portRefusal placeRefusal
  dsimp only
  rw [h]
  have e : (!(cs.all (s.mayReach p)) || decide ((s.role p).maxRank.val < w.rank)) = true ↔
      (∃ c ∈ cs, s.mayReach p c = false) ∨ (s.role p).maxRank.val < w.rank := by
    simp
  by_cases k : (∃ c ∈ cs, s.mayReach p c = false) ∨ (s.role p).maxRank.val < w.rank
  · rw [if_pos k, if_pos (e.mpr k)]
  · rw [if_neg k, if_neg fun t => k (e.mp t)]
    simp only [Bool.true_and]

/-- A placement that passes every check of R11 is not refused. -/
theorem MayPlace.accepted {s : State} {p : Port} {w : PortWork} {cs : List Circuit}
    (h : w.items.map PlaceItem.circuit = cs) (m : MayPlace s p w.rank cs) :
    (s.refreshLease p).portRefusal p w = none := by
  rw [portRefusal_eq _ _ _ _ h]
  have reach : ¬ ((∃ c ∈ cs, (s.refreshLease p).mayReach p c = false)
      ∨ ((s.refreshLease p).role p).maxRank.val < w.rank) := by
    rintro (⟨c, hc, e⟩ | e)
    · have : s.mayReach p c = false := e
      rw [m.reach c hc] at this
      simp at this
    · have := m.rank
      have e : (s.role p).maxRank.val < w.rank := e
      omega
  have lock : ¬ (s.refreshLease p).locked (.port p) (rankOf w.rank) cs = true := by
    intro e
    have : s.locked (.port p) (rankOf w.rank) cs = true := e
    rw [m.unlocked] at this
    simp at this
  have room : ¬ (s.refreshLease p).freeRecords < (s.refreshLease p).recordsNeeded (.port p) cs := by
    have := m.room
    intro e
    have e : s.freeRecords < s.recordsNeeded (.port p) cs := e
    omega
  rw [if_neg reach, if_neg lock, if_neg room]

/-- What a request answers that submits `work` as a placement: its refusals stand in the order of R11. -/
theorem refusedInOrder {s : State} {p : Port} {kind tag : Byte} {run : Host.Outcome State Fault Refusal} {r : Nat}
    {work : Option PortWork} (ready : Ready s p) (rank : ∀ w, work = some w → w.rank = r)
    (undefined : work = none → run = .next ((Answer.plain (s.refreshLease p) .badTarget).reply p kind tag))
    (refused : ∀ w x, work = some w → (s.refreshLease p).portRefusal p w = some x →
      run = .next (((s.refreshLease p).refusePlacement x).reply p kind tag)) :
    RefusedInOrder s p kind tag run r (work.map fun w => w.items.map PlaceItem.circuit) := by
  have plain : ∀ (t : State) status, t.replayOwed = false →
      (Answer.plain (t.refreshLease p) status).reply p kind tag = answered t p kind tag status .empty := fun t status e => by
    rw [reply_of_clear (by exact e)]
    exact respond_refreshLease t p kind tag status .empty
  cases work with
  | none =>
    exact
      { badTarget := fun _ => by rw [undefined rfl]; exact congrArg _ (plain s .badTarget ready.settled)
        denied := fun l e => by simp at e
        locked := fun l e => by simp at e
        poolFull := fun l e => by simp at e }
  | some w =>
    have hr := rank w rfl
    subst hr
    have eq := portRefusal_eq (s.refreshLease p) p w _ rfl
    have out : ∀ {x}, (s.refreshLease p).portRefusal p w = some x →
        run = .next (((s.refreshLease p).refusePlacement x).reply p kind tag) := fun e => refused w _ rfl e
    refine
      { badTarget := fun e => by simp at e
        denied := fun l e d => ?_, locked := fun l e a b c => ?_, poolFull := fun l e a b c d => ?_ }
    all_goals simp only [Option.map_some, Option.some.injEq] at e; subst e
    · rw [out (eq.trans (if_pos d))]
      exact congrArg _ (plain s .denied ready.settled)
    all_goals
      have pass : ¬ ((∃ c ∈ w.items.map PlaceItem.circuit, (s.refreshLease p).mayReach p c = false)
          ∨ ((s.refreshLease p).role p).maxRank.val < w.rank) := by
        rintro (⟨i, hi, k⟩ | k)
        · have k : s.mayReach p i = false := k
          rw [a i hi] at k
          simp at k
        · have k : (s.role p).maxRank.val < w.rank := k
          omega
      rw [if_neg pass] at eq
    · rw [out (eq.trans (if_pos c))]
      exact congrArg _ (plain s .locked ready.settled)
    · have lock : ¬ (s.refreshLease p).locked (.port p) (rankOf w.rank) (w.items.map PlaceItem.circuit) = true := by
        intro k
        have k : s.locked (.port p) (rankOf w.rank) (w.items.map PlaceItem.circuit) = true := k
        rw [c] at k
        simp at k
      rw [if_neg lock] at eq
      rw [out (eq.trans (if_pos d))]
      refine congrArg _ ?_
      exact plain { s with
        counters := { s.counters with poolRefusals := min (s.counters.poolRefusals + 1) 65535 } } .poolFull ready.settled

/-! ## The tracker of a placement -/

theorem obtainTracker_untagged (s : State) (p : Port) : s.obtainTracker p 0 = (.untracked, .ok) := rfl

/-- A free tracker is found exactly where one is free (R45, R46). -/
theorem freeTracker_eq (s : State) : (∀ i, s.freeTracker = some i → ∀ t ∈ s.trackers, t.id ≠ i)
    ∧ (s.freeTracker = none ↔ ∀ i : Fin 32, ∃ t ∈ s.trackers, t.id = i) := by
  unfold freeTracker
  refine ⟨fun i h t m e => ?_, ?_⟩
  · have := List.find?_some h
    simp at this
    exact this t m e
  · rw [List.find?_eq_none]
    simp

/-- A tagged request takes a tracker where one is free and the port holds fewer than 8 (R46). -/
theorem obtainTracker_tagged (s : State) (p : Port) {tag : Byte} (h : tag ≠ 0) :
    ((s.trackers.filter fun t => t.port == p).length < 8 → (∃ i : Fin 32, ∀ t ∈ s.trackers, t.id ≠ i) →
      ∃ i, s.obtainTracker p tag = (.pool i p tag, .ok) ∧ ∀ t ∈ s.trackers, t.id ≠ i)
    ∧ ((8 ≤ (s.trackers.filter fun t => t.port == p).length ∨ ∀ i : Fin 32, ∃ t ∈ s.trackers, t.id = i) →
      s.obtainTracker p tag = (.untracked, .okUntracked)) := by
  obtain ⟨fresh, full⟩ := freeTracker_eq s
  have eq : s.obtainTracker p tag =
      match (if (s.trackers.filter fun t => t.port == p).length < 8 then s.freeTracker else none) with
      | some id => (.pool id p tag, .ok)
      | none => (.untracked, .okUntracked) := by
    unfold obtainTracker trackerFor
    rw [if_neg h]
    rfl
  refine ⟨fun few some_ => ?_, fun k => ?_⟩
  · rw [eq, if_pos few]
    cases e : s.freeTracker with
    | none =>
      obtain ⟨i, hi⟩ := some_
      obtain ⟨t, m, e⟩ := full.mp e i
      exact absurd e (hi t m)
    | some i => exact ⟨i, rfl, fresh i e⟩
  · rw [eq]
    rcases k with k | k
    · rw [if_neg (by omega)]
    · rw [full.mpr k]
      simp

/-- A port ONLINE before an event of the Claim Table is ONLINE after it. -/
theorem ClaimEvent.online {s v : State} (h : ClaimEvent s v) (q : Port) :
    (v.port q).isOnline = (s.port q).isOnline := by
  have := h.ports q
  unfold PortState.isOnline
  rw [this]

theorem refreshLease_online (s : State) (p : Port) : ((s.refreshLease p).port p).isOnline = true := by
  unfold refreshLease
  rw [port_onPort]
  rfl

/-- The tracker a PLACE or RECALL takes, and how it is settled (R46 to R49). -/
theorem place_tracker (s : State) (p : Port) (tag : Byte) (w : PortWork)
    (nd : StoresFit s → (w.items.map PlaceItem.circuit).Nodup) :
    TrackerTaken s ((s.refreshLease p).place (portPlacement p w ((s.refreshLease p).obtainTracker p tag).1)) p tag
      (w.items.map PlaceItem.circuit) ((s.refreshLease p).obtainTracker p tag).2
      ((s.refreshLease p).obtainTracker p tag).1.link := by
  let t := s.refreshLease p
  have hp : t = s.refreshLease p := rfl
  have trackers : t.trackers = s.trackers := rfl
  have lists : ListsInOrder s → ListsInOrder t := id
  have un : ∀ u, t.obtainTracker p tag = (.untracked, u) → ListsInOrder s → StoresFit s →
      LinksSettle s (t.place (portPlacement p w .untracked)) (some (.port p)) (w.items.map PlaceItem.circuit) [] none :=
    fun _ _ l fit => (place_settles t (portPlacement p w .untracked) (lists l) (nd fit) rfl).of_lease
  show TrackerTaken s (t.place (portPlacement p w (t.obtainTracker p tag).1)) p tag (w.items.map PlaceItem.circuit)
    (t.obtainTracker p tag).2 (t.obtainTracker p tag).1.link
  by_cases zero : tag = 0
  · subst zero
    rw [show t.obtainTracker p 0 = (.untracked, .ok) from rfl]
    exact
      { untagged := fun _ => ⟨rfl, rfl⟩, taken := fun h => absurd rfl h, refused := fun h => absurd rfl h
        untracked := fun l fit _ => un .ok rfl l fit
        counted := fun _ _ i m e => by simp [TrackerUse.link] at e }
  · obtain ⟨take, refuse⟩ := obtainTracker_tagged t p zero
    by_cases k : (t.trackers.filter fun t => t.port == p).length < 8 ∧ ∃ i : Fin 32, ∀ x ∈ t.trackers, x.id ≠ i
    · obtain ⟨i, e, fresh⟩ := take k.1 k.2
      rw [e]
      have heard := (place_recovers t (portPlacement p w (.pool i p tag))).heard
      refine
        { untagged := fun h => absurd h zero
          taken := fun _ _ _ => ⟨rfl, i, rfl, fresh⟩
          refused := fun _ h => ?_
          untracked := fun _ _ h => by simp [TrackerUse.link] at h
          counted := fun l fit j m h hm => ?_ }
      · rcases h with h | h
        · exact absurd k.1 (by rw [trackers]; omega)
        · obtain ⟨j, hj⟩ := k.2
          obtain ⟨x, m, e⟩ := h j
          exact absurd e (hj x m)
      · simp only [TrackerUse.link, Option.some.injEq, TrackerLink.pool.injEq] at h
        subst h
        obtain ⟨pos, zero⟩ := place_settles_pool t (portPlacement p w (.pool i p tag)) (lists l) (nd fit) rfl fresh hm
        exact ⟨fun h => (pos h).of_lease, fun h => ⟨(zero h).1.of_lease, (zero h).2 (by
          rw [heard.online, hp]; exact refreshLease_online s p)⟩⟩
    · have e := refuse (by
        by_cases few : (t.trackers.filter fun t => t.port == p).length < 8
        · right
          intro i
          by_contra none
          exact k ⟨few, i, fun x m e => none ⟨x, m, e⟩⟩
        · left; omega)
      rw [e]
      exact
        { untagged := fun h => absurd h zero, taken := fun _ a b => absurd ⟨a, b⟩ k
          refused := fun _ _ => ⟨rfl, rfl⟩
          untracked := fun l fit _ => un .okUntracked e l fit
          counted := fun _ _ i m e => by simp [TrackerUse.link] at e }

/-! ## The slot of a cue -/

theorem slot_restartExpiry (s : State) (n m : SlotNo) : (s.restartExpiry n).slot m =
    if m = n then (s.slot n).map fun k => { k with expiry := s.now + k.timeout * 1000000 } else s.slot m :=
  slot_setSlot s n m _

/-- The slot of a GO after the placement of its cue (R113, R117). -/
theorem cue_runs (s : State) (p : Port) (n : SlotNo) (k : Slot) (w : PortWork) (h : s.slot n = some k) (own : k.owner = p)
    (nd : StoresFit s → (w.items.map PlaceItem.circuit).Nodup) :
    CueRuns s (((s.refreshLease p).restartExpiry n).place (portPlacement p w (.slot n))) n k
      (w.items.map PlaceItem.circuit) := by
  let t := (s.refreshLease p).restartExpiry n
  let pl := portPlacement p w (.slot n)
  have slots : ∀ m, t.slot m = if m = n then some { k with expiry := s.now + k.timeout * 1000000 } else s.slot m :=
    fun m => by
      have := slot_restartExpiry (s.refreshLease p) n m
      rw [show (s.refreshLease p).slot n = some k from h] at this
      exact this
  have online : ((t.place pl).port p).isOnline = true := by
    rw [(place_recovers t pl).heard.online]
    exact refreshLease_online s p
  have lists : ListsInOrder s → ListsInOrder t := id
  show CueRuns s (t.place pl) n k (w.items.map PlaceItem.circuit)
  have runs : ListsInOrder s → StoresFit s → ∀ m,
      travelling s (t.place pl) (.port k.owner) (w.items.map PlaceItem.circuit) (.slot n) = m →
      LinksSettle t (t.place pl) (some (.port p)) (w.items.map PlaceItem.circuit) [] (some n)
      ∧ (0 < m → (t.place pl).slot n = some { k with phase := .going m, expiry := s.now + k.timeout * 1000000 })
      ∧ (m = 0 → (t.place pl).slot n = none ∧ Told (t.place pl) k.owner (.standbyEnd n .done)) := fun l fit m hm => by
    rw [own] at hm
    have hn : t.slot n = some { k with expiry := s.now + k.timeout * 1000000 } := by rw [slots, if_pos rfl]
    obtain ⟨a, b⟩ := place_settles_slot t pl (lists l) (nd fit) rfl hm
    exact ⟨a, (b _ hn).1, fun z => ⟨((b _ hn).2 z).1, ((b _ hn).2 z).2 (by rw [own]; exact online)⟩⟩
  refine
    { stands := fun y hy => ?_, others := fun l fit => ?_, going := fun l fit m hm => (runs l fit m hm).2.1
      ended := fun l fit hm => (runs l fit 0 hm).2.2 rfl }
  · have same := commandNotices_same (t.placeStart pl)
      { before := t.circuits, mid := t.placeMid pl, after := t.placeAfter pl } (some pl.owner)
    have eq := place_eq t pl
    obtain ⟨_, _, going, ended, _, _, _⟩ := settled_of_drops eq
      (by rw [eq]; exact (settle_heard _ _ _).online)
    have start : ∃ c, (t.placeStart pl).slot n =
        some { k with phase := .going c, expiry := s.now + k.timeout * 1000000 } := by
      have : t.slot n = some { k with expiry := s.now + k.timeout * 1000000 } := by rw [slots, if_pos rfl]
      unfold placeStart setTracker
      refine ⟨((pl.items.map PlaceItem.circuit).filter fun c =>
        ((claimOf pl.owner ((t.placeMid pl).get c).claims).bind Claim.tracker).isSome).length, ?_⟩
      show (setSlot _ n _).slot n = _
      rw [slot_setSlot, if_pos rfl]
      show (t.slot n).map _ = _
      rw [this]
      rfl
    obtain ⟨c, start⟩ := start
    have start := (slot_of_slots (s := t.placeStart pl) same.2.1 n).trans start
    by_cases lt : List.count (TrackerLink.slot n) (t.placeDrops pl) < c
    · rw [going n _ c start rfl lt] at hy
      cases hy
      exact ⟨by simp, rfl, rfl, rfl, rfl⟩
    · rw [(ended n _ c start rfl (by omega)).1] at hy
      simp at hy
  · obtain ⟨a, _⟩ := runs l fit _ rfl
    rw [own]
    have off : ∀ {m : SlotNo}, some n ≠ some m → m ≠ n := fun ne e => ne (by rw [e])
    have same : ∀ {m : SlotNo}, some n ≠ some m → t.slot m = s.slot m := fun ne => by rw [slots, if_neg (off ne)]
    have used : ∀ m, t.slot m = none ↔ s.slot m = none := fun m => by
      rw [slots]
      split
      · rename_i e; rw [e, h]; simp
      · exact Iff.rfl
    exact
      { trackers := a.trackers, done := a.done
        going := fun m y c ne e => a.going m y c ne ((same ne).trans e)
        ended := fun m y c ne e => a.ended m y c ne ((same ne).trans e)
        armed := fun m y ne e => a.armed m y ne ((same ne).trans e)
        free := fun m e => a.free m ((used m).mpr e)
        owed := a.owed.trans (or_congr Iff.rfl (exists_congr fun m => and_congr (not_congr (used m)) Iff.rfl)) }

end Sys2Proof.Machine
end

