-- ==== Sys2Proof/Laws/Runs.lean ====
section
/-! SUPPORT. What a sequence player does, said once: the step it takes is `StepTaken`, a run begins as `RunBegins`, and a stop or a fault releases all its claims. -/

namespace Sys2Proof.Machine

/-- A change of player `n` and of the Claim Table: the deferred queue and the other players stand. -/
structure RunOf (n : PlayerNo) (s t : State) : Prop where
  steady : Steady s t
  deferred : t.deferred = s.deferred
  warned : t.deferWarned = s.deferWarned
  others : ∀ k, k ≠ n → t.player k = s.player k
  recovers : Recovers s t

namespace RunOf

theorem refl (n : PlayerNo) (s : State) : RunOf n s s := ⟨.refl s, rfl, rfl, fun _ _ => rfl, .refl s⟩

theorem trans {n : PlayerNo} {a b c : State} (h : RunOf n a b) (k : RunOf n b c) : RunOf n a c :=
  ⟨h.steady.trans k.steady, k.deferred.trans h.deferred, k.warned.trans h.warned,
    fun i e => (k.others i e).trans (h.others i e), h.recovers.trans k.recovers⟩

theorem of_claims (n : PlayerNo) {s t : State} (h : ClaimsOnly s t) (r : Recovers s t) : RunOf n s t :=
  ⟨h.toSteady, h.queue, h.deferWarned, fun _ _ => by unfold State.player; rw [h.players], r⟩

theorem of_setPlayer (s : State) (n : PlayerNo) (p : Player) : RunOf n s (s.setPlayer n p) :=
  ⟨State.setPlayer_steady s n p, rfl, rfl, fun _ e => Tab.get_set_of_ne _ _ e,
    (Quiet.of_ports (s := s) (t := s.setPlayer n p) rfl rfl rfl).recovers⟩

theorem of_count (n : PlayerNo) (s : State) : RunOf n s s.countPoolRefusal :=
  ⟨State.countPoolRefusal_steady s, rfl, rfl, fun _ _ => rfl,
    (Quiet.of_ports (s := s) (t := s.countPoolRefusal) rfl rfl rfl).recovers⟩

theorem of_announce (n : PlayerNo) (s : State) (x : Notice) : RunOf n s (s.announce x) :=
  .of_claims n (State.announce_claims s x) (State.announce_quiet s x).recovers

theorem of_release (n : PlayerNo) (s : State) (o : Owner) (time : Nat) : RunOf n s (s.releaseAll o time) :=
  .of_claims n (State.releaseAll_claims s o time) (State.releaseAll_recovers s o time)

theorem of_place (n : PlayerNo) (s : State) (pl : Placement) (h : Supplied s pl) : RunOf n s (s.place pl) :=
  .of_claims n (State.place_claims s pl h) (State.place_recovers s pl)

/-- The frame of a change of one player. -/
theorem event {n : PlayerNo} {s t : State} (h : RunOf n s t) :
    ClaimEvent { s with players := t.players, counters := t.counters } t := by
  have broad : Broad { s with players := t.players, counters := t.counters } t :=
    { h.steady.toBroad with counters := id, stock := fun x => h.steady.stock (x.of_eq rfl rfl) }
  have recovers : Recovers { s with players := t.players, counters := t.counters } t :=
    (Quiet.of_ports (s := { s with players := t.players, counters := t.counters }) (t := s) rfl rfl rfl).recovers.trans
      h.recovers
  refine .of_rest broad recovers ?_
  cases s; cases t
  obtain ⟨⟨b, hm, hl⟩, hq, hw, _, _⟩ := h
  have := b.now; have := b.pending; have := b.startup; have := b.tables; have := b.versions
  have := b.configState; have := b.imageState; have := b.memory; have := b.save; have := b.lines
  have := b.frameCount; have := b.rackDue; have := b.rackFrame
  simp_all

end RunOf

/-! ## Placements and releases read from another state -/

/-- What a placement is read from: circuits, tables, emergency, event number and slots. -/
structure SameClaims (s t : State) : Prop where
  circuits : t.circuits = s.circuits
  tables : t.tables = s.tables
  emergency : t.emergency.state = s.emergency.state
  event : t.event = s.event
  slots : t.slots = s.slots
  now : t.now = s.now

namespace SameClaims

theorem refl (s : State) : SameClaims s s := ⟨rfl, rfl, rfl, rfl, rfl, rfl⟩

theorem trans {a b c : State} (h : SameClaims a b) (k : SameClaims b c) : SameClaims a c :=
  ⟨k.circuits.trans h.circuits, k.tables.trans h.tables, k.emergency.trans h.emergency, k.event.trans h.event,
    k.slots.trans h.slots, k.now.trans h.now⟩

variable {s t : State} (h : SameClaims s t)
include h

theorem circuit (c : Circuit) : t.circuit c = s.circuit c := by unfold State.circuit; rw [h.circuits]
theorem claims (c : Circuit) : t.claims c = s.claims c := by unfold State.claims; rw [h.circuit]
theorem record (c : Circuit) : t.record c = s.record c := by unfold State.record; rw [h.tables]
theorem level (c : Circuit) : t.level c = s.level c := by
  unfold State.level; rw [h.circuit, h.tables, h.record, h.emergency]
theorem circuitsOf (o : Owner) : t.circuitsOf o = s.circuitsOf o := by
  unfold State.circuitsOf; simp only [h.claims]
theorem commands (o : Owner) (c : Circuit) (r : Rank) : Commands t o c r ↔ Commands s o c r := by
  unfold Commands; rw [h.claims]
theorem locked (o : Owner) (r : Rank) (cs : List Circuit) : t.locked o r cs = s.locked o r cs := by
  unfold State.locked; rw [h.slots]
theorem freeRecords : t.freeRecords = s.freeRecords := by
  unfold State.freeRecords State.recordsInUse; rw [h.circuits]
theorem recordsNeeded (o : Owner) (cs : List Circuit) : t.recordsNeeded o cs = s.recordsNeeded o cs := by
  unfold State.recordsNeeded; simp only [h.claims]
theorem placeRefusal (o : Owner) (r : Rank) (cs : List Circuit) (b : Bool) :
    t.placeRefusal o r cs b = s.placeRefusal o r cs b := by
  unfold State.placeRefusal; rw [h.locked, h.freeRecords, h.recordsNeeded]
theorem presetDef (p : PresetNo) : t.presetDef p = s.presetDef p := by unfold State.presetDef; rw [h.tables]

theorem inCommand (c : Circuit) (o : Owner) : t.inCommand c o = s.inCommand c o := by
  unfold State.inCommand; rw [h.claims, h.tables]
theorem forced (c : Circuit) : t.forced c = s.forced c := by unfold State.forced; rw [h.record, h.emergency]

theorem released {v : State} {o : Owner} {cs : List Circuit} {time : Nat} (k : ReleasedAs t v o cs time) :
    ReleasedAs s v o cs time where
  gone := k.gone
  order c m := by rw [← h.claims]; exact k.order c m
  others c q e := by rw [← h.claims]; exact k.others c q e
  standing c q x e hx := k.standing c q x e (by rw [h.claims]; exact hx)
  elsewhere c m := by rw [← h.claims, ← h.circuit]; exact k.elsewhere c m
  moved c m a b := by rw [← h.level]; exact k.moved c m (by rw [h.inCommand]; exact a) (by rw [h.forced]; exact b)
  judged c m := by
    have g := k.judged c m
    rw [h.claims, h.inCommand, h.forced, h.level, h.circuit, h.tables, h.record, h.emergency, h.event] at g
    exact g
  raises c := by rw [← h.circuit]; exact k.raises c

theorem changed {o : Owner} {wait : Bool} {c : Circuit} {it : PlaceItem} {x : CircuitState}
    (k : Changed t o wait c it x) : Changed s o wait c it x where
  enters := by
    have g := k.enters
    rw [h.tables, h.claims, h.commands, h.level, h.event] at g
    exact g
  continues := by
    have g := k.continues
    rw [h.tables, h.claims, h.commands, h.level, h.circuit] at g
    exact g
  rests := by
    have g := k.rests
    rw [h.tables, h.claims, h.commands, h.circuit] at g
    exact g

theorem placed {v : State} {o : Owner} {items : List PlaceItem} {wait : Bool} {link : Option TrackerLink}
    (k : PlacedAs t v o items wait link) : PlacedAs s v o items wait link where
  named c it m := by
    obtain ⟨x, hx, a, b, wt, nw, d⟩ := k.named c it m
    rw [h.tables, h.claims] at wt nw
    rw [h.commands, h.level, h.event] at nw
    exact ⟨x, hx, a, b, wt, nw, d⟩
  order c it m := by rw [← h.claims]; exact k.order c it m
  others c q e := by rw [← h.claims]; exact k.others c q e
  standing c q x e hx := k.standing c q x e (by rw [h.claims]; exact hx)
  elsewhere c m := by rw [← h.claims, ← h.circuit]; exact k.elsewhere c m
  judged c it m := by
    obtain ⟨x, ch, j⟩ := k.judged c it m
    rw [h.tables, h.record, h.emergency, h.event] at j
    exact ⟨x, h.changed ch, j⟩
  still c m := k.still c (by rw [h.circuit]; exact m)
  fixed c t m := k.fixed c t (by rw [h.circuit]; exact m)
  raises c := by rw [← h.circuit]; exact k.raises c

end SameClaims

/-! ## The same claims read in another state after the event -/

theorem ReleasedAs.after {s v u : State} {o : Owner} {cs : List Circuit} {time : Nat} (h : ReleasedAs s v o cs time)
    (e : u.circuits = v.circuits) : ReleasedAs s u o cs time := by
  have k : ∀ c, u.circuit c = v.circuit c := fun c => by unfold State.circuit; rw [e]
  have l : ∀ c, u.claims c = v.claims c := fun c => by unfold State.claims; rw [k]
  exact
    { gone := fun c m => by rw [l]; exact h.gone c m
      order := fun c m => by rw [l]; exact h.order c m
      others := fun c q m => by rw [l]; exact h.others c q m
      standing := fun c q x m hx => by rw [l]; exact h.standing c q x m hx
      elsewhere := fun c m => by rw [l, k]; exact h.elsewhere c m
      moved := fun c m => by rw [k]; exact h.moved c m
      judged := fun c m => by rw [k]; exact h.judged c m
      raises := fun c => by rw [k]; exact h.raises c }

theorem PlacedAs.after {s v u : State} {o : Owner} {items : List PlaceItem} {wait : Bool} {link : Option TrackerLink}
    (h : PlacedAs s v o items wait link) (e : u.circuits = v.circuits) (f : u.slots = v.slots) :
    PlacedAs s u o items wait link := by
  have k : ∀ c, u.circuit c = v.circuit c := fun c => by unfold State.circuit; rw [e]
  have l : ∀ c, u.claims c = v.claims c := fun c => by unfold State.claims; rw [k]
  exact
    { named := fun c it m => by
        obtain ⟨x, hx, a, b, wt, nw, d, g⟩ := h.named c it m
        exact ⟨x, by rw [l]; exact hx, a, b, wt, nw, d, fun st slots => g st fun n hn => by
          rw [← State.slot_of_slots f]; exact slots n hn⟩
      order := fun c it m => by rw [l]; exact h.order c it m
      others := fun c q m => by rw [l]; exact h.others c q m
      standing := fun c q x m hx => by rw [l]; exact h.standing c q x m hx
      elsewhere := fun c m => by rw [l, k]; exact h.elsewhere c m
      judged := fun c it m => by rw [k]; exact h.judged c it m
      still := fun c m => by rw [k]; exact h.still c m
      fixed := fun c m => by rw [k]; exact h.fixed c m
      raises := fun c => by rw [k]; exact h.raises c }

namespace State

theorem player_setPlayer (s : State) (n : PlayerNo) (p : Player) : (s.setPlayer n p).player n = p :=
  Tab.get_set_self s.players n p

theorem sameClaims_setPlayer (s : State) (n : PlayerNo) (p : Player) : SameClaims s (s.setPlayer n p) :=
  ⟨rfl, rfl, rfl, rfl, rfl, rfl⟩

theorem sameClaims_count (s : State) : SameClaims s s.countPoolRefusal := ⟨rfl, rfl, rfl, rfl, rfl, rfl⟩

theorem sameClaims_announce (s : State) (n : Notice) : SameClaims s (s.announce n) := ⟨rfl, rfl, rfl, rfl, rfl, rfl⟩

theorem releaseAll_released (s : State) (o : Owner) (time : Nat) :
    ReleasedAs s (s.releaseAll o time) o (s.circuitsOf o) time := release_released s o _ time

/-- The release time of a player's sequence (R128). -/
theorem sequenceReleaseTime_eq (s : State) (n : PlayerNo) : s.sequenceReleaseTime n = releaseTime s n := by
  unfold sequenceReleaseTime releaseTime playerSequence
  show (match (s.player n).sequence.bind fun q => s.tables.sequences.get q with
    | some q => q.releaseTime
    | none => 0) = _
  cases (s.player n).sequence.bind fun q => s.tables.sequences.get q <;> rfl

/-- A release that follows an announcement leaves it told. -/
theorem releaseAll_announced (s : State) (x : Notice) (o : Owner) (time : Nat) :
    Announced ((s.announce x).releaseAll o time) x :=
  (release_heard _ _ _ _).announced (announce_announced s x)

/-- A fault leaves the player OFF and its claims released (R142). -/
theorem faultPlayer_faulted (w u : State) (n : PlayerNo) (r : StepRefusal) (same : SameClaims w u)
    (pl : u.player n = ratedPlayer (w.player n)) : Faulted w (u.faultPlayer n r) n r := by
  let a := (u.idlePlayer n).announce (.seq n (u.player n).sequence (.fault r) (u.player n).passes (u.player n).step)
  have ua : SameClaims w a := same.trans ((sameClaims_setPlayer u n _).trans (sameClaims_announce _ _))
  have h : u.faultPlayer n r = a.releaseAll (.seq n) (u.sequenceReleaseTime n) := rfl
  have time : u.sequenceReleaseTime n = releaseTime w n := by
    rw [sequenceReleaseTime_eq]
    unfold releaseTime
    rw [pl, same.tables]
    rfl
  have told : Announced (u.faultPlayer n r) (.seq n (w.player n).sequence (.fault r) (w.player n).passes (w.player n).step) := by
    have k := releaseAll_announced (u.idlePlayer n)
      (.seq n (u.player n).sequence (.fault r) (u.player n).passes (u.player n).step) (.seq n) (u.sequenceReleaseTime n)
    rw [h]
    show Announced ((((u.idlePlayer n).announce _).releaseAll (.seq n) _)) _
    rw [pl] at k ⊢
    exact k
  refine ⟨?_, told, ?_, ?_⟩
  · have e : (u.faultPlayer n r).player n = a.player n := by
      rw [h]; unfold player; rw [(releaseAll_claims a (.seq n) _).players]
    have e' : a.player n = { u.player n with mode := .off, run := .idle, step := 0 } := by
      show (u.idlePlayer n).player n = _
      exact player_setPlayer _ _ _
    rw [e, e', pl]
  · rw [h, ← ua.circuitsOf, ← time]
    exact ua.released (releaseAll_released a (.seq n) _)
  · rw [h]; exact releaseAll_none a (.seq n) _

theorem faultPlayer_runs (u : State) (n : PlayerNo) (r : StepRefusal) : RunOf n u (u.faultPlayer n r) :=
  ((RunOf.of_setPlayer u n _).trans (.of_announce n _ _)).trans (.of_release n _ _ _)

theorem faultPlayer_counters (u : State) (n : PlayerNo) (r : StepRefusal) :
    (u.faultPlayer n r).counters = u.counters := by
  let a := (u.idlePlayer n).announce (.seq n (u.player n).sequence (.fault r) (u.player n).passes (u.player n).step)
  have h : u.faultPlayer n r = a.releaseAll (.seq n) (u.sequenceReleaseTime n) := rfl
  have k : a.counters = u.counters := rfl
  rw [h, (releaseAll_claims a (.seq n) _).counts, k]

theorem startWait_runs (s : State) (n : PlayerNo) (wait : Nat) : RunOf n s (s.startWait n wait) :=
  RunOf.of_setPlayer s n _

theorem holdStep_runs (s : State) (n : PlayerNo) : RunOf n s (s.holdStep n) := by
  unfold holdStep announceSeq
  exact (RunOf.of_setPlayer s n _).trans (.of_announce n _ _)

theorem holdStep_told (s : State) (n : PlayerNo) :
    Announced (s.holdStep n) (.seq n (s.player n).sequence .waitLock (s.player n).passes (s.player n).step) := by
  have k := announce_announced (s.setPlayer n { s.player n with run := .waitLock })
    (.seq n (s.player n).sequence .waitLock (s.player n).passes (s.player n).step)
  unfold holdStep announceSeq
  rw [player_setPlayer]
  exact k

theorem holdStep_player (s : State) (n : PlayerNo) : (s.holdStep n).player n = { s.player n with run := .waitLock } :=
  player_setPlayer _ _ _

theorem takeRate_player (w : State) (n : PlayerNo) : (w.takeRate n).player n = ratedPlayer (w.player n) :=
  player_setPlayer _ _ _

theorem startWait_player (u : State) (n : PlayerNo) (wait : Nat) :
    (u.startWait n wait).player n = waitingPlayer (u.player n) u.now wait := player_setPlayer _ _ _

theorem startWait_keeps (s : State) (n : PlayerNo) (wait : Nat) : (s.startWait n wait).counters = s.counters
    ∧ (s.startWait n wait).circuits = s.circuits ∧ (s.startWait n wait).slots = s.slots := ⟨rfl, rfl, rfl⟩

theorem holdStep_keeps (s : State) (n : PlayerNo) : (s.holdStep n).counters = s.counters
    ∧ (s.holdStep n).circuits = s.circuits := ⟨rfl, rfl⟩

theorem countPoolRefusal_keeps (s : State) : s.countPoolRefusal.counters =
    { s.counters with poolRefusals := min (s.counters.poolRefusals + 1) 65535 }
    ∧ ∀ n, s.countPoolRefusal.player n = s.player n := ⟨rfl, fun _ => rfl⟩

/-- A RELEASE step taken (R138), `b` being the state its release leaves. -/
theorem stepTaken_release {w u b v : State} {n : PlayerNo} {q : SequenceDef} {x : SeqStep} (kind : x.kind = .release)
    (ws : SameClaims w u) (run : RunOf n w u) (counts : u.counters = w.counters)
    (wp : u.player n = ratedPlayer (w.player n)) (rel : ClaimsOnly u b) (recov : Recovers u b)
    (put : ReleasedAs u b (.seq n) (u.circuitsOf (.seq n)) x.fade) (hv : v = b.startWait n x.wait) :
    StepTaken w v n q x none := by
  have whole : RunOf n w v := by
    rw [hv]; exact (run.trans (.of_claims n rel recov)).trans (startWait_runs b n x.wait)
  have kept : v.counters = w.counters := by rw [hv, (startWait_keeps b n x.wait).1, rel.counts, counts]
  have p : v.player n = waitingPlayer (ratedPlayer (w.player n)) w.now x.wait := by
    rw [hv, startWait_player, rel.now, ws.now, ← wp]
    unfold player
    rw [rel.players]
  have out : ReleasedAs w v (.seq n) (w.circuitsOf (.seq n)) x.fade := by
    rw [← ws.circuitsOf]
    exact (ws.released put).after (by rw [hv]; exact (startWait_keeps b n x.wait).2.1)
  clear hv
  exact
    { release := fun _ => ⟨rfl, out, p⟩
      undefined := fun a h => absurd (kind.symm.trans h) (by simp)
      locked := fun a d h => absurd (kind.symm.trans h) (by simp)
      short := fun a d h => absurd (kind.symm.trans h) (by simp)
      placed := fun a d h => absurd (kind.symm.trans h) (by simp)
      rest := ⟨whole.event, whole.others, fun _ => kept⟩ }

/-- A RECALL step of a preset that is undefined (R142). -/
theorem stepTaken_undefined {w v : State} {n : PlayerNo} {q : SequenceDef} {x : SeqStep} {preset : PresetNo}
    (kind : x.kind = .recall preset) (whole : RunOf n w v) (kept : v.counters = w.counters)
    (none : w.presetDef preset = none) (fault : Faulted w v n .badTarget) : StepTaken w v n q x (some .badTarget) := by
  have no : ∀ {a d}, x.kind = .recall a → w.presetDef a = some d → False := fun h e => by
    cases kind.symm.trans h
    rw [none] at e
    exact absurd e (by simp)
  exact
    { release := fun h => absurd (kind.symm.trans h) (by simp)
      undefined := fun _ _ _ => ⟨rfl, fault⟩
      locked := fun _ _ h e => (no h e).elim
      short := fun _ _ h e => (no h e).elim
      placed := fun _ _ h e => (no h e).elim
      rest := ⟨whole.event, whole.others, fun _ => kept⟩ }

/-- A RECALL step of a defined preset, by its lock question and the pool (R138, R141, R142). -/
theorem stepTaken_recall {w v : State} {n : PlayerNo} {q : SequenceDef} {x : SeqStep} {preset : PresetNo}
    {d : PresetDef} {refused : Option StepRefusal} (kind : x.kind = .recall preset) (whole : RunOf n w v)
    (some_ : w.presetDef preset = some d)
    (hv : (w.locked (.seq n) q.rank (d.pairs.map Prod.fst) = true ∧ refused = none
        ∧ v.player n = { ratedPlayer (w.player n) with run := .waitLock } ∧ v.circuits = w.circuits
        ∧ Announced v (.seq n (w.player n).sequence .waitLock (w.player n).passes (w.player n).step)
        ∧ v.counters = w.counters)
      ∨ (w.locked (.seq n) q.rank (d.pairs.map Prod.fst) = false
        ∧ w.freeRecords < w.recordsNeeded (.seq n) (d.pairs.map Prod.fst)
        ∧ refused = some .poolFull ∧ Faulted w v n .poolFull
        ∧ v.counters = { w.counters with poolRefusals := min (w.counters.poolRefusals + 1) 65535 })
      ∨ (w.locked (.seq n) q.rank (d.pairs.map Prod.fst) = false
        ∧ ¬ w.freeRecords < w.recordsNeeded (.seq n) (d.pairs.map Prod.fst)
        ∧ refused = none
        ∧ PlacedAs w v (.seq n) (d.pairs.map fun y =>
            { circuit := y.1, target := y.2, fade := x.fade, rank := q.rank, cause := none }) false none
        ∧ v.player n = waitingPlayer (ratedPlayer (w.player n)) w.now x.wait ∧ v.counters = w.counters)) :
    StepTaken w v n q x refused := by
  have same : ∀ {a y}, x.kind = .recall a → w.presetDef a = some y → y = d := fun h e => by
    cases kind.symm.trans h
    rw [some_] at e
    exact (Option.some.inj e).symm
  have no : ∀ {a}, x.kind = .recall a → w.presetDef a = none → False := fun h e => by
    cases kind.symm.trans h
    rw [some_] at e
    exact absurd e (by simp)
  have notRelease : x.kind = .release → False := fun h => absurd (kind.symm.trans h) (by simp)
  rcases hv with ⟨lock, hr, p, stay, told, kept⟩ | ⟨lock, short, hr, fault, count⟩ | ⟨lock, room, hr, put, p, kept⟩
  · exact
      { release := fun h => (notRelease h).elim
        undefined := fun _ h e => (no h e).elim
        locked := fun a y h e l => ⟨hr, p, stay, told⟩
        short := fun a y h e l => by rw [same h e, lock] at l; exact absurd l (by simp)
        placed := fun a y h e l => by rw [same h e, lock] at l; exact absurd l (by simp)
        rest := ⟨whole.event, whole.others, fun _ => kept⟩ }
  · exact
      { release := fun h => (notRelease h).elim
        undefined := fun _ h e => (no h e).elim
        locked := fun a y h e l => by rw [same h e, lock] at l; exact absurd l (by simp)
        short := fun a y h e l _ => ⟨hr, fault, count⟩
        placed := fun a y h e l f => by rw [same h e] at f; omega
        rest := ⟨whole.event, whole.others, fun h => absurd hr h⟩ }
  · exact
      { release := fun h => (notRelease h).elim
        undefined := fun _ h e => (no h e).elim
        locked := fun a y h e l => by rw [same h e, lock] at l; exact absurd l (by simp)
        short := fun a y h e l f => by rw [same h e] at f; omega
        placed := fun a y h e l f => ⟨hr, by rw [same h e]; exact put, p⟩
        rest := ⟨whole.event, whole.others, fun _ => kept⟩ }

/-- A RECALL step whose placement is taken (R138), `b` being the state the placement leaves. -/
theorem stepPut {w u b v : State} {n : PlayerNo} {items : List PlaceItem} {wait : Nat}
    (ws : SameClaims w u) (run : RunOf n w u) (counts : u.counters = w.counters)
    (wp : u.player n = ratedPlayer (w.player n)) (pc : ClaimsOnly u b) (recov : Recovers u b) (put : PlacedAs u b (.seq n) items false none)
    (hv : v = b.startWait n wait) :
    RunOf n w v ∧ PlacedAs w v (.seq n) items false none
    ∧ v.player n = waitingPlayer (ratedPlayer (w.player n)) w.now wait ∧ v.counters = w.counters := by
  subst hv
  refine ⟨(run.trans (.of_claims n pc recov)).trans (startWait_runs b n wait),
    (ws.placed put).after (startWait_keeps b n wait).2.1 (startWait_keeps b n wait).2.2, ?_, ?_⟩
  · rw [startWait_player, pc.now, ws.now, ← wp]
    unfold player
    rw [pc.players]
  · rw [(startWait_keeps b n wait).1, pc.counts, counts]

/-- The value of a step of player `n`, its rate taken (R138). -/
theorem takeStep_release {w : State} {n : PlayerNo} {q : SequenceDef} {x : SeqStep}
    (cur : (w.takeRate n).currentStep n = some (q, x)) (kind : x.kind = .release) :
    w.takeStep n = (((w.takeRate n).releaseAll (.seq n) x.fade).startWait n x.wait, none) := by
  unfold takeStep takeAction
  rw [cur]
  simp only [kind]

theorem takeStep_undefined {w : State} {n : PlayerNo} {q : SequenceDef} {x : SeqStep} {preset : PresetNo}
    (cur : (w.takeRate n).currentStep n = some (q, x)) (kind : x.kind = .recall preset)
    (h : (w.takeRate n).presetDef preset = none) :
    w.takeStep n = ((w.takeRate n).faultPlayer n .badTarget, some .badTarget) := by
  unfold takeStep takeAction
  rw [cur]
  simp only [kind, h]

theorem takeStep_recall {w : State} {n : PlayerNo} {q : SequenceDef} {x : SeqStep} {preset : PresetNo} {d : PresetDef}
    (cur : (w.takeRate n).currentStep n = some (q, x)) (kind : x.kind = .recall preset)
    (h : (w.takeRate n).presetDef preset = some d) {r : Option PlaceRefusal}
    (e : (w.takeRate n).placeRefusal (.seq n) q.rank (PresetDef.circuits d) true = r) :
    (r = none → w.takeStep n = (((w.takeRate n).place (stepPlacement n q x d)).startWait n x.wait, none))
    ∧ (r = some .locked → w.takeStep n = ((w.takeRate n).holdStep n, none))
    ∧ (r = some .poolFull →
        w.takeStep n = ((w.takeRate n).countPoolRefusal.faultPlayer n .poolFull, some .poolFull)) := by
  refine ⟨fun k => ?_, fun k => ?_, fun k => ?_⟩ <;>
  · subst k
    unfold takeStep takeAction
    rw [cur]
    simp only [kind, h, e]

/-- The step a player takes, or the fault in it (R138, R141, R142). -/
theorem takeStep_taken (w : State) (n : PlayerNo) (q : SequenceDef) (x : SeqStep)
    (hq : w.playerSequence n = some q) (hx : q.steps[(w.player n).step - 1]? = some x) :
    StepTaken w (w.takeStep n).1 n q x (w.takeStep n).2 := by
  have ws : SameClaims w (w.takeRate n) := sameClaims_setPlayer w n _
  have wp := takeRate_player w n
  have run : RunOf n w (w.takeRate n) := RunOf.of_setPlayer w n _
  have counts : (w.takeRate n).counters = w.counters := rfl
  have cur : (w.takeRate n).currentStep n = some (q, x) := by
    have e : (w.takeRate n).playerSequence n = some q := by
      rw [← hq]; unfold playerSequence; rw [wp]; rfl
    have e' : ((w.takeRate n).player n).step = (w.player n).step := by rw [wp]; rfl
    unfold currentStep
    rw [e, Option.bind_some, e', hx]
    rfl
  match kind : x.kind with
  | .release =>
    rw [takeStep_release cur kind]
    exact stepTaken_release kind ws run counts wp (releaseAll_claims _ _ _) (releaseAll_recovers _ _ _) (releaseAll_released _ _ _) rfl
  | .recall preset =>
    have present := ws.presetDef preset
    cases def_ : w.presetDef preset with
    | none =>
      rw [def_] at present
      rw [takeStep_undefined cur kind present]
      dsimp only
      have whole := run.trans (faultPlayer_runs (w.takeRate n) n .badTarget)
      have kept := faultPlayer_counters (w.takeRate n) n .badTarget
      rw [counts] at kept
      have fault := faultPlayer_faulted w (w.takeRate n) n .badTarget ws wp
      exact stepTaken_undefined kind whole kept def_ fault
    | some d =>
      rw [def_] at present
      have judged : (w.takeRate n).placeRefusal (.seq n) q.rank (PresetDef.circuits d) true =
          if w.locked (.seq n) q.rank (d.pairs.map Prod.fst) = true then some .locked
          else if w.freeRecords < w.recordsNeeded (.seq n) (d.pairs.map Prod.fst) then some .poolFull else none := by
        rw [ws.placeRefusal]
        unfold placeRefusal
        simp only [Bool.true_and]
        rfl
      have steps := takeStep_recall cur kind present judged
      by_cases lock : w.locked (.seq n) q.rank (d.pairs.map Prod.fst) = true
      · rw [steps.2.1 (if_pos lock)]
        dsimp only
        have p := holdStep_player (w.takeRate n) n
        rw [wp] at p
        have keeps := holdStep_keeps (w.takeRate n) n
        rw [counts, ws.circuits] at keeps
        have told := holdStep_told (w.takeRate n) n
        rw [wp] at told
        exact stepTaken_recall kind (run.trans (holdStep_runs (w.takeRate n) n)) def_
          (.inl ⟨lock, rfl, p, keeps.2, told, keeps.1⟩)
      · have lock' : w.locked (.seq n) q.rank (d.pairs.map Prod.fst) = false := by simpa using lock
        by_cases short : w.freeRecords < w.recordsNeeded (.seq n) (d.pairs.map Prod.fst)
        · rw [steps.2.2 ((if_neg lock).trans (if_pos short))]
          dsimp only
          have keeps := countPoolRefusal_keeps (w.takeRate n)
          rw [counts] at keeps
          have p := keeps.2 n
          rw [wp] at p
          have whole := (run.trans (.of_count n (w.takeRate n))).trans
            (faultPlayer_runs (w.takeRate n).countPoolRefusal n .poolFull)
          have fault := faultPlayer_faulted w (w.takeRate n).countPoolRefusal n .poolFull
            (ws.trans (sameClaims_count (w.takeRate n))) p
          have count := faultPlayer_counters (w.takeRate n).countPoolRefusal n .poolFull
          rw [keeps.1] at count
          exact stepTaken_recall kind whole def_ (.inr (.inl ⟨lock', short, rfl, fault, count⟩))
        · rw [steps.1 ((if_neg lock).trans (if_neg short))]
          dsimp only
          obtain ⟨whole, put, p, kept⟩ := stepPut (items := (stepPlacement n q x d).items) ws run counts wp
            (place_claims (w.takeRate n) (stepPlacement n q x d) (stepPlacement_supplied ((if_neg lock).trans (if_neg short))))
            (place_recovers _ _) (place_placed (w.takeRate n) (stepPlacement n q x d)) rfl
          exact stepTaken_recall kind whole def_ (.inr (.inr ⟨lock', short, rfl, put, p, kept⟩))

/-- A player that stands at no step takes its rate and nothing else. -/
theorem takeStep_none {w : State} {n : PlayerNo} (h : (w.takeRate n).currentStep n = none) :
    w.takeStep n = (w.takeRate n, none) := by
  unfold takeStep takeAction
  rw [h]

/-- A step changes one player and the Claim Table, and counts (R138, R142). -/
theorem takeStep_runs (w : State) (n : PlayerNo) : RunOf n w (w.takeStep n).1 := by
  have rate : RunOf n w (w.takeRate n) := RunOf.of_setPlayer w n _
  generalize hu : w.takeRate n = u at rate
  have act : w.takeStep n = u.takeAction n := by unfold takeStep; rw [hu]
  rw [act]
  refine rate.trans ?_
  unfold takeAction
  split
  · exact .refl n _
  · rename_i q x _
    split
    · have k := RunOf.of_release n u (.seq n) x.fade
      dsimp only
      generalize u.releaseAll (.seq n) x.fade = a at k
      exact k.trans (startWait_runs a n x.wait)
    · split
      · dsimp only
        exact faultPlayer_runs u n .badTarget
      · rename_i d _
        split
        · rename_i free
          have k := RunOf.of_place n u (stepPlacement n q x d) (stepPlacement_supplied free)
          dsimp only
          generalize u.place (stepPlacement n q x d) = a at k
          exact k.trans (startWait_runs a n x.wait)
        · dsimp only
          exact holdStep_runs u n
        · have k := RunOf.of_count n u
          dsimp only
          generalize u.countPoolRefusal = a at k
          exact k.trans (faultPlayer_runs a n .poolFull)

/-- A request's rate is written as pending, and rate 0 leaves what is pending (R131). -/
theorem writeRate_eq (s : State) (n : PlayerNo) (rate : Nat) : s.writeRate n rate = s.setPlayer n
    { s.player n with pendingRate := if rate = 0 then (s.player n).pendingRate else some rate } := by
  unfold writeRate
  split
  · have : s.players.set n (s.player n) = s.players := Tab.ext fun i => by
      rw [Tab.get_set]
      split
      · rename_i e; rw [e]; rfl
      · rfl
    show s = { s with players := s.players.set n (s.player n) }
    rw [this]
  · rfl

/-! ## Stops and starts -/

/-- Released claims stay so where only links change afterwards. -/
theorem released_links {s v u : State} {o : Owner} {cs : List Circuit} {time : Nat} (h : ReleasedAs s v o cs time)
    (k : ∀ c, LinksOnly (v.circuit c) (u.circuit c)) : ReleasedAs s u o cs time where
  gone c m := by
    have e := (k c).wish o
    have g : claimOf o (v.circuit c).claims = none := h.gone c m
    rw [g] at e
    exact Option.map_eq_none_iff.mp e
  order c m := (k c).wishes.trans (h.order c m)
  others c q m := ((k c).wish q).trans (h.others c q m)
  standing c q x m hx he := ((k c).state q).trans (h.standing c q x m hx he)
  elsewhere c m := ⟨(k c).claims.trans (h.elsewhere c m).1, (k c).transition.trans (h.elsewhere c m).2⟩
  moved c m a b := (k c).transition.trans (h.moved c m a b)
  judged c m := by
    obtain ⟨x, l, a, b, j⟩ := h.judged c m
    exact ⟨x, l, a, b, j.after (k c)⟩
  raises c := (k c).raisedBy.trans (h.raises c)

/-- A stop leaves the player OFF and its claims released (R135). -/
theorem stopPlayer_stopped (s : State) (n : PlayerNo) (source : RunSource) :
    Stopped s (s.stopPlayer n source) n source ∧ RunOf n s (s.stopPlayer n source)
      ∧ (s.stopPlayer n source).counters = s.counters := by
  let a := (s.idlePlayer n).announceSeq n (.stopped source)
  have sa : SameClaims s a := (sameClaims_setPlayer s n _).trans (sameClaims_announce _ _)
  have ra : RunOf n s a := (RunOf.of_setPlayer s n _).trans (.of_announce n _ _)
  have ca : a.counters = s.counters := rfl
  have pa : a.player n = { s.player n with mode := .off, run := .idle, step := 0 } := by
    show (s.idlePlayer n).player n = _
    exact player_setPlayer _ _ _
  have h : s.stopPlayer n source = a.releaseAll (.seq n) (a.sequenceReleaseTime n) := by
    have e : a.sequenceReleaseTime n = s.sequenceReleaseTime n := by
      unfold sequenceReleaseTime playerSequence sequenceDef
      rw [pa, sa.tables]
    rw [e]; rfl
  have time : a.sequenceReleaseTime n = releaseTime s n := by
    rw [sequenceReleaseTime_eq]
    unfold releaseTime
    rw [pa, sa.tables]
  have told : Announced a (.seq n (s.player n).sequence (.stopped source) (s.player n).passes 0) := by
    have k := announce_announced (s.idlePlayer n) (.seq n (s.player n).sequence (.stopped source) (s.player n).passes 0)
    show Announced ((s.idlePlayer n).announceSeq n (.stopped source)) _
    unfold announceSeq
    rw [show (s.idlePlayer n).player n = _ from pa]
    exact k
  rw [h, time]
  have rel := releaseAll_claims a (.seq n) (releaseTime s n)
  have recov := releaseAll_recovers a (.seq n) (releaseTime s n)
  have put := releaseAll_released a (.seq n) (releaseTime s n)
  have none := releaseAll_none a (.seq n) (releaseTime s n)
  generalize a.releaseAll (.seq n) (releaseTime s n) = v at rel recov put none
  have run : RunOf n s v := ra.trans (.of_claims n rel recov)
  have cv : v.counters = s.counters := rel.counts.trans ca
  have frame := run.event
  rw [cv] at frame
  refine ⟨⟨?_, recov.heard.announced told, ?_, none, frame, run.others⟩, run, cv⟩
  · rw [← pa]; unfold player; rw [rel.players]
  · rw [← sa.circuitsOf]; exact sa.released put

/-- The state a run begins from, its claims of an earlier run released where R133 asks for it. -/
theorem releaseHeld_keeps (s : State) (n : PlayerNo) (q : SequenceNo) :
    (ClaimsOnly s (s.releaseHeld n q) ∧ Recovers s (s.releaseHeld n q))
    ∧ (((s.player n).heldRelease = none ∨ (s.player n).sequence = some q) → s.releaseHeld n q = s)
    ∧ (∀ t, (s.player n).heldRelease = some t → (s.player n).sequence ≠ some q →
        s.releaseHeld n q = s.releaseAll (.seq n) t) := by
  unfold releaseHeld
  cases h : (s.player n).heldRelease with
  | none => exact ⟨⟨.refl s, .refl s⟩, fun _ => rfl, fun t e => by simp at e⟩
  | some t =>
    dsimp only
    by_cases e : (s.player n).sequence = some q
    · rw [if_pos e]; exact ⟨⟨.refl s, .refl s⟩, fun _ => rfl, fun _ _ k => absurd e k⟩
    · rw [if_neg e]
      refine ⟨⟨releaseAll_claims s _ _, releaseAll_recovers s _ _⟩, fun k => absurd k (by simp [e]), fun u k _ => ?_⟩
      cases k; rfl

/-- A run's beginning from a player that is OFF (R133). -/
theorem startRun_off (s : State) (n : PlayerNo) (q : SequenceNo) (m : RunMode) (source : RunSource) :
    ∃ w, s.startRun n q m source = w.takeStep n
      ∧ w.player n = startingPlayer (s.player n) q m ∧ RunOf n s w ∧ w.counters = s.counters
      ∧ SameClaims (s.releaseHeld n q) w ∧ Announced w (.seq n (some q) (.started source) 0 1) := by
  obtain ⟨⟨held, recov⟩, _, _⟩ := releaseHeld_keeps s n q
  have e : s.startRun n q m source = (((s.releaseHeld n q).setPlayer n
      (startingPlayer ((s.releaseHeld n q).player n) q m)).announceSeq n (.started source)).takeStep n := rfl
  rw [e]
  generalize s.releaseHeld n q = t at held recov
  have p : t.player n = s.player n := by unfold player; rw [held.players]
  rw [p]
  refine ⟨_, rfl, ?_, ?_, held.counts, ?_, ?_⟩
  · show (t.setPlayer n _).player n = _
    exact player_setPlayer _ _ _
  · exact ((RunOf.of_claims n held recov).trans (RunOf.of_setPlayer t n _)).trans (.of_announce n _ _)
  · exact (sameClaims_setPlayer t n _).trans (sameClaims_announce _ _)
  · unfold announceSeq
    rw [player_setPlayer]
    exact announce_announced _ _

theorem setPlayer_eq {s w : State} {n : PlayerNo} {p : Player} (run : RunOf n s w) (counts : w.counters = s.counters)
    (h : w.player n = p) : ClaimEvent (s.setPlayer n p) w := by
  have e : s.setPlayer n p = { s with players := w.players, counters := w.counters } := by
    have players : w.players = s.players.set n p := by
      refine Tab.ext fun k => ?_
      rw [Tab.get_set]
      split
      · rename_i e; rw [e]; exact h
      · rename_i e; exact run.others k e
    rw [players, counts]
    rfl
  rw [e]
  exact run.event

/-- A run begins (R133, R136), from a player that is OFF or runs another sequence. -/
theorem runRequest_begins (s : State) (n : PlayerNo) (q : SequenceNo) (m : RunMode) (source : RunSource)
    (h : (s.player n).mode = .off ∨ (s.player n).sequence ≠ some q) :
    ∃ w, RunBegins s w n q m source ∧ w.now = s.now
      ∧ w.counters = s.counters
      ∧ s.runRequest n q m source = ((w.takeStep n).1, startOutcome (w.takeStep n).2) := by
  by_cases off : (s.player n).mode = .off
  · obtain ⟨w, e, p, run, counts, same, told⟩ := startRun_off s n q m source
    obtain ⟨held, keep, rel⟩ := releaseHeld_keeps s n q
    refine ⟨w, ⟨setPlayer_eq run counts p, fun _ k => ?_, fun k => absurd off k, fun _ t hr l => ?_, told⟩,
      run.steady.now, counts, ?_⟩
    · rw [keep k] at same; exact ⟨same.circuits, same.slots⟩
    · rw [rel t hr l] at same
      refine ⟨(releaseAll_released s (.seq n) t).after same.circuits, fun c => ?_⟩
      rw [same.claims]
      exact releaseAll_none s (.seq n) t c
    · unfold runRequest
      rw [if_pos off, e]
  · have other : (s.player n).sequence ≠ some q := h.resolve_left off
    obtain ⟨stop, stops, stopCounts⟩ := stopPlayer_stopped s n source
    have e0 : s.runRequest n q m source =
        (((s.stopPlayer n source).startRun n q m source).1,
          startOutcome ((s.stopPlayer n source).startRun n q m source).2) := by
      unfold runRequest
      rw [if_neg off, if_neg other]
    rw [e0]
    generalize s.stopPlayer n source = a at stop stops stopCounts
    obtain ⟨w, e, p, run, counts, same, told⟩ := startRun_off a n q m source
    obtain ⟨held, keep, rel⟩ := releaseHeld_keeps a n q
    have links : ∀ c, LinksOnly (a.circuit c) (w.circuit c) := fun c => by
      rw [same.circuit]
      cases hr : (a.player n).heldRelease with
      | none => rw [keep (.inl hr)]; exact .refl _
      | some t =>
        have sq : (a.player n).sequence ≠ some q := by rw [stop.off]; exact other
        rw [rel t hr sq]
        have no : a.circuitsOf (.seq n) = [] := by
          unfold circuitsOf
          rw [List.filter_eq_nil_iff]
          intro c _
          simp [stop.gone c]
        have k := release_circuit a (.seq n) (a.circuitsOf (.seq n)) t c
        rw [if_neg (by rw [no]; simp)] at k
        exact k
    refine ⟨w, ⟨setPlayer_eq (stops.trans run) (counts.trans stopCounts) ?_, fun k _ => absurd k off, fun _ _ =>
      ⟨released_links stop.released links, fun c => ?_, run.recovers.heard.announced stop.told⟩,
      fun k => absurd k off, told⟩, run.steady.now.trans stops.steady.now,
      counts.trans stopCounts, by rw [e]⟩
    · rw [p, stop.off]; rfl
    · have k := (links c).wish (.seq n)
      have g : claimOf (.seq n) (a.circuit c).claims = none := stop.gone c
      rw [g] at k
      exact Option.map_eq_none_iff.mp k

end State
namespace StepTaken

/-- A step that was not refused leaves the player's mode, sequence, step and passes, its rate taken (R138). -/
theorem kept {w v : State} {n : PlayerNo} {q : SequenceDef} {x : SeqStep} {refused : Option StepRefusal}
    (h : StepTaken w v n q x refused) (hr : refused = none) :
    (v.player n).mode = (w.player n).mode ∧ (v.player n).sequence = (w.player n).sequence
      ∧ (v.player n).step = (w.player n).step ∧ (v.player n).passes = (w.player n).passes
      ∧ (v.player n).rate = (w.player n).pendingRate.getD (w.player n).rate ∧ (v.player n).pendingRate = none := by
  match kind : x.kind with
  | .release => rw [(h.release kind).2.2]; exact ⟨rfl, rfl, rfl, rfl, rfl, rfl⟩
  | .recall a =>
    cases def_ : w.presetDef a with
    | none => exact absurd ((h.undefined a kind def_).1.symm.trans hr) (by simp)
    | some d =>
      cases lock : w.locked (.seq n) q.rank (d.pairs.map Prod.fst) with
      | true => rw [(h.locked a d kind def_ lock).2.1]; exact ⟨rfl, rfl, rfl, rfl, rfl, rfl⟩
      | false =>
        by_cases short : w.freeRecords < w.recordsNeeded (.seq n) (d.pairs.map Prod.fst)
        · exact absurd ((h.short a d kind def_ lock short).1.symm.trans hr) (by simp)
        · rw [(h.placed a d kind def_ lock (by omega)).2.2]; exact ⟨rfl, rfl, rfl, rfl, rfl, rfl⟩

/-- A step that was refused is a fault (R142). -/
theorem fault {w v : State} {n : PlayerNo} {q : SequenceDef} {x : SeqStep} {refused : Option StepRefusal}
    (h : StepTaken w v n q x refused) (hr : refused ≠ none) :
    ∃ r, Faulted w v n r := by
  match kind : x.kind with
  | .release => exact absurd (h.release kind).1 hr
  | .recall a =>
    cases def_ : w.presetDef a with
    | none => exact ⟨_, (h.undefined a kind def_).2⟩
    | some d =>
      cases lock : w.locked (.seq n) q.rank (d.pairs.map Prod.fst) with
      | true => exact absurd (h.locked a d kind def_ lock).1 hr
      | false =>
        by_cases short : w.freeRecords < w.recordsNeeded (.seq n) (d.pairs.map Prod.fst)
        · exact ⟨_, (h.short a d kind def_ lock short).2.1⟩
        · exact absurd (h.placed a d kind def_ lock (by omega)).1 hr

end StepTaken

/-- The player a run begins on, and what the beginning leaves of tables and mode (R133). -/
theorem RunBegins.stands_at {s w : State} {n : PlayerNo} {q : SequenceNo} {m : RunMode} {source : RunSource}
    (h : RunBegins s w n q m source) :
    w.player n = startingPlayer (s.player n) q m ∧ w.tables = s.tables ∧ w.mode = s.mode ∧ w.deferred = s.deferred
      ∧ ∀ k, k ≠ n → w.player k = s.player k := by
  have rest := h.stands.rest
  have players : w.players = s.players.set n (startingPlayer (s.player n) q m) := by rw [rest]; rfl
  refine ⟨?_, by rw [rest]; rfl, by rw [rest]; rfl, by rw [rest]; rfl, fun k e => ?_⟩
  · unfold State.player
    rw [players]
    exact Tab.get_set_self _ _ _
  · unfold State.player
    rw [players]
    exact Tab.get_set_of_ne _ _ e

end Sys2Proof.Machine
end

