-- ==== Sys2Proof/Laws/Entries.lean ====
section
/-! SUPPORT. What the entry of a mode and a replay do, said once: the entry preset and entry sequence, one deferred entry judged, one held step attempted, how far replays follow one another, and the stop of a raise. -/

namespace Sys2Proof.Machine

open State

/-! ## Links apart -/

/-- The part's tables, emergency and event number are those of before: with them a circuit changed in links alone stands
at its level, forced as before. -/
structure SameGround (s t : State) : Prop where
  tables : t.tables = s.tables
  emergency : t.emergency = s.emergency
  event : t.event = s.event

theorem SameGround.forced {s t : State} (h : SameGround s t) (c : Circuit) : t.forced c = s.forced c := by
  unfold State.forced record
  rw [h.tables, h.emergency]

theorem SameGround.level {s t : State} (h : SameGround s t) (k : Relinked s t) (c : Circuit) : t.level c = s.level c := by
  unfold State.level record
  rw [h.tables, h.emergency]
  exact (k c).level _ _ _

theorem SameGround.inCommand {s t : State} (h : SameGround s t) (k : Relinked s t) (c : Circuit) (o : Owner) :
    t.inCommand c o = s.inCommand c o := by
  unfold State.inCommand
  rw [h.tables]
  exact (k c).inCommand _ _

/-- Links do not bear on the claims that others hold. -/
theorem without_unlinked (o : Owner) (l : List Claim) :
    (without o l).map Claim.unlinked = without o (l.map Claim.unlinked) := by
  unfold without
  rw [List.filter_map]
  rfl

/-- Claims released from one state are released from any that differs from it in links alone. -/
theorem ReleasedAs.before {s t v : State} {o : Owner} {cs : List Circuit} {time : Nat} (k : Relinked s t)
    (g : SameGround s t) (h : ReleasedAs t v o cs time) : ReleasedAs s v o cs time where
  gone := h.gone
  order c m := by
    rw [h.order c m]
    have e : ∀ l : List Claim, (without o l).map (fun x => (x.owner, x.wish)) =
        (l.map fun x => (x.owner, x.wish)).filter fun x => !(x.1 == o) := fun l => by
      unfold without
      rw [List.filter_map]
      rfl
    rw [e, e]
    show ((t.circuit c).claims.map _).filter _ = _
    rw [(k c).wishes]
    rfl
  others c q m := (h.others c q m).trans ((k c).wish q)
  standing c q x m hx he := by
    have own : claimOf q (s.circuit c).claims = some x := hx
    have st := (k c).state q
    rw [own, Option.map_some, Option.map_eq_some_iff] at st
    obtain ⟨y, hy, st⟩ := st
    have stands := h.standing c q y m hy (by unfold Claim.isEffective at he ⊢; rw [st]; exact he)
    rw [stands, st]
  elsewhere c m := ⟨(h.elsewhere c m).1.trans (k c).claims, (h.elsewhere c m).2.trans (k c).transition⟩
  moved c m cmd free := by
    rw [← g.level k]
    exact h.moved c m (by rw [g.inCommand k]; exact cmd) (by rw [g.forced]; exact free)
  judged c m := by
    obtain ⟨x, l, run, stay, j⟩ := h.judged c m
    rw [g.inCommand k, g.forced, g.level k] at run
    rw [g.inCommand k, g.forced] at stay
    unfold record at j ⊢
    rw [g.tables, g.emergency, g.event] at j
    refine ⟨{ x with claims := without o (s.claims c) }, rfl, run, fun e => (stay e).trans (k c).transition,
      j.before ?_ rfl⟩
    rw [l, without_unlinked, without_unlinked]
    exact congrArg (without o) (k c).claims.symm
  raises c := by rw [← (k c).raisedBy]; exact h.raises c

/-- Links do not bear on where an owner has claims. -/
theorem circuitsOf_links {s t : State} (k : Relinked s t) (o : Owner) : t.circuitsOf o = s.circuitsOf o := by
  unfold circuitsOf
  refine List.filter_congr fun c _ => ?_
  have e : ((claimOf o (t.circuit c).claims).map Claim.wish).isSome =
      ((claimOf o (s.circuit c).claims).map Claim.wish).isSome := by rw [(k c).wish o]
  rw [Option.isSome_map, Option.isSome_map] at e
  exact e

/-! ## The entry of a mode -/

/-- The ends of slots bring no event of their own. -/
theorem endSlots_number (s : State) (which : Slot → Bool) (r : EndReason) : (s.endSlots which r).event = s.event :=
  foldl_keeps (fun a b : State => b.event = a.event) (fun _ => rfl) (fun _ _ _ h k => k.trans h) _
    (fun s n => by unfold endSlot; split <;> [split <;> rfl; rfl]) (indices 4) s

/-- What stage 1 of a mode change leaves (R149): the mode in force, and every slot FREE where SHOW was left, its ONLINE
owner told so (R119). -/
theorem enterMode_entered (s : State) (m : HouseMode) :
    ClaimsOnly { s with mode := some m } (s.enterMode m) ∧ Relinked s (s.enterMode m) ∧ Quiet s (s.enterMode m)
      ∧ SameGround s (s.enterMode m)
      ∧ (s.mode = some .inShow → m ≠ .inShow → (∀ n, (s.enterMode m).slot n = none)
        ∧ ∀ n k, s.slot n = some k → (s.port k.owner).isOnline = true →
          Told (s.enterMode m) k.owner (.standbyEnd n .modeLeft)) := by
  have mode : Relinked s { s with mode := some m } := .of_eq rfl
  have still : Quiet s { s with mode := some m } := .of_ports rfl rfl rfl
  unfold enterMode
  dsimp only
  split
  · have ends := endSlots_slots { s with mode := some m } (fun _ => true) .modeLeft
    have claims := endSlots_claims { s with mode := some m } (fun _ => true) .modeLeft
    have quiet := endSlots_quiet { s with mode := some m } (fun _ => true) .modeLeft
    refine ⟨claims, mode.trans (endSlots_relinked _ _ _), still.trans quiet,
      ⟨claims.tables, quiet.emergency, endSlots_number _ _ _⟩, fun _ _ => ⟨fun n => ?_, fun n k h on =>
        ends.2.2.2 n k h rfl on⟩⟩
    rw [ends.1 n]
    cases h : slot { s with mode := some m } n <;> simp
  · rename_i h
    refine ⟨.refl _, mode, still, ⟨rfl, rfl, rfl⟩, fun a b => absurd ?_ h⟩
    simp [inShow, a, b]

/-- The entry preset of a mode (R150). -/
theorem enterPreset_entered (w : State) (r : ModeRecord) :
    PresetEntered w (w.enterPreset r).1 r (w.enterPreset r).2 := by
  cases preset : r.entryPreset with
  | none =>
    have none : ∀ {a}, r.entryPreset = some a → False := fun h => by rw [preset] at h; simp at h
    have eq : w.enterPreset r = (w, .none) := by unfold enterPreset; rw [preset]
    rw [eq]
    exact ⟨fun _ => ⟨rfl, rfl⟩, fun a h => (none h).elim, fun a d h => (none h).elim, fun a d h => (none h).elim⟩
  | some a =>
    have same : ∀ {b}, r.entryPreset = some b → b = a := fun h => by rw [preset] at h; exact (Option.some.inj h).symm
    have named : r.entryPreset ≠ none := by rw [preset]; simp
    cases def_ : w.presetDef a with
    | none =>
      have eq : w.enterPreset r = (w, .badTarget) := by unfold enterPreset; rw [preset]; dsimp only; rw [def_]
      have no : ∀ {b d}, r.entryPreset = some b → w.presetDef b = some d → False := fun h e => by
        rw [same h, def_] at e; simp at e
      rw [eq]
      exact ⟨fun h => absurd h named, fun _ _ _ => ⟨rfl, rfl⟩, fun b d h e => (no h e).elim, fun b d h e => (no h e).elim⟩
    | some d =>
      have no : ∀ {b}, r.entryPreset = some b → w.presetDef b = none → False := fun h e => by
        rw [same h, def_] at e; simp at e
      have one : ∀ {b e}, r.entryPreset = some b → w.presetDef b = some e → e = d := fun h k => by
        rw [same h, def_] at k; exact (Option.some.inj k).symm
      have judged : w.placeRefusal .mode r.entryRank (PresetDef.circuits d) false =
          if w.freeRecords < w.recordsNeeded .mode (d.pairs.map Prod.fst) then some .poolFull else none := by
        unfold placeRefusal
        simp only [Bool.false_and, Bool.false_eq_true, if_false]
        rfl
      by_cases short : w.freeRecords < w.recordsNeeded .mode (d.pairs.map Prod.fst)
      · rw [if_pos short] at judged
        have eq : w.enterPreset r = (w.countPoolRefusal, .poolFull) := by
          unfold enterPreset; rw [preset]; dsimp only; rw [def_]; dsimp only; rw [judged]
        rw [eq]
        exact ⟨fun h => absurd h named, fun b h e => (no h e).elim, fun _ _ _ _ _ => ⟨rfl, rfl⟩,
          fun b e h k l => by rw [one h k] at l; omega⟩
      · rw [if_neg short] at judged
        have eq : w.enterPreset r = (w.place (entryPlacement r d), .placed) := by
          unfold enterPreset; rw [preset]; dsimp only; rw [def_]; dsimp only; rw [judged]
        have put := place_placed w (entryPlacement r d)
        have told := place_told w (entryPlacement r d)
        have event := place_event w (entryPlacement r d) (entryPlacement_supplied judged)
        rw [eq]
        generalize w.place (entryPlacement r d) = u at put told event
        exact ⟨fun h => absurd h named, fun b h e => (no h e).elim, fun b e h k l => by rw [one h k] at l; omega,
          fun b e h k l => ⟨rfl, by rw [one h k]; exact put, told, event⟩⟩

theorem startOutcome_eq (refused : Option StepRefusal) : startOutcome refused = outcomeOf refused := by
  match refused with
  | none => rfl
  | some .badTarget => rfl
  | some .poolFull => rfl

/-- The entry sequence of a mode (R151). -/
theorem enterSequence_entered (u : State) (r : ModeRecord) :
    SequenceEntered u (u.enterSequence r).1 r (u.enterSequence r).2 := by
  match entry : r.entrySequence with
  | none =>
    have eq : u.enterSequence r = (u, .none) := by unfold enterSequence; rw [entry]
    rw [eq]
    refine ⟨fun _ => ⟨rfl, rfl⟩, ?_, ?_, ?_, ?_, ?_⟩ <;>
    · intros
      simp_all
  | some (.off n) =>
    by_cases off : (u.player n).mode = .off
    · have eq : u.enterSequence r = (u, .unchanged) := by unfold enterSequence; rw [entry]; dsimp only; rw [if_pos off]
      rw [eq]
      refine ⟨?_, fun _ _ _ => ⟨rfl, rfl⟩, ?_, ?_, ?_, ?_⟩ <;>
      · intros
        simp_all
    · have eq : u.enterSequence r = (u.stopPlayer n .mode, .stopped) := by
        unfold enterSequence; rw [entry]; dsimp only; rw [if_neg off]
      have stop := (stopPlayer_stopped u n .mode).1
      rw [eq]
      generalize u.stopPlayer n .mode = v at stop
      refine ⟨?_, ?_, fun m h _ => ⟨rfl, ?_⟩, ?_, ?_, ?_⟩
      · intro h; rw [entry] at h; simp at h
      · intro m h k
        rw [entry] at h
        cases h
        exact absurd k off
      · rw [entry] at h
        cases h
        exact stop
      all_goals
        intros
        simp_all
  | some (.run n m q) =>
    have named : r.entrySequence ≠ none := by rw [entry]; simp
    have run : ∀ {k}, r.entrySequence = some (.off k) → False := fun h => by rw [entry] at h; simp at h
    cases def_ : u.tables.sequences.get q with
    | none =>
      have eq : u.enterSequence r = (u, .badTarget) := by
        unfold enterSequence sequenceDef; rw [entry]; dsimp only; rw [def_]
      rw [eq]
      refine ⟨fun h => absurd h named, fun n h => (run h).elim, fun n h => (run h).elim, fun _ _ _ _ _ => ⟨rfl, rfl⟩,
        fun n' m' q' d h e => ?_, fun n' m' q' d x rest h e => ?_⟩ <;>
      · rw [entry] at h
        cases h
        rw [def_] at e
        simp at e
    | some d =>
      have eq : u.enterSequence r = u.runRequest n q m .mode := by
        unfold enterSequence sequenceDef; rw [entry]; dsimp only; rw [def_]
      rw [eq]
      refine ⟨fun h => absurd h named, fun n h => (run h).elim, fun n h => (run h).elim, fun n' m' q' h e => ?_,
        fun n' m' q' d' h e on same => ?_, fun n' m' q' d' x rest h e st cond => ?_⟩
      · rw [entry] at h
        cases h
        rw [def_] at e
        simp at e
      · rw [entry] at h
        cases h
        unfold runRequest
        rw [if_neg on, if_pos same]
        exact ⟨rfl, rfl⟩
      · rw [entry] at h
        cases h
        rw [def_] at e
        cases e
        obtain ⟨b, begins, _, _, begun⟩ := runRequest_begins u n q m .mode cond
        rw [begun]
        refine ⟨b, (b.takeStep n).2, begins, ?_, startOutcome_eq _⟩
        obtain ⟨p, t, _⟩ := begins.stands_at
        refine takeStep_taken b n d x ?_ ?_
        · unfold playerSequence sequenceDef; rw [p, t]; exact def_
        · rw [p, st]; rfl

theorem entryFailed_eq (preset : PresetOutcome) (sequence : SequenceOutcome) :
    entryFailed preset sequence = entryRefused preset sequence := by
  cases preset <;> cases sequence <;> rfl

/-- A mode change (R149 to R152). -/
theorem changeMode_entered (s : State) (m : HouseMode) (source : ModeSource) :
    ModeEntered s (s.changeMode m source).1 m source (s.changeMode m source).2.1 (s.changeMode m source).2.2 := by
  obtain ⟨claims, links, quiet, ground, left⟩ := enterMode_entered s m
  let a := s.enterMode m
  let w := a.releaseAll .mode (s.modeRecord m).entryFade
  have rel := releaseAll_claims a .mode (s.modeRecord m).entryFade
  have heard := (releaseAll_recovers a .mode (s.modeRecord m).entryFade).heard
  have put := releaseAll_released a .mode (s.modeRecord m).entryFade
  rw [show a.circuitsOf .mode = s.circuitsOf .mode from circuitsOf_links links _] at put
  have begins : ModeLeft s w m :=
    { mode := rel.mode.trans claims.mode
      slots := fun h k n => by
        cases e : w.slot n with
        | none => rfl
        | some y =>
          obtain ⟨x, hx, _⟩ := rel.slots n y e
          rw [show a.slots.get n = a.slot n from rfl, (left h k).1 n] at hx
          cases hx
      told := fun h k n y e on => heard.told _ _ ((left h k).2 n y e on)
      released := put.before links ground
      gone := releaseAll_none a .mode _
      rest := (claims.trans rel).event
        ((Quiet.of_ports (s := { s with mode := some m }) (t := s) rfl rfl rfl).recovers.trans
          (quiet.recovers.trans (releaseAll_recovers a .mode _))) }
  refine ⟨w, _, _, begins, enterPreset_entered w (s.modeRecord m), enterSequence_entered _ (s.modeRecord m), ?_⟩
  show State.announce _ _ = State.announce _ _
  rw [← entryFailed_eq]
  rfl

/-! ## A run request -/

/-- A run request that has passed its checks begins the run and takes step 1 (R133, R136, R138, R142). -/
theorem runRequest_taken {s b : State} (p : Port) (n : PlayerNo) (q : SequenceNo) (m : RunMode) (d : SequenceDef)
    (tables : b.tables = s.tables) (mode : b.mode = s.mode) (deferred : b.deferred = s.deferred)
    (others : ∀ k, k ≠ n → b.player k = s.player k) (start : (b.player n).mode = .off ∨ (b.player n).sequence ≠ some q)
    (def_ : s.tables.sequences.get q = some d) : ∃ (w v : State) (refused : Option StepRefusal),
      b.runRequest n q m (.port p) = (v, startOutcome refused) ∧ RunTaken s b w v p n q m d refused := by
  obtain ⟨w, begins, _, _, eq⟩ := runRequest_begins b n q m (.port p) start
  obtain ⟨wp, wt, _⟩ := begins.stands_at
  have wk : ∀ k, k ≠ n → w.player k = s.player k := fun k h => by
    rw [show w.player k = w.players.get k from rfl, begins.stands.rest]
    exact (Tab.get_set_of_ne b.players _ h).trans (others k h)
  have wm : w.mode = s.mode ∧ w.deferred = s.deferred := by
    rw [begins.stands.rest]; exact ⟨mode, deferred⟩
  have runs := takeStep_runs w n
  have taken : ∀ x rest, d.steps = x :: rest → StepTaken w (w.takeStep n).1 n d x (w.takeStep n).2 := fun x rest h => by
    refine takeStep_taken w n d x ?_ ?_
    · unfold playerSequence sequenceDef
      rw [wp, wt, tables]
      exact def_
    · rw [wp, h]; rfl
  have idle : d.steps = [] → w.takeStep n = (w.takeRate n, none) := fun h => takeStep_none (by
    unfold currentStep playerSequence sequenceDef
    rw [takeRate_player, wp]
    show (w.tables.sequences.get q).bind _ = _
    rw [wt, tables, def_, Option.bind_some, h]
    rfl)
  refine ⟨w, (w.takeStep n).1, (w.takeStep n).2, eq, begins, taken, fun h => ?_, fun h => ?_,
    fun k e => (runs.others k e).trans (wk k e), runs.steady.mode.trans wm.1,
    runs.steady.tables.trans (wt.trans tables), runs.deferred.trans wm.2⟩ <;> cases steps : d.steps with
    | nil =>
      rw [idle steps] at h ⊢
      first
      | exact absurd rfl h
      | rw [takeRate_player, wp]; exact ⟨rfl, rfl, rfl, rfl⟩
    | cons x rest =>
      first
      | obtain ⟨_, k⟩ := (taken x rest steps).fault h
        rw [k.off]
        exact ⟨rfl, rfl, rfl, k.gone⟩
      | have k := (taken x rest steps).kept h
        rw [wp] at k
        exact ⟨k.1, k.2.1, k.2.2.1, k.2.2.2.1⟩

/-! ## Replay -/

/-- The circuits a deferred entry's work touches (R102, R104). -/
theorem deferredWork_circuits (s : State) (d : Deferred) : (s.deferredWork d).circuits = heldCircuits s d := by
  have level : ∀ (cs : List Circuit) l, (levelWork d.key cs l d.fade d.rank).circuits = cs := fun cs l => by
    unfold levelWork FieldWork.circuits
    dsimp only
    rw [List.map_map]
    exact List.map_id cs
  unfold deferredWork heldCircuits
  match d.action with
  | .on cs l => exact level cs l
  | .off cs => exact level cs 0
  | .toggle cs l => exact level cs _
  | .recall p =>
    dsimp only [FieldWork.circuits]
    rw [List.map_map]
    rfl
  | .release cs => rfl

/-- A deferred entry that places something does so as a placement of these items. -/
theorem deferredWork_places {s : State} {d : Deferred} {items : List PlaceItem} (h : EntryPlaces s d items) :
    s.deferredWork d = .place items d.rank := by
  have above : ∀ cs, s.fieldAbove cs = true ↔ ∃ c ∈ cs, ∃ x ∈ s.claims c, x.owner = .field ∧ 0 < x.target :=
    fun cs => by simp [fieldAbove]
  unfold deferredWork
  rcases h with ⟨cs, l, a, e⟩ | ⟨cs, a, e⟩ | ⟨cs, l, a, e, k⟩ | ⟨cs, l, a, e, k⟩ | ⟨p, a, e⟩ <;> rw [a, e] <;> dsimp only
  · rfl
  · rfl
  · unfold toggleLevel
    rw [if_pos ((above cs).mpr k)]
    rfl
  · unfold toggleLevel
    rw [if_neg fun t => ?_]
    · rfl
    · obtain ⟨c, hc, x, hx, o, p⟩ := (above cs).mp t
      have := k c hc x hx o
      omega

/-- What a placement without a tracker leaves does not bear on the slots. -/
theorem PlacedAs.anySlots {s v : State} {a b : Tab (Option Slot) 4} {o : Owner} {items : List PlaceItem} {wait : Bool}
    (h : PlacedAs { s with slots := a } v o items wait none) : PlacedAs s { v with slots := b } o items wait none where
  named c it m := by
    obtain ⟨x, on, owner, wish, waits, stands, complete, links⟩ := h.named c it m
    exact ⟨x, on, owner, wish, waits, stands, complete, fun e _ => links e fun n k => by cases k⟩
  order := h.order
  others := h.others
  standing := h.standing
  elsewhere := h.elsewhere
  judged c it m := by
    obtain ⟨x, k, j⟩ := h.judged c it m
    exact ⟨x, ⟨k.enters, k.continues, k.rests⟩, j⟩
  still := h.still
  fixed := h.fixed
  raises := h.raises

/-- What a release leaves of the claims does not bear on the slots. -/
theorem ReleasedAs.anySlots {s v : State} {a b : Tab (Option Slot) 4} {o : Owner} {cs : List Circuit} {time : Nat}
    (h : ReleasedAs { s with slots := a } v o cs time) : ReleasedAs s { v with slots := b } o cs time where
  gone := h.gone
  order := h.order
  others := h.others
  standing := h.standing
  elsewhere := h.elsewhere
  moved := h.moved
  judged := h.judged
  raises := h.raises

/-- What the ports are told of command does not bear on the slots. -/
theorem CommandTold.anySlots {s v : State} {a b : Tab (Option Slot) 4} {o : Owner}
    (h : CommandTold { s with slots := a } v o) : CommandTold s { v with slots := b } o where
  taken := h.taken
  given := h.given

/-- The work of a replayed entry changes no slot (R126). -/
theorem doReplayedWork_slots (s : State) (w : FieldWork) : (s.doReplayedWork w).slots = s.slots := rfl

theorem replayEntry_slots (s : State) (d : Deferred) : (s.replayEntry d).slots = s.slots := by
  unfold replayEntry
  split
  · split <;> rfl
  · rfl

/-- The pass changes no slot (R126). -/
theorem replayQueue_slots (s : State) : s.replayQueue.slots = s.slots := by
  have h : (s.deferred.foldl replayEntry { s with deferred := [] }).slots = s.slots :=
    foldl_keeps (fun a b : State => b.slots = a.slots) (fun _ => rfl) (fun _ _ _ h k => k.trans h) _ replayEntry_slots _ _
  have warn : ∀ t : State, t.afterRemoval.slots = t.slots := fun t => by unfold afterRemoval; split <;> rfl
  unfold replayQueue
  dsimp only
  split
  · exact (warn _).trans h
  · exact h

/-- How the slots settle once a replay has been taken (R47, R116, R117). -/
theorem settleSlots_fall (t : State) (lost : SlotNo → Nat) : SlotsFall t (t.settleSlots lost) lost := by
  let a : State := { t with slots := .build fun n => (t.slot n).map (Slot.decrement (lost n)) }
  obtain ⟨slots, trackers, owed, told⟩ := endSlots_slots a (fun k => k.phase == .going 0) .done
  have links := endSlots_relinked a (fun k => k.phase == .going 0) .done
  have event := (settleSlots_claims t lost).event (settleSlots_quiet t lost).recovers
  have at_ : ∀ n, a.slot n = (t.slot n).map (Slot.decrement (lost n)) := fun n => Tab.get_build _ n
  have fell : ∀ n k m, t.slot n = some k → k.phase = .going m →
      a.slot n = some { k with phase := .going (m - lost n) } := fun n k m h p => by
    rw [at_, h]; unfold Slot.decrement; simp [p]
  have stood : ∀ n k, t.slot n = some k → k.phase = .armed → a.slot n = some k := fun n k h p => by
    rw [at_, h]; unfold Slot.decrement; simp [p]
  show SlotsFall t (a.endSlots (fun k => k.phase == .going 0) .done) lost
  refine ⟨fun n k m h p l => ?_, fun n k m h p l => ⟨?_, fun on => ?_⟩, fun n k h p => ?_, fun n h => ?_, owed.trans ?_,
    fun c => ⟨(links c).claims, (links c).transition⟩, event, trackers⟩
  · rw [slots, fell n k m h p]
    have : m - lost n ≠ 0 := by omega
    simp [this]
  · rw [slots, fell n k m h p]
    have : m - lost n = 0 := by omega
    simp [this]
  · have : m - lost n = 0 := by omega
    exact told n { k with phase := .going (m - lost n) } (fell n k m h p) (by simp [this]) on
  · rw [slots, stood n k h p]; simp [p]
  · rw [slots, at_, h]; simp
  · refine or_congr Iff.rfl (exists_congr fun n => ?_)
    rw [slots]
    cases h : t.slot n with
    | none => rw [at_, h]; simp
    | some k =>
      rw [at_, h, Option.map_some]
      by_cases z : (Slot.decrement (lost n) k).phase = .going 0 <;> simp [z]

/-- What a replay makes of an entry that its gate lets through and that is refused so (R125). -/
def replayed (s : State) (d : Deferred) : Option PlaceRefusal → State
  | none => s.doReplayedWork (s.deferredWork d)
  | some .locked => { s with deferred := s.deferred ++ [d] }
  | some _ => s.countDropped

/-- One entry of a replay (R125). -/
theorem replayEntry_judged (s : State) (d : Deferred) : EntryJudged s (s.replayEntry d) d := by
  have gate : s.inGate d.gate = true ↔ ∃ m, s.mode = some m ∧ m ∈ d.gate := by
    unfold inGate
    cases s.mode <;> simp
  have inside : ∀ {m r}, s.mode = some m → m ∈ d.gate → s.fieldRefusal (s.deferredWork d) = r →
      s.replayEntry d = replayed s d r := fun {m r} a b e => by
    unfold replayEntry
    rw [if_pos (gate.mpr ⟨_, a, b⟩), e]
    rcases r with _ | x
    · rfl
    · cases x <;> rfl
  have refusal : ∀ {items}, EntryPlaces s d items → s.fieldRefusal (s.deferredWork d) =
      if s.locked .field d.rank (heldCircuits s d) = true then some .locked
      else if s.freeRecords < s.recordsNeeded .field (items.map PlaceItem.circuit) then some .poolFull else none :=
    fun h => by
      have cs := deferredWork_circuits s d
      rw [deferredWork_places h] at cs ⊢
      unfold fieldRefusal placeRefusal
      simp only [Bool.true_and]
      rw [show heldCircuits s d = _ from cs.symm]
      rfl
  refine ⟨replayEntry_slots s d, fun h => ?_, fun m a b l => ?_, fun m items a b l p short => ?_,
    fun m items a b l p room => ?_, fun m cs a b l act => ?_⟩
  · unfold replayEntry
    rw [if_neg fun g => ?_]
    · rfl
    · obtain ⟨m, a, b⟩ := gate.mp g
      exact h m a b
  · have r : s.fieldRefusal (s.deferredWork d) = some .locked := by
      have cs := deferredWork_circuits s d
      have rank : ∀ {w}, s.deferredWork d = w → s.locked .field d.rank w.circuits = true := fun e => by
        rw [← e, cs]; exact l
      unfold deferredWork at rank ⊢
      match act : d.action with
      | .on _ _ | .off _ | .toggle _ _ | .recall _ =>
        rw [act] at rank
        have := rank rfl
        dsimp only [levelWork, FieldWork.circuits] at this ⊢
        unfold fieldRefusal placeRefusal
        simp only [Bool.true_and]
        rw [if_pos this]
      | .release _ =>
        rw [act] at rank
        have := rank rfl
        dsimp only [FieldWork.circuits] at this ⊢
        unfold fieldRefusal
        dsimp only
        rw [if_pos this]
    exact inside a b r
  · have r := refusal p
    rw [if_neg (by simp [l]), if_pos short] at r
    exact inside a b r
  · have r := refusal p
    rw [if_neg (by simp [l]), if_neg (by omega)] at r
    rw [inside a b r]
    unfold replayed
    dsimp only
    rw [deferredWork_places p]
    rw [deferredWork_places p] at r
    exact ⟨(place_placed _ (fieldPlacement items)).anySlots, (place_told _ (fieldPlacement items)).anySlots,
      (doReplayedWork_claims _ _ r).event (doReplayedWork_recovers _ _)⟩
  · have w : s.deferredWork d = .release cs d.fade d.rank := by unfold deferredWork; rw [act]
    have r : s.fieldRefusal (s.deferredWork d) = none := by
      rw [w]
      unfold fieldRefusal
      dsimp only
      rw [if_neg (by simp [l])]
    rw [inside a b r]
    unfold replayed
    dsimp only
    rw [w] at r ⊢
    exact ⟨(release_released _ .field cs d.fade).anySlots, (release_told _ .field cs d.fade).anySlots,
      (doReplayedWork_claims _ _ r).event (doReplayedWork_recovers _ _)⟩

/-- One player of a replay (R141). -/
theorem retryStep_retried (s : State) (n : PlayerNo) : StepRetried s (s.retryStep n) n := by
  have held : (s.player n).run = .waitLock → s.retryStep n = if s.stepLocked n then s else (s.takeStep n).1 := fun h => by
    unfold retryStep; rw [h]
  have current : ∀ {q d x}, (s.player n).sequence = some q → s.tables.sequences.get q = some d →
      d.steps[(s.player n).step - 1]? = some x → s.playerSequence n = some d ∧ s.currentStep n = some (d, x) :=
    fun {q d x} a b c => by
      have e : s.playerSequence n = some d := by
        unfold playerSequence
        rw [a]
        exact b
      refine ⟨e, ?_⟩
      unfold currentStep
      rw [e, Option.bind_some, c]
      rfl
  refine ⟨fun h => ?_, fun q d x a y h sq sd sx k p l => ?_, fun q d x h sq sd sx free => ?_⟩
  · unfold retryStep
    cases r : (s.player n).run with
    | waitLock => exact absurd r h
    | idle => rfl
    | running t => rfl
  · rw [held h, if_pos]
    unfold stepLocked
    rw [(current sq sd sx).2]
    dsimp only
    rw [k]
    dsimp only
    rw [p]
    exact l
  · rw [held h, if_neg]
    · exact ⟨_, takeStep_taken s n d x (current sq sd sx).1 sx⟩
    · intro e
      unfold stepLocked at e
      rw [(current sq sd sx).2] at e
      dsimp only at e
      split at e
      · simp at e
      · rename_i a k
        split at e
        · simp at e
        · rename_i y p
          have := free a y k p
          rw [show s.locked (.seq n) d.rank (PresetDef.circuits y) = _ from this] at e
          simp at e

/-- What one round of a replay passes over (R125, R141), and how rounds follow one another (notes/assumptions/17.md). -/
theorem replay_rounds (s : State) (n : Nat) : (s.replayOwed = false → s.replayWithin (n + 1) = s)
    ∧ (s.replayOwed = true → s.replayWithin (n + 1) = { s with replayOwed := false }.takeReplay.replayWithin n) := by
  refine ⟨fun h => ?_, fun h => ?_⟩
  · unfold replayWithin; rw [h]; rfl
  · conv_lhs => unfold replayWithin
    rw [if_pos h]

/-! ## Raises -/

/-- What the stop of a raise does (R101). -/
theorem stopRaise_stopped (s : State) (k : KeyAddr) : RaiseStopped s (s.stopRaise k) k := by
  have set : ∀ c, c ∈ s.raiseSet k ↔ (s.circuit c).raisedBy = some k := fun c => by
    unfold raiseSet
    simp [mem_indices]
  have onSet : ∀ c, itemOn ((s.raiseSet k).filterMap s.stopItem) c =
      if (s.circuit c).raisedBy = some k then s.stopItem c else none := fun c => by
    have own : ∀ d it, s.stopItem d = some it → it.circuit = d := fun d it h => by
      unfold stopItem at h
      rw [Option.map_eq_some_iff] at h
      obtain ⟨x, _, rfl⟩ := h
      rfl
    have skip : ∀ l : List Circuit, c ∉ l → itemOn (l.filterMap s.stopItem) c = none := fun l h => by
      unfold itemOn
      rw [List.find?_eq_none]
      intro it m
      obtain ⟨d, hd, e⟩ := List.mem_filterMap.mp m
      rw [own d it e]
      simpa using fun e : d = c => h (e ▸ hd)
    have hit : ∀ l : List Circuit, l.Nodup → c ∈ l → itemOn (l.filterMap s.stopItem) c = s.stopItem c := fun l => by
      induction l with
      | nil => simp
      | cons d l ih =>
        intro nd m
        rw [List.nodup_cons] at nd
        by_cases e : d = c
        · subst e
          cases h : s.stopItem d with
          | none => rw [List.filterMap_cons_none h]; exact skip l nd.1
          | some it =>
            rw [List.filterMap_cons_some h]
            exact List.find?_cons_of_pos (by simpa using own d it h)
        · have t := ih nd.2 ((List.mem_cons.mp m).resolve_left (Ne.symm e))
          cases h : s.stopItem d with
          | none => rw [List.filterMap_cons_none h]; exact t
          | some it =>
            rw [List.filterMap_cons_some h]
            unfold itemOn at t ⊢
            rw [List.find?_cons_of_neg (by rw [own d it h]; simpa using e)]
            exact t
    have all : (indices 192).Nodup := by decide +kernel
    split
    · rename_i h
      exact hit _ (List.Nodup.filter _ all) ((set c).mpr h)
    · rename_i h
      exact skip _ fun m => h ((set c).mp m)
  by_cases none : ∀ c, (s.circuit c).raisedBy ≠ some k
  · have e : s.stopRaise k = s := by
      unfold stopRaise
      rw [if_pos]
      rw [List.isEmpty_iff, List.eq_nil_iff_forall_not_mem]
      exact fun c m => none c ((set c).mp m)
    rw [e]
    exact ⟨fun _ => rfl, fun ⟨c, h⟩ => absurd h (none c), fun c h => absurd h (none c)⟩
  · obtain ⟨c, h⟩ := not_forall_not.mp none
    have e : s.stopRaise k = s.place (fieldPlacement ((s.raiseSet k).filterMap s.stopItem)) := by
      unfold stopRaise
      rw [if_neg]
      rw [List.isEmpty_iff]
      exact List.ne_nil_of_mem ((set c).mpr h)
    have put := place_placed s (fieldPlacement ((s.raiseSet k).filterMap s.stopItem))
    rw [e]
    refine ⟨fun a => absurd h (a c), fun _ => ⟨_, onSet, put, place_told s _, place_event s _ (stopRaise_supplied s k)⟩, fun d m => ?_⟩
    have r := put.raises d
    rw [m, show itemOn (fieldPlacement ((s.raiseSet k).filterMap s.stopItem)).items d = _ from onSet d] at r
    by_cases h : (s.circuit d).raisedBy = some k
    · rw [if_pos h] at r
      cases o : s.stopItem d with
      | none =>
        unfold stopItem at o
        rwa [Option.map_eq_none_iff] at o
      | some x =>
        rw [o, if_pos ⟨rfl, by simp⟩] at r
        cases r
    · rw [if_neg h, if_neg fun q => q.2 rfl] at r
      exact absurd r.symm h

end Sys2Proof.Machine
end

