-- ==== Sys2Proof/Laws/Emergency.lean ====
section
/-! SUPPORT. What the emergency announces (R163), what the end of start-up makes of it and of the start mode (R154, R156), and that a write of a circuit record leaves it as it stands (R161, R167). -/

namespace Sys2Proof.Machine.State

/-! ## EMERGENCY notices -/

/-- The circuits forced are those that can be, while the state forces. -/
theorem forcedCount_eq {s t : State} {e : EmergencyState} (tables : t.tables = s.tables) (state : t.emergency.state = e) :
    t.forcedCount = if e.forces then forcible s else 0 := by
  have each : t.forced = fun c => e.forces && (s.record c).emergency.isSome := funext fun c => by
    unfold forced forcedLevel record
    rw [tables, state]
    cases e.forces <;> rfl
  unfold forcedCount forcible
  rw [each]
  cases e.forces with
  | true => simp
  | false => simp

theorem announceEmergency_announced {s t : State} {cause : EmergencyCause} {e : EmergencyState} {r : Option Contact}
    (tables : t.tables = s.tables) (state : t.emergency.state = e) (accepted : t.emergency.accepted = r) :
    Announced (t.announceEmergency cause) (.emergency e r cause (if e.forces then forcible s else 0)) := by
  have told := announce_announced t (.emergency t.emergency.state t.emergency.accepted cause t.forcedCount)
  rw [forcedCount_eq tables state] at told
  unfold announceEmergency
  rw [forcedCount_eq tables state]
  rw [state, accepted] at told ⊢
  exact told

theorem announceEmergency_heard (s : State) (cause : EmergencyCause) : Heard s (s.announceEmergency cause) :=
  announce_heard s _

theorem enterEmergency_announced (s : State) (e : EmergencyState) (cause : EmergencyCause) :
    Announced (s.enterEmergency e cause)
      (.emergency e s.emergency.accepted cause (if e.forces then forcible s else 0)) := by
  unfold enterEmergency
  exact announceEmergency_announced rfl rfl rfl

/-- What a clear announces: RECOVERING, and NORMAL at once where no recovery runs. -/
theorem clearForcing_announced (s : State) (p : Port) :
    Announced (s.clearForcing p) (.emergency .recovering s.emergency.accepted (.port p) 0)
    ∧ (s.recoveryOf = [] →
      Announced (s.clearForcing p) (.emergency .normal s.emergency.accepted .recoveryComplete 0)) := by
  have first : Announced (({ s with circuits := s.recoveryCircuits }.setEmergency .recovering
      s.recoveryOf).announceEmergency (.port p)) (.emergency .recovering s.emergency.accepted (.port p) 0) :=
    announceEmergency_announced (s := s) rfl rfl rfl
  unfold clearForcing
  dsimp only
  split
  · exact ⟨((Heard.of_ports rfl).trans (announceEmergency_heard _ _)).announced first,
      fun _ => announceEmergency_announced rfl rfl rfl⟩
  · rename_i some_
    exact ⟨first, fun none => absurd (by rw [none]; rfl) some_⟩

/-- The contact taken by the emergency state announces a change of either, once, and else leaves the ports. -/
theorem handContact_announced (s : State) (after : Contact) (changed : Bool) :
    (changed = true ∨ (s.handContact after changed).emergency.state ≠ s.emergency.state →
      Announced (s.handContact after changed) (.emergency (s.handContact after changed).emergency.state
        s.emergency.accepted .contact
        (if (s.handContact after changed).emergency.state.forces then forcible s else 0)))
    ∧ (changed = false → (s.handContact after changed).emergency.state = s.emergency.state →
      (s.handContact after changed).ports = s.ports) := by
  unfold handContact
  split
  · rename_i state _
    exact ⟨fun _ => enterEmergency_announced s .active .contact, fun _ h => by rw [state] at h; cases h⟩
  · rename_i state _
    exact ⟨fun _ => enterEmergency_announced s .active .contact, fun _ h => by rw [state] at h; cases h⟩
  · rename_i state _
    exact ⟨fun _ => announceEmergency_announced rfl rfl rfl,
      fun _ h => by rw [state] at h; cases h⟩
  · rename_i state _
    exact ⟨fun _ => announceEmergency_announced rfl rfl rfl,
      fun _ h => by rw [state] at h; cases h⟩
  · cases changed with
    | true => exact ⟨fun _ => announceEmergency_announced rfl rfl rfl, fun h => by cases h⟩
    | false => exact ⟨fun h => h.elim (fun e => by cases e) fun e => absurd rfl e, fun _ _ => rfl⟩

/-! ## The end of start-up -/

/-- What an asserted contact does as start-up ends (R156, R158). -/
theorem startEmergency_entered (s : State) :
    ((∀ r, s.emergency.accepted = some r → r.asserted = false) → s.startEmergency = s)
    ∧ ∀ r, s.emergency.accepted = some r → r.asserted = true →
      s.startEmergency.emergency = { s.emergency with state := .active, recovery := [] }
      ∧ (∀ c, s.startEmergency.circuit c = match (s.record c).emergency with
          | some v => { s.circuit c with
              transition := started .egress (some v) (s.level c) s.tables.settings.egressTime }
          | none => s.circuit c)
      ∧ s.startEmergency.counters =
          { s.counters with emergencyEntries := min (s.counters.emergencyEntries + 1) 65535 }
      ∧ Announced s.startEmergency (.emergency .active (some r) .start (forcible s))
      ∧ s.startEmergency = { s with
          circuits := s.startEmergency.circuits, emergency := s.startEmergency.emergency
          counters := s.startEmergency.counters, ports := s.startEmergency.ports } := by
  unfold startEmergency
  refine ⟨fun none => if_neg ?_, fun r accepted asserted => ?_⟩
  · rw [Option.any_eq_true]
    rintro ⟨r, h, a⟩
    rw [none r h] at a
    cases a
  · rw [if_pos (by rw [accepted]; exact asserted)]
    refine ⟨rfl, fun c => ?_, rfl, ?_, rfl⟩
    · refine (Tab.get_build _ c).trans ?_
      cases (s.record c).emergency <;> rfl
    · have told := enterEmergency_announced s .active .start
      rw [accepted] at told
      exact told

/-- The end of start-up: the contact, the start mode and CONFIG, in that order, and the replay (R154, R156, R196). -/
theorem endStartup_entered (s : State) (t : Tables) (config : Validity) : ∃ v preset sequence,
    ModeEntered (s.loadTables t config).startEmergency v t.settings.startMode .start preset sequence
    ∧ s.endStartup t config = (v.announce (.config config)).replay
    ∧ Announced (s.endStartup t config) (.config config) :=
  ⟨_, _, _, changeMode_entered _ _ _, rfl, (replay_steady _).heard.announced (announce_announced _ _)⟩

/-! ## Circuit records -/

/-- A write of a circuit record leaves the emergency: it removes a transition only while the state forces, and then no
recovery is open. -/
theorem setRecord_eq (s : State) (c : Circuit) (r : CircuitRecord) : s.setRecord c r =
    (s.onCircuit c fun x => CircuitState.rewrite x (s.record c) r s.emergency.state.forces).onTables fun t =>
      { t with circuits := t.circuits.set c r } := by
  unfold setRecord
  dsimp only
  split
  · rename_i removed
    unfold reportRecoveries
    refine if_neg fun state => ?_
    have kept : (CircuitState.rewrite (s.circuit c) (s.record c) r s.emergency.state.forces).recovering =
        (s.circuit c).recovering := by
      rw [show s.emergency.state = .recovering from state]
      rfl
    rw [Bool.and_eq_true, Bool.not_eq_true'] at removed
    have here : (s.onCircuit c fun x => CircuitState.rewrite x (s.record c) r s.emergency.state.forces).circuit c =
        CircuitState.rewrite (s.circuit c) (s.record c) r s.emergency.state.forces := Tab.get_modify_self _ _ _
    have off : ((s.onCircuit c fun x => CircuitState.rewrite x (s.record c) r s.emergency.state.forces).circuit
        c).recovering = false := removed.2
    rw [here, kept, removed.1] at off
    cases off
  · rfl

end Sys2Proof.Machine.State
end

