-- ==== Sys2Proof/Laws/Image.lean ====
section
/-! SUPPORT. The stored image read back: each reader returns what its writer wrote, and so the tables a save writes are the tables the next full reset reads. -/

namespace Sys2Proof.Machine

/-- The reader takes `w` off the front and gives `a`. -/
def Reads {α : Type} (f : Reader α) (w : List Byte) (a : α) : Prop := ∀ rest, f (w ++ rest) = some (a, rest)

namespace Reads

theorem one {n : Nat} (h : n < 256) : Reads readOne (one n) n := fun rest => by
  simp [readOne, Machine.one, Nat.mod_eq_of_lt h]

theorem two {n : Nat} (h : n < 65536) : Reads readTwo (two n) n := fun rest => by
  simp only [readTwo, Machine.two, List.cons_append, List.nil_append, BitVec.toNat_ofNat, Option.some.injEq, Prod.mk.injEq,
    and_true]
  omega

theorem flag (b : Bool) : Reads readFlag (flag b) b := fun rest => by
  cases b <;> rfl

theorem absent {α : Type} (f : Reader α) : Reads (readMaybe f) (Machine.one 0) none := fun _ => rfl

theorem present {α : Type} {f : Reader α} {w : List Byte} {a : α} (h : Reads f w a) :
    Reads (readMaybe f) (Machine.one 1 ++ w) (some a) := fun rest => by
  have k : readFlag (Machine.one 1 ++ (w ++ rest)) = some (true, w ++ rest) := rfl
  simp only [readMaybe, List.append_assoc, k, h rest, Option.bind_eq_bind, Option.bind_some, if_true, Option.pure_def]

theorem option {α β : Type} {f : Reader β} {w : α → List Byte} {g : α → β} (o : Option α)
    (h : ∀ a, o = some a → Reads f (w a) (g a)) : Reads (readMaybe f) (maybe w o) (o.map g) := by
  cases o with
  | none => exact absent f
  | some a => exact present (h a rfl)

theorem many {α β : Type} {f : Reader β} {w : α → List Byte} {g : α → β} :
    ∀ l : List α, (∀ a ∈ l, Reads f (w a) (g a)) → Reads (readMany f l.length) (l.flatMap w) (l.map g)
  | [], _ => fun _ => rfl
  | a :: l, h => fun rest => by
    have ha := h a (List.mem_cons_self ..)
    have hl := many l fun b hb => h b (List.mem_cons_of_mem _ hb)
    simp only [List.length_cons, readMany, List.flatMap_cons, List.append_assoc, ha _, hl rest, Option.bind_eq_bind,
      Option.bind_some, Option.pure_def, List.map_cons]

theorem list {α β : Type} {f : Reader β} {w : α → List Byte} {g : α → β} (l : List α) (n : l.length < 256)
    (h : ∀ a ∈ l, Reads f (w a) (g a)) : Reads (readList f) (listed w l) (l.map g) := fun rest => by
  simp only [readList, listed, List.append_assoc, Reads.one n _, many l h rest, Option.bind_eq_bind, Option.bind_some]

theorem typed {α β : Type} {f : Reader α} {g : α → Option β} {w : List Byte} {a : α} {b : β} (h : Reads f w a)
    (k : g a = some b) : Reads (readAs f g) w b := fun rest => by
  simp only [readAs, h rest, k, Option.bind_eq_bind, Option.bind_some, Option.pure_def]

theorem tab {α : Type} {n : Nat} {f : Reader α} {w : α → List Byte} (t : Tab α n)
    (h : ∀ a ∈ t.rows.toList, Reads f (w a) a) : Reads (readTab n f) (t.rows.toList.flatMap w) t := fun rest => by
  have len : t.rows.toList.length = n := by simp
  have k := many (g := id) t.rows.toList h rest
  rw [len, List.map_id] at k
  simp only [readTab, k, Option.bind_eq_bind, Option.bind_some]
  rw [dif_pos (by simp)]
  rfl

end Reads

/-! ## Numbers -/

theorem indexOf_numberOf {n : Nat} (i : Fin n) : indexOf n (numberOf i) = some i := by
  unfold indexOf numberOf
  rw [dif_pos ⟨by omega, by omega⟩]
  rfl

theorem codeOf_val {n : Nat} (i : Fin n) : codeOf n i.val = some i := by
  unfold codeOf; rw [dif_pos i.isLt]

theorem mapM_map_some {α β : Type} {f : β → Option α} {g : α → β} (h : ∀ a, f (g a) = some a) :
    ∀ l : List α, (l.map g).mapM f = some l
  | [] => rfl
  | a :: l => by simp [h a, mapM_map_some h l]

theorem nodup_circuits {l : List Circuit} (h : l.Nodup) : l.length < 256 :=
  Nat.lt_of_le_of_lt (by simpa using h.length_le_card) (by decide)

/-! ## Records -/

/-- A number counted from 1, as its byte. -/
theorem reads_numbered {n : Nat} (i : Fin n) (h : n < 256) : Reads readOne (numbered i) (numberOf i) :=
  .one (by unfold numberOf; omega)

theorem Reads.pair {m n : Nat} (hm : m < 256) (hn : n < 256) : Reads readPair (Machine.one m ++ Machine.one n) (m, n) :=
  fun rest => by
    simp only [readPair, List.append_assoc, Reads.one hm _, Reads.one hn _, Option.bind_eq_bind, Option.bind_some,
      Option.pure_def]

/-- A route as its code and, behind LOCAL, its line (R165). -/
def rawRoute : Route → Nat × Option Nat
  | .link => (0, none)
  | .pwm n => (1, some (numberOf n))
  | .unrouted => (2, none)

theorem reads_line (r : Route) (kind : Bool) (rest : List Byte) :
    ∃ l, readPair (Machine.flag kind ++ (routeField r ++ rest)) = some ((kind.toNat, (rawRoute r).1), l)
      ∧ readLine (rawRoute r).1 l = some ((rawRoute r).2, rest) := by
  have hk : kind.toNat < 256 := by cases kind <;> decide
  cases r with
  | link =>
    refine ⟨rest, ?_, rfl⟩
    have := Reads.pair hk (n := 0) (by decide) rest
    rwa [List.append_assoc] at this
  | unrouted =>
    refine ⟨rest, ?_, rfl⟩
    have := Reads.pair hk (n := 2) (by decide) rest
    rwa [List.append_assoc] at this
  | pwm n =>
    refine ⟨numbered n ++ rest, ?_, ?_⟩
    · have := Reads.pair hk (n := 1) (by decide) (numbered n ++ rest)
      rwa [List.append_assoc, ← List.append_assoc (Machine.one 1)] at this
    · simp only [rawRoute, readLine, if_true, reads_numbered n (by decide) rest, Option.bind_eq_bind, Option.bind_some,
        Option.pure_def]

theorem typedRoute_raw (r : Route) : typedRoute (rawRoute r).1 (rawRoute r).2 = some r := by
  cases r with
  | link => rfl
  | unrouted => rfl
  | pwm n =>
    simp only [rawRoute, typedRoute, indexOf_numberOf, Option.map_some]

theorem curveCode_lt (k : Curve) : curveCode k < 256 := by cases k <;> decide

theorem reads_circuit (r : CircuitRecord) (h : CircuitRecord.inRange r = true) :
    Reads (readAs readCircuitFields RawCircuitRecord.typed) (circuitRecordField r) r := by
  obtain ⟨kind, route, base, emergency⟩ := r
  unfold CircuitRecord.inRange at h
  simp only [Bool.and_eq_true, levelInRange, decide_eq_true_eq] at h
  obtain ⟨⟨hk, hb⟩, he⟩ := h
  have hbase : base < 65536 := lt_of_le_of_lt hb (by decide)
  have hem : Reads (readMaybe readTwo) (maybe Machine.two emergency) emergency := by
    have := Reads.option (f := readTwo) (w := Machine.two) (g := id) emergency fun a e => Reads.two (by
      subst e; exact lt_of_le_of_lt he (by decide))
    rwa [Option.map_id] at this
  refine Reads.typed (a := writtenCircuitRecord ⟨kind, route, base, emergency⟩) (fun rest => ?_) ?_
  · cases kind with
    | dimmed k lo hi =>
      simp only [CircuitKind.inRange, decide_eq_true_eq] at hk
      obtain ⟨l, e1, e2⟩ := reads_line route false (Machine.two base ++ (maybe Machine.two emergency ++
        (kindFields (.dimmed k lo hi) ++ rest)))
      have e3 := Reads.present (Reads.one (curveCode_lt k))
      have e4 := Reads.present (Reads.two (n := lo) (by omega))
      have e5 := Reads.present (Reads.two (n := hi) (by omega))
      unfold circuitRecordField readCircuitFields
      simp only [List.append_assoc, CircuitKind.isSwitched, e1, e2, Option.bind_eq_bind, Option.bind_some,
        Reads.two hbase _, hem _]
      simp only [kindFields, maybe, List.append_assoc]
      simp only [← List.append_assoc (Machine.one 1)]
      simp only [e3 _, e4 _, e5 _, Reads.absent _ _, Option.bind_some, Option.pure_def]
      cases route <;> cases k <;> rfl
    | switched t y d =>
      simp only [CircuitKind.inRange, decide_eq_true_eq] at hk
      obtain ⟨l, e1, e2⟩ := reads_line route true (Machine.two base ++ (maybe Machine.two emergency ++
        (kindFields (.switched t y d) ++ rest)))
      have e3 := Reads.present (Reads.two (n := t) (by omega))
      have e4 := Reads.present (Reads.two (n := y) (by omega))
      have e5 := Reads.present (Reads.two (n := d) (by omega))
      unfold circuitRecordField readCircuitFields
      simp only [List.append_assoc, CircuitKind.isSwitched, e1, e2, Option.bind_eq_bind, Option.bind_some,
        Reads.two hbase _, hem _]
      simp only [kindFields, maybe, List.append_assoc]
      simp only [← List.append_assoc (Machine.one 1)]
      simp only [e3 _, e4 _, e5 _, Reads.absent _ _, Option.bind_some, Option.pure_def]
      cases route <;> rfl
  · have kinds : RawCircuitRecord.typedKind (writtenCircuitRecord ⟨kind, route, base, emergency⟩) = some kind := by
      cases kind with
      | dimmed k lo hi => cases k <;> rfl
      | switched t y d => rfl
    have routes : typedRoute (writtenCircuitRecord ⟨kind, route, base, emergency⟩).route
        (writtenCircuitRecord ⟨kind, route, base, emergency⟩).line = some route := by
      cases kind <;> cases route <;> first
        | rfl
        | exact typedRoute_raw (.pwm _)
    have bases : (writtenCircuitRecord ⟨kind, route, base, emergency⟩).base = base
        ∧ (writtenCircuitRecord ⟨kind, route, base, emergency⟩).emergency = emergency := by
      cases kind <;> exact ⟨rfl, rfl⟩
    unfold RawCircuitRecord.typed
    simp only [kinds, routes, bases.1, bases.2, Option.bind_eq_bind, Option.bind_some, Option.pure_def]
    rw [if_pos]
    unfold CircuitRecord.inRange levelInRange
    simp only [Bool.and_eq_true, decide_eq_true_eq]
    exact ⟨⟨hk, hb⟩, he⟩

theorem reads_group (l : List Circuit) (h : l.Nodup) :
    Reads (readAs (readList readOne) circuitsOfNumbers) (listed numbered l) l :=
  .typed (.list l (nodup_circuits h) fun c _ => reads_numbered c (by decide))
    (mapM_map_some indexOf_numberOf l)

theorem Reads.entry {m n : Nat} (hm : m < 256) (hn : n < 65536) : Reads readEntry (Machine.one m ++ Machine.two n) (m, n) :=
  fun rest => by
    simp only [readEntry, List.append_assoc, Reads.one hm _, Reads.two hn _, Option.bind_eq_bind, Option.bind_some,
      Option.pure_def]

theorem typedPairs_raw : ∀ l : List (Circuit × Nat), (∀ x ∈ l, x.2 ≤ Config.levelTop) →
    typedPairs (l.map fun x => (numberOf x.1, x.2)) = some l
  | [], _ => rfl
  | x :: l, h => by
    have k := typedPairs_raw l fun y hy => h y (List.mem_cons_of_mem _ hy)
    unfold typedPairs at k ⊢
    simp only [List.map_cons, List.mapM_cons, indexOf_numberOf, Option.bind_some, k, if_pos (h x (List.mem_cons_self ..)),
      Option.bind_eq_bind, Option.pure_def]

theorem reads_preset (d : PresetDef) (h : PresetDef.inRange d = true) : Reads readPresetDef (presetField d) d :=
  fun rest => by
    unfold PresetDef.inRange fadeInRange levelInRange at h
    simp only [Bool.and_eq_true, decide_eq_true_eq, List.all_eq_true] at h
    obtain ⟨⟨hf, hl⟩, _, hn⟩ := h
    have len : d.pairs.length < 256 := by simpa using nodup_circuits hn
    have k : Reads (readAs (readList readEntry) typedPairs) (listed (fun x => numbered x.1 ++ Machine.two x.2) d.pairs)
        d.pairs := by
      refine Reads.typed (Reads.list (g := fun x => (numberOf x.1, x.2)) d.pairs len fun x hx => ?_)
        (typedPairs_raw d.pairs hl)
      exact Reads.entry (by unfold numberOf; omega) (lt_of_le_of_lt (hl x hx) (by decide))
    simp only [readPresetDef, presetField, List.append_assoc, Reads.two (lt_of_le_of_lt hf (by decide)) _, k rest,
      Option.bind_eq_bind, Option.bind_some, Option.pure_def]

/-! ## Bindings -/

theorem reads_key (k : KeyAddr) : Reads (readAs readKey RawKey.address) (keyField k) k := by
  refine Reads.typed (a := ⟨numberOf k.loop, k.station.val * 8 + k.key.val⟩) (fun rest => ?_) ?_
  · have h := Reads.pair (m := numberOf k.loop) (n := k.station.val * 8 + k.key.val) (by unfold numberOf; omega) (by omega)
      rest
    simp only [keyField, readKey, h, Option.bind_eq_bind, Option.bind_some, Option.pure_def]
  · unfold RawKey.address
    simp only [indexOf_numberOf, Option.bind_some]
    rw [dif_pos (by omega)]
    obtain ⟨l, s, i⟩ := k
    simp only [Option.some.injEq, KeyAddr.mk.injEq, true_and]
    exact ⟨Fin.ext (by simp only; omega), Fin.ext (by simp only; omega)⟩

theorem reads_edge (e : Edge) : Reads (readAs readOne Edge.ofCode) (Machine.one e.code) e :=
  .typed (.one (by cases e <;> decide)) (by cases e <;> rfl)

theorem typedAction_written (gate : Nat) (a : FieldAction) : RawBinding.typedAction (writtenAction gate a) = some a := by
  cases a with
  | seqRun n q m =>
    cases m <;> simp [writtenAction, RawBinding.typedAction, indexOf_numberOf, PlayerMode.ofCode, PlayerMode.run]
  | setMode m => cases m <;> rfl
  | _ => simp [writtenAction, RawBinding.typedAction, indexOf_numberOf, codeOf_val]

/-- The target of a binding entry that is one number. -/
theorem Reads.number {action n : Nat} (ha : action ≠ 7) (h : n < 256) :
    Reads (readBindingTarget action) (Machine.one n) (.number n) := fun rest => by
  simp only [readBindingTarget, if_neg ha, Reads.one h _, Option.bind_eq_bind, Option.bind_some, Option.pure_def]

/-- An entry read field by field. -/
theorem Reads.entryFields {gate action : Nat} {target : RawBindingTarget} {level fade rank : Option Nat}
    {w : List Byte} (hg : gate < 256) (ha : action < 256) (ht : Reads (readBindingTarget action) w target)
    (hl : level.getD 0 < 65536) (hf : fade.getD 0 < 65536) (hr : rank.getD 0 < 256) :
    Reads readBinding (Machine.one gate ++ (Machine.one action ++ (w ++ (maybe Machine.two level
      ++ (maybe Machine.two fade ++ maybe Machine.one rank))))) ⟨gate, action, target, level, fade, rank⟩ := fun rest => by
  have hp := Reads.pair hg ha
  have hl' : Reads (readMaybe readTwo) (maybe Machine.two level) level := by
    have := Reads.option (f := readTwo) (w := Machine.two) (g := id) level fun a e => Reads.two (by subst e; exact hl)
    rwa [Option.map_id] at this
  have hf' : Reads (readMaybe readTwo) (maybe Machine.two fade) fade := by
    have := Reads.option (f := readTwo) (w := Machine.two) (g := id) fade fun a e => Reads.two (by subst e; exact hf)
    rwa [Option.map_id] at this
  have hr' : Reads (readMaybe readOne) (maybe Machine.one rank) rank := by
    have := Reads.option (f := readOne) (w := Machine.one) (g := id) rank fun a e => Reads.one (by subst e; exact hr)
    rwa [Option.map_id] at this
  have hp' := hp (w ++ (maybe Machine.two level ++ (maybe Machine.two fade ++ (maybe Machine.one rank ++ rest))))
  rw [List.append_assoc] at hp'
  simp only [readBinding, List.append_assoc, hp', ht _, hl' _, hf' _, hr' _, Option.bind_eq_bind, Option.bind_some,
    Option.pure_def]

theorem reads_action (gate : Nat) (hg : gate < 256) (a : FieldAction) (h : FieldAction.inRange a = true) :
    Reads readBinding (Machine.one gate ++ actionField a) (writtenAction gate a) := by
  have num : ∀ {n : Nat} (i : Fin n), n < 256 → numberOf i < 256 := fun i h => by unfold numberOf; omega
  have fine : ∀ n : Nat, n ≤ Config.fadeTop → n < 65536 := fun n h => lt_of_le_of_lt h (by decide)
  have level : ∀ n : Nat, n ≤ Config.levelTop → n < 65536 := fun n h => lt_of_le_of_lt h (by decide)
  have fields := @Reads.entryFields gate
  cases a <;>
    simp only [FieldAction.inRange, fadeInRange, levelInRange, Bool.and_eq_true, decide_eq_true_eq] at h <;>
    unfold actionField writtenAction <;> simp only [List.append_assoc]
  · rename_i g v t r
    exact fields (level := some v) (fade := some t) (rank := some r.val) hg (by decide) (.number (by decide) (by omega))
      (level v h.1) (fine t h.2) (by simp only [Option.getD_some]; omega)
  · rename_i g t r
    exact fields (level := none) (fade := some t) (rank := some r.val) hg (by decide) (.number (by decide) (by omega))
      (by decide) (fine t h) (by simp only [Option.getD_some]; omega)
  · rename_i g v t r
    exact fields (level := some v) (fade := some t) (rank := some r.val) hg (by decide) (.number (by decide) (by omega))
      (level v h.1) (fine t h.2) (by simp only [Option.getD_some]; omega)
  · rename_i g r
    exact fields (level := none) (fade := none) (rank := some r.val) hg (by decide) (.number (by decide) (by omega))
      (by decide) (by decide) (by simp only [Option.getD_some]; omega)
  · rename_i g r
    exact fields (level := none) (fade := none) (rank := some r.val) hg (by decide) (.number (by decide) (by omega))
      (by decide) (by decide) (by simp only [Option.getD_some]; omega)
  · rename_i p t r
    exact fields (level := none) (fade := some t) (rank := some r.val) hg (by decide)
      (.number (by decide) (num p (by decide))) (by decide) (fine t h) (by simp only [Option.getD_some]; omega)
  · rename_i g t r
    exact fields (level := none) (fade := some t) (rank := some r.val) hg (by decide) (.number (by decide) (by omega))
      (by decide) (fine t h) (by simp only [Option.getD_some]; omega)
  · rename_i n q m
    have target : Reads (readBindingTarget 7) (numbered n ++ (numbered q ++ Machine.one (playerModeCode m.toPlayer)))
        (.run (numberOf n) (numberOf q) (playerModeCode m.toPlayer)) := fun rest => by
      have hp := Reads.pair (num n (by decide)) (num q (by decide)) (Machine.one (playerModeCode m.toPlayer) ++ rest)
      rw [List.append_assoc] at hp
      simp only [readBindingTarget, if_true, numbered, List.append_assoc, hp, Option.bind_eq_bind, Option.bind_some,
        Reads.one (n := playerModeCode m.toPlayer) (by cases m <;> decide) _, Option.pure_def]
    have := fields (level := none) (fade := none) (rank := none) hg (by decide) target (by decide) (by decide) (by decide)
    simp only [maybe, List.append_assoc] at this ⊢
    cases m <;> exact this
  · rename_i n
    exact fields (level := none) (fade := none) (rank := none) hg (by decide)
      (.number (by decide) (num n (by decide))) (by decide) (by decide) (by decide)
  · rename_i m
    exact fields (level := none) (fade := none) (rank := none) hg (by decide)
      (.number (by decide) (by omega)) (by decide) (by decide) (by decide)

theorem bitsOf_modes (l : List HouseMode) : bitsOf HouseMode.all l < 32 := by
  simp only [bitsOf, HouseMode.all, List.zipIdx_cons, List.zipIdx_nil, List.map_cons, List.map_nil, List.sum_cons,
    List.sum_nil]
  repeat' split
  all_goals decide

theorem bitsOf_permissions (l : List Permission) : bitsOf Permission.all l < 32 := by
  simp only [bitsOf, Permission.all, List.zipIdx_cons, List.zipIdx_nil, List.map_cons, List.map_nil, List.sum_cons,
    List.sum_nil]
  repeat' split
  all_goals decide

theorem reads_bound (b : Binding) (h : Binding.inRange b = true)
    (gate : namesOf HouseMode.all (bitsOf HouseMode.all b.gate) = b.gate) : Reads readBound (boundField b) b := fun rest => by
  unfold Binding.inRange at h
  simp only [Bool.and_eq_true] at h
  have bits := bitsOf_modes b.gate
  have some_gate : typedGate (bitsOf HouseMode.all b.gate) = some b.gate := by
    unfold typedGate
    rw [gate, if_neg]
    intro k
    rcases k with k | k
    · rw [k] at gate
      have : b.gate = [] := by rw [← gate]; rfl
      rw [this] at h
      simp at h
    · omega
  have entry : Reads (readAs readBinding (RawBinding.typed b.key b.edge)) (bindingField b) b :=
    .typed (reads_action (bitsOf HouseMode.all b.gate) (by omega) b.action h.2) (by
      unfold RawBinding.typed
      have k : (writtenAction (bitsOf HouseMode.all b.gate) b.action).gate = bitsOf HouseMode.all b.gate := by
        cases b.action <;> rfl
      rw [k, some_gate, typedAction_written]
      simp only [Option.bind_eq_bind, Option.bind_some, h.2, if_true, Option.pure_def])
  simp only [readBound, boundField, List.append_assoc, reads_key b.key _, reads_edge b.edge _, entry rest,
    Option.bind_eq_bind, Option.bind_some]

/-! ## Sequences, modes, roles, settings -/

theorem reads_step (x : SeqStep) (hf : x.fade < 65536) (hw : x.wait < 65536) : Reads readStep (stepField x) (writtenStep x) :=
  fun rest => by
    obtain ⟨kind, fade, wait⟩ := x
    cases kind
    · rename_i p
      have e := Reads.present (reads_numbered p (by decide))
      simp only [readStep, stepField, writtenStep, maybe, List.append_assoc]
      simp only [← List.append_assoc (Machine.one 1)]
      simp only [Reads.one (n := 0) (by decide) _, e _, Reads.two hf _, Reads.two hw _, Option.bind_eq_bind,
        Option.bind_some, Option.pure_def]
    · simp only [readStep, stepField, writtenStep, List.append_assoc, Reads.one (n := 1) (by decide) _, Reads.absent _ _,
        Reads.two hf _, Reads.two hw _, Option.bind_eq_bind, Option.bind_some, Option.pure_def]

theorem typed_writtenStep (x : SeqStep) : RawStep.typed (writtenStep x) = some x := by
  obtain ⟨kind, fade, wait⟩ := x
  cases kind <;> simp [writtenStep, RawStep.typed, indexOf_numberOf]

theorem endAction_code (e : EndAction) : EndAction.ofCode (endActionCode e) = some e := by cases e <;> rfl

theorem reads_sequence (q : SequenceDef) (h : SequenceDef.inRange q = true) :
    Reads (readAs readSequence RawSequence.typed) (sequenceDefField q) q := by
  unfold SequenceDef.inRange fadeInRange at h
  simp only [Bool.and_eq_true, decide_eq_true_eq, List.all_eq_true] at h
  obtain ⟨⟨hs, _, hn, hp⟩, hr⟩ := h
  have fine : ∀ n : Nat, n ≤ Config.fadeTop → n < 65536 := fun n h => lt_of_le_of_lt h (by decide)
  refine Reads.typed (a := ⟨q.steps.map writtenStep, q.rank.val, endActionCode q.endAction, q.releaseTime, q.passLimit⟩)
    (fun rest => ?_) ?_
  · have steps : Reads (readList readStep) (listed stepField q.steps) (q.steps.map writtenStep) :=
      .list q.steps (by omega) fun x hx => reads_step x (fine _ (hs x hx).1) (by have := (hs x hx).2; omega)
    have pair := Reads.pair (m := q.rank.val) (n := endActionCode q.endAction) (by omega) (by cases q.endAction <;> decide)
      (Machine.two q.releaseTime ++ (Machine.two q.passLimit ++ rest))
    rw [List.append_assoc] at pair
    simp only [readSequence, sequenceDefField, List.append_assoc, steps _, pair, Reads.two (fine _ hr) _,
      Reads.two (n := q.passLimit) (by omega) _, Option.bind_eq_bind, Option.bind_some, Option.pure_def]
  · unfold RawSequence.typed
    simp only [mapM_map_some typed_writtenStep, codeOf_val, endAction_code, Option.bind_eq_bind, Option.bind_some,
      Option.pure_def]
    rw [if_pos]
    simp only [Bool.and_eq_true, decide_eq_true_eq, List.all_eq_true, fadeInRange]
    exact ⟨⟨hs, hr⟩, hp⟩

theorem typed_writtenEntry (x : EntrySequence) : RawEntrySequence.typed (writtenEntrySequence x) = some x := by
  cases x with
  | run n m q =>
    cases m <;> simp [writtenEntrySequence, RawEntrySequence.typed, indexOf_numberOf, PlayerMode.ofCode]
  | off n => simp [writtenEntrySequence, RawEntrySequence.typed, indexOf_numberOf, PlayerMode.ofCode]

theorem reads_entry (x : EntrySequence) :
    Reads readEntrySequence (entrySequenceField x) (writtenEntrySequence x) := fun rest => by
  cases x with
  | run n m q =>
    have e := Reads.present (reads_numbered q (by decide))
    have p := Reads.pair (m := numberOf n) (n := playerModeCode m.toPlayer) (by unfold numberOf; omega)
      (by cases m <;> decide) (Machine.one 1 ++ (numbered q ++ rest))
    rw [List.append_assoc] at p
    have e' := e rest
    rw [List.append_assoc] at e'
    simp only [readEntrySequence, entrySequenceField, writtenEntrySequence, maybe, numbered, List.append_assoc] at p e' ⊢
    simp only [p, e', Option.bind_eq_bind, Option.bind_some, Option.pure_def]
    cases m <;> rfl
  | off n =>
    have p := Reads.pair (m := numberOf n) (n := 0) (by unfold numberOf; omega) (by decide) (Machine.one 0 ++ rest)
    rw [List.append_assoc] at p
    simp only [readEntrySequence, entrySequenceField, writtenEntrySequence, numbered, List.append_assoc, p, Reads.absent _ _,
      Option.bind_eq_bind, Option.bind_some, Option.pure_def]

theorem typedOption_map {α β : Type} {f : β → Option α} {g : α → β} (h : ∀ a, f (g a) = some a) (o : Option α) :
    typedOption f (o.map g) = some o := by
  cases o <;> simp [typedOption, h]

theorem reads_mode (m : ModeRecord) (h : ModeRecord.inRange m = true) :
    Reads (readAs readModeFields RawModeRecord.typed) (modeRecordField m) m := by
  have hf : m.entryFade ≤ Config.fadeTop := by simpa [ModeRecord.inRange, fadeInRange] using h
  refine Reads.typed
    (a := ⟨m.entryPreset.map numberOf, m.entryRank.val, m.entryFade, m.entrySequence.map writtenEntrySequence⟩) (fun rest => ?_) ?_
  · have preset := Reads.option (f := readOne) (w := numbered) (g := numberOf) m.entryPreset fun a _ =>
      reads_numbered a (by decide)
    have sequence := Reads.option (f := readEntrySequence) (w := entrySequenceField) (g := writtenEntrySequence) m.entrySequence
      fun a _ => reads_entry a
    simp only [readModeFields, modeRecordField, List.append_assoc, preset _, Reads.one (n := m.entryRank.val) (by omega) _,
      Reads.two (lt_of_le_of_lt hf (by decide)) _, sequence _, Option.bind_eq_bind, Option.bind_some, Option.pure_def]
  · unfold RawModeRecord.typed
    simp only [typedOption_map indexOf_numberOf, typedOption_map typed_writtenEntry, codeOf_val, Option.bind_eq_bind,
      Option.bind_some, Option.pure_def]
    rw [if_pos h]

/-- The raw access set of an access set (R186). -/
def rawAccess : AccessSet → Option (List Nat)
  | .all => none
  | .groups l => some (l.map Fin.val)

theorem typed_rawAccess (a : AccessSet) : typedAccess (rawAccess a) = some a := by
  cases a with
  | all => rfl
  | groups l => simp [rawAccess, typedAccess, mapM_map_some (f := codeOf 65) (g := Fin.val) codeOf_val]

theorem linkRate_code (r : LinkRate) : LinkRate.ofCode (linkRateCode r) = some r := by cases r <;> rfl

theorem reads_role (r : RoleRecord) (h : RoleRecord.inRange r = true)
    (set : namesOf Permission.all (bitsOf Permission.all r.permissions) = r.permissions) :
    Reads (readAs readRoleFields RawRoleRecord.typed) (roleField r) r := by
  have all := h
  unfold RoleRecord.inRange fadeInRange at h
  simp only [Bool.and_eq_true, decide_eq_true_eq] at h
  obtain ⟨⟨ha, hl⟩, ho⟩ := h
  have bits := bitsOf_permissions r.permissions
  refine Reads.typed (a := ⟨r.maxRank.val, rawAccess r.access, bitsOf Permission.all r.permissions, r.lease,
    r.orphanHold, r.orphanRelease, linkRateCode r.linkRate⟩) (fun rest => ?_) ?_
  · have access : Reads readAccess (accessField r.access) (rawAccess r.access) := by
      cases e : r.access with
      | all => exact Reads.absent _
      | groups l =>
        rw [e] at ha
        simp only [decide_eq_true_eq] at ha
        exact Reads.present (.list l (by omega) fun g _ => Reads.one (by omega))
    simp only [readRoleFields, roleField, List.append_assoc, Reads.one (n := r.maxRank.val) (by omega) _, access _,
      Reads.one (n := bitsOf Permission.all r.permissions) (by omega) _, Reads.two (n := r.lease) (by omega) _,
      Reads.two (n := r.orphanHold) (by omega) _, Reads.two (lt_of_le_of_lt ho (by decide)) _,
      Reads.one (n := linkRateCode r.linkRate) (by cases r.linkRate <;> decide) _, Option.bind_eq_bind, Option.bind_some,
      Option.pure_def]
  · unfold RawRoleRecord.typed
    simp only [typed_rawAccess, codeOf_val, linkRate_code, set, Option.bind_eq_bind, Option.bind_some, Option.pure_def]
    rw [if_pos]
    simp only [Bool.and_eq_true, decide_eq_true_eq]
    exact ⟨bits, all⟩

theorem reads_settings (x : Settings) (h : Settings.inRange x = true) : Reads readSettings (settingsField x) x :=
  fun rest => by
    unfold Settings.inRange at h
    simp only [Bool.and_eq_true, decide_eq_true_eq, List.all_eq_true] at h
    obtain ⟨h, hp⟩ := h
    have mode : Reads (readAs readOne HouseMode.ofCode) (modeField (some x.startMode)) x.startMode :=
      .typed (.one (by omega)) (by cases x.startMode <;> rfl)
    have periods : Reads (readTab 16 readTwo) (x.pwmPeriod.rows.toList.flatMap Machine.two) x.pwmPeriod :=
      .tab x.pwmPeriod fun a ha => .two (by have := hp a ha; omega)
    have polarities : Reads (readTab 16 (readAs readOne Polarity.ofCode))
        (x.pwmPolarity.rows.toList.flatMap fun p => Machine.one (polarityCode p)) x.pwmPolarity :=
      .tab x.pwmPolarity fun a _ => .typed (.one (by cases a <;> decide)) (by cases a <;> rfl)
    simp only [readSettings, settingsField, List.append_assoc, Reads.two (n := x.holdTime) (by omega) _,
      Reads.two (n := x.raiseTime) (by omega) _, Reads.two (n := x.deferLimit) (by omega) _,
      Reads.two (n := x.warningLevel) (by omega) _, Reads.two (n := x.egressTime) (by omega) _,
      Reads.two (n := x.recoveryTime) (by omega) _, Reads.two (n := x.restartFade) (by omega) _, mode _, periods _,
      polarities _, Option.bind_eq_bind, Option.bind_some, Option.pure_def]

/-! ## The tables -/

/-- Tables that pass the checks of R196 are read back as they were written. -/
theorem readTables_image (t : Tables) (h : Tables.loadable t = true) (k : Tables.Canonical t) :
    readTables (Tables.image t) = some t := by
  unfold Tables.loadable at h
  simp only [Bool.and_eq_true, decide_eq_true_eq, List.all_eq_true] at h
  obtain ⟨⟨⟨⟨⟨⟨⟨⟨⟨groups, presets⟩, bindings⟩, sequences⟩, modes⟩, circuits⟩, roles⟩, settings⟩, _⟩, _, _, slots⟩ := h
  have c := Reads.tab t.circuits fun a ha => reads_circuit a (circuits a ha)
  have g := Reads.tab t.groups fun a ha => reads_group a (groups a ha)
  have p := Reads.tab (f := readMaybe readPresetDef) (w := maybe presetField) t.presets fun a ha => by
    have := Reads.option (f := readPresetDef) (w := presetField) (g := id) a fun d e => reads_preset d (by
      have := presets a ha; rw [e] at this; exact this)
    rwa [Option.map_id] at this
  have b : Reads readBounds (Machine.two t.bindings.length ++ t.bindings.flatMap boundField) t.bindings := fun rest => by
    have many := Reads.many (f := readBound) (w := boundField) (g := id) t.bindings fun a ha =>
      reads_bound a (bindings a ha).1 (k.gates a ha)
    rw [List.map_id] at many
    simp only [readBounds, List.append_assoc, Reads.two (lt_of_le_of_lt slots (by decide)) _, many rest,
      Option.bind_eq_bind, Option.bind_some]
  have st := Reads.tab (f := readTab 16 (readMaybe (readAs readOne StationType.ofCode)))
    (w := fun l => l.rows.toList.flatMap (maybe fun x => Machine.one (stationTypeCode x))) t.stations fun l _ =>
      Reads.tab l fun a _ => by
        have := Reads.option (f := readAs readOne StationType.ofCode)
          (w := fun x => Machine.one (stationTypeCode x)) (g := id) a fun x _ =>
            .typed (.one (by cases x <;> decide)) (by cases x <;> rfl)
        rwa [Option.map_id] at this
  have q := Reads.tab (f := readMaybe (readAs readSequence RawSequence.typed)) (w := maybe sequenceDefField) t.sequences
    fun a ha => by
      have := Reads.option (f := readAs readSequence RawSequence.typed) (w := sequenceDefField) (g := id) a fun d e =>
        reads_sequence d (by have := sequences a ha; rw [e] at this; exact this)
      rwa [Option.map_id] at this
  have m := Reads.tab t.modes fun a ha => reads_mode a (modes a ha)
  have r := Reads.tab t.roles fun a ha => reads_role a (roles a ha) (k.permissions a ha)
  have n := Reads.tab (f := readAs readOne MergeMode.ofCode) (w := fun x => Machine.one (mergeCode x)) t.ranks fun a _ =>
    .typed (.one (by cases a <;> decide)) (by cases a <;> rfl)
  have s := reads_settings t.settings settings []
  rw [List.append_nil] at s
  have body : readBody (Tables.image t) = some (t, []) := by
    unfold readBody Tables.image
    simp only [List.append_assoc] at b ⊢
    simp only [c _, g _, p _, Option.bind_eq_bind, Option.bind_some, Option.pure_def]
    have b' := b
    unfold Reads at b'
    simp only [List.append_assoc] at b'
    simp only [b', st _, q _, m _, r _, n _, s, Option.bind_some]
  unfold readTables
  rw [body]

/-- The image of tables that pass the checks of R196 is good, and brings those tables. -/
theorem goodTables_imageOf (t : Tables) (h : Tables.loadable t = true) (k : Tables.Canonical t) :
    goodTables (some (imageOf t)) = some (Tables.ordered t) := by
  unfold goodTables imageOf
  rw [Option.bind_some, if_pos ⟨rfl, rfl, rfl⟩]
  dsimp only
  rw [readTables_image t h k, Option.bind_some, if_pos h]

/-- Putting the bindings in order loses none (R89, R196). -/
theorem ordered_length (t : Tables) : (Tables.ordered t).bindings.length = t.bindings.length := by
  have one : ∀ b l, (insertBinding b l).length = l.length + 1 := fun b l => by
    unfold insertBinding
    rw [List.length_append, List.length_cons]
    have := congrArg List.length (List.takeWhile_append_dropWhile
      (p := fun x : Binding => decide (bindingPlace x.key x.edge < bindingPlace b.key b.edge)) (l := l))
    rw [List.length_append] at this
    omega
  unfold Tables.ordered
  dsimp only
  induction t.bindings with
  | nil => rfl
  | cons b l ih => rw [List.foldr_cons, one, ih, List.length_cons]

end Sys2Proof.Machine
end

