-- ==== Sys2Proof/Laws/Steps.lean ====
section
/-! SUPPORT. What a step can do, said once: every command is a chain of the changes that `Move` names. An invariant that each of them keeps is kept by every step (`exec_moves`, `step_moves`). -/

namespace Sys2Proof.Machine

/-- A change of one port by the port's own rules: its queue and counters stay within their sizes, and ONLINE stays
ONLINE. -/
structure KeptPort (x y : PortState) : Prop where
  bounded : x.Bounded → y.Bounded
  online : x.isOnline = true → y.isOnline = true

/-- The single changes of the part. -/
inductive Move : State → State → Prop
  | broad {s t : State} (h : Broad s t) : Move s t
  | queue (s : State) (l : List Instr) : Move s { s with pending := l }
  | port (s : State) (p : Port) (f : PortState → PortState) (h : KeptPort (s.port p) (f (s.port p))) :
    Move s (s.onPort p f)
  | lost (s : State) (p : Port) (t : State) (h : Broad (s.losePort p) t)
    (free : ∀ n k, t.slot n = some k → k.owner ≠ p) : Move s t
  | armed (s : State) (n : SlotNo) (p : Port) (cs : List Circuit) (r : Rank) (timeout : Nat) (house : s.inShow = true)
    (link : (s.port p).isOnline = true) : Move s (s.armSlot n p cs r timeout)
  | forced (s : State) (e : EmergencyState) (cause : EmergencyCause) (force : e.forces = true)
    (run : s.startup = .running) : Move s (s.enterEmergency e cause)
  | cleared (s : State) (p : Port) (h : s.emergency.state = .latched) : Move s (s.clearForcing p)
  | contact (s : State) (line : Contact) (accepted : Option Contact) (debounce : Option (Contact × Nat)) :
    Move s { s with emergency := { s.emergency with line := line, accepted := accepted, debounce := debounce } }
  | tables (s : State) (x : Tables) (v : Tab (BitVec 8) 48) (fit : Tables.Fit s.tables → Tables.Fit x)
    (same : x.circuits = s.tables.circuits) : Move s { s with tables := x, versions := v }
  | record (s : State) (c : Circuit) (r : CircuitRecord) : Move s (s.setRecord c r)
  | sampled (s : State) (d : Nat) (h : s.rackDue ≠ none) :
    Move s { s.sampleRelays.sendRackFrame with rackDue := some d }
  | dwelt (s : State) (c : Circuit) (h : (s.circuit c).relay.dwellEnd ≠ none) :
    Move s (s.onCircuit c fun x => { x with relay := x.relay.endDwell (s.record c).kind s.now })
  | lines (s : State) (l : Tab PwmLine 16) : Move s { s with lines := l }
  | store (s : State) (x : Option Save) (m : Option StoredImage) (v : Validity) :
    Move s { s with save := x, memory := m, imageState := v }
  | elapsed (s : State) (us : Nat) : Move s (s.elapse us)
  | counters (s : State) : Move s s.clearCounters
  | reset (s : State) (now : Nat) (line : Contact) (m : Option StoredImage) (l : List Instr) :
    Move s (.afterFullReset now line m l)
  | image (s : State) (read : ImageRead) (h : s.startup = .reading) : Move s (s.takeImage read)
  | loaded (s : State) (t : Tables) (v : Validity) (h : s.startup = .judging t v) : Move s (s.loadTables t v)
  | restarted (s : State) : Move s s.restartPorts.clearForRestart

/-- A chain of single changes. -/
abbrev Moves : State → State → Prop := Relation.ReflTransGen Move

theorem Moves.refl (s : State) : Moves s s := Relation.ReflTransGen.refl

theorem Move.moves {s t : State} (h : Move s t) : Moves s t := Relation.ReflTransGen.single h

theorem Broad.moves {s t : State} (h : Broad s t) : Moves s t := (Move.broad h).moves

theorem Steady.moves {s t : State} (h : Steady s t) : Moves s t := h.toBroad.moves

theorem ClaimsOnly.moves {s t : State} (h : ClaimsOnly s t) : Moves s t := h.toBroad.moves

/-- What every single change keeps, a chain of them keeps. -/
theorem Moves.keeps {I : State → Prop} (h : ∀ s t, Move s t → I s → I t) {s t : State} (m : Moves s t) (i : I s) : I t := by
  induction m with
  | refl => exact i
  | tail _ k ih => exact h _ _ k ih

/-! ## The claim pool and the trackers -/

namespace Stocked

/-- A part that holds no claim and no tracker. -/
theorem empty {s : State} (c : ∀ i, s.claims i = []) (k : s.trackers = []) : Stocked s := by
  refine ⟨?_, by rw [k]; exact ⟨Nat.zero_le _, List.nodup_nil, fun _ => Nat.zero_le _⟩⟩
  rw [State.records_sum]
  simp [c]

theorem enterEmergency {s : State} (k : Stocked s) (e : EmergencyState) (cause : EmergencyCause) :
    Stocked (s.enterEmergency e cause) := by
  have h : Stocked { s with circuits := s.egressCircuits } := k.of_le (fun c => by
    show ((s.egressCircuits).get c).claims.length ≤ _
    unfold State.egressCircuits
    rw [Tab.get_build]
    split <;> exact le_rfl) rfl
  have h2 : Stocked (({ s with circuits := s.egressCircuits }.setEmergency e []).countEntry) := h.of_eq rfl rfl
  unfold State.enterEmergency
  generalize ({ s with circuits := s.egressCircuits }.setEmergency e []).countEntry = t at h2
  exact (State.announceEmergency_claims t cause).stock h2

theorem clearForcing {s : State} (k : Stocked s) (p : Port) : Stocked (s.clearForcing p) := by
  have h : Stocked { s with circuits := s.recoveryCircuits } := k.of_le (fun c => by
    show ((s.recoveryCircuits).get c).claims.length ≤ _
    unfold State.recoveryCircuits
    rw [Tab.get_build]
    split <;> exact le_rfl) rfl
  have h2 : Stocked ({ s with circuits := s.recoveryCircuits }.setEmergency .recovering s.recoveryOf) := h.of_eq rfl rfl
  unfold State.clearForcing
  generalize { s with circuits := s.recoveryCircuits }.setEmergency .recovering s.recoveryOf = t at h2
  have h3 := (State.announceEmergency_claims t (.port p)).stock h2
  dsimp only
  generalize t.announceEmergency (.port p) = u at h3
  split
  · have h4 : Stocked (u.setEmergency .normal []) := h3.of_eq rfl rfl
    generalize u.setEmergency .normal [] = v at h4
    exact (State.announceEmergency_claims v _).stock h4
  · exact h3

theorem setRecord {s : State} (k : Stocked s) (c : Circuit) (r : CircuitRecord) : Stocked (s.setRecord c r) := by
  have h : Stocked ((s.onCircuit c fun x => State.CircuitState.rewrite x (s.record c) r s.emergency.state.forces).onTables
      fun t => { t with circuits := t.circuits.set c r }) := k.of_le (fun d => by
    show ((s.circuits.modify c _).get d).claims.length ≤ _
    rw [Tab.get_modify]
    split
    · rename_i e; rw [e]; exact le_rfl
    · exact le_rfl) rfl
  unfold State.setRecord
  dsimp only
  generalize (s.onCircuit c fun x => State.CircuitState.rewrite x (s.record c) r s.emergency.state.forces).onTables
      (fun t => { t with circuits := t.circuits.set c r }) = t at h
  split
  · exact (State.reportRecoveries_claims t _).stock h
  · exact h

theorem reset (now : Nat) (line : Contact) (m : Option StoredImage) (l : List Instr) :
    Stocked (.afterFullReset now line m l) :=
  empty (fun c => by
    show (State.circuit _ c).claims = []
    unfold State.circuit State.afterFullReset
    rw [Tab.get_const]
    rfl) rfl

theorem restarted (s : State) : Stocked s.restartPorts.clearForRestart := by
  generalize s.restartPorts = t
  unfold State.clearForRestart
  refine (State.reportRecoveries_claims _ _).stock (empty (fun c => ?_) rfl)
  show ((t.restartCircuits).get c).claims = []
  unfold State.restartCircuits
  rw [Tab.get_build]
  dsimp only
  split <;> rfl

end Stocked

/-- Every single change leaves the claim pool and the trackers within their sizes (R21, R45, R46). -/
theorem Move.stock {s t : State} (h : Move s t) (k : Stocked s) : Stocked t := by
  cases h with
  | broad h => exact h.stock k
  | lost p t h free => exact h.stock (k.of_eq rfl rfl)
  | forced e cause force run => exact k.enterEmergency e cause
  | cleared p h => exact k.clearForcing p
  | record c r => exact k.setRecord c r
  | sampled d h => exact k.of_le (fun c => by
      show ((s.sampleRelays.circuits).get c).claims.length ≤ _
      unfold State.sampleRelays
      rw [Tab.get_build]
      exact le_rfl) rfl
  | dwelt c h => exact k.of_le (fun d => by
      show ((s.circuits.modify c _).get d).claims.length ≤ _
      rw [Tab.get_modify]
      split
      · rename_i e; rw [e]
      · exact le_rfl) rfl
  | elapsed us => exact k.of_le (fun c => by
      show ((s.circuits.each fun x => x.advance s.tables.ranks us).get c).claims.length ≤ _
      rw [Tab.get_each]
      exact (List.length_map ..).le) rfl
  | reset now line m l => exact .reset now line m l
  | restarted => exact .restarted s
  | queue l => exact k.of_eq rfl rfl
  | port p f h => exact k.of_eq rfl rfl
  | armed n p cs r timeout house link => exact k.of_eq rfl rfl
  | contact line accepted debounce => exact k.of_eq rfl rfl
  | tables x v fit same => exact k.of_eq rfl rfl
  | lines l => exact k.of_eq rfl rfl
  | store x m v => exact k.of_eq rfl rfl
  | counters => exact k.of_eq rfl rfl
  | image read h => exact k.of_eq rfl rfl
  | loaded t v h => exact k.of_eq rfl rfl

namespace State

theorem respond_moves (s : State) (p : Port) (kind tag : Byte) (status : Status) (body : ReplyBody) :
    Moves s (s.respond p kind tag status body) := (Move.port s p _ ⟨id, id⟩).moves

theorem refreshLease_moves (s : State) (p : Port) : Moves s (s.refreshLease p) :=
  (Move.port s p _ ⟨id, fun _ => rfl⟩).moves

theorem answerBusy_moves (s : State) (p : Port) (kind tag : Byte) : Moves s (s.answerBusy p kind tag) :=
  (Move.port s p _ ⟨fun h => ⟨h.1, h.2.1, bump_le _, h.2.2.2⟩, id⟩).moves.trans (respond_moves _ _ _ _ _ _)

theorem setEdit_moves (s : State) (p : Port) (e : Option PresetEdit) : Moves s (s.setEdit p e) :=
  (Move.port s p _ ⟨id, id⟩).moves

theorem onTables_moves (s : State) (f : Tables → Tables) (fit : Tables.Fit s.tables → Tables.Fit (f s.tables))
    (same : (f s.tables).circuits = s.tables.circuits) : Moves s (s.onTables f) :=
  (Move.tables s (f s.tables) s.versions fit same).moves

theorem isOnline_refreshLease (s : State) (p : Port) : ((s.refreshLease p).port p).isOnline = true := by
  unfold refreshLease
  rw [port_onPort]
  rfl

theorem replay_moves (s : State) : Moves s s.replay := (replay_steady s).moves

theorem reply_moves {s : State} {a : Answer} (h : Moves s a.state) (p : Port) (kind tag : Byte) :
    Moves s (a.reply p kind tag) := (h.trans (replay_moves _)).trans (respond_moves _ _ _ _ _ _)

end State

open State

/-- A frame is admitted by changes of its port. -/
theorem receive_moves {α : Type} (s : State) (p : Port) (kind tag : Byte) (payload : Payload α) (formed : α → Bool) :
    (∀ t, s.receive p kind tag payload formed = .done t → Moves s t)
    ∧ (∀ t f, s.receive p kind tag payload formed = .taken t f → t = s.refreshLease p ∧ s.startup = .running) := by
  unfold receive
  split
  · exact ⟨fun t h => by cases h; exact .refl s, fun t f h => by cases h⟩
  · exact ⟨fun t h => by cases h; exact respond_moves _ _ _ _ _ _, fun t f h => by cases h⟩
  · rename_i run
    split
    · exact ⟨fun t h => by cases h; exact .refl s, fun t f h => by cases h⟩
    · unfold judgeRequest
      split
      · exact ⟨fun t h => by cases h; exact (refreshLease_moves s p).trans (answerBusy_moves _ _ _ _),
          fun t f h => by cases h⟩
      · split
        · exact ⟨fun t h => by cases h; exact (refreshLease_moves s p).trans (respond_moves _ _ _ _ _ _),
            fun t f h => by cases h⟩
        · split
          · refine ⟨fun t h => ?_, fun t f h => ?_⟩
            · cases h
            · cases h; exact ⟨rfl, run⟩
          · exact ⟨fun t h => by cases h; exact (refreshLease_moves s p).trans (respond_moves _ _ _ _ _ _),
              fun t f h => by cases h⟩

/-- A request is a chain of changes where its answer is one, taken with the lease started anew in a running part. -/
theorem serve_moves {α : Type} (s : State) (p : Port) (kind tag : Byte) (payload : Payload α) (formed : α → Bool)
    (answer : State → α → Answer)
    (h : ∀ f, s.startup = .running → Moves (s.refreshLease p) (answer (s.refreshLease p) f).state) :
    Moves s (serve s p kind tag payload formed answer) := by
  obtain ⟨done, taken⟩ := receive_moves s p kind tag payload formed
  unfold serve
  split
  · exact done _ (by assumption)
  · rename_i t f e
    obtain ⟨rfl, run⟩ := taken t f e
    exact (refreshLease_moves s p).trans (reply_moves (h f run) p kind tag)

/-! ## Answers -/

namespace State

/-- A placement of a port that was not refused has its records (R11). -/
theorem portRefusal_room {s : State} {p : Port} {w : PortWork} (h : s.portRefusal p w = none) :
    s.recordsNeeded (.port p) (w.items.map PlaceItem.circuit) ≤ s.freeRecords := by
  unfold portRefusal at h
  dsimp only at h
  split at h
  · cases h
  · exact room_of_refusal h

/-- A placement of a port that was not refused is supplied, with the tracker it obtains (R11, R46). -/
theorem portPlacement_supplied {s : State} {p : Port} {w : PortWork} {tag : Byte} (h : s.portRefusal p w = none) :
    Supplied s (portPlacement p w (s.obtainTracker p tag).1) := by
  refine ⟨portRefusal_room h, fun i q x e => ?_⟩
  change (s.obtainTracker p tag).1 = _ at e
  unfold obtainTracker at e
  split at e
  · cases e
  · split at e
    · rename_i j found
      obtain ⟨rfl, rfl, rfl⟩ : j = i ∧ p = q ∧ tag = x := by simpa using e
      unfold trackerFor at found
      split at found
      · rename_i few
        refine ⟨fun t m own => ?_, few⟩
        have free := List.find?_some found
        simp at free
        exact free t m own
      · cases found
    · cases e

theorem answerPlacement_moves (s : State) (p : Port) (tag : Byte) (w : Option PortWork) :
    Moves s (s.answerPlacement p tag w).state := by
  unfold answerPlacement
  split
  · exact .refl s
  · split
    · unfold refusePlacement Answer.plain
      dsimp only
      split
      · exact (countPoolRefusal_steady s).moves
      · exact .refl s
    · rename_i free
      unfold Answer.plain
      dsimp only
      exact (place_claims s _ (portPlacement_supplied free)).moves

theorem answerRelease_moves (s : State) (p : Port) (f : ReleaseFields) : Moves s (s.answerRelease p f).state := by
  unfold answerRelease
  split
  · exact .refl s
  · unfold Answer.plain
    dsimp only
    exact (release_claims s _ _ _).moves

theorem answerStandby_moves (s : State) (p : Port) (group rank timeout : Nat) (link : (s.port p).isOnline = true) :
    Moves s (s.answerStandby p group rank timeout).state := by
  unfold answerStandby
  split
  · exact .refl s
  · split
    · exact .refl s
    · split
      · exact .refl s
      · split
        · exact .refl s
        · rename_i h
          split
          · exact .refl s
          · exact (Move.armed s _ p _ _ _ (by simpa using h) link).moves

theorem restartExpiry_moves (s : State) (n : SlotNo) : Moves s (s.restartExpiry n) := by
  unfold restartExpiry
  refine (setSlot_claims s n _ fun y h => ?_).moves
  rw [Option.map_eq_some_iff] at h
  obtain ⟨k, hk, e⟩ := h
  exact ⟨k, hk, by rw [← e]⟩

theorem submitCue_moves (s : State) (p : Port) (n : SlotNo) (cue : Cue) : Moves s (s.submitCue p n cue).state := by
  unfold submitCue
  split
  · exact .refl s
  · split
    · unfold refusePlacement Answer.plain
      dsimp only
      split
      · exact (countPoolRefusal_steady s).moves
      · exact .refl s
    · rename_i free
      unfold Answer.plain
      dsimp only
      exact (restartExpiry_moves s n).trans (place_claims _ _ ⟨portRefusal_room free, fun _ _ _ e => by
        change TrackerUse.slot n = _ at e
        cases e⟩).moves

theorem answerGo_moves (s : State) (p : Port) (number : Nat) (cue : Cue) : Moves s (s.answerGo p number cue).state := by
  unfold answerGo
  split
  · exact .refl s
  · split
    · exact .refl s
    · split
      · exact .refl s
      · split
        · exact submitCue_moves s p _ cue
        · exact .refl s

theorem answerCancel_moves (s : State) (p : Port) (number : Nat) : Moves s (s.answerCancel p number).state := by
  unfold answerCancel
  split
  · exact .refl s
  · split
    · exact .refl s
    · split
      · exact (endSlot_claims s _ _).moves
      · exact .refl s

theorem answerSetMode_moves (s : State) (p : Port) (m : HouseMode) : Moves s (s.answerSetMode p m).state := by
  unfold answerSetMode
  split
  · exact (requestMode_broad s m _).moves
  · exact .refl s

theorem answerRun_moves (s : State) (p : Port) (n : PlayerNo) (q : SequenceNo) (mode : PlayerMode) (rate : Nat) :
    Moves s (s.answerRun p n q mode rate).state := by
  unfold answerRun
  split
  · exact ((writeRate_steady s n rate).trans (offRequest_steady _ n _)).moves
  · split
    · exact .refl s
    · exact ((writeRate_steady s n rate).trans (runRequest_steady _ n q _ _)).moves

theorem answerSet_moves (s : State) (p : Port) (n : PlayerNo) (mode : PlayerMode) (rate : Nat) :
    Moves s (s.answerSet p n mode rate).state := by
  unfold answerSet
  split
  · exact ((writeRate_steady s n rate).trans (offRequest_steady _ n _)).moves
  · split
    · unfold answerRestart
      split
      · exact .refl s
      · split
        · exact .refl s
        · exact ((writeRate_steady s n rate).trans (runRequest_steady _ n _ _ _)).moves
    · exact ((writeRate_steady s n rate).trans (setPlayer_steady _ n _)).moves

theorem answerEmergencyOn_moves (s : State) (p : Port) (run : s.startup = .running) :
    Moves s (s.answerEmergencyOn p).state := by
  unfold answerEmergencyOn
  split
  · split
    · exact .refl s
    · exact (Move.forced s .latched _ rfl run).moves
  · exact .refl s

theorem answerClear_moves (s : State) (p : Port) : Moves s (s.answerClear p).state := by
  unfold answerClear
  split
  · split
    · exact .refl s
    · exact .refl s
    · exact .refl s
    · exact (Move.cleared s p (by assumption)).moves
  · exact .refl s

theorem answerQueryStation_moves (s : State) (loop address : Nat) : Moves s (s.answerQueryStation loop address).state := by
  unfold answerQueryStation
  split
  · split
    · exact .refl s
    · exact (onStation_broad s _ _ _).moves
  · exact .refl s

theorem answerEdit_moves (s : State) (p : Port) (a : Answer) (h : Moves s a.state) : Moves s (s.answerEdit p a).state := by
  unfold answerEdit
  split
  · exact .refl s
  · exact h

/-- The tables as a group write, a preset write and a binding write leave them fit their stores (R55, R57, R89). -/
theorem sum_set {α : Type} {n : Nat} (t : Tab α n) (i : Fin n) (a : α) (f : α → Nat) :
    ((t.set i a).rows.toList.map f).sum + f (t.get i) = (t.rows.toList.map f).sum + f a := by
  have h : (t.set i a).rows.toList = t.rows.toList.set i.val a := by
    simp [Tab.set, Vector.toList_set]
  have hi : i.val < t.rows.toList.length := by simp
  have g : t.rows.toList[i.val] = t.get i := by simp [Tab.get_eq]
  have key : ∀ (l : List α) (k : Nat) (hk : k < l.length),
      ((l.set k a).map f).sum + f l[k] = (l.map f).sum + f a := by
    intro l
    induction l with
    | nil => intro k hk; simp at hk
    | cons b l ih =>
      intro k hk
      cases k with
      | zero => simp; omega
      | succ k =>
        have := ih k (by simpa using hk)
        simp only [List.set_cons_succ, List.map_cons, List.sum_cons, List.getElem_cons_succ]
        omega
  rw [h, ← g]
  exact key _ _ hi

theorem setGroup_moves (s : State) (g : Fin 64) (l : List Circuit) (once : l.Nodup)
    (room : ¬ s.freeMembers + (s.tables.groups.get g).length < l.length) : Moves s (s.setGroup g l) := by
  refine onTables_moves s _ (fun h => ⟨?_, h.2.1, h.2.2.1, fun k => ?_, h.2.2.2.2⟩) rfl
  case refine_2 =>
    dsimp only
    rw [Tab.get_set]
    split
    · exact once
    · exact h.2.2.2.1 k
  have k := sum_set s.tables.groups g l List.length
  have u := h.1
  unfold freeMembers at room
  unfold Tables.membersUsed at *
  dsimp only
  omega

theorem setPreset_moves (s : State) (n : PresetNo) (d : Option PresetDef)
    (once : ∀ x, d = some x → (x.pairs.map Prod.fst).Nodup)
    (room : (pairsOf d).length ≤ s.freePairs + (pairsOf (s.presetDef n)).length) : Moves s (s.setPreset n d) := by
  refine (Move.tables s { s.tables with presets := s.tables.presets.set n d }
    (s.versions.modify n fun v => v + 1) (fun h => ⟨h.1, ?_, h.2.2.1, h.2.2.2.1, fun m x e => ?_⟩) rfl).moves
  case refine_2 =>
    dsimp only at e
    rw [Tab.get_set] at e
    split at e
    · exact once x e
    · exact h.2.2.2.2 m x e
  have k := sum_set s.tables.presets n d fun p => (pairsOf p).length
  have u := h.2.1
  unfold freePairs presetDef at room
  unfold Tables.pairsUsed at *
  dsimp only at *
  omega

theorem answerOpenPreset_moves (s : State) (p : Port) (number fade count : Nat) :
    Moves s (s.answerOpenPreset p number fade count).state := by
  refine answerEdit_moves s p _ ?_
  split
  · exact .refl s
  · split
    · exact .refl s
    · split
      · exact .refl s
      · split
        · exact (setEdit_moves s p _).trans (setPreset_moves _ _ _ nofun (by simp [pairsOf]))
        · exact setEdit_moves s p _

theorem answerPresetPairs_moves (s : State) (p : Port) (number : Nat) (list : List (Nat × Nat)) :
    Moves s (s.answerPresetPairs p number list).state := by
  refine answerEdit_moves s p _ ?_
  split
  · exact .refl s
  · rename_i e _
    split
    · exact .refl s
    · split
      · exact .refl s
      · split
        · rename_i le
          unfold takePairs
          split
          · exact setEdit_moves s p _
          · split
            · rename_i fits
              refine (setEdit_moves s p _).trans (setPreset_moves _ _ _ (fun x e => ?_) ?_)
              · cases e; exact le.1
              unfold pairsFit at fits
              simp only [decide_eq_true_eq] at fits
              exact le_trans le.2 fits
            · exact setEdit_moves s p _
        · exact .refl s

theorem bindingPlace_inj {k k' : KeyAddr} {e e' : Edge} (h : bindingPlace k e = bindingPlace k' e') : k = k' ∧ e = e' := by
  unfold bindingPlace at h
  have c : ∀ e : Edge, e.code < 4 := fun e => by cases e <;> decide
  have a := c e; have b := c e'
  have l := k.loop.isLt; have l' := k'.loop.isLt
  have m := k.station.isLt; have m' := k'.station.isLt
  have n := k.key.isLt; have n' := k'.key.isLt
  have e1 : e.code = e'.code := by omega
  have e2 : k.key.val = k'.key.val := by omega
  have e3 : k.station.val = k'.station.val := by omega
  have e4 : k.loop.val = k'.loop.val := by omega
  refine ⟨?_, ?_⟩
  · cases k; cases k'
    simp only [KeyAddr.mk.injEq]
    exact ⟨Fin.ext e4, Fin.ext e3, Fin.ext e2⟩
  · revert e1; cases e <;> cases e' <;> simp [Edge.code]

/-- A binding list replaced: the table grows by the new list and loses the old (R90). -/
theorem replaceBindings_length (t : List Binding) (k : KeyAddr) (e : Edge) (l : List Binding) :
    (replaceBindings t k e l).length + (t.filter fun b => b.key == k && b.edge == e).length = t.length + l.length := by
  unfold replaceBindings
  simp only [List.length_append]
  induction t with
  | nil => simp
  | cons b t ih =>
    have split : (decide (bindingPlace b.key b.edge < bindingPlace k e) = true ∧
          decide (bindingPlace k e < bindingPlace b.key b.edge) = false ∧ (b.key == k && b.edge == e) = false)
        ∨ (decide (bindingPlace b.key b.edge < bindingPlace k e) = false ∧
          decide (bindingPlace k e < bindingPlace b.key b.edge) = true ∧ (b.key == k && b.edge == e) = false)
        ∨ (decide (bindingPlace b.key b.edge < bindingPlace k e) = false ∧
          decide (bindingPlace k e < bindingPlace b.key b.edge) = false ∧ (b.key == k && b.edge == e) = true) := by
      rcases lt_trichotomy (bindingPlace b.key b.edge) (bindingPlace k e) with h | h | h
      · refine .inl ⟨by simpa using h, by simp; omega, ?_⟩
        by_contra n
        simp only [Bool.not_eq_false, Bool.and_eq_true, beq_iff_eq] at n
        rw [n.1, n.2] at h
        omega
      · obtain ⟨a, c⟩ := bindingPlace_inj h
        exact .inr (.inr ⟨by simp; omega, by simp; omega, by simp [a, c]⟩)
      · refine .inr (.inl ⟨by simp; omega, by simpa using h, ?_⟩)
        by_contra n
        simp only [Bool.not_eq_false, Bool.and_eq_true, beq_iff_eq] at n
        rw [n.1, n.2] at h
        omega
    rcases split with ⟨a, c, d⟩ | ⟨a, c, d⟩ | ⟨a, c, d⟩ <;>
      simp only [List.filter_cons, a, c, d, if_true, List.length_cons] <;> simp <;> omega

theorem answerWriteBindings_moves (s : State) (p : Port) (k : RawKey) (edge : Nat) (list : List RawBinding) :
    Moves s (s.answerWriteBindings p k edge list).state := by
  refine answerEdit_moves s p _ ?_
  split
  · rename_i a e _ _
    split
    · exact .refl s
    · split
      · exact .refl s
      · rename_i l _
        split
        · exact .refl s
        · rename_i room
          refine onTables_moves s (fun t => { t with bindings := replaceBindings t.bindings a e l })
            (fun h => ⟨h.1, h.2.1, ?_, h.2.2.2⟩) rfl
          have len := replaceBindings_length s.tables.bindings a e l
          unfold Tables.bindingsOf at room
          dsimp only
          omega
  · exact .refl s

theorem relist_bounded (x : LoopState) (old new : Tab (Option StationType) 16) (h : x.Bounded) :
    (LoopState.relist x old new).Bounded := h

theorem answerWriteStations_moves (s : State) (p : Port) (loop : Nat) (list : List (Nat × Nat)) :
    Moves s (s.answerWriteStations p loop list).state := by
  refine answerEdit_moves s p _ ?_
  split
  · exact .refl s
  · split
    · exact .refl s
    · rename_i l _ _ entries _
      have stop : Moves s (s.stopRaisesOf l (stationTab entries)) := (foldl_claims _ stopRaise_claims _ s).moves
      have table := onTables_moves (s.stopRaisesOf l (stationTab entries))
        (fun t => { t with stations := t.stations.set l (stationTab entries) }) (fun h => h) rfl
      exact (stop.trans table).trans (onLoop_broad _ l _ (relist_bounded _ _ _)).moves

theorem answerWriteRanks_moves (s : State) (p : Port) (l : List Nat) : Moves s (s.answerWriteRanks p l).state := by
  refine answerEdit_moves s p _ ?_
  split
  · exact .refl s
  · rename_i modes _
    unfold setRanks Answer.plain
    dsimp only
    refine (Move.tables s { s.tables with ranks := modes } s.versions (fun h => h) rfl).moves.trans ?_
    refine ClaimsOnly.moves ((ClaimsOnly.of_circuits { s with tables := { s.tables with ranks := modes } } _ s.trackers
      (s.event + 1) s.replayOwed (fun c => ?_) fun x => x.of_le (fun c => ?_) rfl).trans (settle_claims _ _ _))
    · exact promoteWhere_same _ _ _ c
    · exact (promoteWhere_length _ _ _ c).le

theorem answerWriteGroup_moves (s : State) (p : Port) (number : Nat) (list : List Nat) :
    Moves s (s.answerWriteGroup p number list).state := by
  refine answerEdit_moves s p _ ?_
  split
  · exact .refl s
  · split
    · exact .refl s
    · split
      · exact .refl s
      · split
        · exact .refl s
        · exact setGroup_moves s _ _ (not_not.mp (by assumption)) (by assumption)

theorem answerWriteSequence_moves (s : State) (p : Port) (number : Nat) (q : RawSequence) :
    Moves s (s.answerWriteSequence p number q).state := by
  refine answerEdit_moves s p _ ?_
  split
  · exact .refl s
  · split
    · exact .refl s
    · split
      · exact .refl s
      · unfold Answer.plain
        dsimp only
        exact onTables_moves s _ (fun h => h) rfl

theorem answerWriteMode_moves (s : State) (p : Port) (code : Nat) (r : RawModeRecord) :
    Moves s (s.answerWriteMode p code r).state := by
  refine answerEdit_moves s p _ ?_
  split
  · exact .refl s
  · split
    · exact .refl s
    · unfold Answer.plain
      dsimp only
      exact onTables_moves s _ (fun h => h) rfl

theorem answerWriteCircuit_moves (s : State) (p : Port) (number : Nat) (r : RawCircuitRecord) :
    Moves s (s.answerWriteCircuit p number r).state := by
  refine answerEdit_moves s p _ ?_
  split
  · exact .refl s
  · split
    · exact .refl s
    · split
      · exact .refl s
      · exact (Move.record s _ _).moves

theorem answerWriteRole_moves (s : State) (p : Port) (code : Nat) (r : RawRoleRecord) :
    Moves s (s.answerWriteRole p code r).state := by
  unfold answerWriteRole
  split
  · exact .refl s
  · split
    · exact .refl s
    · split
      · exact .refl s
      · unfold Answer.plain
        dsimp only
        exact onTables_moves s _ (fun h => h) rfl

theorem answerWriteSetting_moves (s : State) (p : Port) (setting line v : Nat) :
    Moves s (s.answerWriteSetting p setting line v).state := by
  refine answerEdit_moves s p _ ?_
  split
  · exact .refl s
  · split
    · exact .refl s
    · rename_i x _
      unfold setSetting Answer.plain
      dsimp only
      have h : Moves s (s.onTables fun t => { t with settings := x }) := onTables_moves s _ (fun h => h) rfl
      split
      · exact h
      · exact h.trans (Move.lines _ _).moves

/-! ## Port timers -/

theorem orphanRelease_moves (s : State) (p : Port) : Moves s (s.orphanRelease p) := by
  unfold orphanRelease
  dsimp only
  exact (Move.port s p (fun x => { x with orphanEnd := none }) ⟨id, id⟩).moves.trans
    ((((releaseAll_claims _ _ _).trans (announce_claims _ _)).toSteady.trans (replay_steady _)).moves)

/-- Slots that meet `which` are FREE once they have ended. -/
theorem endSlots_which (s : State) (which : Slot → Bool) (r : EndReason)
    (steady : ∀ (s : State) (n m : SlotNo) y, (s.endSlot n r).slot m = some y → ∃ x, s.slot m = some x ∧ (which y = true → which x = true))
    (n : SlotNo) (y : Slot) (h : (s.endSlots which r).slot n = some y) : which y = false := by
  have keep : ∀ (l : List SlotNo) (s : State),
      ∀ y, (l.foldl (fun s n => if (s.slot n).any which then s.endSlot n r else s) s).slot n = some y →
        ∃ x, s.slot n = some x ∧ (which y = true → which x = true) := by
    intro l
    induction l with
    | nil => intro s y h; exact ⟨y, h, id⟩
    | cons m l ih =>
      intro s y h
      obtain ⟨x, hx, e⟩ := ih _ y h
      dsimp only at hx
      split at hx
      · obtain ⟨z, hz, f⟩ := steady s m n x hx
        exact ⟨z, hz, fun k => f (e k)⟩
      · exact ⟨x, hx, e⟩
  have reach : ∀ (l : List SlotNo) (s : State), n ∈ l →
      ∀ y, (l.foldl (fun s n => if (s.slot n).any which then s.endSlot n r else s) s).slot n = some y →
        which y = false := by
    intro l
    induction l with
    | nil => intro s h; exact absurd h (by simp)
    | cons m l ih =>
      intro s h y hy
      rcases List.mem_cons.mp h with e | h
      · subst e
        obtain ⟨x, hx, e⟩ := keep l _ y hy
        dsimp only at hx
        split at hx
        · rw [endSlot_free] at hx; exact absurd hx (by simp)
        · rename_i no
          rw [hx] at no
          cases b : which y with
          | false => rfl
          | true => exact absurd (by simpa using e b) (by simpa using no)
      · exact ih _ h y hy
  exact reach _ s (mem_indices n) y h

/-- After a port's slots have ended, no slot in use is the port's (R120). -/
theorem endSlots_owner (s : State) (p : Port) (r : EndReason) (n : SlotNo) (y : Slot)
    (h : (s.endSlots (fun k => k.owner == p) r).slot n = some y) : y.owner ≠ p := by
  have k := endSlots_which s (fun k => k.owner == p) r (fun s n m y hy => by
    obtain ⟨x, hx, e⟩ := (endSlot_claims s n r).slots m y hy
    exact ⟨x, hx, fun b => by rw [← e]; exact b⟩) n y h
  simpa using k

theorem startOrphanHold_moves (s : State) (p : Port) : Moves s (s.startOrphanHold p) := by
  unfold startOrphanHold
  split
  · exact orphanRelease_moves s p
  · exact (Move.port s p _ ⟨id, id⟩).moves

theorem loseLease_moves (s : State) (p : Port) : Moves s (s.loseLease p) := by
  unfold loseLease
  have save : ∀ (s : State), Moves s (s.forgoReply p) := fun s => by
    unfold forgoReply
    exact (Move.store s _ s.memory s.imageState).moves
  -- the reply forgone may come first: it touches the save alone
  have comm : (s.losePort p).forgoReply p = (s.forgoReply p).losePort p := rfl
  rw [comm]
  have b : Broad ((s.forgoReply p).losePort p) ((((s.forgoReply p).losePort p).dropTrackers p).loseSlots p) := by
    unfold loseSlots
    exact ((dropTrackers_claims _ p).toBroad.trans (endSlots_claims _ _ _).toBroad).trans (replay_steady _).toBroad
  have free : ∀ n k, ((((s.forgoReply p).losePort p).dropTrackers p).loseSlots p).slot n = some k → k.owner ≠ p := by
    intro n k h
    unfold loseSlots at h
    obtain ⟨x, hx, e⟩ := (replay_steady _).slots n k h
    rw [e]
    exact endSlots_owner _ p _ n x hx
  have first := (save s).trans (Move.lost (s.forgoReply p) p _ b free).moves
  have edit := first.trans (Move.port _ p (fun x => { x with edit := none }) ⟨id, id⟩).moves
  exact edit.trans (startOrphanHold_moves _ p)

end State

/-! ## Commands -/

/-- A request's meaning as an outcome of `serve` is a chain of changes. -/
theorem next_moves {s t u : State} (h : Moves s u) (e : (Host.Outcome.next u : Host.Outcome State Fault Refusal) = .next t) :
    Moves s t := by
  cases e; exact h

theorem execSaveConfig_moves (p : Port) (tag : Byte) (payload : Payload Unit) (s t : State)
    (e : execSaveConfig p tag payload s = .next t) : Moves s t := by
  obtain ⟨done, taken⟩ := receive_moves s p 0x42 tag payload (fun _ => true)
  unfold execSaveConfig at e
  split at e
  · exact next_moves (done _ (by assumption)) e
  · rename_i u f a
    obtain ⟨rfl, run⟩ := taken _ _ a
    split at e
    · exact next_moves ((refreshLease_moves s p).trans (respond_moves _ _ _ _ _ _)) e
    · split at e
      · exact next_moves ((refreshLease_moves s p).trans (respond_moves _ _ _ _ _ _)) e
      · exact next_moves ((refreshLease_moves s p).trans (Move.store _ _ _ _).moves) e

theorem reenterMode_broad (s : State) : Broad s s.reenterMode := by
  unfold reenterMode
  split
  · exact .refl s
  · exact changeMode_broad s _ _

theorem restart_moves (s : State) : Moves s s.restart := by
  have a : Moves s s.restartPorts.clearForRestart := (Move.restarted s).moves
  have b := (reenterMode_broad s.restartPorts.clearForRestart).moves
  have c := replay_moves s.restartPorts.clearForRestart.reenterMode
  unfold restart
  exact (a.trans b).trans c

theorem execRestart_moves (p : Port) (tag : Byte) (payload : Payload Unit) (s t : State)
    (e : execRestart p tag payload s = .next t) : Moves s t := by
  obtain ⟨done, taken⟩ := receive_moves s p 0x43 tag payload (fun _ => true)
  unfold execRestart at e
  split at e
  · exact next_moves (done _ (by assumption)) e
  · rename_i u f a
    obtain ⟨rfl, run⟩ := taken _ _ a
    split at e
    · exact next_moves ((refreshLease_moves s p).trans (respond_moves _ _ _ _ _ _)) e
    · split at e
      · exact next_moves ((refreshLease_moves s p).trans (respond_moves _ _ _ _ _ _)) e
      · exact next_moves (((refreshLease_moves s p).trans (respond_moves _ _ _ _ _ _)).trans (restart_moves _)) e

theorem finishSave_moves (s : State) (x : Save) (note : Notice) (v : Validity) (status : Status) :
    Moves s (s.finishSave x note v status) := by
  unfold finishSave
  split
  · exact ((notify_claims s _ _).trans (announce_claims _ _)).moves.trans (respond_moves _ _ _ _ _ _)
  · exact (announce_claims _ _).moves

theorem handContact_moves (s : State) (r : Contact) (changed : Bool) (run : s.startup = .running) :
    Moves s (s.handContact r changed) := by
  unfold handContact
  split
  · exact (Move.forced s .active _ rfl run).moves
  · exact (Move.forced s .active _ rfl run).moves
  · rename_i h _
    exact ((setEmergency_claims s .latched [] (by rw [h]; rfl) fun _ => rfl).trans (announceEmergency_claims _ _)).moves
  · rename_i h _
    exact ((setEmergency_claims s .active [] (by rw [h]; rfl) fun _ => rfl).trans (announceEmergency_claims _ _)).moves
  · split
    · exact (announceEmergency_claims s _).moves
    · exact Moves.refl s

theorem endStartup_moves (s : State) (t : Tables) (v : Validity) (h : s.startup = .judging t v) :
    Moves s (s.endStartup t v) := by
  unfold endStartup startEmergency
  refine (((Move.loaded s t v h).moves.trans ?_).trans
    ((changeMode_broad _ _ _).trans (announce_steady _ _).toBroad).moves).trans (replay_moves _)
  split
  · exact (Move.forced _ .active _ rfl rfl).moves
  · exact Moves.refl _

/-- Every command is a chain of the changes that `Move` names. -/
theorem exec_moves (c : Instr) (s t : State) (e : exec c s = .next t) : Moves s t := by
  cases c
  case fullReset => exact next_moves (Move.reset s _ _ _ _).moves e
  case imageTaken read =>
    simp only [exec, execImageTaken] at e
    split at e
    · exact next_moves (Move.image s read (by assumption)).moves e
    · exact next_moves (Moves.refl s) e
    · exact next_moves (Moves.refl s) e
  case startupEnd =>
    simp only [exec, execStartupEnd] at e
    split at e
    · exact next_moves (endStartup_moves s _ _ (by assumption)) e
    · exact next_moves (Moves.refl s) e
    · exact next_moves (Moves.refl s) e
  case badFrame p cause =>
    have k : Moves s (s.onPort p fun x => { x with badFrames := bump x.badFrames }) :=
      (Move.port s p _ ⟨fun h => ⟨h.1, bump_le _, h.2.2⟩, id⟩).moves
    simp only [exec, execBadFrame] at e
    split at e
    · exact next_moves (Moves.refl s) e
    · exact next_moves k e
    · exact next_moves k e
  case lostFrameIgnored p => exact next_moves (Moves.refl s) e
  case unknownRequestKind p kind tag => exact next_moves (serve_moves s _ _ _ _ _ _ fun _ _ => Moves.refl _) e
  case ping p tag pl => exact next_moves (serve_moves s _ _ _ _ _ _ fun _ _ => Moves.refl _) e
  case place p tag pl => exact next_moves (serve_moves s _ _ _ _ _ _ fun _ _ => answerPlacement_moves _ _ _ _) e
  case release p tag pl => exact next_moves (serve_moves s _ _ _ _ _ _ fun _ _ => answerRelease_moves _ _ _) e
  case setMode p tag pl =>
    refine next_moves (serve_moves s _ _ _ _ _ _ fun _ _ => ?_) e
    split
    · exact Moves.refl _
    · exact answerSetMode_moves _ _ _
  case standby p tag pl =>
    exact next_moves (serve_moves s _ _ _ _ _ _ fun _ _ =>
      answerStandby_moves _ _ _ _ _ (isOnline_refreshLease s p)) e
  case go p tag pl => exact next_moves (serve_moves s _ _ _ _ _ _ fun _ _ => answerGo_moves _ _ _ _) e
  case cancel p tag pl => exact next_moves (serve_moves s _ _ _ _ _ _ fun _ _ => answerCancel_moves _ _ _) e
  case runSequence p tag pl =>
    refine next_moves (serve_moves s _ _ _ _ _ _ fun _ _ => ?_) e
    split
    · exact answerRun_moves _ _ _ _ _ _
    · exact Moves.refl _
  case setPlayer p tag pl =>
    refine next_moves (serve_moves s _ _ _ _ _ _ fun _ _ => ?_) e
    split
    · exact answerSet_moves _ _ _ _ _
    · exact Moves.refl _
  case emergencyOn p tag pl =>
    exact next_moves (serve_moves s p 0x26 tag pl _ (fun t _ => t.answerEmergencyOn p) fun _ run =>
      answerEmergencyOn_moves _ p run) e
  case clearEmergency p tag pl => exact next_moves (serve_moves s _ _ _ _ _ _ fun _ _ => answerClear_moves _ p) e
  case queryCircuit p tag pl =>
    refine next_moves (serve_moves s _ _ _ _ _ _ fun _ _ => ?_) e
    unfold answerQueryCircuit
    split
    · exact Moves.refl _
    · exact Moves.refl _
  case queryStation p tag pl =>
    exact next_moves (serve_moves s _ _ _ _ _ _ fun _ _ => answerQueryStation_moves _ _ _) e
  case readNotices p tag pl =>
    refine next_moves (serve_moves s _ _ _ _ _ _ fun n _ => ?_) e
    refine (Move.port _ p _ ⟨fun h => ⟨?_, h.2⟩, id⟩).moves
    exact le_trans (by simp) h.1
  case subscribe p tag pl =>
    exact next_moves (serve_moves s _ _ _ _ _ _ fun _ _ => (Move.port _ p _ ⟨id, id⟩).moves) e
  case readCounters p tag pl =>
    exact next_moves (serve_moves s _ _ _ _ _ _ fun _ _ => (Move.counters _).moves) e
  case readRankTable p tag pl => exact next_moves (serve_moves s _ _ _ _ _ _ fun _ _ => Moves.refl _) e
  case readGroup p tag pl =>
    refine next_moves (serve_moves s _ _ _ _ _ _ fun _ _ => ?_) e
    unfold answerReadGroup; split <;> exact Moves.refl _
  case readPreset p tag pl =>
    refine next_moves (serve_moves s _ _ _ _ _ _ fun _ _ => ?_) e
    unfold answerReadPreset; split <;> exact Moves.refl _
  case readBindings p tag pl =>
    refine next_moves (serve_moves s _ _ _ _ _ _ fun _ _ => ?_) e
    unfold answerReadBindings; split <;> exact Moves.refl _
  case readStationTable p tag pl =>
    refine next_moves (serve_moves s _ _ _ _ _ _ fun _ _ => ?_) e
    unfold answerReadStations; split <;> exact Moves.refl _
  case readSequence p tag pl =>
    refine next_moves (serve_moves s _ _ _ _ _ _ fun _ _ => ?_) e
    unfold answerReadSequence; split <;> exact Moves.refl _
  case readModeRecord p tag pl =>
    refine next_moves (serve_moves s _ _ _ _ _ _ fun _ _ => ?_) e
    unfold answerReadMode; split <;> exact Moves.refl _
  case readCircuitRecord p tag pl =>
    refine next_moves (serve_moves s _ _ _ _ _ _ fun _ _ => ?_) e
    unfold answerReadCircuit; split <;> exact Moves.refl _
  case readRoleRecord p tag pl =>
    refine next_moves (serve_moves s _ _ _ _ _ _ fun _ _ => ?_) e
    unfold answerReadRole; split <;> exact Moves.refl _
  case readSystemSetting p tag pl =>
    refine next_moves (serve_moves s _ _ _ _ _ _ fun _ _ => ?_) e
    unfold answerReadSetting; split <;> exact Moves.refl _
  case writeRankTable p tag pl =>
    exact next_moves (serve_moves s _ _ _ _ _ _ fun _ _ => answerWriteRanks_moves _ _ _) e
  case writeGroup p tag pl =>
    exact next_moves (serve_moves s _ _ _ _ _ _ fun _ _ => answerWriteGroup_moves _ _ _ _) e
  case writePresetOpen p tag pl =>
    exact next_moves (serve_moves s _ _ _ _ _ _ fun _ _ => answerOpenPreset_moves _ _ _ _ _) e
  case writePresetPairs p tag pl =>
    exact next_moves (serve_moves s _ _ _ _ _ _ fun _ _ => answerPresetPairs_moves _ _ _ _) e
  case writeBindings p tag pl =>
    exact next_moves (serve_moves s _ _ _ _ _ _ fun _ _ => answerWriteBindings_moves _ _ _ _ _) e
  case writeStationTable p tag pl =>
    exact next_moves (serve_moves s _ _ _ _ _ _ fun _ _ => answerWriteStations_moves _ _ _ _) e
  case writeSequence p tag pl =>
    exact next_moves (serve_moves s _ _ _ _ _ _ fun _ _ => answerWriteSequence_moves _ _ _ _) e
  case writeModeRecord p tag pl =>
    exact next_moves (serve_moves s _ _ _ _ _ _ fun _ _ => answerWriteMode_moves _ _ _ _) e
  case writeCircuitRecord p tag pl =>
    exact next_moves (serve_moves s _ _ _ _ _ _ fun _ _ => answerWriteCircuit_moves _ _ _ _) e
  case writeRoleRecord p tag pl =>
    exact next_moves (serve_moves s _ _ _ _ _ _ fun _ _ => answerWriteRole_moves _ _ _ _) e
  case writeSystemSetting p tag pl =>
    exact next_moves (serve_moves s _ _ _ _ _ _ fun _ _ => answerWriteSetting_moves _ _ _ _ _) e
  case saveConfig p tag pl => exact execSaveConfig_moves p tag pl s t e
  case restart p tag pl => exact execRestart_moves p tag pl s t e
  case saveDone =>
    simp only [exec, execSaveDone] at e
    split at e
    · exact next_moves (Moves.refl s) e
    · exact next_moves ((Move.store s none _ .valid).moves.trans (finishSave_moves _ _ _ _ _)) e
  case saveFailed failure =>
    simp only [exec, execSaveFailed] at e
    split at e
    · exact next_moves (Moves.refl s) e
    · exact next_moves ((Move.store s none _ .invalid).moves.trans (finishSave_moves _ _ _ _ _)) e
  case leaseExpiry p =>
    simp only [exec, execLeaseExpiry] at e
    split at e
    · exact next_moves (loseLease_moves s p) e
    · exact next_moves (Moves.refl s) e
  case lostTimerExpiry p =>
    simp only [exec, execLostTimerExpiry] at e
    split at e
    · rename_i due
      refine next_moves (Move.port s p _ ⟨id, fun on => ?_⟩).moves e
      unfold lostDue at due
      unfold PortState.isOnline at on
      split at due <;> simp_all
    · exact next_moves (Moves.refl s) e
  case orphanHoldExpiry p =>
    simp only [exec, execOrphanHoldExpiry] at e
    split at e
    · exact next_moves (orphanRelease_moves s p) e
    · exact next_moves (Moves.refl s) e
  case fadeCompletion c o =>
    simp only [exec, execFadeCompletion] at e
    split at e
    · exact next_moves (Moves.refl s) e
    · exact next_moves ((completeFades_claims s _).toSteady.trans (replay_steady _)).moves e
  case transitionEnd c =>
    simp only [exec, execTransitionEnd] at e
    split at e
    · have a : ClaimsOnly s (s.onCircuit c fun x => { x with transition := none }) :=
        .of_circuits s _ s.trackers s.event s.replayOwed (fun i => by
          rw [Tab.get_modify]
          split
          · rename_i h; subst h; exact ⟨id, rfl, by simp⟩
          · exact .refl _) fun x => x.of_le (fun i => by
          rw [Tab.get_modify]
          split
          · rename_i h; subst h; exact le_rfl
          · exact le_rfl) rfl
      refine next_moves ?_ e
      unfold endTransition
      dsimp only
      split
      · exact (a.trans (reportRecoveries_claims _ _)).moves
      · exact a.moves
    · exact next_moves (Moves.refl s) e
  case poll l =>
    simp only [exec, execPoll] at e
    split at e
    · split at e
      · exact next_moves (Moves.refl s) e
      · exact next_moves (onLoop_broad s l _ id).moves e
    · exact next_moves (Moves.refl s) e
  case report l bytes =>
    simp only [exec, execReport] at e
    split at e
    · exact next_moves (Moves.refl s) e
    · split at e
      · exact next_moves (closeExchange_broad s l).moves e
      · exact next_moves ((closeExchange_broad s l).trans (takeReport_broad _ _ _ _)).moves e
  case replyWindowExpiry l =>
    simp only [exec, execReplyWindowExpiry] at e
    split at e
    · exact next_moves (Moves.refl s) e
    · split at e
      · split at e
        · exact next_moves (closeExchange_broad s l).moves e
        · exact next_moves ((closeExchange_broad s l).trans (missReply_broad _ _ _)).moves e
      · exact next_moves (Moves.refl s) e
  case holdTimerExpiry k =>
    simp only [exec, execHoldTimerExpiry] at e
    split at e
    · exact next_moves ((onKey_broad s k _).trans (takeEdge_broad _ _ _)).moves e
    · exact next_moves (Moves.refl s) e
  case quietTimerExpiry k =>
    simp only [exec, execQuietTimerExpiry] at e
    split at e
    · exact next_moves ((onKey_broad s k _).trans (announce_steady _ _).toBroad).moves e
    · exact next_moves (Moves.refl s) e
  case refusalBlinkExpiry k =>
    simp only [exec, execRefusalBlinkExpiry] at e
    split at e
    · exact next_moves (onKey_broad s k _).moves e
    · exact next_moves (Moves.refl s) e
  case deferredEntryExpiry =>
    refine next_moves ?_ e
    unfold expireEntry
    split
    · exact (((setDeferred_steady s _ fun h => le_trans (List.length_eraseP_le) h).trans
        (countExpired_steady _)).trans (afterRemoval_steady _)).moves
    · exact Moves.refl s
  case slotExpiry n =>
    simp only [exec, execSlotExpiry] at e
    split at e
    · exact next_moves ((endSlot_claims s n _).toSteady.trans (replay_steady _)).moves e
    · exact next_moves (Moves.refl s) e
  case waitTimerExpiry n =>
    simp only [exec, execWaitTimerExpiry] at e
    split at e
    · split at e
      · exact next_moves ((moveOn_steady s n).trans (replay_steady _)).moves e
      · exact next_moves (Moves.refl s) e
    · exact next_moves (Moves.refl s) e
    · exact next_moves (Moves.refl s) e
  case contactReading r =>
    refine next_moves ?_ e
    have k : s.emergency.takeReading s.now r =
        { s.emergency with line := r, accepted := s.emergency.accepted,
                           debounce := (s.emergency.takeReading s.now r).debounce } := by
      unfold EmergencyPlane.takeReading
      dsimp only
      split
      · rfl
      · split
        · rfl
        · split <;> rfl
    rw [k]
    exact (Move.contact s r s.emergency.accepted _).moves
  case debounceTimerExpiry =>
    simp only [exec, execDebounceTimerExpiry] at e
    split at e
    · exact next_moves (Moves.refl s) e
    · split at e
      · refine next_moves ?_ e
        rename_i r _ _ _
        have k := (Move.contact s s.emergency.line (some r) none).moves
        unfold acceptContact
        dsimp only
        split
        · rename_i run
          refine k.trans (handContact_moves _ _ _ ?_)
          unfold isRunning at run
          split at run
          · assumption
          · simp at run
          · simp at run
        · exact k
      · exact next_moves (Moves.refl s) e
  case rackSample =>
    simp only [exec, execRackSample] at e
    split at e
    · exact next_moves (Moves.refl s) e
    · rename_i d h
      split at e
      · exact next_moves (Move.sampled s _ (by rw [h]; simp)).moves e
      · exact next_moves (Moves.refl s) e
  case dwellEnd c =>
    simp only [exec, execDwellEnd] at e
    split at e
    · exact next_moves (Moves.refl s) e
    · rename_i d h
      split at e
      · exact next_moves (Move.dwelt s c (by rw [h]; simp)).moves e
      · exact next_moves (Moves.refl s) e
  case pwmPeriodEnd n =>
    simp only [exec, execPwmPeriodEnd] at e
    split at e
    · exact next_moves (Moves.refl s) e
    · exact next_moves (Moves.refl s) e
    · split at e
      · exact next_moves (Move.lines s _).moves e
      · exact next_moves (Moves.refl s) e

  -- the one command whose name Lean keeps for itself: RECALL
  rename_i p tag pl
  exact next_moves (serve_moves s _ _ _ _ _ _ fun _ _ => answerPlacement_moves _ _ _ _) e

/-- Every step is a chain of the changes that `Move` names. -/
theorem step_moves (s t : State) (e : step s = .next t) : Moves s t := by
  unfold step at e
  split at e
  · exact (Move.queue s _).moves.trans (exec_moves _ _ _ e)
  · unfold idle at e
    split at e
    · exact exec_moves _ _ _ e
    · exact next_moves (Move.elapsed s _).moves e

end Sys2Proof.Machine
end

