-- ==== Sys2Proof/Laws/Loops.lean ====
section
/-! SUPPORT. What the Field Loop Controller does, said once: the station a POLL goes to, how a REPORT is judged, how updates of loops, stations and keys read back, the keys of a REPORT taken one by one, that no edge changes a contact state, and a miss. -/

namespace Sys2Proof.Machine

open State

/-! ## Lists -/

/-- The first entry of a rising list that passes a test is the least that does. -/
theorem find_least {n : Nat} (l : List (Fin n)) (hl : l.Pairwise (· < ·)) (test : Fin n → Bool) (i : Fin n) (hi : i ∈ l)
    (pass : test i = true) (least : ∀ j ∈ l, test j = true → i ≤ j) : l.find? test = some i := by
  induction l with
  | nil => simp at hi
  | cons a l ih =>
    rw [List.pairwise_cons] at hl
    rcases List.mem_cons.mp hi with rfl | hi
    · exact List.find?_cons_of_pos pass
    · rw [List.find?_cons_of_neg]
      · exact ih hl.2 hi fun j hj => least j (by simp [hj])
      · intro e
        have := least a (by simp) e
        have := hl.1 i hi
        omega

/-- A fold whose every step leaves the state as it is. -/
theorem foldl_fixed {σ β : Type} (f : σ → β → σ) (l : List β) (t : σ) (h : ∀ k ∈ l, f t k = t) : l.foldl f t = t := by
  induction l with
  | nil => rfl
  | cons a l ih => rw [List.foldl_cons, h a (by simp)]; exact ih fun k hk => h k (by simp [hk])

/-- A fold in which one entry alone changes the state. -/
theorem foldl_single {σ β : Type} [DecidableEq β] (f : σ → β → σ) (l : List β) (t u : σ) (k : β) (hk : k ∈ l)
    (nd : l.Nodup) (hu : f t k = u) (before : ∀ j ∈ l, j ≠ k → f t j = t) (behind : ∀ j ∈ l, j ≠ k → f u j = u) :
    l.foldl f t = u := by
  induction l with
  | nil => simp at hk
  | cons a l ih =>
    rw [List.foldl_cons]
    rw [List.nodup_cons] at nd
    by_cases e : a = k
    · subst e
      rw [hu]
      exact foldl_fixed f l u fun j hj => behind j (by simp [hj]) fun same => nd.1 (same ▸ hj)
    · rw [before a (by simp) e]
      refine ih ?_ nd.2 (fun j hj => before j (by simp [hj])) (fun j hj => behind j (by simp [hj]))
      rcases List.mem_cons.mp hk with rfl | hk
      · exact absurd rfl e
      · exact hk

/-! ## Updates read back -/

@[simp] theorem station_onStation (s : State) (l : LoopNo) (n : StationNo) (f : StationState → StationState) :
    (s.onStation l n f).station l n = f (s.station l n) := by
  unfold State.station State.onStation State.onLoop State.loop
  simp

theorem loop_onLoop_of_ne (s : State) (l m : LoopNo) (f : LoopState → LoopState) (h : m ≠ l) :
    (s.onLoop l f).loop m = s.loop m := by
  unfold State.onLoop State.loop
  exact Tab.get_modify_of_ne _ _ h

/-- An update of a loop that leaves its stations alone. -/
theorem station_onLoop (s : State) (l : LoopNo) (n : StationNo) (f : LoopState → LoopState)
    (hf : ∀ x : LoopState, (f x).stations = x.stations) : (s.onLoop l f).station l n = s.station l n := by
  unfold State.station State.onLoop State.loop
  dsimp only
  rw [Tab.get_modify, if_pos rfl, hf]

theorem key_onLoop (s : State) (l : LoopNo) (f : LoopState → LoopState) (k : KeyAddr)
    (hf : ∀ x : LoopState, (f x).stations = x.stations) : (s.onLoop l f).key k = s.key k := by
  unfold State.key State.station State.onLoop State.loop
  dsimp only
  rw [Tab.get_modify]
  split
  · rename_i h
    rw [hf, h]
  · rfl

/-- An update of a station that leaves its keys alone. -/
theorem key_onStation (s : State) (l : LoopNo) (n : StationNo) (f : StationState → StationState) (k : KeyAddr)
    (hf : ∀ x : StationState, (f x).keys = x.keys) : (s.onStation l n f).key k = s.key k := by
  unfold State.key State.station State.onStation State.onLoop State.loop
  dsimp only
  rw [Tab.get_modify]
  split
  · rename_i h
    dsimp only
    rw [Tab.get_modify]
    split
    · rename_i h'
      rw [hf, h, h']
    · rw [h]
  · rfl

@[simp] theorem key_onKey (s : State) (k : KeyAddr) (f : KeyRecord → KeyRecord) : (s.onKey k f).key k = f (s.key k) := by
  unfold State.onKey State.key State.station State.onStation State.onLoop State.loop
  dsimp only
  rw [Tab.get_modify_self]
  dsimp only
  rw [Tab.get_modify_self]
  dsimp only
  rw [Tab.get_modify_self]

theorem key_onKey_of_ne (s : State) (k j : KeyAddr) (f : KeyRecord → KeyRecord) (h : j ≠ k) :
    (s.onKey k f).key j = s.key j := by
  unfold State.onKey State.key State.station State.onStation State.onLoop State.loop
  dsimp only
  rw [Tab.get_modify]
  split
  · rename_i h1
    dsimp only
    rw [Tab.get_modify]
    split
    · rename_i h2
      dsimp only
      rw [Tab.get_modify_of_ne, h1, h2]
      intro h3
      apply h
      cases j
      cases k
      simp_all
    · rw [h1]
  · rfl

/-! ## Keys while an edge is carried out -/

/-- An update of one key that leaves its contact state leaves that of every key. -/
theorem onKey_downs (s : State) (k : KeyAddr) (f : KeyRecord → KeyRecord) (h : (f (s.key k)).down = (s.key k).down)
    (j : KeyAddr) : ((s.onKey k f).key j).down = (s.key j).down := by
  by_cases e : j = k
  · rw [e, key_onKey, h]
  · rw [key_onKey_of_ne s k j f e]

theorem key_of_loops {s t : State} (h : t.loops = s.loops) (j : KeyAddr) : t.key j = s.key j := by
  unfold State.key State.station State.loop
  rw [h]

theorem Steady.key {s t : State} (h : Steady s t) (j : KeyAddr) : t.key j = s.key j := key_of_loops h.loops j

theorem blink_downs (s : State) (k j : KeyAddr) : ((s.blink k).key j).down = (s.key j).down := by
  unfold blink
  split
  · exact onKey_downs s k _ rfl j
  · rfl

theorem requestMode_loops (s : State) (m : HouseMode) (src : ModeSource) : (s.requestMode m src).1.loops = s.loops := by
  have enter : (s.enterMode m).loops = s.loops := by
    unfold enterMode
    dsimp only
    split
    · exact (endSlots_claims _ _ _).loops
    · rfl
  unfold requestMode
  split
  · rfl
  · unfold changeMode
    dsimp only
    rw [(announce_steady _ _).loops, (enterSequence_steady _ _).loops, (enterPreset_steady _ _).loops,
      (releaseAll_steady _ _ _).loops, enter]

theorem dropForPool_downs (s : State) (k : KeyAddr) (cs : List Circuit) (j : KeyAddr) :
    ((s.dropForPool k cs).key j).down = (s.key j).down := by
  unfold dropForPool
  rw [(announce_steady _ _).key, blink_downs, (countPoolRefusal_steady s).key]

theorem fieldAction_downs (s : State) (w : FieldWork) (d : Deferred) (j : KeyAddr) :
    ((s.fieldAction w d).key j).down = (s.key j).down := by
  unfold fieldAction
  split
  · rename_i free
    rw [(doFieldWork_claims s w free).toSteady.key]
  · unfold deferOrDrop
    split
    · rename_i h
      rw [(defer_steady s d h).key]
    · rw [blink_downs, (countDropped_steady s).key]
  · exact dropForPool_downs s _ _ j

theorem raiseAction_downs (s : State) (k : KeyAddr) (way : RaiseWay) (r : Rank) (g : List Circuit) (j : KeyAddr) :
    ((s.raiseAction k way r g).key j).down = (s.key j).down := by
  unfold raiseAction
  dsimp only
  split
  · rfl
  · split
    · rename_i free
      rw [(raiseOn_claims s k way r _ free).toSteady.key]
    · exact blink_downs s k j
    · exact dropForPool_downs s k _ j

theorem seqRunAction_downs (s : State) (k : KeyAddr) (n : PlayerNo) (q : SequenceNo) (m : RunMode) (j : KeyAddr) :
    ((s.seqRunAction k n q m).key j).down = (s.key j).down := by
  unfold seqRunAction
  split
  · exact blink_downs s k j
  · dsimp only
    split
    · rw [blink_downs, (runRequest_steady s n q m _).key]
    · rw [(runRequest_steady s n q m _).key]

theorem doBinding_downs (s : State) (b : Binding) (j : KeyAddr) : ((s.doBinding b).key j).down = (s.key j).down := by
  unfold doBinding
  split
  case h_8 => exact seqRunAction_downs s _ _ _ _ j
  case h_9 => rw [(offRequest_steady s _ _).key]
  case h_10 => rw [key_of_loops (requestMode_loops s _ _)]
  case h_4 | h_5 =>
    split
    · exact blink_downs s _ j
    · exact raiseAction_downs s _ _ _ _ j
  all_goals
    split
    · exact blink_downs s _ j
    · exact fieldAction_downs s _ _ j

/-- No live entry changes the contact state of a key (R92). -/
theorem carryOut_downs (s : State) (b : Binding) (j : KeyAddr) : ((s.carryOut b).key j).down = (s.key j).down := by
  unfold carryOut
  rw [(replay_steady _).key, doBinding_downs]

/-- No edge changes the contact state of a key (R92, R101). -/
theorem takeEdge_downs (s : State) (k : KeyAddr) (e : Edge) (j : KeyAddr) :
    ((s.takeEdge k e).key j).down = (s.key j).down := by
  have entries : ∀ (l : List Binding) (t : State), ((l.foldl carryOut t).key j).down = (t.key j).down := fun l => by
    induction l with
    | nil => exact fun _ => rfl
    | cons b l ih => exact fun t => (ih _).trans (carryOut_downs t b j)
  unfold takeEdge
  dsimp only
  rw [entries]
  split
  · rw [(replay_steady _).key, (stopRaise_claims _ k).toSteady.key, (announce_steady s _).key]
  · rw [(announce_steady s _).key]

/-! ## POLL and REPORT -/

/-- The station a POLL goes to (R68). -/
theorem nextPolled_of_next {s : State} {l : LoopNo} {n : StationNo} (h : NextStation s l n) : s.nextPolled l = some n := by
  obtain ⟨here, h⟩ := h
  have conf : ∀ j, j ∈ s.configured l ↔ s.stationType l j ≠ none := fun j => by
    unfold configured
    simp [Option.isSome_iff_ne_none]
  have rising : (indices 16).Pairwise (· < ·) := by decide +kernel
  have sorted : (s.configured l).Pairwise (· < ·) := List.Pairwise.filter _ rising
  have head : (∀ j, s.stationType l j ≠ none → n ≤ j) → (s.configured l).head? = some n := fun k => by
    have := find_least (s.configured l) sorted (fun _ => true) n ((conf n).mpr here) rfl fun j hj _ => k j ((conf j).mp hj)
    rw [← this]
    cases s.configured l <;> rfl
  unfold nextPolled
  dsimp only
  cases e : (s.loop l).lastPolled with
  | none =>
    rcases h with ⟨m, hm, _⟩ | ⟨_, k⟩
    · rw [e] at hm
      simp at hm
    · exact head k
  | some m =>
    dsimp only
    rcases h with ⟨i, hm, lt, k⟩ | ⟨a, k⟩
    · rw [e] at hm
      cases hm
      rw [find_least (s.configured l) sorted (fun j => decide (m < j)) n ((conf n).mpr here) (by simpa using lt)
        fun j hj p => k j ((conf j).mp hj) (by simpa using p)]
      rfl
    · rw [List.find?_eq_none.mpr, head k]
      · rfl
      · intro j hj
        simpa using a m e j ((conf j).mp hj)

theorem nextPolled_none {s : State} {l : LoopNo} (h : ∀ n, s.stationType l n = none) : s.nextPolled l = none := by
  have c : s.configured l = [] := by
    unfold configured
    simp [h]
  unfold nextPolled
  rw [c]
  cases (s.loop l).lastPolled <;> rfl

theorem judgeReport_reportOf (t : Option StationType) (type keys : Byte) : judgeReport t (reportOf type keys) =
    if t.isSome && reportType type == t then .good keys else .mismatch := by
  unfold reportOf judgeReport checkByte
  simp

/-- Bytes that are no REPORT are a miss (R69). -/
theorem judgeReport_other (t : Option StationType) (bytes : List Byte) (h : ∀ type keys, bytes ≠ reportOf type keys) :
    judgeReport t bytes = .miss := by
  unfold judgeReport
  split
  · rename_i start type keys check
    rw [if_neg]
    rintro ⟨rfl, rfl⟩
    refine h type keys ?_
    unfold reportOf checkByte
    simp
  · rfl

theorem namesType_iff (t : Option StationType) (b : Byte) : (t.isSome && reportType b == t) = true ↔ NamesType t b := by
  unfold NamesType reportType
  cases t with
  | none => simp
  | some t => cases t <;> by_cases h1 : b = 1 <;> by_cases h2 : b = 2 <;> simp_all

/-- A key that stands as the REPORT says is left alone (R75). -/
theorem takeKey_same (s : State) (k : KeyAddr) (d : Bool) (h : (s.key k).down = d) : s.takeKey k d = s := by
  unfold takeKey
  dsimp only
  rw [if_pos h]

theorem keysAt_nodup (s : State) (l : LoopNo) (n : StationNo) : (s.keysAt l n).Nodup := by
  have eight : (indices 8).Nodup := by decide
  unfold keysAt
  split
  · simp
  · refine List.Nodup.map ?_ (List.Nodup.filter _ eight)
    intro a b h
    simpa using h

/-- A lockout of a key that raises nothing (R80). -/
theorem lockOut_quiet (t : State) (k : KeyAddr) (d : Bool) (raises : t.raiseSet k = []) (owed : t.replayOwed = false) :
    t.lockOut k d = State.announce { (t.onKey k fun r =>
      { r with down := d, phase := .none, window := none, lockout := some (t.now + 5000000) }) with
        counters := { t.counters with keyLockouts := min (t.counters.keyLockouts + 1) 65535 } } (.keyLockout k .locked) := by
  have e : ∀ f, (t.onKey k f).stopRaise k = t.onKey k f := fun f => by
    unfold stopRaise
    rw [show (t.onKey k f).raiseSet k = [] from raises]
    rfl
  unfold lockOut
  dsimp only
  rw [e, replay_of_clear _ (by exact owed)]
  rfl

/-! ## A miss -/

theorem loseStation_loops (s : State) (l : LoopNo) (n : StationNo) :
    (s.loseStation l n).loops = (s.onStation l n fun x =>
      { x with presence := .absent, misses := 0, goods := 0, lost := true, keys := x.keys.each KeyRecord.lose }).loops := by
  unfold loseStation
  dsimp only
  rw [(replay_steady _).loops]
  exact (foldl_claims _ stopRaise_claims _ _).toSteady.loops

/-- The keys of a station that is lost (R71). -/
theorem lose_keys (keys : Tab KeyRecord 8) (k : KeyNo) : (keys.each KeyRecord.lose).get k = { keys.get k with
    down := false, phase := .none, window := if (keys.get k).lockout = none then none else (keys.get k).window } := by
  rw [Tab.get_each]
  unfold KeyRecord.lose
  cases h : (keys.get k).lockout <;> simp [h]

/-- A miss, counted after the exchange is closed and the mismatches stand at `d` (R69, R70). -/
theorem missReply_missed (s : State) (l : LoopNo) (n : StationNo) (d : Nat) (w : State)
    (hw : w = s.onLoop l fun x => { x with exchange := none, typeMismatches := d }) :
    Missed s (w.missReply l n) l n ∧ ((w.missReply l n).loop l).typeMismatches = d := by
  have st : w.station l n = s.station l n := by rw [hw]; exact station_onLoop _ _ _ _ fun _ => rfl
  have ne : ∀ m, m ≠ l → w.loop m = s.loop m := fun m h => by rw [hw, loop_onLoop_of_ne _ _ _ _ h]
  have lp : w.loop l = { s.loop l with exchange := none, typeMismatches := d } := by
    rw [hw]; unfold State.onLoop State.loop; simp
  let t := w.onLoop l fun x => { x with pollMisses := bump x.pollMisses }
  have tst : t.station l n = s.station l n := by rw [← st]; exact station_onLoop _ _ _ _ fun _ => rfl
  have key : ∃ f, (w.missReply l n).loops = (t.onStation l n f).loops
      ∧ ((s.station l n).presence = .present → (s.station l n).misses < 2 → f = fun x => { x with misses := x.misses + 1 })
      ∧ ((s.station l n).presence = .present → 2 ≤ (s.station l n).misses → f = fun x =>
        { x with presence := .absent, misses := 0, goods := 0, lost := true, keys := x.keys.each KeyRecord.lose })
      ∧ ((s.station l n).presence = .absent → f = fun x => { x with goods := 0 }) := by
    unfold missReply
    rw [st]
    dsimp only
    split
    · rename_i h
      split
      · exact ⟨_, rfl, fun _ _ => rfl, fun _ k => by omega, fun k => by simp [h] at k⟩
      · rename_i few
        exact ⟨_, loseStation_loops _ _ _, fun _ k => absurd k few, fun _ _ => rfl, fun k => by simp [h] at k⟩
    · rename_i h
      exact ⟨_, rfl, fun k => by simp [h] at k, fun k => by simp [h] at k, fun _ => rfl⟩
  obtain ⟨f, hl, first, third, absent⟩ := key
  have each : ∀ m, (w.missReply l n).loop m = (t.onStation l n f).loop m := fun m => by unfold State.loop; rw [hl]
  have stn : (w.missReply l n).station l n = f (s.station l n) := by
    have := station_onStation t l n f
    rw [tst] at this
    rw [← this]
    unfold State.station
    rw [each]
  have own : (w.missReply l n).loop l = { s.loop l with
      exchange := none, typeMismatches := d, pollMisses := bump (s.loop l).pollMisses,
      stations := (s.loop l).stations.modify n f } := by
    have outer : (t.onLoop l fun x => { x with stations := x.stations.modify n f }).loop l =
        { t.loop l with stations := (t.loop l).stations.modify n f } := by unfold State.onLoop State.loop; simp
    have inner : t.loop l = { w.loop l with pollMisses := bump (w.loop l).pollMisses } := by
      unfold t State.onLoop State.loop; simp
    rw [each]
    unfold State.onStation
    rw [outer, inner, lp]
  refine ⟨⟨by rw [own], by rw [own]; rfl, fun m h => ?_, fun m h => ?_, by rw [own]; exact ⟨rfl, rfl⟩,
    fun h k => by rw [stn, first h k], fun h k => by rw [stn, third h k]; exact ⟨rfl, rfl, rfl, rfl, lose_keys _⟩,
    fun h => by rw [stn, absent h], fun h k => ?_, fun h => ?_⟩, by rw [own]⟩
  · rw [each]
    unfold State.onStation
    rw [loop_onLoop_of_ne _ _ _ _ h]
    unfold t
    rw [loop_onLoop_of_ne _ _ _ _ h, ne m h]
  · unfold State.station
    rw [own]
    exact Tab.get_modify_of_ne _ _ h
  · have lost : w.missReply l n = t.loseStation l n := by
      unfold missReply
      rw [st, h]
      dsimp only
      rw [if_neg (by omega)]
    have loops := loseStation_loops t l n
    rw [← lost] at loops
    rw [loops, lost]
    subst hw
    rfl
  · unfold missReply
    rw [st, hw]
    dsimp only
    rcases h with h | h
    · rw [h]; rfl
    · cases (s.station l n).presence
      · dsimp only; rw [if_pos h]; rfl
      · rfl

end Sys2Proof.Machine
end

