-- ==== Sys2Proof/Laws/Records.lean ====
section
/-! SUPPORT. The checks of records as written: which a write calls BAD_RECORD, and that one let through reads as it was written. -/

namespace Sys2Proof.Machine

/-! ## Numbers and codes -/

theorem indexOf_none {n k : Nat} : indexOf n k = none ↔ k = 0 ∨ n < k := by
  unfold indexOf
  split <;> simp <;> omega

theorem indexOf_some {n k : Nat} {i : Fin n} : indexOf n k = some i ↔ k = numberOf i := by
  refine ⟨fun h => ?_, fun h => by rw [h, indexOf_numberOf]⟩
  unfold indexOf at h
  split at h
  · rename_i r
    cases h
    show k = k - 1 + 1
    omega
  · cases h

theorem codeOf_none {n k : Nat} : codeOf n k = none ↔ n ≤ k := by
  unfold codeOf
  split <;> simp <;> omega

theorem codeOf_some {n k : Nat} {i : Fin n} : codeOf n k = some i ↔ k = i.val := by
  refine ⟨fun h => ?_, fun h => by rw [h, codeOf_val]⟩
  unfold codeOf at h
  split at h
  · cases h; rfl
  · cases h

/-- A list judged entry by entry is refused where an entry is. -/
theorem mapM_none {α β : Type} (f : α → Option β) (l : List α) : l.mapM f = none ↔ ∃ x ∈ l, f x = none := by
  induction l with
  | nil => simp
  | cons a l ih =>
    rw [List.mapM_cons]
    cases h : f a with
    | none => simp [h]
    | some b =>
      cases k : l.mapM f with
      | none =>
        obtain ⟨x, m, e⟩ := ih.mp k
        simp only [Option.bind_eq_bind, Option.bind_some, Option.bind_none, true_iff]
        exact ⟨x, List.mem_cons_of_mem _ m, e⟩
      | some t =>
        have none : ¬ ∃ x ∈ l, f x = none := fun e => by rw [ih.mpr e] at k; cases k
        simp only [Option.bind_eq_bind, Option.bind_some, Option.pure_def, reduceCtorEq, false_iff]
        rintro ⟨x, m, e⟩
        rcases List.mem_cons.mp m with rfl | m
        · rw [h] at e; cases e
        · exact none ⟨x, m, e⟩

/-- A list judged entry by entry reads as it was written. -/
theorem mapM_written {α β : Type} {f : α → Option β} {g : β → α} (h : ∀ x y, f x = some y → g y = x) :
    ∀ {l : List α} {m : List β}, l.mapM f = some m → m.map g = l
  | [], m, e => by cases e; rfl
  | a :: l, m, e => by
    rw [List.mapM_cons] at e
    cases k : f a with
    | none => rw [k] at e; cases e
    | some b =>
      rw [k] at e
      cases t : l.mapM f with
      | none => rw [t] at e; cases e
      | some u =>
        rw [t] at e
        cases e
        rw [List.map_cons, h a b k, mapM_written h t]

theorem written_length {α β : Type} {f : α → Option β} {g : β → α} (h : ∀ x y, f x = some y → g y = x)
    {l : List α} {m : List β} (e : l.mapM f = some m) : m.length = l.length := by
  rw [← mapM_written h e, List.length_map]

/-! ## Ranks and stations -/

theorem merge_written : ∀ x y, MergeMode.ofCode x = some y → writtenMerge y = x := by
  intro x y h
  unfold MergeMode.ofCode at h
  split at h
  · cases h; rfl
  · cases h; rfl
  · cases h

theorem typedRanks_checks (l : List Nat) : (typedRanks l = none ↔ BadRanks l)
    ∧ ∀ modes, typedRanks l = some modes → ∀ r : Rank, l[r.val]? = some (writtenMerge (modes.get r)) := by
  have code : ∀ x, MergeMode.ofCode x = none ↔ 1 < x := fun x => by
    rcases x with _ | _ | x <;> simp [MergeMode.ofCode]
  have bad := mapM_none MergeMode.ofCode l
  unfold typedRanks BadRanks
  cases h : l.mapM MergeMode.ofCode with
  | none =>
    rw [h] at bad
    obtain ⟨x, m, e⟩ := bad.mp rfl
    exact ⟨iff_of_true rfl (.inr ⟨x, m, (code x).mp e⟩), fun _ e => by cases e⟩
  | some modes =>
    have len := written_length merge_written h
    have good : ¬ ∃ x ∈ l, 1 < x := fun ⟨x, m, e⟩ => by
      rw [h] at bad
      cases bad.mpr ⟨x, m, (code x).mpr e⟩
    simp only [Option.bind_eq_bind, Option.bind_some]
    by_cases eight : modes.length = 8
    · rw [if_pos eight]
      refine ⟨iff_of_false (fun e => by cases e) (fun e => e.elim (fun k => k (by omega)) good), fun table e r => ?_⟩
      cases e
      have lt : r.val < modes.length := by omega
      rw [Tab.get_build, ← mapM_written merge_written h, List.getElem?_map, List.getElem?_eq_getElem lt]
      rfl
    · rw [if_neg eight]
      exact ⟨iff_of_true rfl (.inl (by omega)), fun _ e => by cases e⟩

theorem station_written : ∀ (x : Nat × Nat) y,
    (do return (← indexOf 16 x.1, ← StationType.ofCode x.2) : Option (StationNo × StationType)) = some y →
      writtenStation y = x := by
  intro x y h
  cases a : indexOf 16 x.1 with
  | none => rw [a] at h; cases h
  | some n =>
    cases b : StationType.ofCode x.2 with
    | none => rw [a, b] at h; cases h
    | some t =>
      rw [a, b] at h
      cases h
      have e := indexOf_some.mp a
      unfold StationType.ofCode at b
      obtain ⟨u, v⟩ := x
      dsimp only at b e
      split at b
      · cases b; rw [e]; rfl
      · cases b; rw [e]; rfl
      · cases b

theorem station_none (x : Nat × Nat) :
    (do return (← indexOf 16 x.1, ← StationType.ofCode x.2) : Option (StationNo × StationType)) = none ↔
      x.1 = 0 ∨ 16 < x.1 ∨ 1 < x.2 := by
  have code : StationType.ofCode x.2 = none ↔ 1 < x.2 := by
    obtain ⟨u, v⟩ := x
    rcases v with _ | _ | v <;> simp [StationType.ofCode]
  have index := indexOf_none (n := 16) (k := x.1)
  cases a : indexOf 16 x.1 with
  | none =>
    rw [a] at index
    exact iff_of_true rfl ((index.mp rfl).elim .inl fun k => .inr (.inl k))
  | some n =>
    have good : ¬ (x.1 = 0 ∨ 16 < x.1) := fun e => by rw [a] at index; cases index.mpr e
    cases b : StationType.ofCode x.2 with
    | none => exact iff_of_true rfl (.inr (.inr (code.mp b)))
    | some t =>
      refine iff_of_false (fun e => by cases e) fun e => ?_
      rcases e with e | e | e
      · exact good (.inl e)
      · exact good (.inr e)
      · rw [code.mpr e] at b; cases b

theorem typedStations_checks (l : List (Nat × Nat)) : (typedStations l = none ↔ BadStations l)
    ∧ ∀ entries, typedStations l = some entries → entries.map writtenStation = l := by
  have bad := mapM_none (fun x : Nat × Nat =>
    (do return (← indexOf 16 x.1, ← StationType.ofCode x.2) : Option (StationNo × StationType))) l
  unfold typedStations BadStations
  cases h : l.mapM (fun x : Nat × Nat =>
    (do return (← indexOf 16 x.1, ← StationType.ofCode x.2) : Option (StationNo × StationType))) with
  | none =>
    rw [h] at bad
    obtain ⟨x, m, e⟩ := bad.mp rfl
    exact ⟨iff_of_true rfl (.inl ⟨x, m, (station_none x).mp e⟩), fun _ e => by cases e⟩
  | some entries =>
    have good : ¬ ∃ x ∈ l, x.1 = 0 ∨ 16 < x.1 ∨ 1 < x.2 := fun ⟨x, m, e⟩ => by
      rw [h] at bad
      cases bad.mpr ⟨x, m, (station_none x).mpr e⟩
    have list := mapM_written station_written h
    have once : (l.map Prod.fst).Nodup ↔ (entries.map Prod.fst).Nodup := by
      have e : l.map Prod.fst = (entries.map Prod.fst).map numberOf := by
        rw [← list, List.map_map, List.map_map]
        exact List.map_congr_left fun x _ => by obtain ⟨n, t⟩ := x; cases t <;> rfl
      rw [e]
      refine List.nodup_map_iff fun i j k => Fin.ext ?_
      have k : i.val + 1 = j.val + 1 := k
      omega
    simp only [Option.bind_eq_bind, Option.bind_some]
    by_cases n : (entries.map Prod.fst).Nodup
    · rw [if_pos n]
      exact ⟨iff_of_false (fun e => by cases e) (fun e => e.elim good fun k => k (once.mpr n)),
        fun x e => by cases e; exact list⟩
    · rw [if_neg n]
      exact ⟨iff_of_true rfl (.inr fun k => n (once.mp k)), fun _ e => by cases e⟩

/-! ## Sequences -/

theorem step_written : ∀ x y, RawStep.typed x = some y → writtenStep y = x := by
  rintro ⟨kind, preset, fade, wait⟩ y h
  unfold RawStep.typed at h
  dsimp only at h
  split at h
  · rename_i p
    cases a : indexOf 48 p with
    | none => rw [a] at h; cases h
    | some i => rw [a] at h; cases h; rw [indexOf_some.mp a]; rfl
  · cases h; rfl
  · cases h

theorem step_none (x : RawStep) : RawStep.typed x = none ↔
    1 < x.kind ∨ (x.kind = 0 ∧ ∀ p, x.preset = some p → p = 0 ∨ 48 < p) ∨ (x.kind = 1 ∧ x.preset ≠ none) := by
  match x with
  | ⟨0, some p, fade, wait⟩ =>
    have e : RawStep.typed ⟨0, some p, fade, wait⟩ = (indexOf 48 p).bind fun i => some ⟨.recall i, fade, wait⟩ := rfl
    have k : RawStep.typed ⟨0, some p, fade, wait⟩ = none ↔ p = 0 ∨ 48 < p := by
      rw [e, ← indexOf_none]
      cases indexOf 48 p <;> simp
    rw [k]
    simp
  | ⟨0, none, fade, wait⟩ => exact iff_of_true rfl (.inr (.inl ⟨rfl, fun q e => by cases e⟩))
  | ⟨1, none, fade, wait⟩ => simp [RawStep.typed]
  | ⟨1, some p, fade, wait⟩ => simp [RawStep.typed]
  | ⟨k + 2, q, fade, wait⟩ => exact iff_of_true (by cases q <;> rfl) (.inl (by simp))

theorem fadeInRange_iff (t : Nat) : fadeInRange t = true ↔ t ≤ 36000 := by
  unfold fadeInRange Config.fadeTop
  exact decide_eq_true_iff

theorem endAction_checks (n : Nat) : (EndAction.ofCode n = none ↔ 1 < n)
    ∧ (EndAction.ofCode n = some .hold → n = 0) ∧ (EndAction.ofCode n = some .release → n = 1) := by
  rcases n with _ | _ | n <;> simp [EndAction.ofCode]

theorem sequence_checks (q : RawSequence) : (RawSequence.typed q = none ↔ BadSequence q)
    ∧ ∀ d, RawSequence.typed q = some d → writtenSequence d = q := by
  obtain ⟨steps, rank, action, time, limit⟩ := q
  have bad := mapM_none RawStep.typed steps
  have codes := codeOf_none (n := 8) (k := rank)
  have ends := endAction_checks action
  unfold RawSequence.typed BadSequence
  dsimp only
  cases h : steps.mapM RawStep.typed with
  | none =>
    rw [h] at bad
    obtain ⟨x, m, e⟩ := bad.mp rfl
    refine ⟨iff_of_true rfl (.inl ⟨x, m, ?_⟩), fun _ e => by cases e⟩
    rcases (step_none x).mp e with e | e | e
    · exact .inl e
    · exact .inr (.inl e)
    · exact .inr (.inr (.inl e))
  | some typed =>
    have list := mapM_written step_written h
    cases a : codeOf 8 rank with
    | none => rw [a] at codes; exact ⟨iff_of_true rfl (.inr (.inl (by have := codes.mp rfl; omega))), fun _ e => by cases e⟩
    | some r =>
      have hr : rank = r.val := codeOf_some.mp a
      cases b : EndAction.ofCode action with
      | none => exact ⟨iff_of_true rfl (.inr (.inr (.inl (ends.1.mp b)))), fun _ e => by cases e⟩
      | some c =>
        have ha : ¬ 1 < action := fun k => by rw [ends.1.mpr k] at b; cases b
        have times : (∃ x ∈ steps, BadStep x) ↔ ∃ x ∈ typed, ¬ (x.fade ≤ 36000 ∧ 1 ≤ x.wait ∧ x.wait ≤ 36000) := by
          rw [← list]
          simp only [List.mem_map, exists_exists_and_eq_and]
          refine exists_congr fun x => and_congr_right fun m => ?_
          have fine : ¬ RawStep.typed (writtenStep x) = none := by
            have k : writtenStep x ∈ steps := by rw [← list]; exact List.mem_map_of_mem m
            intro e
            rw [h] at bad
            cases bad.mpr ⟨_, k, e⟩
          rw [step_none, not_or, not_or] at fine
          have f : (writtenStep x).fade = x.fade ∧ (writtenStep x).wait = x.wait := by
            unfold writtenStep
            split <;> exact ⟨rfl, rfl⟩
          unfold BadStep
          rw [f.1, f.2]
          constructor
          · rintro (e | e | e | e | e | e)
            · exact absurd e fine.1
            · exact absurd e fine.2.1
            · exact absurd e fine.2.2
            all_goals omega
          · intro e
            by_cases k : 36000 < x.fade
            · exact .inr (.inr (.inr (.inl k)))
            · exact .inr (.inr (.inr (.inr (by omega))))
        have range : (typed.all (fun x => fadeInRange x.fade && decide (1 ≤ x.wait ∧ x.wait ≤ 36000))
            && fadeInRange time && decide (limit ≤ 255)) = true ↔
            (∀ x ∈ typed, x.fade ≤ 36000 ∧ 1 ≤ x.wait ∧ x.wait ≤ 36000) ∧ time ≤ 36000 ∧ limit ≤ 255 := by
          simp only [Bool.and_eq_true, List.all_eq_true, decide_eq_true_iff, fadeInRange_iff, and_assoc]
        simp only [Option.bind_eq_bind, Option.bind_some]
        by_cases k : (typed.all (fun x => fadeInRange x.fade && decide (1 ≤ x.wait ∧ x.wait ≤ 36000))
            && fadeInRange time && decide (limit ≤ 255)) = true
        · rw [if_pos k]
          have k := range.mp k
          refine ⟨iff_of_false (fun e => by cases e) fun e => ?_, fun d e => ?_⟩
          · rcases e with e | e | e | e | e
            · obtain ⟨x, m, n⟩ := times.mp e
              exact n (k.1 x m)
            all_goals omega
          · cases e
            unfold writtenSequence
            dsimp only
            rw [list, ← hr]
            cases c
            · rw [ends.2.1 b]
            · rw [ends.2.2 b]
        · rw [if_neg k]
          refine ⟨iff_of_true rfl ?_, fun _ e => by cases e⟩
          have k := mt range.mpr k
          by_cases t : ∃ x ∈ typed, ¬ (x.fade ≤ 36000 ∧ 1 ≤ x.wait ∧ x.wait ≤ 36000)
          · exact .inl (times.mpr t)
          · have all : ∀ x ∈ typed, x.fade ≤ 36000 ∧ 1 ≤ x.wait ∧ x.wait ≤ 36000 := fun x m => by
              by_contra n
              exact t ⟨x, m, n⟩
            by_cases u : 36000 < time
            · exact .inr (.inr (.inr (.inl u)))
            · refine .inr (.inr (.inr (.inr ?_)))
              by_contra n
              exact k ⟨all, by omega, by omega⟩

/-! ## Mode records -/

theorem entry_none (x : RawEntrySequence) : RawEntrySequence.typed x = none ↔ BadEntrySequence x := by
  obtain ⟨player, mode, sequence⟩ := x
  unfold BadEntrySequence
  have at_ := indexOf_none (n := 4) (k := player)
  cases p : indexOf 4 player with
  | none =>
    rw [p] at at_
    have e : RawEntrySequence.typed ⟨player, mode, sequence⟩ = none := by
      unfold RawEntrySequence.typed; dsimp only; rw [p]; rfl
    exact iff_of_true e ((at_.mp rfl).elim .inl fun k => .inr (.inl k))
  | some n =>
    have good : ¬ (player = 0 ∨ 4 < player) := fun e => by rw [p] at at_; cases at_.mpr e
    have zero : player ≠ 0 := fun e => good (.inl e)
    have four : ¬ 4 < player := fun e => good (.inr e)
    have index : ∀ q, indexOf 16 q = none ↔ q = 0 ∨ 16 < q := fun q => indexOf_none
    match mode, sequence with
    | 0, none =>
      have e : RawEntrySequence.typed ⟨player, 0, none⟩ = some (.off n) := by
        unfold RawEntrySequence.typed; dsimp only; rw [p]; rfl
      simp [e, zero, four]
    | 0, some q =>
      have e : RawEntrySequence.typed ⟨player, 0, some q⟩ = none := by
        unfold RawEntrySequence.typed; dsimp only; rw [p]; rfl
      simp [e]
    | 1, none =>
      have e : RawEntrySequence.typed ⟨player, 1, none⟩ = none := by
        unfold RawEntrySequence.typed; dsimp only; rw [p]; rfl
      simp [e]
    | 1, some q =>
      have e : RawEntrySequence.typed ⟨player, 1, some q⟩ = (indexOf 16 q).bind fun i => some (.run n .single i) := by
        unfold RawEntrySequence.typed; dsimp only; rw [p]; rfl
      have k : RawEntrySequence.typed ⟨player, 1, some q⟩ = none ↔ q = 0 ∨ 16 < q := by
        rw [e, ← index]
        cases indexOf 16 q <;> simp
      rw [k]
      simp [zero, four]
    | 2, none =>
      have e : RawEntrySequence.typed ⟨player, 2, none⟩ = none := by
        unfold RawEntrySequence.typed; dsimp only; rw [p]; rfl
      simp [e]
    | 2, some q =>
      have e : RawEntrySequence.typed ⟨player, 2, some q⟩ = (indexOf 16 q).bind fun i => some (.run n .loop i) := by
        unfold RawEntrySequence.typed; dsimp only; rw [p]; rfl
      have k : RawEntrySequence.typed ⟨player, 2, some q⟩ = none ↔ q = 0 ∨ 16 < q := by
        rw [e, ← index]
        cases indexOf 16 q <;> simp
      rw [k]
      simp [zero, four]
    | m + 3, s =>
      have e : RawEntrySequence.typed ⟨player, m + 3, s⟩ = none := by
        unfold RawEntrySequence.typed; dsimp only; rw [p]; rfl
      exact iff_of_true e (.inr (.inr (.inl (by simp))))

theorem entry_written : ∀ x y, RawEntrySequence.typed x = some y → writtenEntrySequence y = x := by
  rintro ⟨player, mode, sequence⟩ y h
  unfold RawEntrySequence.typed at h
  cases p : indexOf 4 player with
  | none => dsimp only at h; rw [p] at h; cases h
  | some n =>
    have own := indexOf_some.mp p
    dsimp only at h
    rw [p] at h
    match mode, sequence with
    | 0, none => cases h; rw [own]; rfl
    | 0, some q => cases h
    | 1, none => cases h
    | 1, some q =>
      change (indexOf 16 q).bind (fun i => some (EntrySequence.run n .single i)) = some y at h
      cases k : indexOf 16 q with
      | none => rw [k] at h; cases h
      | some i => rw [k] at h; cases h; rw [own, indexOf_some.mp k]; rfl
    | 2, none => cases h
    | 2, some q =>
      change (indexOf 16 q).bind (fun i => some (EntrySequence.run n .loop i)) = some y at h
      cases k : indexOf 16 q with
      | none => rw [k] at h; cases h
      | some i => rw [k] at h; cases h; rw [own, indexOf_some.mp k]; rfl
    | m + 3, s => cases h

theorem typedOption_none {α β : Type} (f : α → Option β) (x : Option α) :
    typedOption f x = none ↔ ∃ a, x = some a ∧ f a = none := by
  cases x <;> simp [typedOption]

theorem typedOption_written {α β : Type} {f : α → Option β} {g : β → α} (h : ∀ x y, f x = some y → g y = x)
    {x : Option α} {y : Option β} (e : typedOption f x = some y) : y.map g = x := by
  cases x with
  | none => cases e; rfl
  | some a =>
    change (f a).map some = some y at e
    obtain ⟨b, k, rfl⟩ := Option.map_eq_some_iff.mp e
    rw [Option.map_some, h a b k]

theorem modeRecord_checks (r : RawModeRecord) : (RawModeRecord.typed r = none ↔ BadModeRecord r)
    ∧ ∀ d, RawModeRecord.typed r = some d → writtenModeRecord d = r := by
  obtain ⟨preset, rank, fade, sequence⟩ := r
  have presets := typedOption_none (indexOf 48) preset
  have sequences := typedOption_none RawEntrySequence.typed sequence
  have codes := codeOf_none (n := 8) (k := rank)
  simp only [indexOf_none] at presets
  simp only [entry_none] at sequences
  unfold RawModeRecord.typed BadModeRecord
  dsimp only
  cases a : typedOption (indexOf 48) preset with
  | none => rw [a] at presets; exact ⟨iff_of_true rfl (.inl (presets.mp rfl)), fun _ e => by cases e⟩
  | some x =>
    have nx : ¬ ∃ p, preset = some p ∧ (p = 0 ∨ 48 < p) := fun e => by rw [a] at presets; cases presets.mpr e
    cases b : codeOf 8 rank with
    | none => rw [b] at codes; exact ⟨iff_of_true rfl (.inr (.inl (codes.mp rfl))), fun _ e => by cases e⟩
    | some y =>
      have ny : ¬ 7 < rank := fun e => by rw [b] at codes; cases codes.mpr e
      cases c : typedOption RawEntrySequence.typed sequence with
      | none => rw [c] at sequences; exact ⟨iff_of_true rfl (.inr (.inr (.inr (sequences.mp rfl)))), fun _ e => by cases e⟩
      | some z =>
        have nz : ¬ ∃ q, sequence = some q ∧ BadEntrySequence q := fun e => by
          rw [c] at sequences; cases sequences.mpr e
        simp only [Option.bind_eq_bind, Option.bind_some]
        by_cases t : ModeRecord.inRange
            { entryPreset := x, entryRank := y, entryFade := fade, entrySequence := z } = true
        · rw [if_pos t]
          have t := (fadeInRange_iff fade).mp t
          refine ⟨iff_of_false (fun e => by cases e) fun e => ?_, fun d e => ?_⟩
          · rcases e with e | e | e | e
            · exact nx e
            · exact ny e
            · omega
            · exact nz e
          · cases e
            unfold writtenModeRecord
            dsimp only
            rw [typedOption_written (fun x y h => (indexOf_some.mp h).symm) a, ← codeOf_some.mp b,
              typedOption_written entry_written c]
        · rw [if_neg t]
          have t := mt (fadeInRange_iff fade).mpr t
          exact ⟨iff_of_true rfl (.inr (.inr (.inl (by omega)))), fun _ e => by cases e⟩

/-! ## Role records -/

theorem access_none (x : Option (List Nat)) : typedAccess x = none ↔ ∃ l, x = some l ∧ ∃ g ∈ l, 64 < g := by
  cases x with
  | none => simp [typedAccess]
  | some l =>
    have := mapM_none (codeOf 65) l
    simp only [codeOf_none] at this
    unfold typedAccess
    rw [Option.map_eq_none_iff, this]
    simp [Nat.succ_le_iff]

theorem linkRate_checks (n : Nat) : (LinkRate.ofCode n = none ↔ 1 < n)
    ∧ (LinkRate.ofCode n = some .r115200 → n = 0) ∧ (LinkRate.ofCode n = some .r460800 → n = 1) := by
  rcases n with _ | _ | n <;> simp [LinkRate.ofCode]

theorem permissions_written : ∀ n, n < 32 → bitsOf Permission.all (namesOf Permission.all n) = n := by decide

theorem roleRecord_checks (r : RawRoleRecord) : (RawRoleRecord.typed r = none ↔ BadRoleRecord r)
    ∧ ∀ d, RawRoleRecord.typed r = some d → writtenRoleRecord d = r := by
  obtain ⟨rank, access, permissions, lease, hold, release, rate⟩ := r
  have accesses := access_none access
  have codes := codeOf_none (n := 8) (k := rank)
  have rates := linkRate_checks rate
  unfold RawRoleRecord.typed BadRoleRecord
  dsimp only
  cases a : codeOf 8 rank with
  | none => rw [a] at codes; exact ⟨iff_of_true rfl (.inl (codes.mp rfl)), fun _ e => by cases e⟩
  | some x =>
    have nx : ¬ 7 < rank := fun e => by rw [a] at codes; cases codes.mpr e
    cases b : typedAccess access with
    | none =>
      rw [b] at accesses
      obtain ⟨l, e, g⟩ := accesses.mp rfl
      exact ⟨iff_of_true rfl (.inr (.inl ⟨l, e, .inr (.inr g)⟩)), fun _ e => by cases e⟩
    | some y =>
      have ny : ¬ ∃ l, access = some l ∧ ∃ g ∈ l, 64 < g := fun e => by rw [b] at accesses; cases accesses.mpr e
      cases c : LinkRate.ofCode rate with
      | none =>
        exact ⟨iff_of_true rfl (.inr (.inr (.inr (.inr (.inr (.inr (.inr (rates.1.mp c)))))))), fun _ e => by cases e⟩
      | some z =>
        have nz : ¬ 1 < rate := fun e => by rw [rates.1.mpr e] at c; cases c
        have shape : (access = none ∧ y = .all) ∨ ∃ l g, access = some l ∧ y = .groups g ∧ g.map Fin.val = l := by
          cases access with
          | none => cases b; exact .inl ⟨rfl, rfl⟩
          | some l =>
            unfold typedAccess at b
            obtain ⟨g, k, rfl⟩ := Option.map_eq_some_iff.mp b
            exact .inr ⟨l, g, rfl, rfl, mapM_written (fun x y h => (codeOf_some.mp h).symm) k⟩
        have range : (decide (permissions < 32) && RoleRecord.inRange
            { maxRank := x, access := y, permissions := namesOf Permission.all permissions, lease := lease,
              orphanHold := hold, orphanRelease := release, linkRate := z }) = true ↔
            permissions < 32 ∧ (∀ l, access = some l → 1 ≤ l.length ∧ l.length ≤ 8) ∧ (1 ≤ lease ∧ lease ≤ 60 ∧ hold ≤ 600)
              ∧ release ≤ 36000 := by
          unfold RoleRecord.inRange
          simp only [Bool.and_eq_true, decide_eq_true_iff, fadeInRange_iff]
          rcases shape with ⟨rfl, rfl⟩ | ⟨l, g, rfl, rfl, k⟩
          · simp [and_assoc]
          · have len : l.length = g.length := by rw [← k, List.length_map]
            simp [and_assoc, len]
        simp only [Option.bind_eq_bind, Option.bind_some]
        by_cases k : (decide (permissions < 32) && RoleRecord.inRange
            { maxRank := x, access := y, permissions := namesOf Permission.all permissions, lease := lease,
              orphanHold := hold, orphanRelease := release, linkRate := z }) = true
        · rw [if_pos k]
          have k := range.mp k
          refine ⟨iff_of_false (fun e => by cases e) fun e => ?_, fun d e => ?_⟩
          · rcases e with e | ⟨l, h, e⟩ | e | e | e | e | e | e
            · exact nx e
            · have := k.2.1 l h
              rcases e with e | e | e
              · omega
              · omega
              · exact ny ⟨l, h, e⟩
            all_goals omega
          · cases e
            unfold writtenRoleRecord
            dsimp only
            rw [permissions_written _ k.1, ← codeOf_some.mp a]
            congr 1
            · rcases shape with ⟨rfl, rfl⟩ | ⟨l, g, rfl, rfl, h⟩
              · rfl
              · dsimp only; rw [h]
            · cases z
              · exact (rates.2.1 c).symm
              · exact (rates.2.2 c).symm
        · rw [if_neg k]
          refine ⟨iff_of_true rfl ?_, fun _ e => by cases e⟩
          have k := mt range.mpr k
          by_contra none
          simp only [not_or, not_exists, not_and] at none
          obtain ⟨_, n2, n3, n4, n5, n6, n7, _⟩ := none
          exact k ⟨by omega, fun l h => by have := n2 l h; omega, ⟨by omega, by omega, by omega⟩, by omega⟩

/-! ## Circuit records -/

theorem curve_code (n : Nat) : (Curve.ofCode n = none ↔ 1 < n)
    ∧ (Curve.ofCode n = some .linear → n = 0) ∧ (Curve.ofCode n = some .square → n = 1) := by
  rcases n with _ | _ | n <;> simp [Curve.ofCode]

/-- The route of a record (R165), and what it reads as. -/
theorem route_checks (route : Nat) (line : Option Nat) :
    (typedRoute route line = none ↔ 2 < route ∨ (route = 1 ∧ ∀ n, line = some n → n = 0 ∨ 16 < n)
      ∨ (route ≠ 1 ∧ line ≠ none))
    ∧ ∀ r, typedRoute route line = some r →
      (match r with
        | .link => (0, none)
        | .pwm n => (1, some (numberOf n))
        | .unrouted => (2, none)) = (route, line) := by
  match route, line with
  | 0, none => exact ⟨by simp [typedRoute], fun r e => by cases e; rfl⟩
  | 0, some n => exact ⟨by simp [typedRoute], fun r e => by cases e⟩
  | 1, none => exact ⟨by simp [typedRoute], fun r e => by cases e⟩
  | 1, some n =>
    refine ⟨?_, fun r e => ?_⟩
    · have k : typedRoute 1 (some n) = none ↔ n = 0 ∨ 16 < n := by
        show ((indexOf 16 n).map Route.pwm) = none ↔ _
        rw [Option.map_eq_none_iff, indexOf_none]
      rw [k]
      simp
    · change (indexOf 16 n).map Route.pwm = some r at e
      obtain ⟨i, h, rfl⟩ := Option.map_eq_some_iff.mp e
      rw [indexOf_some.mp h]
  | 2, none => exact ⟨by simp [typedRoute], fun r e => by cases e; rfl⟩
  | 2, some n => exact ⟨by simp [typedRoute], fun r e => by cases e⟩
  | m + 3, n => exact ⟨iff_of_true (by cases n <;> rfl) (.inl (by omega)), fun r e => by cases n <;> cases e⟩

/-- The kind of a record by its filled fields (R165). -/
theorem kind_written (r : RawCircuitRecord) :
    (∀ c lo hi, RawCircuitRecord.typedKind r = some (.dimmed c lo hi) → r.kind = 0
      ∧ r.curve = some (match c with
        | .linear => 0
        | .square => 1)
      ∧ r.min = some lo ∧ r.max = some hi ∧ r.threshold = none ∧ r.hysteresis = none ∧ r.dwell = none)
    ∧ ∀ t h d, RawCircuitRecord.typedKind r = some (.switched t h d) → r.kind = 1 ∧ r.curve = none ∧ r.min = none
      ∧ r.max = none ∧ r.threshold = some t ∧ r.hysteresis = some h ∧ r.dwell = some d := by
  obtain ⟨kind, route, line, base, emergency, curve, min, max, threshold, hysteresis, dwell⟩ := r
  unfold RawCircuitRecord.typedKind
  dsimp only
  split
  · rename_i c _ _
    refine ⟨fun k lo hi e => ?_, fun t h d e => ?_⟩
    · obtain ⟨b, code, e⟩ := Option.map_eq_some_iff.mp e
      cases e
      refine ⟨rfl, ?_, rfl, rfl, rfl, rfl, rfl⟩
      cases k
      · rw [(curve_code c).2.1 code]
      · rw [(curve_code c).2.2 code]
    · obtain ⟨b, _, e⟩ := Option.map_eq_some_iff.mp e
      cases e
  · exact ⟨fun k lo hi e => by simp at e, fun t h d e => by cases e; exact ⟨rfl, rfl, rfl, rfl, rfl, rfl, rfl⟩⟩
  · exact ⟨fun k lo hi e => by simp at e, fun t h d e => by simp at e⟩

/-- A kind is refused where its own fields are not filled and in range (R165, R166). -/
theorem kind_refused (r : RawCircuitRecord) :
    (∀ k, RawCircuitRecord.typedKind r = some k → CircuitKind.inRange k = false) ↔
      1 < r.kind ∨ (r.kind = 0 ∧ ¬ DimmedFields r) ∨ (r.kind = 1 ∧ ¬ SwitchedFields r) := by
  refine ⟨fun bad => ?_, fun bad k e => ?_⟩
  · by_contra good
    simp only [not_or, not_and, not_not] at good
    obtain ⟨le, dim, switch⟩ := good
    by_cases zero : r.kind = 0
    · obtain ⟨c, lo, hi, hc, c1, hlo, l1, hhi, h1, h2, ht, hh, hd⟩ := dim zero
      obtain ⟨kind, route, line, base, emergency, curve, min, max, threshold, hysteresis, dwell⟩ := r
      subst zero
      dsimp only at hc hlo hhi ht hh hd
      subst hc hlo hhi ht hh hd
      have typed : ∃ b, Curve.ofCode c = some b := by
        cases e : Curve.ofCode c with
        | none => exact absurd ((curve_code c).1.mp e) (by omega)
        | some b => exact ⟨b, rfl⟩
      obtain ⟨b, hb⟩ := typed
      have := bad (.dimmed b lo hi) (by
        show (Curve.ofCode c).map _ = _
        rw [hb]; rfl)
      unfold CircuitKind.inRange at this
      simp only [decide_eq_false_iff_not] at this
      omega
    · have one : r.kind = 1 := by omega
      obtain ⟨t, h, d, ht, t1, t2, hh, h1, h2, hd, d1, hc, hlo, hhi⟩ := switch one
      obtain ⟨kind, route, line, base, emergency, curve, min, max, threshold, hysteresis, dwell⟩ := r
      dsimp only at one ht hh hd hc hlo hhi
      subst one ht hh hd hc hlo hhi
      have := bad (.switched t h d) rfl
      unfold CircuitKind.inRange at this
      simp only [decide_eq_false_iff_not] at this
      omega
  · by_contra fits
    have fits : CircuitKind.inRange k = true := by simpa using fits
    unfold CircuitKind.inRange at fits
    cases k with
    | dimmed c lo hi =>
      obtain ⟨zero, hc, hlo, hhi, ht, hh, hd⟩ := (kind_written r).1 c lo hi e
      simp only [decide_eq_true_iff] at fits
      rcases bad with k | ⟨_, k⟩ | ⟨k, _⟩
      · omega
      · exact k ⟨_, lo, hi, hc, by cases c <;> simp, hlo, by omega, hhi, by omega, by omega, ht, hh, hd⟩
      · omega
    | switched t h d =>
      obtain ⟨one, hc, hlo, hhi, ht, hh, hd⟩ := (kind_written r).2 t h d e
      simp only [decide_eq_true_iff] at fits
      rcases bad with k | ⟨k, _⟩ | ⟨_, k⟩
      · omega
      · omega
      · exact k ⟨t, h, d, ht, by omega, by omega, hh, by omega, by omega, hd, by omega, hc, hlo, hhi⟩

theorem circuitRecord_checks (r : RawCircuitRecord) : (RawCircuitRecord.typed r = none ↔ BadCircuitRecord r)
    ∧ ∀ d, RawCircuitRecord.typed r = some d → writtenCircuitRecord d = r := by
  have kinds := kind_refused r
  have fields := kind_written r
  have routes := route_checks r.route r.line
  have bad_ : BadCircuitRecord r ↔ (1 < r.kind ∨ (r.kind = 0 ∧ ¬ DimmedFields r) ∨ (r.kind = 1 ∧ ¬ SwitchedFields r))
      ∨ (2 < r.route ∨ (r.route = 1 ∧ ∀ n, r.line = some n → n = 0 ∨ 16 < n) ∨ (r.route ≠ 1 ∧ r.line ≠ none))
      ∨ 1000 < r.base ∨ ∃ v, r.emergency = some v ∧ 1000 < v := by
    unfold BadCircuitRecord
    simp only [or_assoc]
  rw [bad_, ← kinds, ← routes.1]
  unfold RawCircuitRecord.typed
  cases a : RawCircuitRecord.typedKind r with
  | none => exact ⟨iff_of_true rfl (.inl fun k e => by cases e), fun d e => by cases e⟩
  | some k =>
    cases b : typedRoute r.route r.line with
    | none => exact ⟨iff_of_true rfl (.inr (.inl rfl)), fun d e => by cases e⟩
    | some q =>
      have range : CircuitRecord.inRange { kind := k, route := q, base := r.base, emergency := r.emergency } = true ↔
          CircuitKind.inRange k = true ∧ r.base ≤ 1000 ∧ ¬ ∃ v, r.emergency = some v ∧ 1000 < v := by
        unfold CircuitRecord.inRange levelInRange Config.levelTop
        simp only [Bool.and_eq_true, decide_eq_true_iff, and_assoc]
        refine and_congr Iff.rfl (and_congr Iff.rfl ?_)
        cases r.emergency <;> simp
      simp only [Option.bind_eq_bind, Option.bind_some]
      by_cases fits : CircuitRecord.inRange { kind := k, route := q, base := r.base, emergency := r.emergency } = true
      · rw [if_pos fits]
        have fits := range.mp fits
        refine ⟨iff_of_false (fun e => by cases e) fun e => ?_, fun d e => ?_⟩
        · rcases e with e | e | e | e
          · rw [e k rfl] at fits; cases fits.1
          · cases e
          · omega
          · exact fits.2.2 e
        · cases e
          have hq := routes.2 q b
          obtain ⟨kind, route, line, base, emergency, curve, min, max, threshold, hysteresis, dwell⟩ := r
          unfold writtenCircuitRecord
          dsimp only at hq ⊢
          cases k with
          | dimmed c lo hi =>
            obtain ⟨zero, hc, hlo, hhi, ht, hh, hd⟩ := fields.1 c lo hi a
            dsimp only at zero hc hlo hhi ht hh hd ⊢
            subst zero hc hlo hhi ht hh hd
            cases q <;> cases hq <;> rfl
          | switched t h d =>
            obtain ⟨one, hc, hlo, hhi, ht, hh, hd⟩ := fields.2 t h d a
            dsimp only at one hc hlo hhi ht hh hd ⊢
            subst one hc hlo hhi ht hh hd
            cases q <;> cases hq <;> rfl
      · rw [if_neg fits]
        refine ⟨iff_of_true rfl ?_, fun d e => by cases e⟩
        have fits := mt range.mpr fits
        by_contra none
        simp only [not_or, not_forall] at none
        obtain ⟨⟨k', e, n⟩, _, base, emergency⟩ := none
        cases e
        exact fits ⟨by simpa using n, by omega, emergency⟩

/-! ## Binding entries -/

theorem runMode_code (n : Nat) : ((PlayerMode.ofCode n).bind PlayerMode.run = some .single ↔ n = 1)
    ∧ ((PlayerMode.ofCode n).bind PlayerMode.run = some .loop ↔ n = 2) := by
  rcases n with _ | _ | _ | n <;> simp [PlayerMode.ofCode, PlayerMode.run]

theorem houseMode_code (n : Nat) (m : HouseMode) : HouseMode.ofCode n = some m ↔ n = m.ix.val + 1 := by
  rcases n with _ | _ | _ | _ | _ | _ | n <;> cases m <;> simp [HouseMode.ofCode, HouseMode.ix]

/-- A field action that is read is written so. -/
theorem action_written (b : RawBinding) (a : FieldAction) (h : RawBinding.typedAction b = some a) :
    writtenAction b.gate a = b := by
  obtain ⟨gate, action, target, level, fade, rank⟩ := b
  unfold RawBinding.typedAction at h
  dsimp only at h
  have two : ∀ {m n : Nat} {x : Nat} {y : Nat} {f : Fin m → Fin n → FieldAction}
      {p : Option (Fin m)} {q : Option (Fin n)}, (do return f (← p) (← q)) = some a →
      (∀ i, p = some i → x = i.val) → (∀ j, q = some j → y = j.val) → ∃ i j, a = f i j ∧ x = i.val ∧ y = j.val :=
    fun {m n x y f p q} e hp hq => by
      cases p with
      | none => cases e
      | some i =>
        cases q with
        | none => cases e
        | some j => cases e; exact ⟨i, j, rfl, hp i rfl, hq j rfl⟩
  split at h
  · obtain ⟨i, j, rfl, rfl, rfl⟩ := two h (fun _ => codeOf_some.mp) fun _ => codeOf_some.mp
    rfl
  · obtain ⟨i, j, rfl, rfl, rfl⟩ := two h (fun _ => codeOf_some.mp) fun _ => codeOf_some.mp
    rfl
  · obtain ⟨i, j, rfl, rfl, rfl⟩ := two h (fun _ => codeOf_some.mp) fun _ => codeOf_some.mp
    rfl
  · obtain ⟨i, j, rfl, rfl, rfl⟩ := two h (fun _ => codeOf_some.mp) fun _ => codeOf_some.mp
    rfl
  · obtain ⟨i, j, rfl, rfl, rfl⟩ := two h (fun _ => codeOf_some.mp) fun _ => codeOf_some.mp
    rfl
  · rename_i p t r
    cases hp : indexOf 48 p with
    | none => rw [hp] at h; cases h
    | some i =>
      cases hr : codeOf 8 r with
      | none => rw [hp, hr] at h; cases h
      | some j => rw [hp, hr] at h; cases h; rw [indexOf_some.mp hp, codeOf_some.mp hr]; rfl
  · obtain ⟨i, j, rfl, rfl, rfl⟩ := two h (fun _ => codeOf_some.mp) fun _ => codeOf_some.mp
    rfl
  · rename_i p q m
    cases hp : indexOf 4 p with
    | none => rw [hp] at h; cases h
    | some i =>
      cases hq : indexOf 16 q with
      | none => rw [hp, hq] at h; cases h
      | some j =>
        cases hm : (PlayerMode.ofCode m).bind PlayerMode.run with
        | none => rw [hp, hq, hm] at h; cases h
        | some x =>
          rw [hp, hq, hm] at h
          cases h
          rw [indexOf_some.mp hp, indexOf_some.mp hq]
          cases x
          · rw [(runMode_code m).1.mp hm]; rfl
          · rw [(runMode_code m).2.mp hm]; rfl
  · rename_i p
    cases hp : indexOf 4 p with
    | none => rw [hp] at h; cases h
    | some i => rw [hp] at h; cases h; rw [indexOf_some.mp hp]; rfl
  · rename_i m
    cases hm : HouseMode.ofCode m with
    | none => rw [hm] at h; cases h
    | some x => rw [hm] at h; cases h; rw [(houseMode_code m x).mp hm]; rfl
  · cases h

theorem actionFits_iff (a : FieldAction) : FieldAction.inRange a = true ↔ ActionFits a := by
  cases a <;> first
    | exact Bool.and_eq_true_iff.trans (and_congr decide_eq_true_iff decide_eq_true_iff)
    | exact decide_eq_true_iff
    | exact iff_of_true rfl trivial

theorem gate_written : ∀ n, n < 32 → bitsOf HouseMode.all (namesOf HouseMode.all n) = n := by decide

theorem binding_checks (k : KeyAddr) (e : Edge) (b : RawBinding) : (RawBinding.typed k e b = none ↔ BadBinding b)
    ∧ ∀ x, RawBinding.typed k e b = some x → x.key = k ∧ x.edge = e ∧ bitsOf HouseMode.all x.gate = b.gate
      ∧ writtenAction b.gate x.action = b := by
  have none_ : (∀ a, ActionFits a → writtenAction b.gate a ≠ b) ↔
      ∀ a, RawBinding.typedAction b = some a → FieldAction.inRange a = false := by
    refine ⟨fun h a t => ?_, fun h a fits t => ?_⟩
    · by_contra fits
      exact h a ((actionFits_iff a).mp (by simpa using fits)) (action_written b a t)
    · have read := typedAction_written b.gate a
      rw [t] at read
      have := h a read
      rw [(actionFits_iff a).mpr fits] at this
      cases this
  unfold BadBinding
  rw [none_]
  unfold RawBinding.typed typedGate
  by_cases g : b.gate = 0 ∨ 32 ≤ b.gate
  · rw [if_pos g]
    exact ⟨iff_of_true rfl (g.elim .inl fun h => .inr (.inl h)), fun x e => by cases e⟩
  · rw [if_neg g]
    cases t : RawBinding.typedAction b with
    | none => exact ⟨iff_of_true rfl (.inr (.inr fun a e => by cases e)), fun x e => by cases e⟩
    | some a =>
      simp only [Option.bind_eq_bind, Option.bind_some]
      by_cases fits : FieldAction.inRange a = true
      · rw [if_pos fits]
        refine ⟨iff_of_false (fun e => by cases e) fun h => ?_, fun x h => ?_⟩
        · rcases h with h | h | h
          · exact g (.inl h)
          · exact g (.inr h)
          · rw [h a rfl] at fits; cases fits
        · cases h
          exact ⟨rfl, rfl, gate_written b.gate (by omega), action_written b a t⟩
      · rw [if_neg fits]
        exact ⟨iff_of_true rfl (.inr (.inr fun x h => by cases h; simpa using fits)), fun x h => by cases h⟩

/-- A list of entries is read where none of them is BAD_RECORD, and then entry by entry (R90). -/
theorem bindings_checks (k : KeyAddr) (e : Edge) (list : List RawBinding) :
    (list.mapM (RawBinding.typed k e) = none ↔ ∃ b ∈ list, BadBinding b)
    ∧ ∀ l, list.mapM (RawBinding.typed k e) = some l →
      l.map (fun x => writtenAction (bitsOf HouseMode.all x.gate) x.action) = list
      ∧ ∀ x ∈ l, x.key = k ∧ x.edge = e := by
  refine ⟨(mapM_none _ _).trans (exists_congr fun b => and_congr_right fun _ => (binding_checks k e b).1), ?_⟩
  induction list with
  | nil =>
    intro l h
    cases h
    exact ⟨rfl, fun _ m => absurd m List.not_mem_nil⟩
  | cons b rest ih =>
    intro l h
    rw [List.mapM_cons] at h
    cases first : RawBinding.typed k e b with
    | none => rw [first] at h; cases h
    | some x =>
      cases others : rest.mapM (RawBinding.typed k e) with
      | none => rw [first, others] at h; cases h
      | some y =>
        rw [first, others] at h
        cases h
        obtain ⟨key, edge, gate, action⟩ := (binding_checks k e b).2 x first
        obtain ⟨back, each⟩ := ih y others
        exact ⟨by rw [List.map_cons, back, gate, action], fun z m => (List.mem_cons.mp m).elim
          (fun e => e ▸ ⟨key, edge⟩) (each z)⟩

end Sys2Proof.Machine
end

