-- ==== Sys2Proof/Machine/Wire.lean ====
section
/-! DEFINITION. The wire formats (R184, R194, R195): CRC-16, the reading of a master frame as a command, and the bytes of replies, notices, POLLs and rack frames, from the fields of Machine/Fields.lean. Widths R194 does not list are those of notes/assumptions/15.md. -/

namespace Sys2Proof.Machine

/-! ## Checks (R195) -/

/-- One bit of the CRC-16: polynomial x^16 + x^12 + x^5 + 1, most significant bit first (R195). -/
def crcBit (crc : BitVec 16) : BitVec 16 := if crc.msb then (crc <<< 1) ^^^ 0x1021#16 else crc <<< 1

/-- One byte of the CRC-16. -/
def crcByte (crc : BitVec 16) (b : Byte) : BitVec 16 :=
  Nat.repeat crcBit 8 (crc ^^^ (b.setWidth 16 <<< 8))

/-- The CRC-16 of a run of bytes: initial value 0xFFFF, no final inversion (R195). -/
def crc16 (bytes : List Byte) : BitVec 16 := bytes.foldl crcByte 0xFFFF#16

/-- A CRC-16, high byte first. -/
def crcField (bytes : List Byte) : List Byte := two (crc16 bytes).toNat

/-! ## Codes of names (R194) -/

/-- A port by its owner code. -/
def portField (p : Port) : List Byte := one p.ix.val

/-- An owner by its place in the order of R1. -/
def ownerCode : Owner → Nat
  | .port p => p.ix.val
  | .field => 4
  | .seq n => 5 + n.val
  | .mode => 9

/-- Emergency state by code. -/
def emergencyCode : EmergencyState → Nat
  | .normal => 0 | .active => 1 | .latched => 2 | .recovering => 3

/-- Contact reading in the order of R155. -/
def contactCode : Contact → Nat
  | .normal => 0 | .active => 1 | .faultOpen => 2 | .faultShort => 3

/-- Status in the order of the status table. -/
def statusCode : Status → Nat
  | .ok => 0 | .okUntracked => 1 | .busy => 2 | .notReady => 3 | .denied => 4 | .badRequest => 5 | .badTarget => 6
  | .poolFull => 7 | .locked => 8 | .showActive => 9 | .busySaving => 10 | .inUse => 11 | .badRecord => 12
  | .tableFull => 13 | .contactActive => 14 | .noSlot => 15 | .wrongState => 16 | .saveFailed => 17

/-- Notice kind code (R189). -/
def noticeCode : NoticeKind → Nat
  | .key => 0x01 | .preempted => 0x02 | .restored => 0x03 | .fadeDone => 0x04 | .standbyEnd => 0x05
  | .deferWarning => 0x06 | .keyLockout => 0x07 | .station => 0x08 | .mode => 0x09 | .emergency => 0x0A
  | .seq => 0x0B | .poolFull => 0x0C | .orphansReleased => 0x0D | .saveDone => 0x0E | .saveFailed => 0x0F
  | .config => 0x10

/-- Why a slot ended, in the order of section 6.3. -/
def reasonCode : EndReason → Nat
  | .done => 0 | .expired => 1 | .cancelled => 2 | .modeLeft => 3 | .ownerLost => 4

/-- Lockout event, in the order of R189. -/
def lockoutCode : LockoutEvent → Nat
  | .locked => 0 | .cleared => 1

/-- Presence, in the order of R70. -/
def presenceCode : Presence → Nat
  | .present => 0 | .absent => 1

/-- Entry preset outcome, in the order of R152. -/
def presetOutcomeCode : PresetOutcome → Nat
  | .none => 0 | .placed => 1 | .badTarget => 2 | .poolFull => 3

/-- Entry sequence outcome: NONE, then the order of R151. -/
def sequenceOutcomeCode : SequenceOutcome → Nat
  | .none => 0 | .started => 1 | .continued => 2 | .badTarget => 3 | .poolFull => 4 | .stopped => 5 | .unchanged => 6

/-- VALID or INVALID. -/
def validityCode : Validity → Nat
  | .valid => 0 | .invalid => 1

/-- Transition cause, in the order of R35. -/
def causeCode : TransitionCause → Nat
  | .release => 0 | .egress => 1 | .recovery => 2 | .restart => 3

/-- Indicator state, as its two bits in a POLL. -/
def indicatorCode : Indicator → Nat
  | .off => 0 | .on => 1 | .blinkSlow => 2 | .blinkFast => 3

/-- A relay state or wish, ON or OFF in the order of R169. -/
def relayField (on : Bool) : List Byte := one (if on then 0 else 1)

/-! ## Notices -/

/-- The source of a player request (R143): port, key, MODE. -/
def runSourceField : RunSource → List Byte
  | .port p => one 0 ++ portField p
  | .key k => one 1 ++ keyField k
  | .mode => one 2

/-- The source of a mode change (R152): port, key, START, RESTART. -/
def modeSourceField : ModeSource → List Byte
  | .port p => one 0 ++ portField p
  | .key k => one 1 ++ keyField k
  | .start => one 2
  | .restart => one 3

/-- The cause of an EMERGENCY notice (R163): CONTACT, port, RECOVERY_COMPLETE, START. -/
def emergencyCauseField : EmergencyCause → List Byte
  | .contact => one 0
  | .port p => one 1 ++ portField p
  | .recoveryComplete => one 2
  | .start => one 3

/-- A sequence number, or 0 where none is held. -/
def sequenceField : Option SequenceNo → List Byte
  | none => one 0
  | some q => numbered q

/-- The event of a SEQ notice (R143). -/
def seqEventCode : SeqEvent → Nat
  | .started _ => 0 | .passDone => 1 | .ended _ => 2 | .stopped _ => 3 | .waitLock => 4 | .fault _ => 5

/-- The field an event adds (R143). -/
def seqAdded : SeqEvent → List Byte
  | .started source => runSourceField source
  | .passDone => []
  | .ended action => one (endActionCode action)
  | .stopped source => runSourceField source
  | .waitLock => []
  | .fault .badTarget => one 0
  | .fault .poolFull => one 1

/-- The content of a notice, in the order of R189. -/
def noticeContent : Notice → List Byte
  | .key k e => keyField k ++ one e.code
  | .preempted o n => one (ownerCode o) ++ two n
  | .restored n => two n
  | .fadeDone tag => [tag]
  | .standbyEnd n r => numbered n ++ one (reasonCode r)
  | .deferWarning entries level => two entries ++ two level
  | .keyLockout k e => keyField k ++ one (lockoutCode e)
  | .station l n e => numbered l ++ numbered n ++ one (presenceCode e)
  | .mode entered left source preset sequence failed =>
    modeField (some entered) ++ modeField left ++ modeSourceField source ++ one (presetOutcomeCode preset)
      ++ one (sequenceOutcomeCode sequence) ++ flag failed
  | .emergency e contact cause forced =>
    one (emergencyCode e) ++ maybe (fun c => one (contactCode c)) contact ++ emergencyCauseField cause ++ two forced
  | .seq n q e passes step =>
    numbered n ++ sequenceField q ++ one (seqEventCode e) ++ two passes ++ one step ++ seqAdded e
  | .poolFull k needed free => keyField k ++ two needed ++ two free
  | .orphansReleased p n => portField p ++ two n
  | .saveDone => []
  | .saveFailed => []
  | .config v => one (validityCode v)

/-- A notice in a READ_NOTICES reply: kind code, content length, content (R194). -/
def noticeField (n : Notice) : List Byte :=
  one (noticeCode n.kind) ++ one (noticeContent n).length ++ noticeContent n

/-! ## Replies -/

/-- The player record of a reply (R132). A wait remaining above 65535 tenths is sent as its low 16 bits
(notes/assumptions/15.md). -/
def playerField (x : PlayerReport) : List Byte :=
  one (playerModeCode x.mode)
    ++ one (match x.runState with
      | .idle => 0
      | .running => 1
      | .waitLock => 2)
    ++ maybe numbered x.sequence ++ one x.step ++ two x.passes ++ two x.rate ++ maybe two x.pendingRate
    ++ two x.waitRemaining

/-- One claim of a circuit report, in the order of R27. -/
def claimField (x : ClaimReport) : List Byte :=
  one (ownerCode x.owner) ++ one x.rank.val ++ flag x.waiting ++ two x.target ++ two x.level ++ two x.remaining
    ++ flag x.inCommand ++ flag x.orphaned ++ flag x.tracked

/-- The transition of a circuit report, in the order of R43; the kind is 0 LIVE, 1 FIXED (R35). -/
def transitionField (x : TransitionReport) : List Byte :=
  one (causeCode x.cause) ++ flag x.fixed.isSome ++ two x.start
    ++ (match x.fixed with
      | some v => two v
      | none => [])
    ++ two x.duration ++ two x.remaining

/-- The relay fields of a circuit report (R177). -/
def relayReportField (x : RelayReport) : List Byte :=
  relayField x.relay ++ relayField x.wish ++ two x.dwellRemaining

/-- The line fields of a circuit report (R177), period and duty as two bytes each (notes/assumptions/15.md). -/
def lineReportField (x : LineReport) : List Byte :=
  two x.period ++ one (polarityCode x.polarity) ++ two x.duty ++ flag x.pending

/-- A field that is carried only in its case. -/
def carried {α : Type} (f : α → List Byte) : Option α → List Byte
  | none => []
  | some a => f a

/-- A circuit report: claim list, command level, free records, the fields of R43, those of R177 (R194). -/
def circuitField (x : CircuitReport) : List Byte :=
  listed claimField x.claims ++ two x.commandLevel ++ two x.freeRecords ++ two x.level ++ flag x.forced
    ++ maybe transitionField x.transition ++ flag x.switched ++ routeField x.route ++ two x.output
    ++ carried relayReportField x.relay ++ carried lineReportField x.line

/-- Indicator state in a station report: its place in the table of R83. -/
def indicatorPlace : Indicator → Nat
  | .blinkFast => 0 | .blinkSlow => 1 | .on => 2 | .off => 3

/-- One key of a station report (R73). -/
def keyReportField (x : KeyReport) : List Byte := flag x.down ++ flag x.lockedOut ++ one (indicatorPlace x.indicator)

/-- A station report (R73). -/
def stationField (x : StationReport) : List Byte :=
  one (stationTypeCode x.type) ++ one (presenceCode x.presence) ++ flag x.lost ++ listed keyReportField x.keys

/-- The value of a setting: one byte for a mode or a polarity, two for the others (R194). -/
def settingField (number value : Nat) : List Byte := if number = 7 ∨ number = 9 then one value else two value

/-- The reply payload after the header (R187). Part code and preset version have the widths of
notes/assumptions/15.md, and the member count of a group is the count byte of its circuit list, by the same entry. -/
def bodyField : ReplyBody → List Byte
  | .empty => []
  | .ping part revision config => two part ++ one revision ++ one (validityCode config)
  | .modeEntry m preset sequence =>
    modeField (some m) ++ one (presetOutcomeCode preset) ++ one (sequenceOutcomeCode sequence)
  | .slot n => numbered n
  | .player x => playerField x
  | .circuit x => circuitField x
  | .station x => stationField x
  | .notices overflow l => flag overflow ++ listed noticeField l
  | .subscriptions l => two (bitsOf NoticeKind.all l)
  | .counters l => l.flatMap two
  | .rankTable l => l.flatMap fun m => one (mergeCode m)
  | .group defined l free => flag defined ++ listed numbered l ++ two free
  | .preset defined version fade count free pairs =>
    flag defined ++ [version] ++ two fade ++ two count ++ two free ++ listed (fun x => numbered x.1 ++ two x.2) pairs
  | .bindings lists free => lists.flatMap (listed bindingField) ++ two free
  | .stationTable l => listed (fun x => numbered x.1 ++ one (stationTypeCode x.2)) l
  | .sequence d players => maybe sequenceDefField d ++ listed numbered players
  | .modeRecord m current => modeRecordField m ++ flag current
  | .circuitRecord r => circuitRecordField r
  | .roleRecord r rate => roleField r ++ one (linkRateCode rate)
  | .setting number value pending => settingField number value ++ carried (maybe (settingField number)) pending

/-- The reply header (R188, R194). -/
def headerField (r : Reply) : List Byte :=
  one (statusCode r.status) ++ one r.waiting ++ modeField r.mode ++ one (emergencyCode r.emergency)

/-- A master frame: sync, length, kind, tag, payload, CRC-16 (R194). -/
def masterFrame (kind tag : Byte) (payload : List Byte) : List Byte :=
  let covered := one payload.length ++ [kind, tag] ++ payload
  0xC5#8 :: covered ++ crcField covered

/-- The bytes of a reply (R188, R194). -/
def replyBytes (r : Reply) : List Byte := masterFrame r.kind r.tag (headerField r ++ bodyField r.body)

/-! ## POLLs and rack frames -/

/-- Four indicators in one byte, the first in the highest pair (R194). -/
def indicatorByte (l : List Indicator) : Byte :=
  BitVec.ofNat 8 (l.foldl (fun n i => n * 4 + indicatorCode i) 0)

/-- The bytes of a POLL (R194, R195). -/
def pollBytes (x : PollFrame) : List Byte :=
  let covered := [0xB2#8] ++ numbered x.station
    ++ [indicatorByte (x.indicators.take 4), indicatorByte (x.indicators.drop 4)]
  covered ++ [checkByte covered]

/-- The bytes of a rack level frame (R173, R194, R195). -/
def rackBytes (x : RackFrame) : List Byte :=
  let covered := [x.count] ++ x.slots.flatMap two
  0xD7#8 :: covered ++ crcField covered

/-! ## Reading a payload -/

/-- The whole payload read as one record; bytes too few or left over are malformed (R185). -/
def readWhole {α : Type} (f : Reader α) (bytes : List Byte) : Payload α :=
  match f bytes with
  | some (a, []) => .fields a
  | some (_, _ :: _) => .malformed
  | none => .malformed

/-- No fields. -/
def readNothing : Reader Unit := fun l => some ((), l)

/-- A group, or a circuit list (R194). -/
def readTarget : Reader Target := fun l => do
  let (n, l) ← readOne l
  if n = 0 then
    let (g, l) ← readOne l
    return (.group g, l)
  else if n = 1 then
    let (cs, l) ← readList readOne l
    return (.circuits cs, l)
  else none

/-- The fields of PLACE (R10). -/
def readPlace : Reader PlaceFields := fun l => do
  let (target, l) ← readTarget l
  let (level, l) ← readTwo l
  let (fade, l) ← readTwo l
  let (rank, l) ← readOne l
  let (wait, l) ← readFlag l
  return ({ target := target, level := level, fade := fade, rank := rank, wait := wait }, l)

/-- The fields of RELEASE (R20). -/
def readRelease : Reader ReleaseFields := fun l => do
  let (target, l) ← readTarget l
  let (time, l) ← readTwo l
  return ({ target := target, time := time }, l)

/-- The fields of RECALL (R113). -/
def readRecall : Reader RecallFields := fun l => do
  let (preset, l) ← readOne l
  let (fade, l) ← readMaybe readTwo l
  let (rank, l) ← readOne l
  return ({ preset := preset, fade := fade, rank := rank }, l)

/-- Slot and cue of GO (R113, R194). -/
def readGo : Reader (Nat × Cue) := fun l => do
  let (slot, l) ← readOne l
  let (form, l) ← readOne l
  if form = 0 then
    let (f, l) ← readPlace l
    return ((slot, .place f), l)
  else if form = 1 then
    let (f, l) ← readRecall l
    return ((slot, .recall f), l)
  else none

/-- Group, lock rank and timeout of STANDBY (R112). -/
def readStandby : Reader (Nat × Nat × Nat) := fun l => do
  let ((group, rank), l) ← readPair l
  let (timeout, l) ← readTwo l
  return ((group, rank, timeout), l)

/-- Player, sequence, mode and rate of RUN_SEQUENCE (R132). -/
def readRun : Reader (Nat × Nat × Nat × Nat) := fun l => do
  let ((player, sequence), l) ← readPair l
  let (mode, l) ← readOne l
  let (rate, l) ← readTwo l
  return ((player, sequence, mode, rate), l)

/-- Player, mode and rate of SET_PLAYER (R137). -/
def readSet : Reader (Nat × Nat × Nat) := fun l => do
  let ((player, mode), l) ← readPair l
  let (rate, l) ← readTwo l
  return ((player, mode, rate), l)

/-- A number and a record behind it. -/
def readNumbered {α : Type} (f : Reader α) : Reader (Nat × α) := fun l => do
  let (n, l) ← readOne l
  let (a, l) ← f l
  return ((n, a), l)

/-- A setting number with the line of a line setting (R197). -/
def readSettingName : Reader (Nat × Nat) := fun l => do
  let (n, l) ← readOne l
  if n = 8 ∨ n = 9 then
    let (line, l) ← readOne l
    return ((n, line), l)
  else return ((n, 0), l)

/-- A setting's value by its width; of an unknown setting nothing is read, since its number is refused. -/
def readSettingValue (number : Nat) : Reader Nat := fun l =>
  if 9 < number then some (0, []) else if number = 7 ∨ number = 9 then readOne l else readTwo l

/-- Setting, line and value of a setting's write (R197). -/
def readSettingWrite : Reader (Nat × Nat × Nat) := fun l => do
  let ((n, line), l) ← readSettingName l
  let (v, l) ← readSettingValue n l
  return ((n, line, v), l)

/-- Key address, edge and entries of a binding write (R90). -/
def readBindingsWrite : Reader (RawKey × Nat × List RawBinding) := fun l => do
  let (k, l) ← readKey l
  let (e, l) ← readOne l
  let (entries, l) ← readList readBinding l
  return ((k, e, entries), l)

/-- Preset, default fade and pair count of an open part (R58). -/
def readOpenPart : Reader (Nat × Nat × Nat) := fun l => do
  let ((n, fade), l) ← readEntry l
  let (count, l) ← readTwo l
  return ((n, fade, count), l)

/-! ## Requests by kind (R187, R197) -/

/-- A READ_TABLE by its table kind; an unlisted kind is BAD_REQUEST (R197). -/
def readTableCommand (p : Port) (tag : Byte) : List Byte → Instr
  | 0 :: l => .readRankTable p tag (readWhole readNothing l)
  | 1 :: l => .readGroup p tag (readWhole readOne l)
  | 2 :: l => .readPreset p tag (readWhole readEntry l)
  | 3 :: l => .readBindings p tag (readWhole readKey l)
  | 4 :: l => .readStationTable p tag (readWhole readOne l)
  | 5 :: l => .readSequence p tag (readWhole readOne l)
  | 6 :: l => .readModeRecord p tag (readWhole readOne l)
  | 7 :: l => .readCircuitRecord p tag (readWhole readOne l)
  | 8 :: l => .readRoleRecord p tag (readWhole readOne l)
  | 9 :: l => .readSystemSetting p tag (readWhole readSettingName l)
  | _ => .unknownRequestKind p 0x40 tag

/-- A WRITE_TABLE by its table kind; a preset's write is an open part (0) or a pairs part (1). -/
def writeTableCommand (p : Port) (tag : Byte) : List Byte → Instr
  | 0 :: l => .writeRankTable p tag (readWhole (readMany readOne 8) l)
  | 1 :: l => .writeGroup p tag (readWhole (readNumbered (readList readOne)) l)
  | 2 :: 0 :: l => .writePresetOpen p tag (readWhole readOpenPart l)
  | 2 :: 1 :: l => .writePresetPairs p tag (readWhole (readNumbered (readList readEntry)) l)
  | 3 :: l => .writeBindings p tag (readWhole readBindingsWrite l)
  | 4 :: l => .writeStationTable p tag (readWhole (readNumbered (readList readPair)) l)
  | 5 :: l => .writeSequence p tag (readWhole (readNumbered readSequence) l)
  | 6 :: l => .writeModeRecord p tag (readWhole (readNumbered readModeFields) l)
  | 7 :: l => .writeCircuitRecord p tag (readWhole (readNumbered readCircuitFields) l)
  | 8 :: l => .writeRoleRecord p tag (readWhole (readNumbered readRoleFields) l)
  | 9 :: l => .writeSystemSetting p tag (readWhole readSettingWrite l)
  | _ => .unknownRequestKind p 0x41 tag

/-- The two bytes of a subscription set (R192). -/
def readSet16 : Reader (BitVec 16) := fun l => do
  let (n, l) ← readTwo l
  return (BitVec.ofNat 16 n, l)

/-- The command of a valid frame on port `p`, by its kind byte (R187). -/
def requestCommand (p : Port) (kind tag : Byte) (l : List Byte) : Instr :=
  match kind.toNat with
  | 0x01 => .ping p tag (readWhole readNothing l)
  | 0x10 => .place p tag (readWhole readPlace l)
  | 0x11 => .release p tag (readWhole readRelease l)
  | 0x12 => .recall p tag (readWhole readRecall l)
  | 0x20 => .setMode p tag (readWhole readOne l)
  | 0x21 => .standby p tag (readWhole readStandby l)
  | 0x22 => .go p tag (readWhole readGo l)
  | 0x23 => .cancel p tag (readWhole readOne l)
  | 0x24 => .runSequence p tag (readWhole readRun l)
  | 0x25 => .setPlayer p tag (readWhole readSet l)
  | 0x26 => .emergencyOn p tag (readWhole readNothing l)
  | 0x27 => .clearEmergency p tag (readWhole readNothing l)
  | 0x30 => .queryCircuit p tag (readWhole readOne l)
  | 0x31 => .queryStation p tag (readWhole readPair l)
  | 0x32 => .readNotices p tag (readWhole readTwo l)
  | 0x33 => .subscribe p tag (readWhole readSet16 l)
  | 0x34 => .readCounters p tag (readWhole readNothing l)
  | 0x40 => readTableCommand p tag l
  | 0x41 => writeTableCommand p tag l
  | 0x42 => .saveConfig p tag (readWhole readNothing l)
  | 0x43 => .restart p tag (readWhole readNothing l)
  | _ => .unknownRequestKind p kind tag

/-- The bytes from the first sync byte on: a port discards every byte before it (R184). -/
def huntSync (bytes : List Byte) : List Byte := bytes.dropWhile fun b => b != 0xC5#8

/-- The command that the bytes of one frame on port `p` make, the sync byte first (R184): a bad frame by its length
byte or its CRC-16, or a request. None until the frame is complete. -/
def frameCommand (p : Port) (bytes : List Byte) : Option Instr :=
  match bytes with
  | 0xC5 :: length :: rest =>
    if 240 < length.toNat then some (.badFrame p .length)
    else if rest.length < length.toNat + 4 then none
    else
      let covered := length :: rest.take (length.toNat + 2)
      if (rest.drop (length.toNat + 2)).take 2 = crcField covered then
        match rest with
        | kind :: tag :: payload => some (requestCommand p kind tag (payload.take length.toNat))
        | _ => none
      else some (.badFrame p .crc)
  | _ => none

end Sys2Proof.Machine
end

