-- ==== Sys2Proof/WellFormed.lean ====
section
/-! DEFINITION. Which commands can reach the part: every number fits the bytes its field has on the wire (R194), every list fits a frame of 240 payload bytes (R184), an image fits its memory (R196), and a frame of an unknown kind has no listed kind (R187). What the part thinks of a value in these widths is judged by the owning rules, not here. -/

namespace Sys2Proof

/-- Fits one byte (R194). -/
def fitsByte (n : Nat) : Bool := decide (n < 256)

/-- Fits two bytes (R194). -/
def fitsWord (n : Nat) : Bool := decide (n < 65536)

/-- An absent field, or one that fits. -/
def fitsMaybe (f : Nat → Bool) (x : Option Nat) : Bool := x.all f

/-- `count` entries of `width` bytes fit a payload whose other fields take `rest` bytes (R184). -/
def fitsPayload (rest width count : Nat) : Bool := decide (rest + width * count ≤ 240)

/-- The fields are fit, or the payload is malformed bytes. -/
def Payload.fits {α : Type} (f : α → Bool) : Payload α → Bool
  | .fields a => f a
  | .malformed => true

/-- R194. -/
def Target.fits : Target → Bool
  | .group n => fitsByte n
  | .circuits l => l.all fitsByte && fitsPayload 12 1 l.length

/-- R194. -/
def PlaceFields.fits (f : PlaceFields) : Bool := f.target.fits && fitsWord f.level && fitsWord f.fade && fitsByte f.rank

/-- R194. -/
def ReleaseFields.fits (f : ReleaseFields) : Bool := f.target.fits && fitsWord f.time

/-- R194. -/
def RecallFields.fits (f : RecallFields) : Bool := fitsByte f.preset && fitsMaybe fitsWord f.fade && fitsByte f.rank

/-- R194. -/
def Cue.fits : Cue → Bool
  | .place f => f.fits
  | .recall f => f.fits

/-- R194. -/
def RawKey.fits (k : RawKey) : Bool := fitsByte k.loop && fitsByte k.index

/-- R194. -/
def RawBindingTarget.fits : RawBindingTarget → Bool
  | .number n => fitsByte n
  | .run p q m => fitsByte p && fitsByte q && fitsByte m

/-- R194: SEQ_RUN (code 7) alone carries the three numbers of its target (R88). -/
def RawBinding.fits (b : RawBinding) : Bool :=
  fitsByte b.gate && fitsByte b.action && b.target.fits && fitsMaybe fitsWord b.level && fitsMaybe fitsWord b.fade
    && fitsMaybe fitsByte b.rank
    && (match b.target with
      | .run _ _ _ => b.action == 7
      | .number _ => b.action != 7)

/-- R194. -/
def RawStep.fits (x : RawStep) : Bool :=
  fitsByte x.kind && fitsMaybe fitsByte x.preset && fitsWord x.fade && fitsWord x.wait

/-- R194. -/
def RawSequence.fits (q : RawSequence) : Bool :=
  q.steps.all RawStep.fits && fitsPayload 9 6 q.steps.length && fitsByte q.rank && fitsByte q.endAction
    && fitsWord q.releaseTime && fitsWord q.passLimit

/-- R194. -/
def RawEntrySequence.fits (x : RawEntrySequence) : Bool :=
  fitsByte x.player && fitsByte x.mode && fitsMaybe fitsByte x.sequence

/-- R194. -/
def RawModeRecord.fits (m : RawModeRecord) : Bool :=
  fitsMaybe fitsByte m.entryPreset && fitsByte m.entryRank && fitsWord m.entryFade
    && m.entrySequence.all RawEntrySequence.fits

/-- R194: a line follows the route LOCAL (code 1) alone (R165). -/
def RawCircuitRecord.fits (r : RawCircuitRecord) : Bool :=
  fitsByte r.kind && fitsByte r.route && fitsMaybe fitsByte r.line && fitsWord r.base && fitsMaybe fitsWord r.emergency
    && fitsMaybe fitsByte r.curve && fitsMaybe fitsWord r.min && fitsMaybe fitsWord r.max
    && fitsMaybe fitsWord r.threshold && fitsMaybe fitsWord r.hysteresis && fitsMaybe fitsWord r.dwell
    && r.line.isSome == (r.route == 1)

/-- R194. -/
def RawRoleRecord.fits (r : RawRoleRecord) : Bool :=
  fitsByte r.maxRank && r.access.all (fun l => l.all fitsByte && fitsPayload 13 1 l.length) && fitsByte r.permissions
    && fitsWord r.lease && fitsWord r.orphanHold && fitsWord r.orphanRelease && fitsByte r.linkRate

/-- The memory of R196 holds 64 KiB. -/
def ImageRead.fits : ImageRead → Bool
  | .external bytes => decide (bytes.length ≤ 65536)
  | .failed => true
  | .stored => true

/-- The header of R196: a format number of one byte and a length of two (notes/assumptions/9.md). -/
def HeaderLeft.fits : HeaderLeft → Bool
  | .part format length _ => fitsByte format && fitsWord length
  | .untouched => true
  | .whole => true

/-- R199. -/
def SaveFailure.fits : SaveFailure → Bool
  | .erasing left => left.fits
  | .tables => true
  | .header => true

/-- A kind byte that R187 does not list, or a table request, whose table kind R197 may not list. -/
def unknownKind (kind : Byte) : Bool :=
  !(([0x01, 0x10, 0x11, 0x12, 0x20, 0x21, 0x22, 0x23, 0x24, 0x25, 0x26, 0x27, 0x30, 0x31, 0x32, 0x33, 0x34, 0x42,
      0x43] : List Byte).contains kind)

/-- The command can reach the part (R184, R187, R194). -/
def Instr.wellFormed : Instr → Bool
  | .place _ _ x => x.fits PlaceFields.fits
  | .release _ _ x => x.fits ReleaseFields.fits
  | .recall _ _ x => x.fits RecallFields.fits
  | .setMode _ _ x => x.fits fitsByte
  | .standby _ _ x => x.fits fun f => fitsByte f.1 && fitsByte f.2.1 && fitsWord f.2.2
  | .go _ _ x => x.fits fun f => fitsByte f.1 && f.2.fits
  | .cancel _ _ x => x.fits fitsByte
  | .runSequence _ _ x => x.fits fun f => fitsByte f.1 && fitsByte f.2.1 && fitsByte f.2.2.1 && fitsWord f.2.2.2
  | .setPlayer _ _ x => x.fits fun f => fitsByte f.1 && fitsByte f.2.1 && fitsWord f.2.2
  | .queryCircuit _ _ x => x.fits fitsByte
  | .queryStation _ _ x => x.fits fun f => fitsByte f.1 && fitsByte f.2
  | .readNotices _ _ x => x.fits fitsWord
  | .readGroup _ _ x => x.fits fitsByte
  | .readPreset _ _ x => x.fits fun f => fitsByte f.1 && fitsWord f.2
  | .readBindings _ _ x => x.fits RawKey.fits
  | .readStationTable _ _ x => x.fits fitsByte
  | .readSequence _ _ x => x.fits fitsByte
  | .readModeRecord _ _ x => x.fits fitsByte
  | .readCircuitRecord _ _ x => x.fits fitsByte
  | .readRoleRecord _ _ x => x.fits fitsByte
  | .readSystemSetting _ _ x => x.fits fun f => fitsByte f.1 && fitsByte f.2
  | .writeRankTable _ _ x => x.fits fun l => l.all fitsByte && decide (l.length = 8)
  | .writeGroup _ _ x => x.fits fun f => fitsByte f.1 && f.2.all fitsByte && fitsPayload 3 1 f.2.length
  | .writePresetOpen _ _ x => x.fits fun f => fitsByte f.1 && fitsWord f.2.1 && fitsWord f.2.2
  | .writePresetPairs _ _ x =>
    x.fits fun f => fitsByte f.1 && f.2.all (fun y => fitsByte y.1 && fitsWord y.2) && fitsPayload 4 3 f.2.length
  | .writeBindings _ _ x =>
    x.fits fun f => f.1.fits && fitsByte f.2.1 && f.2.2.all RawBinding.fits && fitsPayload 5 6 f.2.2.length
  | .writeStationTable _ _ x =>
    x.fits fun f => fitsByte f.1 && f.2.all (fun y => fitsByte y.1 && fitsByte y.2) && fitsPayload 3 2 f.2.length
  | .writeSequence _ _ x => x.fits fun f => fitsByte f.1 && f.2.fits
  | .writeModeRecord _ _ x => x.fits fun f => fitsByte f.1 && f.2.fits
  | .writeCircuitRecord _ _ x => x.fits fun f => fitsByte f.1 && f.2.fits
  | .writeRoleRecord _ _ x => x.fits fun f => fitsByte f.1 && f.2.fits
  | .writeSystemSetting _ _ x => x.fits fun f => fitsByte f.1 && fitsByte f.2.1 && fitsWord f.2.2
  | .unknownRequestKind _ kind _ => unknownKind kind
  | .imageTaken read => read.fits
  | .saveFailed failure => failure.fits
  | .fullReset | .startupEnd | .badFrame _ _ | .lostFrameIgnored _ | .ping _ _ _
  | .emergencyOn _ _ _ | .clearEmergency _ _ _ | .subscribe _ _ _ | .readCounters _ _ _ | .readRankTable _ _ _
  | .saveConfig _ _ _ | .saveDone | .restart _ _ _ | .leaseExpiry _ | .lostTimerExpiry _
  | .orphanHoldExpiry _ | .fadeCompletion _ _ | .transitionEnd _ | .poll _ | .report _ _ | .replyWindowExpiry _
  | .holdTimerExpiry _ | .quietTimerExpiry _ | .refusalBlinkExpiry _ | .deferredEntryExpiry | .slotExpiry _
  | .waitTimerExpiry _ | .contactReading _ | .debounceTimerExpiry | .rackSample | .dwellEnd _ | .pwmPeriodEnd _ => true

end Sys2Proof
end

