-- ==== Sys2Proof/Tests/Slice0.lean ====
section
/-! SUPPORT. The model's own tests: well-formedness refuses what cannot reach the part, small results of single commands and derived values, the wire formats, and for every statement with hypotheses a state that meets them. -/

namespace Sys2Proof.Tests

-- One test at a time: tests checked at once would need more memory together than a check of the package has.
set_option Elab.async false

open Sys2Proof Sys2Proof.Machine

/-! ## Well-formedness -/

theorem test_place_with_group_300_is_ill_formed :
    Instr.wellFormed (.place .a 1 (.fields ⟨.group 300, 0, 0, 0, false⟩)) = false := by decide +kernel
theorem test_place_with_level_65536_is_ill_formed :
    Instr.wellFormed (.place .a 1 (.fields ⟨.group 1, 65536, 0, 0, false⟩)) = false := by decide +kernel
theorem test_place_of_229_circuits_is_ill_formed :
    Instr.wellFormed (.place .a 1 (.fields ⟨.circuits (List.replicate 229 1), 0, 0, 0, false⟩)) = false := by
  decide +kernel
theorem test_release_with_time_65536_is_ill_formed :
    Instr.wellFormed (.release .a 1 (.fields ⟨.group 1, 65536⟩)) = false := by decide +kernel
theorem test_recall_with_fade_65536_is_ill_formed :
    Instr.wellFormed (.recall .a 1 (.fields ⟨1, some 65536, 0⟩)) = false := by decide +kernel
theorem test_set_mode_256_is_ill_formed : Instr.wellFormed (.setMode .a 1 (.fields 256)) = false := by decide +kernel
theorem test_standby_with_timeout_65536_is_ill_formed :
    Instr.wellFormed (.standby .a 1 (.fields (1, 1, 65536))) = false := by decide +kernel
theorem test_go_with_rank_256_is_ill_formed :
    Instr.wellFormed (.go .a 1 (.fields (1, .place ⟨.group 1, 0, 0, 256, false⟩))) = false := by decide +kernel
theorem test_run_with_rate_65536_is_ill_formed :
    Instr.wellFormed (.runSequence .a 1 (.fields (1, 1, 1, 65536))) = false := by decide +kernel
theorem test_set_player_256_is_ill_formed :
    Instr.wellFormed (.setPlayer .a 1 (.fields (256, 1, 0))) = false := by decide +kernel
theorem test_rank_table_of_seven_is_ill_formed :
    Instr.wellFormed (.writeRankTable .a 1 (.fields [0, 0, 0, 0, 0, 0, 0])) = false := by decide +kernel
theorem test_group_of_238_members_is_ill_formed :
    Instr.wellFormed (.writeGroup .a 1 (.fields (1, List.replicate 238 1))) = false := by decide +kernel
theorem test_preset_of_79_pairs_is_ill_formed :
    Instr.wellFormed (.writePresetPairs .a 1 (.fields (1, List.replicate 79 (1, 0)))) = false := by decide +kernel
theorem test_binding_key_256_is_ill_formed :
    Instr.wellFormed (.writeBindings .a 1 (.fields (⟨1, 256⟩, 0, []))) = false := by decide +kernel
theorem test_on_binding_with_run_target_is_ill_formed :
    Instr.wellFormed (.writeBindings .a 1 (.fields (⟨1, 0⟩, 0, [⟨1, 0, .run 1 1 1, none, none, none⟩]))) = false := by
  decide +kernel
theorem test_station_list_of_119_is_ill_formed :
    Instr.wellFormed (.writeStationTable .a 1 (.fields (1, List.replicate 119 (1, 0)))) = false := by decide +kernel
theorem test_sequence_with_wait_65536_is_ill_formed :
    Instr.wellFormed (.writeSequence .a 1 (.fields (1, ⟨[⟨1, none, 0, 65536⟩], 0, 0, 0, 0⟩))) = false := by
  decide +kernel
theorem test_entry_sequence_of_player_256_is_ill_formed :
    Instr.wellFormed (.writeModeRecord .a 1 (.fields (1, ⟨none, 0, 0, some ⟨256, 0, none⟩⟩))) = false := by
  decide +kernel
theorem test_link_circuit_with_line_is_ill_formed :
    Instr.wellFormed (.writeCircuitRecord .a 1
      (.fields (1, ⟨0, 0, some 1, 0, none, some 0, some 0, some 1000, none, none, none⟩))) = false := by decide +kernel
theorem test_role_with_228_groups_is_ill_formed :
    Instr.wellFormed (.writeRoleRecord .a 1 (.fields (0, ⟨7, some (List.replicate 228 0), 0, 5, 30, 30, 0⟩))) = false := by
  decide +kernel
theorem test_setting_65536_is_ill_formed :
    Instr.wellFormed (.writeSystemSetting .a 1 (.fields (0, 0, 65536))) = false := by decide +kernel
theorem test_listed_kind_is_not_unknown : Instr.wellFormed (.unknownRequestKind .a 0x01 0) = false := by decide +kernel
theorem test_unlisted_kind_is_unknown : Instr.wellFormed (.unknownRequestKind .a 0x02 0) = true := by decide +kernel
theorem test_longest_circuit_list_is_well_formed :
    Instr.wellFormed (.place .a 1 (.fields ⟨.circuits (List.replicate 32 192), 1000, 36000, 7, true⟩)) = true := by
  decide +kernel

/-! ## Derived values (R5, R30, R36, R131, R168, R170) -/

/-- A fade from 0 to 1000 over 30 tenths stands at 333 after 10 of them. -/
theorem test_rising_fade_is_truncated : travel 0 1000 10 30 = 333 := by decide
/-- A falling fade is truncated toward its start. -/
theorem test_falling_fade_is_truncated : travel 1000 0 10 30 = 667 := by decide
theorem test_fade_elapsed_counts_whole_tenths : Fade.elapsed ⟨0, 30, 199999, 0⟩ = 1 := by decide
theorem test_square_curve : dimmedOutput .square 100 900 500 = 300 := by decide
theorem test_linear_curve : dimmedOutput .linear 100 900 500 = 500 := by decide
theorem test_wait_at_rate_300 : waitTenths 10 300 = 3 := by decide
theorem test_shortest_wait_is_one_tenth : waitTenths 1 400 = 1 := by decide
theorem test_wish_within_hysteresis_stands :
    judgeWish 500 100 450 true = true ∧ judgeWish 500 100 450 false = false := by decide
theorem test_wish_at_the_edges : judgeWish 500 100 500 false = true ∧ judgeWish 500 100 399 true = false := by decide
theorem test_raise_of_a_quarter_takes_a_quarter : raiseFade 6 1000 750 = 15 := by decide
theorem test_eleventh_change_ends_a_window : chatterWindow (some (0, 10)) 1999999 = (0, 11) := by decide
theorem test_chatter_window_ends_after_two_seconds : chatterWindow (some (0, 10)) 2000000 = (2000000, 1) := by decide

theorem test_line_is_active_for_its_duty :
    let line : PwmLine := ⟨.running 0, 1000, none, .activeHigh, none, 250⟩
    line.isHigh 0 = true ∧ line.isHigh 249 = true ∧ line.isHigh 250 = false ∧ PwmLine.fresh.isHigh 0 = false := by
  decide

/-! ## Wire formats (R194, R195) -/

/-- The check value of the CRC-16 of R195 over the digits 1 to 9. -/
theorem test_crc16_check_value :
    crc16 [0x31, 0x32, 0x33, 0x34, 0x35, 0x36, 0x37, 0x38, 0x39] = 0x29B1#16 := by decide +kernel
theorem test_good_report : judgeReport (some .switch2) [0xB3, 2, 1, 0xB0] = .good 1 := by decide +kernel
theorem test_report_of_wrong_type : judgeReport (some .keypad8) [0xB3, 2, 1, 0xB0] = .mismatch := by decide +kernel
theorem test_report_with_bad_check : judgeReport (some .switch2) [0xB3, 2, 1, 0xB1] = .miss := by decide +kernel
theorem test_poll_bytes :
    pollBytes ⟨2, [.on, .off, .off, .off, .off, .off, .off, .blinkFast]⟩ = [0xB2, 3, 0x40, 0x03, 0xF2] := by
  decide +kernel
theorem test_place_frame_is_read :
    frameCommand .b (masterFrame 0x10 7 [1, 2, 5, 9, 0x01, 0xF4, 0x00, 0x0A, 3, 1]) =
      some (.place .b 7 (.fields ⟨.circuits [5, 9], 500, 10, 3, true⟩)) := by decide +kernel
theorem test_short_place_is_malformed :
    frameCommand .b (masterFrame 0x10 7 [0, 1]) = some (.place .b 7 .malformed) := by decide +kernel
theorem test_bad_crc_is_a_bad_frame : frameCommand .a [0xC5, 0, 0x01, 0, 0, 0] = some (.badFrame .a .crc) := by
  decide +kernel
theorem test_length_above_240_is_a_bad_frame : frameCommand .a [0xC5, 241] = some (.badFrame .a .length) := by
  decide +kernel

/-! ## The image (R196) -/

/-- The check value of the CRC-32 of R196 over the digits 1 to 9. -/
theorem test_crc32_check_value :
    crc32 [0x31, 0x32, 0x33, 0x34, 0x35, 0x36, 0x37, 0x38, 0x39] = 0xCBF43926#32 := by decide +kernel
theorem test_default_image_reads_back : readTables (Tables.image defaultTables) = some defaultTables := by
  decide +kernel
theorem test_image_of_one_byte_has_no_header : StoredImage.ofBytes [1] = none := by decide
theorem test_header_is_high_byte_first :
    StoredImage.ofBytes [1, 0, 9, 0x11, 0x22, 0x33, 0x44, 5, 6, 7] = some ⟨1, 9, 0x11223344, [5, 6]⟩ := by decide +kernel
theorem test_memory_above_64_KiB_is_ill_formed :
    Instr.wellFormed (.imageTaken (.external (List.replicate 65537 0))) = false := by decide +kernel
theorem test_header_left_with_format_256_is_ill_formed :
    Instr.wellFormed (.saveFailed (.erasing (.part 256 0 0))) = false := by decide +kernel
theorem test_header_left_with_length_65536_is_ill_formed :
    Instr.wellFormed (.saveFailed (.erasing (.part 255 65536 0))) = false := by decide +kernel

/-! ## Single commands on small states -/

/-- A running part in WORK with the default tables. -/
def world : State := { State.reset with startup := .running, mode := some .work }

theorem ready_of {s : State} {p : Port}
    (h : s.startup = .running ∧ s.isLost p = false ∧ s.busy p = false ∧ s.replayOwed = false) : Ready s p :=
  ⟨h.1, h.2.1, h.2.2.1, h.2.2.2⟩

theorem ready_world (p : Port) : Ready world p := by
  cases p <;> exact ready_of (by decide +kernel)

theorem mayEdit_world (p : Port) : MayEdit world p := by
  cases p <;> exact ⟨by decide +kernel, by decide +kernel, rfl⟩

/-- `world` in SHOW. -/
def shown : State := { world with mode := some .inShow }

theorem ready_shown (p : Port) : Ready shown p := by
  cases p <;> exact ready_of (by decide +kernel)

/-- The state an outcome goes on with. -/
def after (o : Host.Outcome State Fault Refusal) : State :=
  match o with
  | .next s => s
  | .fault f => nomatch f
  | .refused _ => .reset

theorem test_ping_answers :
    ((after (exec (.ping .a 9 (.fields ())) world)).port .a).lastReply =
      some ⟨0x01, 9, .ok, 0, some .work, .normal, .ping 0x0C92 1 .invalid⟩ := by decide +kernel
theorem test_bad_frame_is_counted : ((after (exec (.badFrame .c .gap) world)).port .c).badFrames = 1 := by
  decide +kernel
theorem test_bad_frame_before_the_image_is_not_counted :
    ((after (exec (.badFrame .c .gap) .reset)).port .c).badFrames = 0 := by decide +kernel
theorem test_placed_claim_stands_at_its_level :
    (after (exec (.place .a 0 (.fields ⟨.circuits [1], 600, 0, 3, false⟩)) world)).commandLevel 0 = 600 := by
  decide +kernel
theorem test_group_write_defines_the_group :
    (after (exec (.writeGroup .a 1 (.fields (2, [4, 5]))) world)).members 2 = some [3, 4] := by decide +kernel
theorem test_egress_starts_from_the_level :
    ((after (exec (.emergencyOn .a 1 (.fields ())) { world with tables := { world.tables with
      circuits := world.tables.circuits.set 3 ⟨.dimmed .linear 0 1000, .link, 200, some 1000⟩ } })).circuit 3).transition =
      some ⟨.egress, some 1000, 200, 5, 0⟩ := by decide +kernel
theorem test_first_contact_reading_starts_the_debounce :
    (after (exec (.contactReading .active) world)).emergency.debounce = some (.active, 100000) := by decide +kernel
theorem test_step_of_an_empty_queue_lets_time_pass_while_starting :
    (after (step State.reset)).now = 1 := by decide +kernel
theorem test_full_reset_keeps_the_queue :
    (after (step { world with pending := [.fullReset, .imageTaken .stored] })).pending = [.imageTaken .stored] := by
  decide +kernel
theorem test_no_word_spells_a_command : State.withFetchWord world 32 0 = world := rfl

/-! ## Witnesses: states that meet the hypotheses of the statements, clause by clause -/

/-- Port A is LOST until 2 s. -/
def lostWorld : State := world.onPort .a fun x => { x with link := .lost 2000000 }
/-- Port A is ONLINE until 5 s and holds an orphan hold until 9 s. -/
def onlineWorld : State := world.onPort .a fun x => { x with link := .online 5000000, orphanEnd := some 9000000 }
/-- Port B saves. -/
def savingWorld : State :=
  { world with save := some { port := .b, tag := 4, replyOwed := true, tables := defaultTables, earlier := none } }
/-- The image is being judged. -/
def judgingWorld : State := { State.reset with startup := .judging defaultTables .invalid }

theorem ready_saving : Ready savingWorld .a := ready_of (by decide +kernel)

/-- A claim of port A on circuit 1, complete at 500, and a fade of FIELD on circuit 2 that is due. -/
def claimedWorld : State :=
  (world.onCircuit 0 fun x => { x with claims := [⟨.port .a, 3, .effective none, 500, none, none⟩] }).onCircuit 1
    fun x => { x with claims := [⟨.field, 3, .effective (some ⟨0, 10, 1000000, 0⟩), 500, none, none⟩] }

theorem ready_claimed : Ready claimedWorld .a := ready_of (by decide +kernel)

/-- `claimedWorld` with a command that waits. -/
def steppedWorld : State := { claimedWorld with pending := [.lostFrameIgnored .a] }

theorem test_witness_EveryCommandRuns : world.replayOwed = false := rfl

theorem test_witness_steps_go_on : ∃ t, step steppedWorld = .next t := ⟨_, rfl⟩

theorem claimedWorld_circuits (c : Circuit) :
    (steppedWorld.circuit c) = CircuitState.clear
    ∨ (steppedWorld.circuit c) = { CircuitState.clear with claims := [⟨.port .a, 3, .effective none, 500, none, none⟩] }
    ∨ (steppedWorld.circuit c) = { CircuitState.clear with
        claims := [⟨.field, 3, .effective (some ⟨0, 10, 1000000, 0⟩), 500, none, none⟩] } := by
  have reset : ∀ i, State.reset.circuits.get i = CircuitState.clear := fun i => Tab.get_const _ i
  unfold State.circuit steppedWorld claimedWorld State.onCircuit world
  dsimp only
  rw [Tab.get_modify, Tab.get_modify, Tab.get_modify, reset, reset, reset]
  by_cases a : c = 1
  · right; right; simp [a]
  · by_cases b : c = 0
    · right; left; simp [b]
    · left; simp [a, b]

theorem test_witness_StepKeepsListsInOrder : ListsInOrder steppedWorld := fun c => by
  unfold State.claims
  rcases claimedWorld_circuits c with h | h | h <;> rw [h] <;> simp [Listed, CircuitState.clear]

theorem test_witness_StepKeepsBounds : WithinBounds steppedWorld where
  ports i := by
    have h : steppedWorld.ports.get i = PortState.fresh := Tab.get_const _ i
    rw [h]; simp [PortState.Bounded, PortState.fresh]
  loops i := by
    have h : steppedWorld.loops.get i = LoopState.fresh := Tab.get_const _ i
    rw [h]; simp [LoopState.Bounded, LoopState.fresh]
  counters := by
    have h : steppedWorld.counters = GlobalCounters.zero := rfl
    rw [h]; simp [GlobalCounters.Bounded, GlobalCounters.zero]
  deferred := by
    have h : steppedWorld.deferred = [] := rfl
    rw [h]; simp
  stock := ⟨by decide +kernel, ⟨by decide +kernel, by decide +kernel, fun p => by cases p <;> decide +kernel⟩⟩

/-- Trackers that fit: eight of one port under numbers of their own. -/
theorem test_witness_TrackersFit :
    TrackersFit ((indices 8).map fun i => { id := ⟨i.val, by omega⟩, port := .a, tag := 1, count := 1 }) :=
  ⟨by decide +kernel, by decide +kernel, fun p => by cases p <;> decide +kernel⟩

theorem default_fits : Tables.Fit defaultTables := by unfold Tables.Fit; decide +kernel

theorem test_witness_StepKeepsStoresFit : StoresFit steppedWorld ∧ StoresFit judgingWorld :=
  ⟨⟨default_fits, fun t v h => by exact absurd h (by simp [steppedWorld, claimedWorld, world, State.onCircuit])⟩,
    ⟨default_fits, fun t v h => by
      simp only [judgingWorld, Startup.judging.injEq] at h
      rw [← h.1]; exact default_fits⟩⟩

theorem test_witness_StepKeepsForcingInOrder : ForcingInOrder steppedWorld where
  fixed c t h := by rcases claimedWorld_circuits c with k | k | k <;> rw [k] at h <;> simp [CircuitState.clear] at h
  recovery _ := rfl

theorem test_witness_StepKeepsRelaysInOrder : RelaysInOrder steppedWorld where
  dimmed c _ := by rcases claimedWorld_circuits c with k | k | k <;> rw [k] <;> rfl
  starting h := absurd rfl h
  samples _ := rfl

/-- A slot armed by port A in SHOW, its port ONLINE. -/
def armedWorld : State :=
  { (shown.onPort .a fun x => { x with link := .online 5000000 }) with
    slots := shown.slots.set 0 (some ⟨.armed, .a, [0], 4, 30, 30000000⟩) }

theorem ready_armed : Ready armedWorld .a := ready_of (by decide +kernel)

theorem ready_armed_b : Ready armedWorld .b := ready_of (by decide +kernel)

theorem test_witness_StepKeepsSlotsInOrder : SlotsInOrder { armedWorld with pending := [.lostFrameIgnored .a] } := by
  intro n k h
  have e : (shown.slots.set 0 (some ⟨.armed, .a, [0], 4, 30, 30000000⟩)).get n = some k := h
  have z : shown.slots.get n = none := Tab.get_const _ n
  rw [Tab.get_set] at e
  split at e
  · cases e; exact ⟨rfl, by decide +kernel⟩
  · rw [z] at e; exact absurd e (by simp)

theorem test_witness_FramesNotServedDoNothingElse :
    requestOf (.ping .a 1 .malformed) = some (.a, 0x01, 1)
    ∧ (lostWorld.startup = .running ∧ lostWorld.isLost .a = true)
    ∧ State.reset.startup = .reading
    ∧ (∃ t v, judgingWorld.startup = .judging t v)
    ∧ (savingWorld.startup = .running ∧ savingWorld.isLost .b = false ∧ savingWorld.busy .b = true)
    ∧ world.startup ≠ .reading :=
  ⟨rfl, ⟨rfl, by decide +kernel⟩, rfl, ⟨_, _, rfl⟩, ⟨rfl, by decide +kernel, by decide +kernel⟩, by decide +kernel⟩

theorem test_witness_MalformedRequestsAreRefused :
    requestOf (.place .a 1 .malformed) = some (.a, 0x10, 1) ∧ malformedRequest (.place .a 1 .malformed) = true
    ∧ requestOf (.unknownRequestKind .a 0xFF 1) = some (.a, 0xFF, 1)
    ∧ malformedRequest (.unknownRequestKind .a 0xFF 1) = true ∧ Ready world .a :=
  ⟨rfl, rfl, rfl, rfl, ready_world .a⟩

theorem test_witness_PingAndRecordReadsAnswer :
    Ready world .a ∧ HouseMode.ofCode 1 = some .work ∧ HouseMode.ofCode 5 = some .secure
    ∧ Port.ofCode 0 = some .a ∧ Port.ofCode 3 = some .d
    ∧ indexOf 4 0 = none ∧ indexOf 4 5 = none ∧ indexOf 16 0 = none ∧ indexOf 16 17 = none
    ∧ HouseMode.ofCode 0 = none ∧ HouseMode.ofCode 6 = none ∧ indexOf 192 0 = none ∧ indexOf 192 193 = none
    ∧ Port.ofCode 4 = none :=
  ⟨ready_world .a, by decide +kernel⟩

/-- Preset 1 is defined: circuit 1 at 700 and circuit 2 at 1000, default fade 20. -/
def presetWorld : State :=
  { world with tables := { world.tables with presets := world.tables.presets.set 0 (some ⟨20, [(0, 700), (1, 1000)]⟩) } }

theorem ready_preset : Ready presetWorld .a := ready_of (by decide +kernel)

theorem test_witness_StoreReadsAnswer :
    Ready presetWorld .a ∧ 64 < 65 ∧ (1 ≤ 1 ∧ presetWorld.presetDef 0 = some ⟨20, [(0, 700), (1, 1000)]⟩)
    ∧ (indexOf 48 0 = none ∧ indexOf 48 49 = none)
    ∧ RawKey.address ⟨1, 0⟩ = some ⟨0, 0, 0⟩ ∧ RawKey.address ⟨4, 127⟩ = some ⟨3, 15, 7⟩
    ∧ RawKey.address ⟨0, 0⟩ = none ∧ RawKey.address ⟨5, 0⟩ = none ∧ RawKey.address ⟨1, 128⟩ = none
    ∧ lineSetting 0 0 = some none ∧ lineSetting 7 0 = some none ∧ lineSetting 8 1 = some (some 0)
    ∧ lineSetting 9 16 = some (some 15)
    ∧ lineSetting 8 0 = none ∧ lineSetting 9 17 = none ∧ lineSetting 10 1 = none :=
  ⟨ready_preset, by decide, ⟨by decide, by decide +kernel⟩, ⟨by decide, by decide⟩, by decide +kernel⟩

theorem test_witness_QueryCircuitReports : Ready claimedWorld .a ∧ indexOf 192 0 = none ∧ indexOf 192 193 = none :=
  ⟨ready_claimed, by decide, by decide⟩

/-- Station 1.01 is a SWITCH2 and PRESENT. -/
def stationWorld : State :=
  { world with
    tables := { world.tables with
      stations := world.tables.stations.set 0 ((Tab.const none).set 0 (some .switch2)) } }.onStation 0 0 fun x =>
    { x with presence := .present }

theorem ready_station : Ready stationWorld .a := ready_of (by decide +kernel)

theorem test_witness_QueryStationReportsAndClears :
    Ready stationWorld .a ∧ stationWorld.stationType 0 0 = some .switch2 ∧ stationWorld.stationType 0 1 = none
    ∧ stationWorld.stationType 3 15 = none :=
  ⟨ready_station, by decide +kernel⟩

theorem test_witness_ReadNoticesTakesTheOldest :
    Ready world .a ∧ ((0 : Nat) = 0 ∨ 8 < 0) ∧ ((9 : Nat) = 0 ∨ 8 < 9) ∧ (1 ≤ 1 ∧ 1 ≤ 8) ∧ (1 ≤ 8 ∧ 8 ≤ 8) :=
  ⟨ready_world .a, by decide +kernel⟩

theorem test_witness_SubscribeReplacesTheSet :
    Ready world .a ∧ { onlineWorld with now := 5000000 }.leaseDue .a = true
    ∧ world.permits .a .admin = true ∧ world.save = none :=
  ⟨ready_world .a, by decide +kernel, by decide +kernel, rfl⟩

theorem test_witness_ReadCountersClearsThem : Ready world .d := ready_world .d

theorem mayPlace_of {s : State} {p : Port} {r : Nat} {cs : List Circuit}
    (h : (∀ c ∈ cs, s.mayReach p c = true) ∧ r ≤ (s.role p).maxRank.val ∧ s.locked (.port p) (rankOf r) cs = false
      ∧ s.recordsNeeded (.port p) cs ≤ s.freeRecords) : MayPlace s p r cs := ⟨h.1, h.2.1, h.2.2.1, h.2.2.2⟩

theorem test_witness_PlaceIsTaken :
    Ready world .a ∧ PlaceFields.formed ⟨.group 0, 1000, 36000, 7, true⟩ = true
    ∧ PlaceFields.formed ⟨.circuits [1, 192], 0, 0, 0, false⟩ = true
    ∧ world.expand (.circuits [1, 192]) = some [0, 191] ∧ MayPlace world .a 0 [0, 191] ∧ MayPlace world .a 7 [0, 191]
    ∧ MayPlace world .a 0 [0] :=
  ⟨ready_world .a, by decide, by decide, by decide +kernel, mayPlace_of (by decide +kernel), mayPlace_of (by decide +kernel), mayPlace_of (by decide +kernel)⟩

theorem test_witness_RecallIsTaken :
    Ready presetWorld .a ∧ RecallFields.formed ⟨1, none, 0⟩ = true ∧ RecallFields.formed ⟨1, some 36000, 7⟩ = true
    ∧ presetWorld.presetNumbered 1 = some ⟨20, [(0, 700), (1, 1000)]⟩ ∧ MayPlace presetWorld .a 7 [0, 1] :=
  ⟨ready_preset, by decide, by decide, by decide +kernel, mayPlace_of (by decide +kernel)⟩

theorem test_witness_ReleaseIsTaken :
    Ready claimedWorld .a ∧ ReleaseFields.formed ⟨.circuits [1], 36000⟩ = true
    ∧ ReleaseFields.formed ⟨.circuits [1], 0⟩ = true ∧ claimedWorld.expand (.circuits [1]) = some [0]
    ∧ claimedWorld.inCommand 0 (.port .a) = true ∧ claimedWorld.forced 0 = false :=
  ⟨ready_claimed, by decide +kernel⟩

theorem test_witness_FadeCompletionCompletes :
    claimedWorld.fadeDue 1 .field = some 0 ∧ claimedWorld.fadeDue 0 (.port .a) = none
    ∧ (claimedWorld.claims 1).any (Claim.ended 0) = true ∧ (claimedWorld.claims 0).any (Claim.ended 0) = false :=
  ⟨by decide +kernel, by decide +kernel, by decide +kernel, by decide +kernel⟩

/-- `claimedWorld` with a claim of port A that waits above the fade of FIELD on circuit 2. -/
def waitingWorld : State :=
  claimedWorld.onCircuit 1 fun x => { x with claims := ⟨.port .a, 5, .waiting 20, 900, none, none⟩ :: x.claims }

/-- The wait ends with the fade in command: the claim fades from the circuit level over its held fade time (R16). -/
theorem test_wait_ends_with_the_fade_in_command :
    commandFading waitingWorld.tables.ranks (waitingWorld.claims 1) = true
    ∧ ((after (exec (.fadeCompletion 1 .field) waitingWorld)).claims 1).map Claim.state =
      [.effective (some ⟨500, 20, 0, waitingWorld.event⟩), .effective none] := by decide +kernel

/-- A LIVE transition is continued from the level over the rest of its time (R39), a FIXED or spent one is not. -/
theorem test_transition_is_continued :
    continuedFrom 560 ⟨.release, none, 800, 10, 250000⟩ = ⟨.release, none, 560, 8, 50000⟩
    ∧ continuedFrom 560 ⟨.egress, some 9, 800, 10, 250000⟩ = ⟨.egress, some 9, 800, 10, 250000⟩
    ∧ continuedFrom 560 ⟨.release, none, 800, 10, 1000000⟩ = ⟨.release, none, 800, 10, 1000000⟩ := by decide

theorem test_witness_TransitionEndsAtTheOrdinaryLevel :
    (world.onCircuit 2 fun x => { x with transition := some ⟨.release, none, 800, 10, 1000000⟩ }).transitionDue 2 = true
    ∧ (world.onCircuit 2 fun x => { x with transition := some ⟨.release, none, 800, 10, 999999⟩ }).transitionDue 2 =
      false :=
  ⟨by decide +kernel, by decide +kernel⟩

/-- `shown` with group 1 of circuits 1 and 192. -/
def groupShow : State :=
  { shown with tables := { shown.tables with groups := shown.tables.groups.set 0 [0, 191] } }

theorem test_witness_StandbyArmsASlot :
    Ready groupShow .a ∧ groupShow.permits .a .cue = true ∧ groupShow.group 1 = some [0, 191]
    ∧ 1 ≤ (groupShow.role .a).maxRank.val ∧ 7 ≤ (groupShow.role .a).maxRank.val
    ∧ (∀ c ∈ [0, 191], groupShow.mayReach .a c = true) ∧ groupShow.mode = some .inShow ∧ groupShow.slot 0 = none
    ∧ (∀ m, m < (0 : SlotNo) → groupShow.slot m ≠ none) :=
  ⟨ready_of (by decide +kernel), by decide +kernel⟩

/-- `armedWorld` with the preset of `presetWorld`. -/
def cueWorld : State := { armedWorld with tables := presetWorld.tables }

theorem test_witness_GoPlacesTheCue :
    Ready cueWorld .a ∧ cueWorld.slot 0 = some ⟨.armed, .a, [0], 4, 30, 30000000⟩
    ∧ PlaceFields.formed ⟨.circuits [1], 1000, 10, 7, false⟩ = true ∧ cueWorld.expand (.circuits [1]) = some [0]
    ∧ MayPlace cueWorld .a 7 [0] ∧ RecallFields.formed ⟨1, some 0, 7⟩ = true
    ∧ cueWorld.presetNumbered 1 = some ⟨20, [(0, 700), (1, 1000)]⟩ ∧ MayPlace cueWorld .a 7 [0, 1] :=
  ⟨ready_of (by decide +kernel), by decide +kernel, by decide, by decide +kernel, mayPlace_of (by decide +kernel), by decide, by decide +kernel, mayPlace_of (by decide +kernel)⟩

theorem test_witness_CancelAndExpiryEndASlot :
    Ready armedWorld .a ∧ Ready armedWorld .b ∧ armedWorld.slot 0 = some ⟨.armed, .a, [0], 4, 30, 30000000⟩
    ∧ Port.a ≠ .b ∧ armedWorld.slot 1 = none ∧ armedWorld.slot 3 = none ∧ indexOf 4 0 = none ∧ indexOf 4 5 = none
    ∧ 30000000 ≤ { armedWorld with now := 30000000 }.now :=
  ⟨ready_armed, ready_armed_b, by decide +kernel⟩

/-- A deferred OFF of circuit 1 by key 1.01.1 that expires at 60 s. -/
def entry : Deferred := ⟨⟨0, 0, 0⟩, .off [0], 10, 3, [.inShow], 0, 60000000⟩

theorem test_witness_DeferredEntryExpires :
    ([{ entry with expiry := 60000001 }, entry] : List Deferred) = [{ entry with expiry := 60000001 }] ++ entry :: []
    ∧ entry.expiry ≤ 60000000 ∧ (∀ x ∈ [{ entry with expiry := 60000001 }], 60000000 < x.expiry) := by
  refine ⟨rfl, by decide, by decide⟩

theorem test_witness_SetModeEntersTheMode :
    Ready shown .a ∧ HouseMode.ofCode 1 = some .work ∧ HouseMode.ofCode 3 = some .inShow
    ∧ shown.permits .a .mode = true ∧ shown.mode ≠ some .work ∧ shown.mode = some .inShow
    ∧ (shown.tables.modes.get 0).entryPreset = none ∧ (shown.tables.modes.get 0).entrySequence = none
    ∧ { shown with tables := { shown.tables with
        roles := shown.tables.roles.modify 0 fun r => { r with permissions := [] } } }.permits .a .mode = false :=
  ⟨ready_shown .a, by decide +kernel⟩

/-- Sequence 1 of two RELEASE steps, run by player 1 at step 1 with its wait over at 100 ms. -/
def playerWorld : State :=
  { world with
    tables := { world.tables with
      sequences := world.tables.sequences.set 0 (some ⟨[⟨.release, 0, 1⟩, ⟨.release, 0, 1⟩], 7, .hold, 0, 0⟩) }
    players := world.players.set 0 ⟨.loop, .running 100000, some 0, 1, 0, 100, some 200, none⟩ }

/-- `playerWorld` with player 1 in sequence 6. -/
def otherRun : State :=
  { playerWorld with players := world.players.set 0 ⟨.loop, .running 100000, some 5, 1, 0, 100, none, none⟩ }

theorem ready_player : Ready playerWorld .a := ready_of (by decide +kernel)

theorem test_witness_RunSequenceStartsTheRun :
    Ready playerWorld .a ∧ (PlayerMode.ofCode 1).bind PlayerMode.run = some .single
    ∧ (PlayerMode.ofCode 2).bind PlayerMode.run = some .loop ∧ rateFormed 0 = true ∧ rateFormed 25 = true
    ∧ rateFormed 400 = true
    ∧ playerWorld.tables.sequences.get 0 = some ⟨[⟨.release, 0, 1⟩, ⟨.release, 0, 1⟩], 7, .hold, 0, 0⟩
    ∧ (7 : Rank) ≤ (playerWorld.role .a).maxRank ∧ (playerWorld.player 1).mode = .off
    ∧ (otherRun.player 0).sequence ≠ some 0 :=
  ⟨ready_player, by decide +kernel⟩

theorem test_witness_SetPlayerActsOnTheRun :
    Ready playerWorld .a ∧ rateFormed 0 = true ∧ rateFormed 400 = true ∧ (playerWorld.player 0).mode ≠ .off
    ∧ (PlayerMode.ofCode 1).bind PlayerMode.run = some .single :=
  ⟨ready_player, by decide +kernel⟩

theorem test_witness_WaitExpiryTakesTheNextStep :
    (playerWorld.player 0).run = .running 100000 ∧ 100000 ≤ { playerWorld with now := 100000 }.now
    ∧ (playerWorld.player 0).sequence = some 0
    ∧ playerWorld.tables.sequences.get 0 = some ⟨[⟨.release, 0, 1⟩, ⟨.release, 0, 1⟩], 7, .hold, 0, 0⟩
    ∧ (playerWorld.player 0).step < 2 ∧ { playerWorld with now := 99999 }.now < 100000 := by decide +kernel

/-- `world` with port A without SAFETY, MODE, EDIT and ADMIN. -/
def bareWorld : State :=
  { world with tables := { world.tables with
    roles := world.tables.roles.modify 0 fun r => { r with permissions := [] } } }

theorem ready_bare : Ready bareWorld .a := ready_of (by decide +kernel)

/-- `world` with circuit 1 of emergency level 1000 in the emergency state `e`. -/
def emergencyWorld (e : EmergencyState) : State :=
  { world with
    tables := { world.tables with
      circuits := world.tables.circuits.set 0 ⟨.dimmed .linear 0 1000, .link, 0, some 1000⟩ }
    emergency := { world.emergency with state := e, accepted := some .normal, debounce := none } }

theorem ready_emergency (e : EmergencyState) : Ready (emergencyWorld e) .a := by
  cases e <;> exact ready_of (by decide +kernel)

theorem test_witness_EmergencyOnForces :
    Ready (emergencyWorld .normal) .a ∧ (emergencyWorld .normal).permits .a .safety = true
    ∧ (emergencyWorld .recovering).permits .a .safety = true ∧ (emergencyWorld .active).permits .a .safety = true
    ∧ (emergencyWorld .normal).emergency.state.forces = false
    ∧ (emergencyWorld .recovering).emergency.state.forces = false
    ∧ (emergencyWorld .active).emergency.state.forces = true ∧ (emergencyWorld .latched).emergency.state.forces = true
    ∧ ((emergencyWorld .normal).record 0).emergency = some 1000 ∧ ((emergencyWorld .normal).record 1).emergency = none
    ∧ Ready bareWorld .a ∧ bareWorld.permits .a .safety = false :=
  ⟨ready_emergency _, by decide +kernel, by decide +kernel, by decide +kernel, rfl, rfl, rfl, rfl, by decide +kernel,
    by decide +kernel, ready_bare, by decide +kernel⟩

theorem test_witness_ClearEmergencyRecovers :
    Ready (emergencyWorld .latched) .a ∧ (emergencyWorld .latched).permits .a .safety = true
    ∧ (emergencyWorld .latched).emergency.state = .latched
    ∧ (emergencyWorld .latched).forced 0 = true ∧ (emergencyWorld .latched).forced 1 = false
    ∧ 0 < (emergencyWorld .latched).tables.settings.recoveryTime
    ∧ { emergencyWorld .latched with tables := { world.tables with
        settings := { world.tables.settings with recoveryTime := 0 } } }.tables.settings.recoveryTime = 0
    ∧ (emergencyWorld .active).emergency.state = .active ∧ (emergencyWorld .normal).emergency.state = .normal
    ∧ (emergencyWorld .recovering).emergency.state = .recovering ∧ bareWorld.permits .a .safety = false :=
  ⟨ready_emergency _, by decide +kernel⟩

theorem test_witness_ContactReadingIsDebounced :
    (emergencyWorld .normal).emergency.accepted = some .normal
    ∧ (emergencyWorld .normal).emergency.accepted ≠ some .active ∧ (emergencyWorld .normal).emergency.debounce = none
    ∧ State.reset.emergency.accepted ≠ some .active
    ∧ State.reset.emergency.debounce = some (.normal, 100000) ∧ Contact.normal.asserted ≠ Contact.active.asserted
    ∧ Contact.faultOpen.asserted = Contact.active.asserted := by decide +kernel

/-- `emergencyWorld e` with a reading that has stood until 100 ms. -/
def debounced (e : EmergencyState) (r : Contact) : State :=
  { emergencyWorld e with
    now := 100000, emergency := { (emergencyWorld e).emergency with debounce := some (r, 100000) } }

theorem test_witness_DebounceExpiryAcceptsTheContact :
    (∀ e r, (debounced e r).emergency.debounce = some (r, 100000) ∧ 100000 ≤ (debounced e r).now
      ∧ (debounced e r).startup = .running)
    ∧ { debounced .normal .active with now := 99999 }.now < 100000
    ∧ { debounced .normal .active with startup := .reading }.startup ≠ .running
    ∧ Contact.active.asserted = true ∧ Contact.normal.asserted = false
    ∧ (debounced .recovering .active).emergency.state.forces = false
    ∧ (debounced .latched .active).emergency.state.forces = true
    ∧ (debounced .normal .active).emergency.accepted ≠ some .active
    ∧ (debounced .normal .normal).emergency.accepted = some .normal
    ∧ (after (exec .debounceTimerExpiry (debounced .normal .normal))).emergency.state = .normal :=
  ⟨fun _ _ => ⟨rfl, Nat.le_refl _, rfl⟩, by decide +kernel⟩

/-- A record is none that a write refuses where it is read. -/
theorem good_of {α : Type} {o : Option α} {bad : Prop} (h : o = none ↔ bad) (read : o.isSome = true) : ¬ bad :=
  fun b => by rw [h.mpr b] at read; cases read

theorem test_witness_RankTableWriteReplacesAll :
    Ready world .a ∧ MayEdit world .a ∧ [0, 0, 0, 0, 0, 0, 0, 1].length = 8
    ∧ ¬ BadRanks [0, 0, 0, 0, 0, 0, 0, 1] :=
  ⟨ready_world .a, mayEdit_world .a, rfl, good_of (typedRanks_checks _).1 (by decide +kernel)⟩

theorem test_witness_GroupWriteIsCheckedAndTaken :
    Ready bareWorld .a ∧ bareWorld.permits .a .edit = false
    ∧ Ready shown .a ∧ shown.permits .a .edit = true ∧ shown.mode = some .inShow
    ∧ Ready savingWorld .a ∧ savingWorld.permits .a .edit = true ∧ savingWorld.mode ≠ some .inShow
    ∧ savingWorld.save ≠ none
    ∧ Ready world .a ∧ MayEdit world .a ∧ 64 < 65 ∧ (∃ c ∈ [0], c = 0 ∨ 192 < c) ∧ (∃ c ∈ [193], c = 0 ∨ 192 < c)
    ∧ ¬ [7, 7].Nodup ∧ [0, 191].Nodup
    ∧ [0, 191].length ≤ 2048 - Tables.membersUsed world.tables + (world.tables.groups.get 63).length :=
  ⟨ready_bare, by decide +kernel, ready_shown .a, by decide +kernel, rfl, ready_saving, by decide +kernel,
    by decide +kernel, by decide +kernel, ready_world .a, mayEdit_world .a, by decide +kernel⟩

/-- Ten groups of all circuits and one of 128 fill the store: no slot is free. -/
def fullGroups : State :=
  { world with tables := { world.tables with
    groups := .build fun g => if g.val < 10 then indices 192 else if g.val = 10 then (indices 192).take 128 else [] } }

theorem test_witness_group_store_full :
    Ready fullGroups .a ∧ MayEdit fullGroups .a
    ∧ 2048 - Tables.membersUsed fullGroups.tables + (fullGroups.tables.groups.get 63).length < [0].length :=
  ⟨ready_of (by decide +kernel), ⟨by decide +kernel, by decide +kernel, rfl⟩, by decide +kernel⟩

/-- Port A edits preset 1: two pairs declared, none received. -/
def editWorld : State := world.onPort .a fun x => { x with edit := some ⟨0, 36000, 2, []⟩ }

theorem test_witness_PresetIsWrittenInParts :
    Ready editWorld .a ∧ MayEdit editWorld .a ∧ (0 ≤ 36000 ∧ 36000 ≤ 36000) ∧ (1 ≤ 1 ∧ 1 ≤ 192) ∧ (1 ≤ 192 ∧ 192 ≤ 192)
    ∧ 192 ≤ 3072 - Tables.pairsUsed editWorld.tables + (pairsOf (editWorld.presetDef 0)).length
    ∧ (editWorld.port .a).edit = some ⟨0, 36000, 2, []⟩
    ∧ (∀ x ∈ [((0 : Circuit), 1000), (191, 0)], x.2 ≤ 1000)
    ∧ (([] ++ [((0 : Circuit), 1000), (191, 0)]).map Prod.fst).Nodup
    ∧ ([] ++ [((0 : Circuit), 1000)]).length < 2 ∧ ([] ++ [((0 : Circuit), 1000), (191, 0)]).length = 2
    ∧ 2 ≤ 3072 - Tables.pairsUsed editWorld.tables + (pairsOf (editWorld.presetDef 0)).length :=
  ⟨ready_of (by decide +kernel), ⟨by decide +kernel, by decide +kernel, rfl⟩, by decide +kernel⟩

theorem test_witness_BindingWriteReplacesOneList :
    Ready world .a ∧ MayEdit world .a ∧ RawKey.address ⟨1, 0⟩ = some ⟨0, 0, 0⟩
    ∧ RawKey.address ⟨4, 127⟩ = some ⟨3, 15, 7⟩ ∧ Edge.ofCode 0 = some .press ∧ Edge.ofCode 3 = some .release
    ∧ [(⟨31, 8, .number 4, none, none, none⟩ : RawBinding)].mapM (RawBinding.typed ⟨0, 0, 0⟩ .press) =
      some [⟨⟨0, 0, 0⟩, .press, [.work, .preshow, .inShow, .interval, .secure], .seqStop 3⟩]
    ∧ world.tables.bindings.length + 1 ≤ 512 + (Tables.bindingsOf world.tables ⟨0, 0, 0⟩ .press).length
    ∧ ¬ BadBinding ⟨31, 8, .number 4, none, none, none⟩ :=
  ⟨ready_world .a, mayEdit_world .a, by decide +kernel, by decide +kernel, by decide +kernel, by decide +kernel,
    by decide +kernel, by decide +kernel, good_of (binding_checks ⟨0, 0, 0⟩ .press _).1 (by decide +kernel)⟩

theorem test_witness_StationWriteReplacesTheList :
    Ready stationWorld .a ∧ MayEdit stationWorld .a
    ∧ typedStations [(1, 0), (16, 1)] = some [(0, .keypad8), (15, .switch2)] ∧ typedStations [] = some []
    ∧ ¬ BadStations [(1, 0), (16, 1)] ∧ ¬ BadStations [] :=
  ⟨ready_station, ⟨by decide +kernel, by decide +kernel, rfl⟩, by decide, by decide,
    good_of (typedStations_checks _).1 (by decide), good_of (typedStations_checks _).1 (by decide)⟩

theorem test_witness_RecordWritesReplaceTheRecord :
    Ready world .a ∧ MayEdit world .a ∧ world.sequenceUsers 0 = []
    ∧ RawSequence.typed ⟨[⟨1, none, 0, 1⟩], 7, 0, 36000, 255⟩ = some ⟨[⟨.release, 0, 1⟩], 7, .hold, 36000, 255⟩
    ∧ RawSequence.typed ⟨[], 0, 0, 0, 0⟩ = some ⟨[], 0, .hold, 0, 0⟩
    ∧ (Ready playerWorld .a ∧ MayEdit playerWorld .a ∧ playerWorld.sequenceUsers 0 ≠ [])
    ∧ RawModeRecord.typed ⟨some 48, 7, 36000, some ⟨1, 0, none⟩⟩ = some ⟨some 47, 7, 36000, some (.off 0)⟩
    ∧ world.permits .a .admin = true ∧ Port.ofCode 3 = some .d
    ∧ RawRoleRecord.typed ⟨7, none, 31, 60, 600, 36000, 1⟩ =
      some ⟨7, .all, [.cue, .mode, .edit, .safety, .admin], 60, 600, 36000, .r460800⟩
    ∧ (Ready world .b ∧ MayEdit world .b ∧ world.permits .b .admin = false)
    ∧ (lineSetting 0 0 = some none ∧ (Settings.replaced world.tables.settings 0 none 300).isSome = true)
    ∧ (lineSetting 7 0 = some none ∧ (Settings.replaced world.tables.settings 7 none 5).isSome = true)
    ∧ (50 ≤ 50 ∧ 50 ≤ 5000) ∧ (50 ≤ 5000 ∧ 5000 ≤ 5000) ∧ Polarity.ofCode 0 = some .activeHigh
    ∧ Polarity.ofCode 1 = some .activeLow :=
  ⟨ready_world .a, mayEdit_world .a, by decide +kernel, by decide +kernel, by decide +kernel,
    ⟨ready_player, ⟨by decide +kernel, by decide +kernel, rfl⟩, by decide +kernel⟩, by decide +kernel, by decide +kernel,
    rfl, by decide +kernel, ⟨ready_world .b, mayEdit_world .b, by decide +kernel⟩, ⟨rfl, by decide +kernel⟩,
    ⟨rfl, by decide +kernel⟩, by decide +kernel⟩

/-- Records at the ends of their ranges are taken (R129, R147, R166, R186). -/
theorem test_witness_records_taken :
    ¬ BadSequence ⟨[⟨1, none, 0, 1⟩], 7, 0, 36000, 255⟩ ∧ ¬ BadSequence ⟨[⟨0, some 48, 36000, 36000⟩], 0, 1, 0, 0⟩
    ∧ ¬ BadModeRecord ⟨some 48, 7, 36000, some ⟨4, 2, some 16⟩⟩ ∧ ¬ BadModeRecord ⟨none, 0, 0, some ⟨1, 0, none⟩⟩
    ∧ ¬ BadRoleRecord ⟨7, none, 31, 60, 600, 36000, 1⟩ ∧ ¬ BadRoleRecord ⟨0, some [0, 64], 0, 1, 0, 0, 0⟩
    ∧ ¬ BadCircuitRecord ⟨1, 1, some 16, 1000, some 1000, none, none, none, some 1000, some 200, some 100⟩
    ∧ ¬ BadCircuitRecord ⟨0, 0, none, 0, none, some 1, some 300, some 300, none, none, none⟩ :=
  ⟨good_of (sequence_checks _).1 (by decide), good_of (sequence_checks _).1 (by decide),
    good_of (modeRecord_checks _).1 (by decide), good_of (modeRecord_checks _).1 (by decide),
    good_of (roleRecord_checks _).1 (by decide), good_of (roleRecord_checks _).1 (by decide),
    good_of (circuitRecord_checks _).1 (by decide), good_of (circuitRecord_checks _).1 (by decide)⟩

/-- Records just outside their ranges are BAD_RECORD (R2, R67, R90, R129, R147, R166, R186). -/
theorem test_witness_records_bad :
    BadRanks [0, 0, 0, 0, 0, 0, 0, 2] ∧ BadStations [(17, 0)] ∧ BadStations [(1, 2)] ∧ BadStations [(1, 0), (1, 1)]
    ∧ BadBinding ⟨0, 8, .number 4, none, none, none⟩ ∧ BadBinding ⟨32, 8, .number 4, none, none, none⟩
    ∧ BadBinding ⟨31, 8, .number 5, none, none, none⟩ ∧ BadBinding ⟨31, 0, .number 65, some 0, some 0, some 0⟩
    ∧ BadSequence ⟨[⟨1, none, 0, 0⟩], 7, 0, 0, 0⟩ ∧ BadSequence ⟨[⟨0, none, 0, 1⟩], 7, 0, 0, 0⟩
    ∧ BadModeRecord ⟨some 49, 0, 0, none⟩ ∧ BadModeRecord ⟨none, 0, 0, some ⟨1, 1, none⟩⟩
    ∧ BadRoleRecord ⟨8, none, 0, 5, 30, 30, 0⟩ ∧ BadRoleRecord ⟨7, some [], 0, 5, 30, 30, 0⟩
    ∧ BadCircuitRecord ⟨0, 0, none, 1001, none, some 0, some 0, some 1000, none, none, none⟩
    ∧ BadCircuitRecord ⟨1, 0, none, 0, none, none, none, none, some 100, some 100, some 0⟩ :=
  ⟨(typedRanks_checks _).1.mp (by decide), (typedStations_checks _).1.mp (by decide),
    (typedStations_checks _).1.mp (by decide), (typedStations_checks _).1.mp (by decide), .inl rfl,
    .inr (.inl (Nat.le_refl _)), (binding_checks ⟨0, 0, 0⟩ .press _).1.mp (by decide),
    (binding_checks ⟨0, 0, 0⟩ .press _).1.mp (by decide), (sequence_checks _).1.mp (by decide),
    (sequence_checks _).1.mp (by decide), (modeRecord_checks _).1.mp (by decide), (modeRecord_checks _).1.mp (by decide),
    (roleRecord_checks _).1.mp (by decide), (roleRecord_checks _).1.mp (by decide),
    (circuitRecord_checks _).1.mp (by decide), (circuitRecord_checks _).1.mp (by decide)⟩

/-- The ends of the settings' ranges, inside and outside (R198). -/
theorem test_setting_ranges :
    let taken := fun setting v => (Settings.replaced defaultSettings setting none v).isSome
    [taken 0 300, taken 0 3000, taken 1 1, taken 1 60, taken 2 600, taken 3 1, taken 3 16, taken 4 100, taken 5 600,
      taken 6 600, taken 7 1, taken 7 5].all id = true
    ∧ [taken 0 299, taken 0 3001, taken 1 0, taken 1 61, taken 2 601, taken 3 0, taken 3 17, taken 4 101, taken 5 601,
      taken 6 601, taken 7 0, taken 7 6].any id = false := by decide +kernel

theorem test_witness_CircuitWriteReplacesTheRecord :
    Ready (emergencyWorld .latched) .a ∧ MayEdit (emergencyWorld .latched) .a
    ∧ RawCircuitRecord.typed ⟨1, 1, some 16, 0, none, none, none, none, some 500, some 100, some 100⟩ =
      some ⟨.switched 500 100 100, .pwm 15, 0, none⟩
    ∧ (emergencyWorld .latched).lineTaken 0 (.pwm 15) = false
    ∧ (emergencyWorld .latched).emergency.state.forces = true
    ∧ (⟨.switched 500 100 100, .pwm 15, 0, none⟩ : CircuitRecord).emergency.isSome ≠
      ((emergencyWorld .latched).record 0).emergency.isSome :=
  ⟨ready_emergency _, ⟨by decide +kernel, by decide +kernel, rfl⟩, by decide +kernel⟩

theorem test_witness_ImageIsTaken :
    State.reset.startup = .reading ∧ Tables.loadable defaultTables = true :=
  ⟨rfl, by decide +kernel⟩

theorem test_witness_StartupEndsRunning :
    judgingWorld.startup = .judging defaultTables .invalid
    ∧ { judgingWorld with emergency := { judgingWorld.emergency with accepted := some .active } }.emergency.accepted =
      some .active ∧ Contact.active.asserted = true ∧ judgingWorld.emergency.accepted = none :=
  ⟨rfl, rfl, rfl, rfl⟩

theorem test_witness_SaveBeginsAndEnds :
    Ready world .a ∧ world.permits .a .edit = true ∧ world.save = none
    ∧ Ready savingWorld .a ∧ savingWorld.permits .a .edit = true ∧ savingWorld.save ≠ none
    ∧ Ready bareWorld .a ∧ bareWorld.permits .a .edit = false
    ∧ savingWorld.save = some { port := .b, tag := 4, replyOwed := true, tables := defaultTables, earlier := none }
    ∧ (savingWorld.forgoReply .b).save =
      some { port := .b, tag := 4, replyOwed := false, tables := defaultTables, earlier := none } :=
  ⟨ready_world .a, by decide +kernel, rfl, ready_saving, by decide +kernel, by decide +kernel, ready_bare,
    by decide +kernel, rfl, rfl⟩

theorem test_witness_RestartClearsAndKeeps :
    Ready world .a ∧ world.permits .a .admin = true ∧ world.save = none
    ∧ Ready savingWorld .a ∧ savingWorld.permits .a .admin = true ∧ savingWorld.save ≠ none
    ∧ Ready world .b ∧ world.permits .b .admin = false
    ∧ (emergencyWorld .latched).emergency.state.forces = true :=
  ⟨ready_world .a, by decide +kernel, rfl, ready_saving, by decide +kernel, by decide +kernel, ready_world .b,
    by decide +kernel, rfl⟩

theorem test_witness_LeaseExpiryLosesThePort :
    (onlineWorld.port .a).link = .online 5000000 ∧ { onlineWorld with now := 4999999 }.now < 5000000
    ∧ 5000000 ≤ { onlineWorld with now := 5000000 }.now ∧ 0 < (onlineWorld.role .a).orphanHold := by decide +kernel

theorem test_witness_QuietAndOrphanTimersEnd :
    (lostWorld.port .a).link = .lost 2000000 ∧ { lostWorld with now := 1999999 }.now < 2000000
    ∧ 2000000 ≤ { lostWorld with now := 2000000 }.now
    ∧ (onlineWorld.port .a).orphanEnd = some 9000000 ∧ { onlineWorld with now := 8999999 }.now < 9000000
    ∧ 9000000 ≤ { onlineWorld with now := 9000000 }.now
    ∧ claimedWorld.inCommand 0 (.port .a) = true ∧ claimedWorld.forced 0 = false := by decide +kernel

theorem test_witness_PollOpensAWindow :
    stationWorld.startup = .running ∧ (stationWorld.loop 0).exchange = none ∧ stationWorld.nextPolled 0 = some 0 :=
  ⟨rfl, by decide +kernel, by decide +kernel⟩

/-- `stationWorld` with the exchange of station 1.01 open until 4 ms, the station as `f` leaves it. -/
def polledWorld (f : StationState → StationState) : State :=
  (stationWorld.onStation 0 0 f).onLoop 0 fun x => { x with exchange := some ⟨0, 4000, false⟩ }

theorem test_witness_SilenceIsAMiss :
    ((polledWorld id).loop 0).exchange = some ⟨0, 4000, false⟩ ∧ 4000 ≤ { polledWorld id with now := 4000 }.now
    ∧ ((polledWorld id).station 0 0).presence = .present ∧ ((polledWorld id).station 0 0).misses < 2
    ∧ ((polledWorld fun x => { x with misses := 1 }).station 0 0).misses < 2
    ∧ 2 ≤ ((polledWorld fun x => { x with misses := 2 }).station 0 0).misses
    ∧ ((polledWorld fun x => { x with presence := .absent }).station 0 0).presence = .absent
    ∧ (stationWorld.loop 0).exchange = none := by decide +kernel

/-- `polledWorld` with the chatter window `w` on key 1.01.1. -/
def chatterWorld (w : Option (Nat × Nat)) : State := (polledWorld id).onKey ⟨0, 0, 0⟩ fun r => { r with window := w }

theorem test_witness_GoodReportsAreTaken :
    ((polledWorld id).loop 0).exchange = some ⟨0, 4000, false⟩
    ∧ NamesType ((polledWorld id).stationType 0 0) 2
    ∧ ((polledWorld id).station 0 0).presence = .present
    ∧ (∀ k ∈ (polledWorld id).keysAt 0 0, ((polledWorld id).key k).down = (0 : Byte).getLsbD k.key.val)
    ∧ ((polledWorld fun x => { x with presence := .absent }).station 0 0).presence = .absent
    ∧ ((polledWorld fun x => { x with presence := .absent }).station 0 0).goods = 0
    ∧ ((polledWorld fun x => { x with presence := .absent, goods := 1 }).station 0 0).goods ≠ 0 :=
  ⟨by decide +kernel, .inr ⟨by decide +kernel, rfl⟩, by decide +kernel⟩

/-- One key down: with no window, in a window with room, after its end, and as the eleventh change in it. -/
theorem test_witness_GoodReportsAreTaken_pressed :
    ((chatterWorld (some (0, 10))).loop 0).exchange = some ⟨0, 4000, false⟩
    ∧ NamesType ((chatterWorld (some (0, 10))).stationType 0 0) 2
    ∧ ((chatterWorld (some (0, 10))).station 0 0).presence = .present
    ∧ (⟨0, 0, 0⟩ : KeyAddr) ∈ (chatterWorld (some (0, 10))).keysAt 0 0
    ∧ ((chatterWorld (some (0, 10))).key ⟨0, 0, 0⟩).down = false ∧ (1 : Byte).getLsbD 0 = true
    ∧ (∀ j ∈ (chatterWorld (some (0, 10))).keysAt 0 0, j ≠ ⟨0, 0, 0⟩ →
        ((chatterWorld (some (0, 10))).key j).down = (1 : Byte).getLsbD j.key.val)
    ∧ (∀ w, ((chatterWorld w).key ⟨0, 0, 0⟩).lockout = none ∧ ((chatterWorld w).key ⟨0, 0, 0⟩).window = w)
    ∧ (chatterWorld (some (0, 9))).liveEntries ⟨0, 0, 0⟩ .press = []
    ∧ (chatterWorld (some (0, 10))).raiseSet ⟨0, 0, 0⟩ = [] ∧ (chatterWorld (some (0, 10))).replayOwed = false
    ∧ (chatterWorld (some (0, 10))).now < 0 + 2000000
    ∧ 0 + 2000000 ≤ { chatterWorld (some (0, 9)) with now := 2000000 }.now :=
  ⟨by decide +kernel, .inr ⟨by decide +kernel, rfl⟩, by decide +kernel, by decide +kernel, by decide +kernel, by decide,
    by decide +kernel, fun _ => ⟨by rfl, by rfl⟩, by decide +kernel⟩

theorem test_witness_KeyTimersRunOut :
    stationWorld.keyExists ⟨0, 0, 1⟩ = true
    ∧ ((stationWorld.onKey ⟨0, 0, 1⟩ fun r => { r with lockout := some 0 }).key ⟨0, 0, 1⟩).lockout = some 0
    ∧ ((stationWorld.onKey ⟨0, 0, 1⟩ fun r => { r with blinkEnd := some 0 }).key ⟨0, 0, 1⟩).blinkEnd = some 0
    ∧ ((stationWorld.onKey ⟨0, 0, 1⟩ fun r => { r with phase := .pressed 0 }).key ⟨0, 0, 1⟩).phase = .pressed 0
    ∧ 0 ≤ stationWorld.now ∧ stationWorld.liveEntries ⟨0, 0, 1⟩ .hold = []
    ∧ (stationWorld.key ⟨0, 0, 1⟩).lockout = none ∧ (stationWorld.key ⟨0, 0, 1⟩).blinkEnd = none := by decide +kernel

/-- `stationWorld` with group 1 of circuits 1 and 2 and key 1.01.1 PRESSED, its hold time over, HOLD bound to `a`. -/
def boundWorld (a : FieldAction) : State :=
  State.onKey
    { stationWorld with
      tables := { stationWorld.tables with
        groups := stationWorld.tables.groups.set 0 [0, 1], bindings := [⟨⟨0, 0, 0⟩, .hold, [.work, .inShow], a⟩] } }
    ⟨0, 0, 0⟩ fun r => { r with down := true, phase := .pressed 0 }

/-- `boundWorld` in SHOW with slot 1 locking circuit 1 below rank 4. -/
def lockedWorld (a : FieldAction) : State :=
  { boundWorld a with
    mode := some .inShow, slots := world.slots.set 0 (some ⟨.armed, .a, [0], 4, 30, 30000000⟩) }

theorem test_witness_FieldActionsAreCarriedOut :
    (boundWorld (.raise 1 3)).keyExists ⟨0, 0, 0⟩ = true ∧ ((boundWorld (.raise 1 3)).key ⟨0, 0, 0⟩).phase = .pressed 0
    ∧ (boundWorld (.raise 1 3)).replayOwed = false
    ∧ (∀ a, (boundWorld a).liveEntries ⟨0, 0, 0⟩ .hold = [⟨⟨0, 0, 0⟩, .hold, [.work, .inShow], a⟩])
    ∧ (boundWorld (.raise 1 3)).members 1 = some [0, 1] ∧ (boundWorld (.raise 1 3)).members 2 = none
    ∧ (boundWorld (.raise 1 3)).locked .field 3 [0, 1] = false
    ∧ (boundWorld (.raise 1 3)).recordsNeeded .field [0, 1] ≤ (boundWorld (.raise 1 3)).freeRecords
    ∧ (∀ c ∈ [0, 1], ∀ x ∈ (boundWorld (.raise 1 3)).claims c, x.owner = .field → x.target = 0)
    ∧ (boundWorld (.raise 1 3)).mode ≠ some .secure ∧ (boundWorld (.raise 1 3)).level 0 ≤ 1000 :=
  ⟨by decide +kernel, by decide +kernel, rfl, fun _ => by rfl, by decide +kernel⟩

theorem test_witness_FieldActionsAreCarriedOut_locked :
    (lockedWorld (.on 1 500 0 3)).keyExists ⟨0, 0, 0⟩ = true
    ∧ ((lockedWorld (.on 1 500 0 3)).key ⟨0, 0, 0⟩).phase = .pressed 0
    ∧ (lockedWorld (.on 1 500 0 3)).liveEntries ⟨0, 0, 0⟩ .hold =
      [⟨⟨0, 0, 0⟩, .hold, [.work, .inShow], .on 1 500 0 3⟩]
    ∧ (lockedWorld (.on 1 500 0 3)).members 1 = some [0, 1]
    ∧ (lockedWorld (.on 1 500 0 3)).locked .field 3 [0, 1] = true
    ∧ (lockedWorld (.on 1 500 0 3)).replayOwed = false ∧ (lockedWorld (.on 1 500 0 3)).deferred.length < 16
    ∧ 0 < (lockedWorld (.on 1 500 0 3)).tables.settings.deferLimit := by decide +kernel

/-- A FIELD claim with a target above 0 on circuit 2: the other case of TOGGLE. -/
theorem test_witness_FieldActionsAreCarriedOut_toggle :
    ∃ c ∈ [(0 : Circuit), 1], ∃ x ∈ claimedWorld.claims c, x.owner = .field ∧ 0 < x.target :=
  ⟨1, by simp, by decide +kernel⟩

/-- Circuit 1 SWITCHED with threshold 500, hysteresis 100, dwell 1 s, base level `base`, and the relay `r`; a sample is
due. -/
def relayWorld (base : Nat) (r : Relay) : State :=
  { world with
    tables := { world.tables with circuits := world.tables.circuits.set 0 ⟨.switched 500 100 10, .pwm 0, base, none⟩ }
    rackDue := some 0
    lines := .build (State.startedLine defaultSettings 0) }.onCircuit 0 fun x => { x with relay := r }

theorem test_witness_RackSampleJudgesAndSends :
    (relayWorld 0 .clear).rackDue = some 0 ∧ 0 ≤ (relayWorld 0 .clear).now
    ∧ ((relayWorld 0 .clear).record 1).kind = .dimmed .linear 0 1000
    ∧ ((relayWorld 500 .clear).record 0).kind = .switched 500 100 10 ∧ (relayWorld 500 .clear).level 0 = 500
    ∧ ((relayWorld 500 .clear).circuit 0).relay.dwellEnd = none
    ∧ ((relayWorld 499 ⟨true, true, some 0⟩).circuit 0).relay.on = true
    ∧ (∃ d, ((relayWorld 399 ⟨true, true, some 0⟩).circuit 0).relay.dwellEnd = some d
      ∧ (relayWorld 399 ⟨true, true, some 0⟩).now ≤ d)
    ∧ (∃ d, ({ relayWorld 399 ⟨true, true, some 0⟩ with now := 1 }.circuit 0).relay.dwellEnd = some d ∧ d < 1) :=
  ⟨rfl, by decide, by decide +kernel, by decide +kernel, by decide +kernel, by decide +kernel, by decide +kernel,
    ⟨0, by decide +kernel, by decide⟩, ⟨0, by decide +kernel, by decide⟩⟩

theorem test_witness_DwellEndCarriesOutTheWish :
    ((relayWorld 0 ⟨true, true, some 0⟩).record 0).kind = .switched 500 100 10
    ∧ ((relayWorld 0 ⟨true, true, some 0⟩).circuit 0).relay.dwellEnd = some 0
    ∧ 0 ≤ (relayWorld 0 ⟨true, true, some 0⟩).now
    ∧ ((relayWorld 0 ⟨true, true, some 0⟩).circuit 0).relay.wish =
      ((relayWorld 0 ⟨true, true, some 0⟩).circuit 0).relay.on
    ∧ ((relayWorld 0 ⟨true, false, some 0⟩).circuit 0).relay.wish ≠
      ((relayWorld 0 ⟨true, false, some 0⟩).circuit 0).relay.on := by decide +kernel

theorem test_witness_PeriodEndBeginsTheNext :
    ((relayWorld 0 .clear).lines.get 0).drive = .running 0
    ∧ 0 + ((relayWorld 0 .clear).lines.get 0).period ≤ { relayWorld 0 .clear with now := 1000 }.now
    ∧ (∀ c, ((relayWorld 0 .clear).record c).route ≠ .pwm 5) ∧ ((relayWorld 0 .clear).record 0).route = .pwm 0
    ∧ (∀ d, ((relayWorld 0 .clear).record d).route = .pwm 0 → d = 0) := by decide +kernel

theorem test_witness_ArbitrationFollowsTheTopRank :
    (∀ x ∈ world.claims 0, x.isEffective = false) ∧ (∃ x ∈ claimedWorld.claims 0, x.isEffective = true ∧ x.rank = 3)
    ∧ (∀ x ∈ claimedWorld.claims 0, x.isEffective = true → x.rank ≤ 3) ∧ claimedWorld.tables.ranks.get 3 = .ltp
    ∧ { claimedWorld with tables := { claimedWorld.tables with ranks := .const .htp } }.tables.ranks.get 3 = .htp := by decide +kernel

theorem test_witness_LockQuestionIsAnswered :
    armedWorld.locked (.port .b) 3 [0] = true ∧ armedWorld.locked (.port .a) 3 [0] = false
    ∧ armedWorld.locked (.port .b) 4 [0] = false ∧ armedWorld.locked .field 0 [1] = false
    ∧ (∀ p, Owner.field ≠ .port p) ∧ (∃ c ∈ [0], c ∈ [(0 : Circuit)]) ∧ (3 : Rank) < 4 :=
  ⟨by decide +kernel, by decide +kernel, by decide +kernel, by decide +kernel, fun p => by simp,
    ⟨0, by simp, by simp⟩, by decide⟩

theorem test_witness_OutputsFollowTheRecord :
    (0 : Nat) ≤ 1000 ∧ ((relayWorld 0 .clear).record 1).kind = .dimmed .linear 0 1000
    ∧ ((relayWorld 0 .clear).record 0).kind = .switched 500 100 10 := by decide +kernel

/-! ## Witnesses of single clauses and forms -/

theorem test_witness_StepTakesTheFront :
    world.pending = [] ∧ world.dueEvents = [] ∧ claimedWorld.pending = []
    ∧ claimedWorld.dueEvents = [.fadeCompletion 1 .field]
    ∧ { onlineWorld with now := 5000000 }.dueEvents.contains (.leaseExpiry .a) = true
    ∧ (world.onCircuit 2 fun x => { x with transition := some ⟨.release, none, 800, 10, 1000000⟩ }).dueEvents =
      [.transitionEnd 2] := by decide +kernel

/-- One set of fields out of range for each rule that calls it malformed. -/
theorem test_witness_MalformedRequestsAreRefused_fields :
    BadFields (.place .a 1 (.fields ⟨.circuits [], 0, 0, 0, false⟩))
    ∧ BadFields (.place .a 1 (.fields ⟨.circuits [1, 1], 0, 0, 0, false⟩))
    ∧ BadFields (.place .a 1 (.fields ⟨.circuits (List.replicate 33 1), 0, 0, 0, false⟩))
    ∧ BadFields (.place .a 1 (.fields ⟨.group 1, 1001, 0, 0, false⟩))
    ∧ BadFields (.place .a 1 (.fields ⟨.group 1, 0, 36001, 0, false⟩))
    ∧ BadFields (.release .a 1 (.fields ⟨.group 1, 36001⟩)) ∧ BadFields (.recall .a 1 (.fields ⟨1, some 36001, 0⟩))
    ∧ BadFields (.setMode .a 1 (.fields 6)) ∧ BadFields (.setMode .a 1 (.fields 0))
    ∧ BadFields (.standby .a 1 (.fields (1, 8, 1))) ∧ BadFields (.standby .a 1 (.fields (1, 1, 601)))
    ∧ BadFields (.go .a 1 (.fields (1, .recall ⟨1, some 36001, 0⟩))) ∧ BadFields (.runSequence .a 1 (.fields (5, 1, 1, 0)))
    ∧ BadFields (.runSequence .a 1 (.fields (1, 17, 1, 0))) ∧ BadFields (.runSequence .a 1 (.fields (1, 1, 3, 0)))
    ∧ BadFields (.runSequence .a 1 (.fields (1, 1, 1, 24))) ∧ BadFields (.setPlayer .a 1 (.fields (1, 1, 401)))
    ∧ BadFields (.readNotices .a 1 (.fields 9)) ∧ BadFields (.readPreset .a 1 (.fields (1, 0)))
    ∧ BadFields (.readModeRecord .a 1 (.fields 6)) ∧ BadFields (.readSystemSetting .a 1 (.fields (10, 0)))
    ∧ BadFields (.readSystemSetting .a 1 (.fields (8, 17))) ∧ BadFields (.writeRankTable .a 1 (.fields []))
    ∧ BadFields (.writePresetOpen .a 1 (.fields (1, 0, 193))) ∧ BadFields (.writePresetPairs .a 1 (.fields (1, [])))
    ∧ BadFields (.writeSequence .a 1 (.fields (1, ⟨List.replicate 17 ⟨1, none, 0, 1⟩, 0, 0, 0, 0⟩))) := by
  simp [BadFields, BadPlace, BadRecall, BadList, BadRate]

/-- Every claim record is in use, none by port A, FIELD, MODE or player 1. -/
def fullPool (s : State) : State :=
  { s with circuits := .build fun c =>
      { CircuitState.clear with
        claims := (([.port .b, .port .c, .port .d, .seq 1, .seq 2, .seq 3] : List Owner).take
          (if c.val < 64 then 6 else 5)).map fun o => ⟨o, 0, .effective none, 0, none, none⟩ } }

theorem fullPool_is_full : (fullPool world).freeRecords = 0 ∧ (fullPool world).recordsNeeded (.port .a) [0] = 1
    ∧ (fullPool world).recordsNeeded .field [0] = 1 ∧ (fullPool world).recordsNeeded .mode [0] = 1
    ∧ (fullPool world).recordsNeeded (.seq 0) [0] = 1 := by decide +kernel

/-- Port A reaches no circuit and no rank above 3. -/
def narrowWorld : State :=
  { world with tables := { world.tables with
    roles := world.tables.roles.modify 0 fun r => { r with access := .groups [], maxRank := 3 } } }

/-- The refusals of a placement, one state for each. -/
theorem test_witness_RefusedInOrder :
    Ready world .a ∧ world.expand (.group 1) = none ∧ world.expand (.circuits [193]) = none
    ∧ world.presetNumbered 1 = none ∧ world.presetNumbered 49 = none
    ∧ Ready narrowWorld .a ∧ narrowWorld.expand (.circuits [1]) = some [0]
    ∧ (∃ c ∈ [0], narrowWorld.mayReach .a c = false) ∧ (narrowWorld.role .a).maxRank.val < 4
    ∧ Ready armedWorld .b ∧ armedWorld.expand (.circuits [1]) = some [0]
    ∧ (∀ c ∈ [0], armedWorld.mayReach .b c = true) ∧ 3 ≤ (armedWorld.role .b).maxRank.val
    ∧ armedWorld.locked (.port .b) (rankOf 3) [0] = true
    ∧ Ready (fullPool world) .a ∧ (∀ c ∈ [0], (fullPool world).mayReach .a c = true)
    ∧ (fullPool world).locked (.port .a) (rankOf 7) [0] = false
    ∧ (fullPool world).freeRecords < (fullPool world).recordsNeeded (.port .a) [0] :=
  ⟨ready_world .a, by decide +kernel, by decide +kernel, by decide +kernel, by decide +kernel,
    ready_of (by decide +kernel), by decide +kernel, ⟨0, by simp, by decide +kernel⟩, by decide +kernel,
    ready_armed_b, by decide +kernel, by decide +kernel, by decide +kernel, by decide +kernel,
    ready_of (by decide +kernel), by decide +kernel⟩

/-- `world` with these trackers taken. -/
def tracked (l : List Tracker) : State := { world with trackers := l }

/-- The trackers of a placement: none free for the port, none free at all, and one free. -/
theorem test_witness_TrackerTaken :
    (1 : Byte) ≠ 0
    ∧ (world.trackers.filter fun t => t.port == .a).length < 8 ∧ (∀ t ∈ world.trackers, t.id ≠ 0)
    ∧ 8 ≤ ((tracked (((indices 32).take 8).map fun i => ⟨i, .a, 1, 1⟩)).trackers.filter fun t => t.port == .a).length
    ∧ (∀ i : Fin 32, ∃ t ∈ (tracked ((indices 32).map fun i => ⟨i, .b, 1, 1⟩)).trackers, t.id = i)
    ∧ ListsInOrder world ∧ StoresFit world :=
  ⟨by decide, by decide +kernel, by simp [world, State.reset, State.afterFullReset], by decide +kernel, by decide +kernel,
    fun c => by
      have h : world.claims c = [] := congrArg CircuitState.claims (Tab.get_const _ c)
      rw [h]; exact ⟨.nil, .nil⟩,
    ⟨default_fits, fun t v h => by exact absurd h (by simp [world])⟩⟩

/-- A tagged PLACE of circuit 1 by port A with fade time `fade`, as it leaves `world`. -/
def placedWorld (fade : Nat) : State :=
  world.place ⟨.port .a, [⟨0, 500, fade, 3, none⟩], false, .pool 0 .a 7⟩

/-- A placement that fades leaves one claim that travels, one that does not none. -/
theorem test_witness_TrackerTaken_counts :
    travelling world (placedWorld 10) (.port .a) [0] (.pool 0) = 1
    ∧ travelling world (placedWorld 0) (.port .a) [0] (.pool 0) = 0 := by decide +kernel

/-- A tracker with one link, lost by the claim that carries it. -/
theorem test_witness_LinksSettle :
    let s := (tracked [⟨0, .a, 7, 1⟩]).onCircuit 0 fun x => { x with
      claims := [⟨.port .a, 3, .effective (some ⟨0, 10, 1000000, 0⟩), 500, none, some (.pool 0)⟩] }
    linksLost s (s.release (.port .a) [0] 0) (some (.port .a)) [0] (.pool 0) = 1
    ∧ linksLost s (s.completeFades 0) none [] (.pool 0) = 1 := by decide +kernel

theorem test_witness_ReleaseIsTaken_undefined :
    Ready world .a ∧ ReleaseFields.formed ⟨.group 64, 0⟩ = true ∧ world.expand (.group 64) = none :=
  ⟨ready_world .a, by decide, by decide +kernel⟩

/-- Circuit 3 recovers as the last, and beside circuit 4. -/
def recovered (cause : TransitionCause) (l : List Circuit) : State :=
  { world with emergency := { world.emergency with state := .recovering, recovery := l } }.onCircuit 2 fun x =>
    { x with transition := some ⟨cause, none, 800, 10, 1000000⟩ }

theorem test_witness_TransitionEndsAtTheOrdinaryLevel_recovery :
    (recovered .recovery [2]).transitionDue 2 = true
    ∧ ((recovered .recovery [2]).circuit 2).transition = some ⟨.recovery, none, 800, 10, 1000000⟩
    ∧ (recovered .recovery [2]).emergency.state = .recovering ∧ (∃ d ∈ (recovered .recovery [2, 3]).emergency.recovery, d ≠ 2)
    ∧ (recovered .recovery [2]).emergency.recovery ≠ [] ∧ (∀ d ∈ (recovered .recovery [2]).emergency.recovery, d = 2)
    ∧ ((recovered .release [2]).circuit 2).transition = some ⟨.release, none, 800, 10, 1000000⟩
    ∧ TransitionCause.release ≠ .recovery ∧ world.emergency.state ≠ .recovering :=
  ⟨by decide +kernel, by decide +kernel, rfl, ⟨3, by decide +kernel, by decide⟩, by decide +kernel⟩

/-- The slot of `cueWorld` in another phase. -/
def goingWorld : State := { cueWorld with slots := cueWorld.slots.set 0 (some ⟨.going 1, .a, [0], 4, 30, 30000000⟩) }

theorem test_witness_GoPlacesTheCue_refused :
    Cue.formed (.recall ⟨1, none, 7⟩) = true ∧ indexOf 4 0 = none ∧ indexOf 4 5 = none ∧ cueWorld.slot 3 = none
    ∧ goingWorld.slot 0 = some ⟨.going 1, .a, [0], 4, 30, 30000000⟩
    ∧ Ready cueWorld .b ∧ cueWorld.slot 0 = some ⟨.armed, .a, [0], 4, 30, 30000000⟩ ∧ Port.a ≠ .b
    ∧ ListsInOrder cueWorld :=
  ⟨by decide, by decide, by decide, by decide +kernel, by decide +kernel, ready_of (by decide +kernel),
    by decide +kernel, by decide, fun c => by
      have h : cueWorld.claims c = [] := congrArg CircuitState.claims (Tab.get_const _ c)
      rw [h]; exact ⟨.nil, .nil⟩⟩

/-- The cue of slot 1, placed with fade time `fade`. -/
def cuePlaced (fade : Nat) : State :=
  cueWorld.place ⟨.port .a, [⟨0, 500, fade, 3, none⟩], false, .slot 0⟩

theorem test_witness_CueRuns :
    travelling cueWorld (cuePlaced 10) (.port .a) [0] (.slot 0) = 1
    ∧ travelling cueWorld (cuePlaced 0) (.port .a) [0] (.slot 0) = 0 := by decide +kernel

/-- `world` in the mode `m` with these entries held. -/
def heldEntries (m : HouseMode) (l : List Deferred) : State := { world with mode := some m, deferred := l }

theorem test_witness_DeferredEntryExpires_queue :
    (heldEntries .inShow [{ entry with expiry := 60000001 }, entry]).deferred =
      [{ entry with expiry := 60000001 }] ++ entry :: []
    ∧ ({ heldEntries .inShow [entry] with replayOwed := true }.replayOwed = true ∧ world.replayOwed = false)
    ∧ ([] : List Deferred).length < world.tables.settings.warningLevel
    ∧ ((heldEntries .work [entry]).deferred.foldl State.replayEntry { heldEntries .work [entry] with deferred := [] }).deferred =
      [] :=
  ⟨rfl, ⟨rfl, rfl⟩, by decide +kernel, by decide +kernel⟩

/-- An entry outside its gate, one locked, one the pool cannot supply, one placed and one released. -/
theorem test_witness_DeferredEntryExpires_judged :
    (∀ m, (heldEntries .work []).mode = some m → m ∉ entry.gate)
    ∧ armedWorld.mode = some .inShow ∧ HouseMode.inShow ∈ entry.gate
    ∧ armedWorld.locked .field entry.rank (heldCircuits armedWorld entry) = true
    ∧ EntryPlaces (fullPool shown) entry [⟨0, 0, 10, 3, some ⟨0, 0, 0⟩⟩]
    ∧ (fullPool shown).locked .field entry.rank (heldCircuits (fullPool shown) entry) = false
    ∧ (fullPool shown).freeRecords < (fullPool shown).recordsNeeded .field [0]
    ∧ EntryPlaces shown entry [⟨0, 0, 10, 3, some ⟨0, 0, 0⟩⟩]
    ∧ shown.locked .field entry.rank (heldCircuits shown entry) = false
    ∧ shown.recordsNeeded .field [0] ≤ shown.freeRecords
    ∧ shown.locked .field 3 [0] = false
    ∧ { entry with action := .release [0] }.action = .release [0] :=
  ⟨fun m h => by simp only [heldEntries, Option.some.injEq] at h; rw [← h]; decide, rfl, by decide, by decide +kernel,
    .inr (.inl ⟨[0], rfl, rfl⟩), by decide +kernel, by decide +kernel, .inr (.inl ⟨[0], rfl, rfl⟩), by decide +kernel⟩

/-- The other entries that place: ON, both cases of TOGGLE, and RECALL. -/
theorem test_witness_EntryPlaces :
    EntryPlaces world { entry with action := .on [0] 500 } [⟨0, 500, 10, 3, some ⟨0, 0, 0⟩⟩]
    ∧ EntryPlaces world { entry with action := .toggle [0] 500 } [⟨0, 500, 10, 3, some ⟨0, 0, 0⟩⟩]
    ∧ EntryPlaces claimedWorld { entry with action := .toggle [1] 500 } [⟨1, 0, 10, 3, some ⟨0, 0, 0⟩⟩]
    ∧ EntryPlaces presetWorld { entry with action := .recall 0 }
      [⟨0, 700, 10, 3, some ⟨0, 0, 0⟩⟩, ⟨1, 1000, 10, 3, some ⟨0, 0, 0⟩⟩] :=
  ⟨.inl ⟨[0], 500, rfl, rfl⟩,
    .inr (.inr (.inr (.inl ⟨[0], 500, rfl, rfl, by decide +kernel⟩))),
    .inr (.inr (.inl ⟨[1], 500, rfl, rfl, 1, by simp, by decide +kernel⟩)),
    .inr (.inr (.inr (.inr ⟨0, rfl, by decide +kernel⟩)))⟩

/-- `s` with sequence 1 of these steps, its rank 3, and player 1 as `y`. -/
def stepping (s : State) (steps : List SeqStep) (y : Player) : State :=
  { s with
    tables := { s.tables with sequences := s.tables.sequences.set 0 (some ⟨steps, 3, .release, 0, 2⟩) }
    players := s.players.set 0 y }

/-- Player 1 held at step 1 of sequence 1. -/
def waiting : Player := ⟨.single, .waitLock, some 0, 1, 0, 100, some 400, none⟩

/-- A player that waits for no lock, one whose step is locked again, and one whose step is free. -/
theorem test_witness_StepRetried :
    (world.player 0).run ≠ .waitLock
    ∧ ((stepping cueWorld [⟨.recall 0, 10, 1⟩] waiting).player 0).run = .waitLock
    ∧ ((stepping cueWorld [⟨.recall 0, 10, 1⟩] waiting).player 0).sequence = some 0
    ∧ (stepping cueWorld [⟨.recall 0, 10, 1⟩] waiting).tables.sequences.get 0 =
      some ⟨[⟨.recall 0, 10, 1⟩], 3, .release, 0, 2⟩
    ∧ [(⟨.recall 0, 10, 1⟩ : SeqStep)][1 - 1]? = some ⟨.recall 0, 10, 1⟩
    ∧ (stepping cueWorld [⟨.recall 0, 10, 1⟩] waiting).presetDef 0 = some ⟨20, [(0, 700), (1, 1000)]⟩
    ∧ (stepping cueWorld [⟨.recall 0, 10, 1⟩] waiting).locked (.seq 0) 3 [0, 1] = true
    ∧ (stepping presetWorld [⟨.recall 0, 10, 1⟩] waiting).locked (.seq 0) 3 [0, 1] = false := by decide +kernel

/-- The forms of a step: RELEASE, an undefined preset, a locked one, one the pool cannot supply, and one that is placed. -/
theorem test_witness_StepTaken :
    (⟨.release, 0, 1⟩ : SeqStep).kind = .release ∧ (⟨.recall 0, 10, 1⟩ : SeqStep).kind = .recall 0
    ∧ world.presetDef 0 = none ∧ presetWorld.presetDef 0 = some ⟨20, [(0, 700), (1, 1000)]⟩
    ∧ cueWorld.locked (.seq 0) 3 [0, 1] = true ∧ (fullPool presetWorld).locked (.seq 0) 3 [0, 1] = false
    ∧ (fullPool presetWorld).freeRecords < (fullPool presetWorld).recordsNeeded (.seq 0) [0, 1]
    ∧ presetWorld.locked (.seq 0) 3 [0, 1] = false ∧ presetWorld.recordsNeeded (.seq 0) [0, 1] ≤ presetWorld.freeRecords :=
  ⟨rfl, rfl, by decide +kernel⟩

/-- `s` with the record `r` of WORK. -/
def entering (s : State) (r : ModeRecord) : State :=
  { s with tables := { s.tables with modes := s.tables.modes.set 0 r } }

/-- The forms of an entry preset: none, undefined, one the pool cannot supply, and one placed. -/
theorem test_witness_PresetEntered :
    Ready (entering shown ⟨none, 0, 0, none⟩) .a ∧ (entering shown ⟨some 0, 3, 10, none⟩).presetDef 0 = none
    ∧ (entering presetWorld ⟨some 0, 3, 10, none⟩).presetDef 0 = some ⟨20, [(0, 700), (1, 1000)]⟩
    ∧ (fullPool presetWorld).freeRecords < (fullPool presetWorld).recordsNeeded .mode [0, 1]
    ∧ presetWorld.recordsNeeded .mode [0, 1] ≤ presetWorld.freeRecords :=
  ⟨ready_of (by decide +kernel), by decide +kernel⟩

/-- The forms of an entry sequence: OFF of a player that is OFF and of one that runs, and a run of an undefined sequence, of
the one the player runs, and of another. -/
theorem test_witness_SequenceEntered :
    ((entering playerWorld ⟨none, 0, 0, some (.off 1)⟩).player 1).mode = .off
    ∧ ((entering playerWorld ⟨none, 0, 0, some (.off 0)⟩).player 0).mode ≠ .off
    ∧ playerWorld.tables.sequences.get 5 = none
    ∧ (playerWorld.player 0).sequence = some 0 ∧ (playerWorld.player 0).mode ≠ .off
    ∧ playerWorld.tables.sequences.get 0 = some ⟨⟨.release, 0, 1⟩ :: [⟨.release, 0, 1⟩], 7, .hold, 0, 0⟩
    ∧ (otherRun.player 0).sequence ≠ some 0 := by decide +kernel

/-- `world` with player 1 OFF and a HOLD of sequence 6 left. -/
def heldRun : State := { playerWorld with players := world.players.set 0 ⟨.off, .idle, some 5, 0, 1, 100, none, some 30⟩ }

/-- The other forms of RUN_SEQUENCE: the sequence that runs, OFF of a player that is OFF, an undefined sequence and one
above the role's rank; and a run begun on a player that is OFF, that runs another sequence, and that holds another's
claims. -/
theorem test_witness_RunSequenceStartsTheRun_forms :
    Ready playerWorld .a ∧ (playerWorld.player 0).mode ≠ .off ∧ (playerWorld.player 0).sequence = some 0
    ∧ (playerWorld.player 1).mode = .off ∧ playerWorld.tables.sequences.get 15 = none
    ∧ ({ playerWorld with tables := { playerWorld.tables with roles := narrowWorld.tables.roles } }.role .a).maxRank < 7
    ∧ (playerWorld.player 1).heldRelease = none ∧ (heldRun.player 0).mode = .off ∧ (heldRun.player 0).heldRelease ≠ none
    ∧ (heldRun.player 0).sequence ≠ some 0 ∧ (otherRun.player 0).mode ≠ .off :=
  ⟨ready_player, by decide +kernel⟩

/-- Player 1 at the last step of two, in its mode with these passes done. -/
def lastStep (m : PlayerMode) (passes : Nat) (limit : Nat) (e : EndAction) : State :=
  { playerWorld with
    tables := { playerWorld.tables with
      sequences :=
        playerWorld.tables.sequences.set 0 (some ⟨[⟨.release, 0, 1⟩, ⟨.release, 0, 1⟩], 7, e, 30, limit⟩) }
    players := world.players.set 0 ⟨m, .running 0, some 0, 2, passes, 100, none, none⟩ }

/-- A pass that goes on without a limit and below one, and a run that ends in either way. -/
theorem test_witness_WaitExpiryTakesTheNextStep_pass :
    ((lastStep .loop 0 0 .hold).player 0).run = .running 0 ∧ 0 ≤ (lastStep .loop 0 0 .hold).now
    ∧ ((lastStep .loop 0 0 .hold).player 0).sequence = some 0
    ∧ (lastStep .loop 0 0 .hold).tables.sequences.get 0 =
      some ⟨⟨.release, 0, 1⟩ :: [⟨.release, 0, 1⟩], 7, .hold, 30, 0⟩
    ∧ 2 ≤ ((lastStep .loop 0 0 .hold).player 0).step
    ∧ (lastStep .loop 0 0 .hold).player 0 = ⟨.loop, .running 0, some 0, 2, 0, 100, none, none⟩
    ∧ (lastStep .loop 0 2 .hold).player 0 = ⟨.loop, .running 0, some 0, 2, 0, 100, none, none⟩
    ∧ min (0 + 1) 65535 < 2
    ∧ (lastStep .loop 1 2 .hold).player 0 = ⟨.loop, .running 0, some 0, 2, 1, 100, none, none⟩
    ∧ 2 ≤ min (1 + 1) 65535
    ∧ (lastStep .single 0 0 .release).player 0 = ⟨.single, .running 0, some 0, 2, 0, 100, none, none⟩
    ∧ (lastStep .single 0 0 .release).tables.sequences.get 0 =
      some ⟨[⟨.release, 0, 1⟩, ⟨.release, 0, 1⟩], 7, .release, 30, 0⟩ := by decide +kernel

theorem default_canonical : Tables.Canonical defaultTables := ⟨by decide +kernel, by decide +kernel⟩

theorem imageOf_header (t : Tables) : (imageOf t).format = 1 ∧ (imageOf t).length = 7 + (imageOf t).body.length
    ∧ (imageOf t).crc = crc32 (imageOf t).body ∧ (imageOf t).body = Tables.image t := ⟨rfl, rfl, rfl, rfl⟩

/-- Images that pass and that fail each check, and what the part last stored. -/
theorem test_witness_ImageIsTaken_images :
    (imageOf defaultTables).format = 1 ∧ (imageOf defaultTables).length = 7 + (imageOf defaultTables).body.length
    ∧ (imageOf defaultTables).crc = crc32 (imageOf defaultTables).body
    ∧ readTables (imageOf defaultTables).body = some defaultTables ∧ Tables.loadable defaultTables = true
    ∧ Tables.Canonical defaultTables ∧ { State.reset with memory := some (imageOf defaultTables) }.startup = .reading
    ∧ StoredImage.ofBytes [] = none
    ∧ StoredImage.ofBytes [2, 0, 7, 0, 0, 0, 0] = some ⟨2, 7, 0#32, []⟩ ∧ (⟨2, 7, 0#32, []⟩ : StoredImage).format ≠ 1
    ∧ (⟨1, 8, 0#32, []⟩ : StoredImage).length ≠ 7 + (⟨1, 8, 0#32, []⟩ : StoredImage).body.length
    ∧ (⟨1, 7, 1#32, []⟩ : StoredImage).crc ≠ crc32 (⟨1, 7, 1#32, []⟩ : StoredImage).body
    ∧ readTables (⟨1, 7, 0#32, []⟩ : StoredImage).body = none
    ∧ Tables.loadable { defaultTables with settings := { defaultTables.settings with egressTime := 36001 } } = false :=
  ⟨(imageOf_header _).1, (imageOf_header _).2.1, (imageOf_header _).2.2.1, test_default_image_reads_back, by decide +kernel, default_canonical, rfl, by decide +kernel⟩

/-- An image that passes all checks but the records', as it is read. -/
theorem test_witness_ImageIsTaken_records :
    readTables (Tables.image { defaultTables with settings := { defaultTables.settings with egressTime := 36001 } }) =
      some { defaultTables with settings := { defaultTables.settings with egressTime := 36001 } } := by decide +kernel

theorem test_witness_SaveBeginsAndEnds_failures :
    { savingWorld with save := some ⟨.b, 4, true, defaultTables, some ⟨1, 7, 0#32, []⟩⟩ }.save =
      some ⟨.b, 4, true, defaultTables, some ⟨1, 7, 0#32, []⟩⟩
    ∧ ((savingWorld.onPort .b fun x => { x with link := .online 5000000 }).port .b).isOnline = true :=
  ⟨rfl, by decide +kernel⟩

/-- Port A restarts a part that recovers on circuit 1, with port B LOST and port C ONLINE. -/
def restartWorld : State :=
  (({ emergencyWorld .recovering with
      emergency := { (emergencyWorld .recovering).emergency with recovery := [0] } }.onCircuit 0 fun x =>
        { x with transition := some ⟨.recovery, none, 1000, 50, 0⟩ }).onPort .b fun x => { x with link := .lost 1 }).onPort .c
    fun x => { x with link := .online 5000000 }

theorem test_witness_RestartClearsAndKeeps_forms :
    Ready restartWorld .a ∧ restartWorld.permits .a .admin = true ∧ restartWorld.save = none
    ∧ restartWorld.emergency.state = .recovering ∧ restartWorld.emergency.recovery ≠ []
    ∧ (∀ c ∈ restartWorld.emergency.recovery, ∃ y, (restartWorld.circuit c).transition = some y ∧ y.cause = .recovery)
    ∧ restartWorld.mode = some .work ∧ (restartWorld.tables.modes.get HouseMode.work.ix).entryPreset = none
    ∧ (restartWorld.tables.modes.get HouseMode.work.ix).entrySequence = none
    ∧ restartWorld.forced 0 = false ∧ (emergencyWorld .latched).forced 0 = true
    ∧ (restartWorld.port .b).link = .lost 1 ∧ (restartWorld.port .c).link = .online 5000000
    ∧ (restartWorld.port .d).link = .offline ∧ Port.b ≠ .a ∧ Port.c ≠ .a ∧ Port.d ≠ .a :=
  ⟨ready_of (by decide +kernel), by decide +kernel, rfl, rfl, by decide +kernel,
    fun c h => ⟨⟨.recovery, none, 1000, 50, 0⟩, by
      have e : c = 0 := by
        have k : c ∈ ([0] : List Circuit) := h
        simpa using k
      rw [e]; decide +kernel, rfl⟩,
    rfl, by decide +kernel⟩

/-- Loop 1 with stations 1.01 and 1.16, last polled as given. -/
def twoStations (last : Option StationNo) : State :=
  { world with
    tables := { world.tables with
      stations :=
        world.tables.stations.set 0 (.build fun n => if n = 0 then some .switch2 else if n = 15 then some .keypad8 else none) } }.onLoop 0
    fun x => { x with lastPolled := last }

/-- The first POLL of a loop, the next address above, and the lowest after the highest. -/
theorem test_witness_NextStation :
    NextStation (twoStations none) 0 0 ∧ NextStation (twoStations (some 0)) 0 15 ∧ NextStation (twoStations (some 15)) 0 0
    ∧ NextStation (twoStations (some 7)) 0 15
    ∧ ((twoStations none).loop 0).exchange = none ∧ (∀ n, (twoStations none).stationType 1 n = none) :=
  ⟨⟨by decide +kernel, .inr ⟨by decide +kernel, by decide +kernel⟩⟩,
    ⟨by decide +kernel, .inl ⟨0, by decide +kernel⟩⟩,
    ⟨by decide +kernel, .inr ⟨by decide +kernel, by decide +kernel⟩⟩,
    ⟨by decide +kernel, .inl ⟨7, by decide +kernel⟩⟩,
    by decide +kernel, by decide +kernel⟩

/-- Bytes that are no REPORT, a REPORT of another type, and a station removed during its exchange. -/
theorem test_witness_SilenceIsAMiss_forms :
    (∀ type keys, ([] : List Byte) ≠ reportOf type keys) ∧ (∀ type keys, [0xB3, 2, 1, 0xB1] ≠ reportOf type keys)
    ∧ (∀ type keys, [0xB3, 2, 1, 0xB0, 0] ≠ reportOf type keys)
    ∧ ¬ NamesType (stationWorld.stationType 0 0) 1 ∧ ¬ NamesType (stationWorld.stationType 0 0) 3
    ∧ (((polledWorld id).onLoop 0 fun x => { x with exchange := some ⟨0, 4000, true⟩ }).loop 0).exchange =
      some ⟨0, 4000, true⟩ := by
  refine ⟨fun _ _ => by simp [reportOf], fun type keys => ?_, fun _ _ => by simp [reportOf], ?_, ?_, by decide +kernel⟩
  · simp only [reportOf, ne_eq, List.cons.injEq, and_true, true_and, not_and]
    rintro rfl rfl
    decide
  · have h : stationWorld.stationType 0 0 = some .switch2 := by decide +kernel
    rw [h]; simp [NamesType]
  · have h : stationWorld.stationType 0 0 = some .switch2 := by decide +kernel
    rw [h]; simp [NamesType]

/-- `polledWorld` with key 1.01.1 down, its record as `f` leaves it. -/
def downWorld (f : KeyRecord → KeyRecord) : State :=
  (polledWorld id).onKey ⟨0, 0, 0⟩ fun r => f { r with down := true }

/-- The key goes up: released from HELD, tapped from PRESSED, and without an edge; and a key in lockout. -/
theorem test_witness_GoodReportsAreTaken_released :
    NamesType ((downWorld id).stationType 0 0) 2 ∧ ((downWorld id).loop 0).exchange = some ⟨0, 4000, false⟩
    ∧ ((downWorld id).station 0 0).presence = .present ∧ (⟨0, 0, 0⟩ : KeyAddr) ∈ (downWorld id).keysAt 0 0
    ∧ ((downWorld id).key ⟨0, 0, 0⟩).down ≠ (0 : Byte).getLsbD 0
    ∧ (∀ j ∈ (downWorld id).keysAt 0 0, j ≠ ⟨0, 0, 0⟩ → ((downWorld id).key j).down = (0 : Byte).getLsbD j.key.val)
    ∧ ((downWorld id).key ⟨0, 0, 0⟩).phase = .none ∧ ((downWorld id).key ⟨0, 0, 0⟩).window = none
    ∧ ((downWorld fun r => { r with phase := .held }).key ⟨0, 0, 0⟩).phase = .held
    ∧ ((downWorld fun r => { r with phase := .pressed 5 }).key ⟨0, 0, 0⟩).phase = .pressed 5
    ∧ (downWorld id).liveEntries ⟨0, 0, 0⟩ .release = [] ∧ (downWorld id).liveEntries ⟨0, 0, 0⟩ .tap = []
    ∧ (downWorld id).raiseSet ⟨0, 0, 0⟩ = [] ∧ (downWorld id).replayOwed = false
    ∧ ((downWorld fun r => { r with lockout := some 9 }).key ⟨0, 0, 0⟩).lockout = some 9 :=
  ⟨by
    have h : (downWorld id).stationType 0 0 = some .switch2 := by decide +kernel
    rw [h]; exact .inr ⟨rfl, rfl⟩,
    by decide +kernel⟩

/-- Key 1.01.1 PRESSED with HOLD bound to `a`, on the part `s` whose first group holds circuits 1 and 2. -/
def boundOn (s : State) (a : FieldAction) : State :=
  State.onKey
    { s with
      tables := { s.tables with
        stations := stationWorld.tables.stations, groups := s.tables.groups.set 0 [0, 1],
        bindings := [⟨⟨0, 0, 0⟩, .hold, [.work, .inShow], a⟩] } }
    ⟨0, 0, 0⟩ fun r => { r with down := true, phase := .pressed 0 }

theorem boundOn_live (s : State) (a : FieldAction) (h : s.mode = some .work ∨ s.mode = some .inShow) :
    (boundOn s a).liveEntries ⟨0, 0, 0⟩ .hold = [⟨⟨0, 0, 0⟩, .hold, [.work, .inShow], a⟩] := by
  have m : (boundOn s a).mode = s.mode := rfl
  have b : Tables.bindingsOf (boundOn s a).tables ⟨0, 0, 0⟩ .hold = [⟨⟨0, 0, 0⟩, .hold, [.work, .inShow], a⟩] := rfl
  unfold State.liveEntries
  rw [b]
  rcases h with h | h <;> simp [State.inGate, m, h]

/-- The field actions that a full pool refuses. -/
theorem test_witness_FieldActionsAreCarriedOut_short :
    let s := boundOn (fullPool presetWorld) (.on 1 500 0 3)
    s.mode = some .work ∧ s.keyExists ⟨0, 0, 0⟩ = true ∧ (s.key ⟨0, 0, 0⟩).phase = .pressed 0 ∧ s.members 1 = some [0, 1]
    ∧ s.locked .field 3 [0, 1] = false ∧ s.freeRecords < s.recordsNeeded .field [0, 1]
    ∧ s.presetDef 0 = some ⟨20, [(0, 700), (1, 1000)]⟩
    ∧ ([0, 1] : List Circuit).filter (fun c =>
        (s.claims c).all fun x => !x.isEffective || x.owner == .field || decide (x.rank ≤ 3)) = [0, 1] :=
  ⟨rfl, by decide +kernel⟩

/-- A RAISE or LOWER that reaches no circuit, one that is locked, and one that is taken. -/
theorem test_witness_FieldActionsAreCarriedOut_raise :
    (∀ n, (boundOn world (.lower 1 2)).level n ≤ 1000)
    ∧ ([0] : List Circuit).filter (fun c =>
        (claimedWorld.claims c).all fun x => !x.isEffective || x.owner == .field || decide (x.rank ≤ 2)) = []
    ∧ ([0, 1] : List Circuit).filter (fun c => ((boundOn world (.raise 1 3)).claims c).all fun x =>
        !x.isEffective || x.owner == .field || decide (x.rank ≤ 3)) = [0, 1]
    ∧ (boundOn armedWorld (.raise 1 3)).locked .field 3 [0, 1] = true
    ∧ (boundOn world (.raise 1 3)).locked .field 3 [0, 1] = false
    ∧ (boundOn world (.raise 1 3)).recordsNeeded .field [0, 1] ≤ (boundOn world (.raise 1 3)).freeRecords := by
  decide +kernel

/-- SEQ_RUN of an undefined sequence, of the one that runs and of another; SEQ_STOP of a player that is OFF and of one
that runs; SET_MODE of the mode in force. -/
theorem test_witness_FieldActionsAreCarriedOut_sequences :
    (boundOn playerWorld (.seqRun 0 5 .loop)).tables.sequences.get 5 = none
    ∧ (boundOn playerWorld (.seqRun 0 0 .loop)).tables.sequences.get 0 =
      some ⟨⟨.release, 0, 1⟩ :: [⟨.release, 0, 1⟩], 7, .hold, 0, 0⟩
    ∧ ((boundOn playerWorld (.seqRun 0 0 .loop)).player 0).mode ≠ .off
    ∧ ((boundOn playerWorld (.seqRun 0 0 .loop)).player 0).sequence = some 0
    ∧ ((boundOn otherRun (.seqRun 0 0 .loop)).player 0).sequence ≠ some 0
    ∧ ((boundOn playerWorld (.seqStop 1)).player 1).mode = .off ∧ ((boundOn playerWorld (.seqStop 0)).player 0).mode ≠ .off
    ∧ (boundOn playerWorld (.setMode .work)).mode = some .work
    ∧ (boundOn world (.recall 0 0 3)).presetDef 0 = none := by
  decide +kernel

/-- The deferred queue full, and switched off by its limit. -/
theorem test_witness_FieldActionsAreCarriedOut_dropped :
    16 ≤ ({ lockedWorld (.on 1 500 0 3) with deferred := List.replicate 16 entry }).deferred.length
    ∧ { world.tables.settings with deferLimit := 0 }.deferLimit = 0
    ∧ ({ lockedWorld (.on 1 500 0 3) with deferred := List.replicate 16 entry }).locked .field 3 [0, 1] = true := by
  decide +kernel

/-! ## Witnesses of refusals and of the raise set -/

/-- A rank above the highest is refused by R11, not by its form. -/
theorem test_rank_8_is_denied :
    (((after (exec (.place .a 0 (.fields ⟨.circuits [1], 600, 0, 8, false⟩)) world)).port .a).lastReply.map
      Reply.status) = some .denied ∧ (world.role .a).maxRank.val < 8 := by decide +kernel

theorem test_witness_QueryCircuitReports_forms :
    ((relayWorld 0 .clear).record 1).kind = .dimmed .linear 0 1000
    ∧ ((relayWorld 0 .clear).record 0).kind = .switched 500 100 10
    ∧ ((relayWorld 0 .clear).record 0).route = .pwm 0 ∧ (∀ n, ((relayWorld 0 .clear).record 1).route ≠ .pwm n) := by
  decide +kernel

/-- `groupShow` with all slots in use. -/
def noSlot : State := { groupShow with slots := .const (some ⟨.armed, .b, [5], 4, 30, 30000000⟩) }

/-- The refusals of STANDBY, one state for each. -/
theorem test_witness_StandbyArmsASlot_refused :
    Ready bareWorld .a ∧ bareWorld.permits .a .cue = false
    ∧ Ready groupShow .a ∧ groupShow.permits .a .cue = true ∧ groupShow.group 2 = none ∧ groupShow.group 65 = none
    ∧ (∃ c ∈ [0, 191], narrowWorld.mayReach .a c = false) ∧ (narrowWorld.role .a).maxRank.val < 4
    ∧ narrowWorld.permits .a .cue = true
    ∧ { groupShow with mode := some .work }.mode ≠ some .inShow
    ∧ noSlot.mode = some .inShow ∧ (∀ n, noSlot.slot n ≠ none) :=
  ⟨ready_bare, by decide +kernel, ready_of (by decide +kernel), by decide +kernel, by decide +kernel, by decide +kernel,
    ⟨0, by simp, by decide +kernel⟩, by decide +kernel⟩

/-- `playerWorld` with player 1 OFF and holding sequence 1. -/
def restingPlayer : State :=
  { playerWorld with players := world.players.set 0 ⟨.off, .idle, some 0, 0, 1, 100, none, none⟩ }

/-- SET_PLAYER on a player that is OFF: it holds no sequence, an undefined one, one above the role's rank, and one it may
start. -/
theorem test_witness_SetPlayerActsOnTheRun_off :
    (playerWorld.player 1).mode = .off ∧ (playerWorld.player 1).sequence = none
    ∧ (heldRun.player 0).mode = .off ∧ (heldRun.player 0).sequence = some 5 ∧ heldRun.tables.sequences.get 5 = none
    ∧ Ready restingPlayer .a ∧ (restingPlayer.player 0).mode = .off ∧ (restingPlayer.player 0).sequence = some 0
    ∧ restingPlayer.tables.sequences.get 0 = some ⟨[⟨.release, 0, 1⟩, ⟨.release, 0, 1⟩], 7, .hold, 0, 0⟩
    ∧ (7 : Rank) ≤ (restingPlayer.role .a).maxRank ∧ (narrowWorld.role .a).maxRank < 7 :=
  ⟨by decide +kernel, by decide +kernel, rfl, rfl, by decide +kernel, ready_of (by decide +kernel), by decide +kernel⟩

/-- The refusals every table write begins with, one state for each. -/
theorem test_witness_EditRefused :
    (Ready bareWorld .a ∧ bareWorld.permits .a .edit = false)
    ∧ (Ready shown .a ∧ shown.permits .a .edit = true ∧ shown.mode = some .inShow)
    ∧ (Ready savingWorld .a ∧ savingWorld.permits .a .edit = true ∧ savingWorld.mode ≠ some .inShow
      ∧ savingWorld.save ≠ none)
    ∧ (savingWorld.permits .a .edit && savingWorld.permits .a .admin) = true
    ∧ (Ready world .b ∧ (world.permits .b .edit && world.permits .b .admin) = false) :=
  ⟨⟨ready_bare, by decide +kernel⟩, ⟨ready_shown .a, by decide +kernel⟩, ⟨ready_saving, by decide +kernel⟩,
    by decide +kernel, ready_world .b, by decide +kernel⟩

/-- Records out of range, numbers of no record, and a line that another circuit names. -/
theorem test_witness_writes_refused :
    typedRanks [0, 0, 0, 0, 0, 0, 0, 2] = none ∧ (0 : Nat) = 0 ∧ 4 < 5 ∧ 48 < 49 ∧ 192 < 193 ∧ 16 < 17 ∧ 36000 < 36001
    ∧ typedStations [(17, 0)] = none ∧ typedStations [(1, 2)] = none ∧ typedStations [(1, 0), (1, 1)] = none
    ∧ RawSequence.typed ⟨[⟨1, none, 0, 0⟩], 7, 0, 0, 0⟩ = none ∧ HouseMode.ofCode 6 = none
    ∧ RawModeRecord.typed ⟨some 49, 0, 0, none⟩ = none ∧ Port.ofCode 4 = none
    ∧ RawRoleRecord.typed ⟨8, none, 0, 5, 30, 30, 0⟩ = none ∧ lineSetting 10 1 = none
    ∧ Settings.replaced defaultSettings 0 none 299 = none ∧ Settings.replaced defaultSettings 8 (some 0) 49 = none
    ∧ RawCircuitRecord.typed ⟨0, 0, none, 1001, none, some 0, some 0, some 1000, none, none, none⟩ = none
    ∧ (RawCircuitRecord.typed ⟨0, 1, some 1, 0, none, some 0, some 0, some 1000, none, none, none⟩ =
        some ⟨.dimmed .linear 0 1000, .pwm 0, 0, none⟩ ∧ (0 : Circuit) ≠ 1
      ∧ ((relayWorld 0 .clear).record 0).route = .pwm 0) := by decide +kernel

/-- A pairs part is refused: no edit record, one of another preset, and each pair out of its range or place. -/
theorem test_witness_PresetIsWrittenInParts_refused :
    (world.port .a).edit = none ∧ (editWorld.port .a).edit = some ⟨0, 36000, 2, []⟩ ∧ numberOf (0 : PresetNo) ≠ 2
    ∧ (∃ x ∈ [(0, 0)], x.1 = 0 ∨ 192 < x.1 ∨ 1000 < x.2) ∧ (∃ x ∈ [(193, 0)], x.1 = 0 ∨ 192 < x.1 ∨ 1000 < x.2)
    ∧ (∃ x ∈ [(1, 1001)], x.1 = 0 ∨ 192 < x.1 ∨ 1000 < x.2)
    ∧ ¬ (([] ++ [((0 : Circuit), 5), (0, 6)]).map Prod.fst).Nodup
    ∧ 2 < ([] ++ [((0 : Circuit), 5), (1, 6), (2, 7)]).length := by decide +kernel

/-- Sixteen presets of all circuits fill the preset store, which port A edits. -/
def fullPresets : State :=
  { editWorld with tables := { editWorld.tables with
    presets := .build fun n => if 32 ≤ n.val then some ⟨0, (indices 192).map fun c => (c, 0)⟩ else none } }

/-- 512 entries fill the binding table. -/
def fullBindings : State :=
  { world with tables := { world.tables with
    bindings := List.replicate 512 ⟨⟨3, 15, 7⟩, .release, [.work], .seqStop 0⟩ } }

/-- The stores with no room left. -/
theorem test_witness_stores_full :
    Ready fullPresets .a ∧ MayEdit fullPresets .a
    ∧ 3072 - Tables.pairsUsed fullPresets.tables + (pairsOf (fullPresets.presetDef 0)).length < 1
    ∧ ([] ++ [((0 : Circuit), 1000), (191, 0)]).length = 2
    ∧ Ready fullBindings .a ∧ MayEdit fullBindings .a
    ∧ 512 + (Tables.bindingsOf fullBindings.tables ⟨0, 0, 0⟩ .press).length < fullBindings.tables.bindings.length + 1 :=
  ⟨ready_of (by decide +kernel), ⟨by decide +kernel, by decide +kernel, rfl⟩, by decide +kernel, rfl,
    ready_of (by decide +kernel), ⟨by decide +kernel, by decide +kernel, rfl⟩, by decide +kernel⟩

/-- Bindings refused: no such key, no such edge, five entries, and one out of range. -/
theorem test_witness_BindingWriteReplacesOneList_refused :
    RawKey.address ⟨5, 0⟩ = none ∧ RawKey.address ⟨1, 128⟩ = none ∧ Edge.ofCode 4 = none
    ∧ 4 < (List.replicate 5 (⟨31, 8, .number 4, none, none, none⟩ : RawBinding)).length
    ∧ RawBinding.typed ⟨0, 0, 0⟩ .press ⟨0, 8, .number 4, none, none, none⟩ = none
    ∧ RawBinding.typed ⟨0, 0, 0⟩ .press ⟨31, 8, .number 5, none, none, none⟩ = none := by decide +kernel

/-- The mode kept by a restart names an entry preset, and a sequence whose step 1 recalls one: what they can touch, a circuit
they leave, and a player they do not start. -/
theorem test_witness_RestartClearsAndKeeps_entry :
    let s := entering (stepping presetWorld [⟨.recall 0, 10, 1⟩] .clear) ⟨some 0, 3, 10, some (.run 1 .loop 0)⟩
    Ready s .a ∧ s.mode = some .work ∧ s.permits .a .admin = true ∧ s.save = none
    ∧ entryCircuits s (s.tables.modes.get HouseMode.work.ix) = [0, 1, 0, 1]
    ∧ (2 : Circuit) ∉ entryCircuits s (s.tables.modes.get HouseMode.work.ix)
    ∧ (∀ m q, (s.tables.modes.get HouseMode.work.ix).entrySequence ≠ some (.run 0 m q)) :=
  ⟨ready_of (by decide +kernel), rfl, by decide +kernel, rfl, by decide +kernel, by decide +kernel, fun m q h => by
    have e : (1 : PlayerNo) = 0 := congrArg (fun x : Option EntrySequence => match x with
      | some (.run n _ _) => n
      | _ => 1) h
    exact absurd e (by decide)⟩

/-- Slots whose trackers fall to a count above zero and to zero, one ARMED and one FREE. -/
theorem test_witness_SlotsFall :
    let s := { cueWorld with slots := cueWorld.slots.set 1 (some ⟨.going 2, .a, [0], 4, 30, 30000000⟩) }
    s.slot 1 = some ⟨.going 2, .a, [0], 4, 30, 30000000⟩ ∧ 1 < 2 ∧ 2 ≤ 2
    ∧ s.slot 0 = some ⟨.armed, .a, [0], 4, 30, 30000000⟩ ∧ s.slot 2 = none := by decide +kernel

/-- The raise of key 1.01.1 runs on circuit 1, on the part `s`. -/
def raising (s : State) : State :=
  s.onCircuit 0 fun x =>
    { x with
      claims := [⟨.field, 3, .effective (some ⟨0, 60, 1000000, 0⟩), 1000, some ⟨0, 0, 0⟩, none⟩]
      raisedBy := some ⟨0, 0, 0⟩ }

/-- A key without a raise, and one whose raise is stopped: the set is left and the claim stands at its level. -/
theorem test_witness_RaiseStopped :
    (∀ c, (world.circuit c).raisedBy ≠ some ⟨0, 0, 0⟩)
    ∧ ((raising world).circuit 0).raisedBy = some ⟨0, 0, 0⟩
    ∧ (((raising world).stopRaise ⟨0, 0, 0⟩).circuit 0).raisedBy = none
    ∧ ((raising world).stopRaise ⟨0, 0, 0⟩).level 0 = 166 := by decide +kernel

/-- A RAISE joins circuit 1 to the key's raise set, and the completion of its fade takes it out. -/
theorem test_witness_raise_set_changes :
    ((boundWorld (.raise 1 3)).circuit 0).raisedBy = none
    ∧ ((after (exec (.holdTimerExpiry ⟨0, 0, 0⟩) (boundWorld (.raise 1 3)))).circuit 0).raisedBy = some ⟨0, 0, 0⟩
    ∧ ({ raising world with now := 6000000 }.fadeDue 0 .field = none)
    ∧ (claimedWorld.onCircuit 1 fun x => { x with raisedBy := some ⟨0, 0, 0⟩ }).fadeDue 1 .field = some 0
    ∧ (claimOf .field (claimedWorld.claims 1)).any (fun x => x.fade.isSome && arrived (claimedWorld.completeFades 0) 1 x) =
      true := by decide +kernel

/-- The key goes up from HELD and from PRESSED with its raise running and a live RELEASE entry, and is locked out with it. -/
theorem test_witness_GoodReportsAreTaken_raise :
    let s := raising { downWorld (fun r => { r with phase := .held }) with
      tables := { stationWorld.tables with bindings := [⟨⟨0, 0, 0⟩, .release, [.work], .seqStop 0⟩] } }
    (s.key ⟨0, 0, 0⟩).phase = .held ∧ s.liveEntries ⟨0, 0, 0⟩ .release = [⟨⟨0, 0, 0⟩, .release, [.work], .seqStop 0⟩]
    ∧ s.raiseSet ⟨0, 0, 0⟩ = [0] ∧ (s.key ⟨0, 0, 0⟩).lockout = none ∧ (s.key ⟨0, 0, 0⟩).window = none
    ∧ (raising (downWorld fun r => { r with phase := .pressed 5 })).raiseSet ⟨0, 0, 0⟩ = [0]
    ∧ (raising (chatterWorld (some (0, 10)))).raiseSet ⟨0, 0, 0⟩ = [0]
    ∧ ((raising (chatterWorld (some (0, 10)))).key ⟨0, 0, 0⟩).window = some (0, 10) := by decide +kernel

/-- The locked OFF, TOGGLE, RECALL and RELEASE, and the warning level reached and passed. -/
theorem test_witness_FieldActionsAreCarriedOut_deferred :
    (∀ a, (lockedWorld a).liveEntries ⟨0, 0, 0⟩ .hold = [⟨⟨0, 0, 0⟩, .hold, [.work, .inShow], a⟩])
    ∧ (lockedWorld (.off 1 0 3)).locked .field 3 [0, 1] = true
    ∧ (boundOn cueWorld (.recall 0 0 3)).presetDef 0 = some ⟨20, [(0, 700), (1, 1000)]⟩
    ∧ (boundOn cueWorld (.recall 0 0 3)).locked .field 3 [0, 1] = true
    ∧ (lockedWorld (.off 1 0 3)).deferWarned = false
    ∧ { world.tables.settings with warningLevel := 1 }.warningLevel ≤ (lockedWorld (.off 1 0 3)).deferred.length + 1
    ∧ { lockedWorld (.off 1 0 3) with deferWarned := true }.deferWarned = true
    ∧ (lockedWorld (.off 1 0 3)).deferred.length + 1 < world.tables.settings.warningLevel :=
  ⟨fun _ => by rfl, by decide +kernel⟩

/-- A group that is not defined, for each action that names one. -/
theorem test_witness_FieldActionsAreCarriedOut_undefined :
    (∀ a, (boundWorld a).members 2 = none)
    ∧ (∃ l f r, FieldAction.on 2 0 0 3 = .on 2 l f r) ∧ (∃ f r, FieldAction.off 2 0 3 = .off 2 f r)
    ∧ (∃ l f r, FieldAction.toggle 2 0 0 3 = .toggle 2 l f r) ∧ (∃ r, FieldAction.raise 2 3 = .raise 2 r)
    ∧ (∃ r, FieldAction.lower 2 3 = .lower 2 r) ∧ (∃ f r, FieldAction.release 2 0 3 = .release 2 f r) :=
  ⟨fun _ => by rfl, ⟨_, _, _, rfl⟩, ⟨_, _, rfl⟩, ⟨_, _, _, rfl⟩, ⟨_, rfl⟩, ⟨_, rfl⟩, _, _, rfl⟩

end Sys2Proof.Tests
end

section
/-! SUPPORT. Arbitration of a claim list (R8), said once per function: when a list has no top rank, which claims are in command under each merge mode, and the command level over the claims in command; and with these the statement on claims in command and command level. -/

namespace Sys2Proof.Machine

/-! ## The top rank -/

theorem topRank_eq_none {l : List Claim} : topRank l = none ↔ ∀ x ∈ l, x.isEffective = false := by
  unfold topRank
  rw [List.max?_eq_none_iff, List.map_eq_nil_iff, List.filter_eq_nil_iff]
  simp only [Bool.not_eq_true]

/-! ## The claims in command -/

theorem commanding_of_topRank_none {modes : Tab MergeMode 8} {l : List Claim} (top : topRank l = none) :
    commanding modes l = [] := by
  unfold commanding
  rw [top]

theorem commanding_of_ltp {modes : Tab MergeMode 8} {l : List Claim} {r : Rank} (top : topRank l = some r)
    (mode : modes.get r = .ltp) : commanding modes l = (effectiveAt l r).take 1 := by
  unfold commanding
  simp only [top, mode]

theorem commanding_of_htp {modes : Tab MergeMode 8} {l : List Claim} {r : Rank} (top : topRank l = some r)
    (mode : modes.get r = .htp) : commanding modes l = effectiveAt l r := by
  unfold commanding
  simp only [top, mode]

/-- The top rank is held: some EFFECTIVE claim stands at it. -/
theorem effectiveAt_ne_nil {l : List Claim} {r : Rank} (top : topRank l = some r) : effectiveAt l r ≠ [] := by
  obtain ⟨⟨x, mem, eff, rank⟩, -⟩ := topRank_eq_some.mp top
  have atTop : x ∈ effectiveAt l r := by
    unfold effectiveAt
    rw [List.mem_filter]
    simp [mem, eff, rank]
  exact List.ne_nil_of_mem atTop

/-- At an LTP top rank the claim in command is the first that a search of the list for an EFFECTIVE claim at that rank
meets: the newest (R7, R8). -/
theorem find_and_commanding_of_ltp {modes : Tab MergeMode 8} {l : List Claim} {r : Rank} (top : topRank l = some r)
    (mode : modes.get r = .ltp) :
    ∃ x, l.find? (fun x => x.isEffective && x.rank == r) = some x ∧ commanding modes l = [x] := by
  obtain ⟨x, rest, split⟩ := List.exists_cons_of_ne_nil (effectiveAt_ne_nil top)
  refine ⟨x, ?_, ?_⟩
  · rw [← List.head?_filter]
    exact congrArg List.head? split
  · rw [commanding_of_ltp top mode, split, List.take_succ_cons, List.take_zero]

/-! ## The command level -/

theorem commandLevelOf_of_nil {modes : Tab MergeMode 8} {base : Nat} {l : List Claim} (empty : commanding modes l = []) :
    commandLevelOf modes base l = base := by
  unfold commandLevelOf
  rw [empty, List.map_nil, List.max?_nil]

/-- Where claims are in command the base level plays no part: the command level is the highest of their levels. -/
theorem max_of_commanding {modes : Tab MergeMode 8} {base : Nat} {l : List Claim} (nonempty : commanding modes l ≠ []) :
    ((commanding modes l).map Claim.level).max? = some (commandLevelOf modes base l) := by
  unfold commandLevelOf
  split
  next empty => exact absurd (List.map_eq_nil_iff.mp (List.max?_eq_none_iff.mp empty)) nonempty
  next highest => exact highest

theorem commandLevelOf_of_singleton {modes : Tab MergeMode 8} {base : Nat} {l : List Claim} {x : Claim}
    (one : commanding modes l = [x]) : commandLevelOf modes base l = x.level := by
  have highest := max_of_commanding (base := base) (one ▸ List.cons_ne_nil x [])
  rw [one, List.map_singleton, List.max?_singleton] at highest
  exact (Option.some.inj highest).symm

theorem commandLevelOf_attained {modes : Tab MergeMode 8} {base : Nat} {l : List Claim}
    (nonempty : commanding modes l ≠ []) : ∃ x ∈ commanding modes l, commandLevelOf modes base l = x.level := by
  obtain ⟨held, -⟩ := List.max?_eq_some_iff.mp (max_of_commanding (base := base) nonempty)
  obtain ⟨x, mem, level⟩ := List.mem_map.mp held
  exact ⟨x, mem, level.symm⟩

theorem level_le_commandLevelOf {modes : Tab MergeMode 8} {base : Nat} {l : List Claim} {x : Claim}
    (mem : x ∈ commanding modes l) : x.level ≤ commandLevelOf modes base l := by
  obtain ⟨-, bound⟩ := List.max?_eq_some_iff.mp (max_of_commanding (base := base) (List.ne_nil_of_mem mem))
  exact bound _ (List.mem_map_of_mem mem)

/-! ## Claims in command and command level follow the top rank -/

/-- Settles O58: the top rank is absent, LTP or HTP, and in each case the claims in command are known, so that the
command level is read off them. -/
theorem arbitrationFollowsTheTopRank : Obligations.ArbitrationFollowsTheTopRank := by
  intro s c
  constructor
  · intro waiting
    have idle := commanding_of_topRank_none (modes := s.tables.ranks) (topRank_eq_none.mpr waiting)
    exact ⟨idle, commandLevelOf_of_nil idle⟩
  · intro r attained above
    have top : topRank (s.claims c) = some r := topRank_eq_some.mpr ⟨attained, above⟩
    constructor
    · intro ltp
      obtain ⟨x, first, one⟩ := find_and_commanding_of_ltp top ltp
      exact ⟨x, first, one, commandLevelOf_of_singleton one⟩
    · intro htp
      have all := commanding_of_htp top htp
      have nonempty : commanding s.tables.ranks (s.claims c) ≠ [] := all ▸ effectiveAt_ne_nil top
      exact ⟨all, commandLevelOf_attained nonempty, fun x mem => level_le_commandLevelOf mem⟩

end Sys2Proof.Machine
end

section
/-! SUPPORT. How a table write of a ready port is answered: its first three checks, said once for every table kind, and the checks of a group write (R55) one by one; and with these the statement on group writes. -/

namespace Sys2Proof.Machine

/-! ## The checks every table write begins with -/

namespace State

theorem writeRefusal_of_inShow {s : State} (mode : s.mode = some .inShow) : s.writeRefusal true = some .showActive := by
  simp [writeRefusal, inShow, mode]

theorem writeRefusal_of_saving {s : State} (mode : s.mode ≠ some .inShow) (saves : s.save ≠ none) :
    s.writeRefusal true = some .busySaving := by
  simp [writeRefusal, inShow, saving, mode, Option.isSome_iff_ne_none, saves]

theorem answerEdit_of_refusal {s : State} {p : Port} {status : Status} (rest : Answer)
    (refused : s.writeRefusal (s.permits p .edit) = some status) : s.answerEdit p rest = .plain s status := by
  unfold answerEdit
  rw [refused]

theorem answerEdit_of_mayEdit {s : State} {p : Port} (rest : Answer) (may : MayEdit s p) :
    s.answerEdit p rest = rest := by
  have passed : s.writeRefusal (s.permits p .edit) = none := by
    simp [writeRefusal, saving, may.allowed, may.mode, may.saves]
  unfold answerEdit
  rw [passed]

end State

open State

/-- A lease started anew changes nothing that the first checks of a table write look at. -/
theorem MayEdit.refreshLease {s : State} {p : Port} (may : MayEdit s p) : MayEdit (s.refreshLease p) p :=
  ⟨may.allowed, may.mode, may.saves⟩

/-- A status that leaves the state as it is reaches a ready port as the plain answer. -/
theorem reply_plain_refreshLease {s : State} {p : Port} (ready : Ready s p) (kind tag : Byte) (status : Status) :
    (Answer.plain (s.refreshLease p) status).reply p kind tag = answered s p kind tag status .empty := by
  rw [reply_plain, replay_of_clear (s.refreshLease p) ready.settled, respond_refreshLease]

/-- Whatever a table write does once it is let through, it is first refused as R55 and the rules like it say. -/
theorem editRefused_answerEdit {s : State} {p : Port} (ready : Ready s p) (tag : Byte) (rest : Answer) :
    EditRefused s p tag (s.permits p .edit) (.next (((s.refreshLease p).answerEdit p rest).reply p 0x41 tag)) := by
  have refused {status : Status} (h : s.writeRefusal (s.permits p .edit) = some status) :
      Host.Outcome.next (((s.refreshLease p).answerEdit p rest).reply p 0x41 tag) =
        (.next (answered s p 0x41 tag status .empty) : Host.Outcome State Fault Refusal) := by
    rw [answerEdit_of_refusal (s := s.refreshLease p) rest h, reply_plain_refreshLease ready]
  constructor
  case denied => exact fun lacks => refused (by rw [lacks]; rfl)
  case showActive => exact fun holds mode => refused (by rw [holds, writeRefusal_of_inShow mode])
  case saving => exact fun holds mode saves => refused (by rw [holds, writeRefusal_of_saving mode saves])

/-! ## The checks of a group write (R55) -/

theorem numberOf_injective {n : Nat} : Function.Injective (numberOf : Fin n → Nat) :=
  fun _ _ same => Fin.ext (Nat.succ.inj same)

theorem circuitsOfNumbers_none {l : List Nat} : circuitsOfNumbers l = none ↔ ∃ c ∈ l, c = 0 ∨ 192 < c := by
  unfold circuitsOfNumbers
  simp only [mapM_none, indexOf_none]

theorem circuitsOfNumbers_numberOf (l : List Circuit) : circuitsOfNumbers (l.map numberOf) = some l :=
  mapM_map_some indexOf_numberOf l

namespace State

variable {s : State} {p : Port}

theorem answerWriteGroup_badTarget (may : MayEdit s p) {n : Nat} (list : List Nat) (outside : n = 0 ∨ 64 < n) :
    s.answerWriteGroup p n list = .plain s .badTarget := by
  unfold answerWriteGroup
  rw [answerEdit_of_mayEdit _ may, indexOf_none.mpr outside]

theorem answerWriteGroup_badRecord (may : MayEdit s p) (g : Fin 64) {list : List Nat}
    (bad : (∃ c ∈ list, c = 0 ∨ 192 < c) ∨ ¬ list.Nodup) :
    s.answerWriteGroup p (numberOf g) list = .plain s .badRecord := by
  unfold answerWriteGroup
  rw [answerEdit_of_mayEdit _ may, indexOf_numberOf]
  cases read : circuitsOfNumbers list with
  | none => rfl
  | some l =>
    have inRange : ¬ ∃ c ∈ list, c = 0 ∨ 192 < c := fun out => by
      rw [circuitsOfNumbers_none.mpr out] at read
      cases read
    have twice : ¬ l.Nodup := fun once =>
      bad.resolve_left inRange (circuitsOfNumbers_map read ▸ once.map numberOf_injective)
    exact if_pos twice

theorem answerWriteGroup_tableFull (may : MayEdit s p) (g : Fin 64) {l : List Circuit} (once : l.Nodup)
    (full : s.freeMembers + (s.tables.groups.get g).length < l.length) :
    s.answerWriteGroup p (numberOf g) (l.map numberOf) = .plain s .tableFull := by
  unfold answerWriteGroup
  rw [answerEdit_of_mayEdit _ may, indexOf_numberOf, circuitsOfNumbers_numberOf]
  simp only [once, full, not_true_eq_false, if_false, if_true]

theorem answerWriteGroup_taken (may : MayEdit s p) (g : Fin 64) {l : List Circuit} (once : l.Nodup)
    (room : l.length ≤ s.freeMembers + (s.tables.groups.get g).length) :
    s.answerWriteGroup p (numberOf g) (l.map numberOf) = .plain (s.setGroup g l) .ok := by
  unfold answerWriteGroup
  rw [answerEdit_of_mayEdit _ may, indexOf_numberOf, circuitsOfNumbers_numberOf]
  simp only [once, not_lt.mpr room, not_true_eq_false, if_false]

end State

/-! ## Group writes -/

theorem exec_writeGroup_ready {s : State} {p : Port} (ready : Ready s p) (tag : Byte) (n : Nat) (list : List Nat) :
    exec (.writeGroup p tag (.fields (n, list))) s =
      .next (((s.refreshLease p).answerWriteGroup p n list).reply p 0x41 tag) :=
  congrArg Host.Outcome.next
    (serve_ready 0x41 tag (fun t (f : Nat × List Nat) => t.answerWriteGroup p f.1 f.2) ready rfl)

/-- The lease is started anew as the roles stand, and a group written leaves them: either may come first. -/
theorem setGroup_refreshLease (s : State) (p : Port) (g : Fin 64) (l : List Circuit) :
    (s.refreshLease p).setGroup g l = (s.setGroup g l).refreshLease p := rfl

/-- Settles O37: a group write goes through the checks of every table write, then its own in their order, and one that
passes sets the group and nothing else. -/
theorem groupWriteIsCheckedAndTaken : Obligations.GroupWriteIsCheckedAndTaken := by
  intro s p tag n list ready reply write
  have run : write = .next (((s.refreshLease p).answerWriteGroup p n list).reply p 0x41 tag) :=
    exec_writeGroup_ready ready tag n list
  have edit : EditRefused s p tag (s.permits p .edit) write := run ▸ editRefused_answerEdit ready tag _
  have plain {status : Status}
      (h : (s.refreshLease p).answerWriteGroup p n list = .plain (s.refreshLease p) status) : write = reply status := by
    rw [run, h, reply_plain_refreshLease ready]
  refine ⟨edit.denied, edit.showActive, edit.saving, ?badTarget, ?badRecord, ?room⟩
  case badTarget => exact fun may outside => plain (answerWriteGroup_badTarget may.refreshLease list outside)
  case badRecord =>
    intro may above below bad
    have number : n = numberOf (⟨n - 1, by omega⟩ : Fin 64) := (Nat.sub_add_cancel above).symm
    exact plain (number ▸ answerWriteGroup_badRecord may.refreshLease _ bad)
  case room =>
    rintro g l may rfl rfl once
    constructor
    · exact fun full => plain (answerWriteGroup_tableFull may.refreshLease g once full)
    · intro room
      have ready' : Ready (s.setGroup g l) p := ⟨ready.running, ready.listening, ready.free, ready.settled⟩
      rw [run, answerWriteGroup_taken may.refreshLease g once room, setGroup_refreshLease,
        reply_plain_refreshLease ready']
      rfl

end Sys2Proof.Machine
end

section
/-! SUPPORT. The lock question (R110), said once: when a single slot locks an action, and when some slot does; and with these the statement on the lock question. -/

namespace Sys2Proof.Machine

theorem Tab.mem_rows_iff {α : Type} {n : Nat} {t : Tab α n} {a : α} : a ∈ t.rows.toList ↔ ∃ i, t.get i = a := by
  rw [Vector.mem_toList_iff, Vector.mem_iff_getElem]
  constructor
  · rintro ⟨i, lt, here⟩
    exact ⟨⟨i, lt⟩, here⟩
  · rintro ⟨i, here⟩
    exact ⟨i.val, i.isLt, here⟩

/-- The conditions of R110 on a slot in use, for an action of owner `o` at rank `r` on the circuits `cs`. -/
def Slot.Locks (k : Slot) (o : Owner) (r : Rank) (cs : List Circuit) : Prop :=
  (∃ c ∈ cs, c ∈ k.locked) ∧ r < k.lockRank ∧ Owner.port k.owner ≠ o

namespace Slot

variable {k : Slot} {o : Owner} {r : Rank} {cs : List Circuit}

theorem locks_iff : k.Locks o r cs ↔
    (cs.any (fun c => k.locked.contains c) && decide (r < k.lockRank) && !(Owner.port k.owner == o)) = true := by
  unfold Locks
  simp only [Bool.and_eq_true, Bool.not_eq_true', beq_eq_false_iff_ne, decide_eq_true_eq, List.any_eq_true,
    List.contains_iff_mem, and_assoc]

theorem not_locks_own : ¬ k.Locks (.port k.owner) r cs := fun ⟨_, _, other⟩ => other rfl

/-- No lock rank exceeds 7. -/
theorem not_locks_seven : ¬ k.Locks o 7 cs := fun ⟨_, above, _⟩ => absurd above (Fin.le_last k.lockRank).not_gt

end Slot

namespace State

variable {s : State} {o : Owner} {r : Rank} {cs : List Circuit}

theorem locked_iff : s.locked o r cs = true ↔ ∃ n k, s.slot n = some k ∧ k.Locks o r cs := by
  unfold locked
  rw [List.any_eq_true]
  constructor
  · rintro ⟨x, mem, locks⟩
    obtain ⟨n, at_n⟩ := Tab.mem_rows_iff.mp mem
    cases x with
    | none => exact absurd locks Bool.false_ne_true
    | some k => exact ⟨n, k, at_n, Slot.locks_iff.mpr locks⟩
  · rintro ⟨n, k, at_n, locks⟩
    exact ⟨some k, Tab.mem_rows_iff.mpr ⟨n, at_n⟩, Slot.locks_iff.mp locks⟩

theorem locked_eq_false (free : ∀ n k, s.slot n = some k → ¬ k.Locks o r cs) : s.locked o r cs = false := by
  rw [← Bool.not_eq_true, locked_iff]
  exact fun ⟨n, k, at_n, locks⟩ => free n k at_n locks

end State

open State

/-- Settles O59: the question is whether some slot meets the three conditions; a port's own slots fail the third, an
owner that is no port always meets it, and at rank 7 no slot meets the second. -/
theorem lockQuestionIsAnswered : Obligations.LockQuestionIsAnswered := by
  intro s o r cs
  refine ⟨locked_iff, ?ownPort, ?noPort, ?rankSeven⟩
  case ownPort => exact fun p own => locked_eq_false fun n k at_n => own n k at_n ▸ Slot.not_locks_own
  case noPort =>
    exact fun noPort n k at_n meets above => locked_iff.mpr ⟨n, k, at_n, meets, above, (noPort k.owner).symm⟩
  case rankSeven => exact locked_eq_false fun _ _ _ => Slot.not_locks_seven

end Sys2Proof.Machine
end

section
/-! SUPPORT. How the notices of a ready port are read (R191): what a lease started anew leaves of them, and what the taking and the reply change; and with these the statement on READ_NOTICES. -/

namespace Sys2Proof.Machine

namespace State

@[simp] theorem queue_refreshLease (s : State) (p : Port) : ((s.refreshLease p).port p).queue = (s.port p).queue := by
  unfold refreshLease
  rw [port_onPort]

@[simp] theorem overflow_refreshLease (s : State) (p : Port) :
    ((s.refreshLease p).port p).overflow = (s.port p).overflow := by
  unfold refreshLease
  rw [port_onPort]

/-- A reply changes nothing but the last reply of its port. -/
theorem respond_eq_onPort (s : State) (p : Port) (kind tag : Byte) (status : Status) (body : ReplyBody) :
    s.respond p kind tag status body =
      s.onPort p fun x => { x with lastReply := ((s.respond p kind tag status body).port p).lastReply } := by
  unfold respond
  rw [port_onPort]
  exact onPort_congr s p rfl

/-- The lease, the taking and the reply are three changes of the one port. -/
theorem refreshLease_takeNotices_lastReply (s : State) (p : Port) (n : Nat) (reply : Option Reply) :
    (((s.refreshLease p).takeNotices p n).onPort p fun x => { x with lastReply := reply }) = s.onPort p fun x =>
      { x with
        link := .online (s.now + (s.role p).lease * Config.second)
        orphanEnd := none
        queue := x.queue.drop n
        overflow := false
        lastReply := reply } := by
  unfold takeNotices refreshLease
  rw [onPort_onPort, onPort_onPort]

end State

open State

/-! ## Notices read -/

theorem exec_readNotices_unformed {s : State} {p : Port} (ready : Ready s p) (tag : Byte) {n : Nat}
    (outside : n = 0 ∨ 8 < n) :
    exec (.readNotices p tag (.fields n)) s = .next (answered s p 0x32 tag .badRequest .empty) :=
  congrArg Host.Outcome.next (serve_unformed 0x32 tag _ ready (decide_eq_false (by omega)))

/-- The reply is sent once the notices are taken, so that its header counts those that are left (R188, R191). -/
theorem exec_readNotices_ready {s : State} {p : Port} (ready : Ready s p) (tag : Byte) {n : Nat} (above : 1 ≤ n)
    (below : n ≤ 8) :
    exec (.readNotices p tag (.fields n)) s = .next (((s.refreshLease p).takeNotices p n).respond p 0x32 tag .ok
      (.notices (s.port p).overflow ((s.port p).queue.take n))) := by
  have served : exec (.readNotices p tag (.fields n)) s = .next ((Answer.ok ((s.refreshLease p).takeNotices p n)
      (.notices ((s.refreshLease p).port p).overflow (((s.refreshLease p).port p).queue.take n))).reply p 0x32 tag) :=
    congrArg Host.Outcome.next (serve_ready 0x32 tag _ ready (decide_eq_true (by omega)))
  have settled : ((s.refreshLease p).takeNotices p n).replayOwed = false := ready.settled
  rw [served, reply_ok, replay_of_clear _ settled, queue_refreshLease, overflow_refreshLease]

/-- Settles O16: a count outside 1 to 8 is not formed; one inside takes the notices, and the reply's header is read from
the state the taking leaves. -/
theorem readNoticesTakesTheOldest : Obligations.ReadNoticesTakesTheOldest := by
  intro s p tag n ready
  constructor
  case left => exact exec_readNotices_unformed ready tag
  case right =>
    intro above below
    refine ⟨_, exec_readNotices_ready ready tag above below, ?frame, replied_respond _ p 0x32 tag .ok _⟩
    exact (respond_eq_onPort _ p 0x32 tag .ok _).trans (refreshLease_takeNotices_lastReply s p n _)

end Sys2Proof.Machine
end

section
/-! SUPPORT. The operations that rewrite every circuit at once (a forcing, a clearing of it, a relay sample, a restart), the
write of a circuit record, and the loss and restart of ports: what each leaves of a circuit and of a port, said once. Each
ends in notices, which are changes of the kind `Broad`. -/

namespace Sys2Proof.Machine

/-! ## Ports and their places -/

theorem Port.ix_injective : Function.Injective Port.ix := by
  intro p q
  cases p <;> cases q <;> simp [Port.ix]

theorem Port.exists_ix : ∀ i : Fin 4, ∃ p : Port, p.ix = i
  | 0 => ⟨.a, rfl⟩
  | 1 => ⟨.b, rfl⟩
  | 2 => ⟨.c, rfl⟩
  | 3 => ⟨.d, rfl⟩

namespace State

theorem port_onPort_ite (s : State) (p q : Port) (f : PortState → PortState) :
    (s.onPort p f).port q = if q = p then f (s.port q) else s.port q := by
  split
  · rename_i same
    rw [same, port_onPort]
  · rename_i other
    exact port_onPort_of_ne s f fun h => other (Port.ix_injective h)

/-! ## Forcing -/

/-- A forcing is its circuits and its emergency state, then the count of the entry and a notice. -/
theorem enterEmergency_broad (s : State) (e : EmergencyState) (cause : EmergencyCause) :
    Broad { s with circuits := s.egressCircuits, emergency := { s.emergency with state := e, recovery := [] } }
      (s.enterEmergency e cause) :=
  ((countEntry_steady _).trans (announceEmergency_claims _ cause).toSteady).toBroad

theorem circuit_enterEmergency_unforced (s : State) (e : EmergencyState) (cause : EmergencyCause) {c : Circuit}
    (h : (s.record c).emergency = none) : (s.enterEmergency e cause).circuit c = s.circuit c := by
  show (s.egressCircuits).get c = _
  unfold egressCircuits
  rw [Tab.get_build, h]

theorem circuit_enterEmergency_forced (s : State) (e : EmergencyState) (cause : EmergencyCause) {c : Circuit} {v : Nat}
    (h : (s.record c).emergency = some v) : (s.enterEmergency e cause).circuit c =
      (s.circuit c).startTransition .egress (some v) (s.level c) s.tables.settings.egressTime := by
  show (s.egressCircuits).get c = _
  unfold egressCircuits
  rw [Tab.get_build, h]

/-- A forcing leaves of a circuit all but its transition. -/
theorem circuit_enterEmergency_fields (s : State) (e : EmergencyState) (cause : EmergencyCause) (c : Circuit) :
    ((s.enterEmergency e cause).circuit c).claims = (s.circuit c).claims
    ∧ ((s.enterEmergency e cause).circuit c).relay = (s.circuit c).relay
    ∧ ((s.enterEmergency e cause).circuit c).raisedBy = (s.circuit c).raisedBy := by
  cases h : (s.record c).emergency with
  | none => simp [circuit_enterEmergency_unforced s e cause h]
  | some v => rw [circuit_enterEmergency_forced s e cause h]; exact ⟨rfl, rfl, rfl⟩

/-! ## Clearing a forcing -/

/-- A clearing is its circuits and the recovery set, then notices; an empty recovery set ends it at once. -/
theorem clearForcing_broad (s : State) (p : Port) :
    Broad { s with
        circuits := s.recoveryCircuits, emergency := { s.emergency with state := .recovering, recovery := s.recoveryOf } }
      (s.clearForcing p) := by
  unfold clearForcing
  have told := (announceEmergency_claims
    ({ s with circuits := s.recoveryCircuits }.setEmergency .recovering s.recoveryOf) (.port p)).toBroad
  dsimp only
  split
  · exact told.trans ((setEmergency_claims _ .normal [] rfl fun _ => rfl).trans (announceEmergency_claims _ _)).toBroad
  · exact told

theorem circuit_clearForcing (s : State) (p : Port) (c : Circuit) : (s.clearForcing p).circuit c =
    if s.forced c then (s.circuit c).startTransition .recovery none (s.level c) s.tables.settings.recoveryTime
    else s.circuit c := by
  have circuits : (s.clearForcing p).circuits = s.recoveryCircuits := by
    unfold clearForcing
    dsimp only
    split <;> rfl
  show (s.clearForcing p).circuits.get c = _
  rw [circuits]
  unfold recoveryCircuits
  rw [Tab.get_build]

/-- A clearing leaves of a circuit all but its transition. -/
theorem circuit_clearForcing_fields (s : State) (p : Port) (c : Circuit) :
    ((s.clearForcing p).circuit c).claims = (s.circuit c).claims
    ∧ ((s.clearForcing p).circuit c).relay = (s.circuit c).relay
    ∧ ((s.clearForcing p).circuit c).raisedBy = (s.circuit c).raisedBy := by
  rw [circuit_clearForcing]
  split <;> exact ⟨rfl, rfl, rfl⟩

/-! ## Circuit records, relay samples and dwells -/

theorem circuit_setRecord_self (s : State) (c : Circuit) (r : CircuitRecord) : (s.setRecord c r).circuit c =
    CircuitState.rewrite (s.circuit c) (s.record c) r s.emergency.state.forces := by
  rw [setRecord_eq]
  exact Tab.get_modify_self _ _ _

theorem circuit_setRecord_of_ne (s : State) {c d : Circuit} (r : CircuitRecord) (h : d ≠ c) :
    (s.setRecord c r).circuit d = s.circuit d := by
  rw [setRecord_eq]
  exact Tab.get_modify_of_ne _ _ h

theorem record_setRecord_self (s : State) (c : Circuit) (r : CircuitRecord) : (s.setRecord c r).record c = r := by
  rw [setRecord_eq]
  exact Tab.get_set_self _ _ _

theorem record_setRecord_of_ne (s : State) {c d : Circuit} (r : CircuitRecord) (h : d ≠ c) :
    (s.setRecord c r).record d = s.record d := by
  rw [setRecord_eq]
  exact Tab.get_set_of_ne _ _ h

theorem circuit_sampleRelays (s : State) (c : Circuit) : s.sampleRelays.circuit c =
    { s.circuit c with relay := (s.circuit c).relay.sample (s.record c).kind s.now (s.level c) } := by
  unfold sampleRelays
  exact Tab.get_build _ _

theorem circuit_onCircuit_self (s : State) (c : Circuit) (f : CircuitState → CircuitState) :
    (s.onCircuit c f).circuit c = f (s.circuit c) := Tab.get_modify_self _ _ _

theorem circuit_onCircuit_of_ne (s : State) {c d : Circuit} (f : CircuitState → CircuitState) (h : d ≠ c) :
    (s.onCircuit c f).circuit d = s.circuit d := Tab.get_modify_of_ne _ _ h

theorem circuit_elapse (s : State) (us : Nat) (c : Circuit) :
    (s.elapse us).circuit c = (s.circuit c).advance s.tables.ranks us := Tab.get_each _ _ _

theorem circuit_afterFullReset (now : Nat) (line : Contact) (m : Option StoredImage) (l : List Instr) (c : Circuit) :
    (State.afterFullReset now line m l).circuit c = .clear := Tab.get_const _ _

/-! ## Restart -/

/-- A restart's clearing is its fields, then the reports of the recoveries it overtakes. -/
theorem clearForRestart_claims (s : State) :
    ClaimsOnly { s with
        circuits := s.restartCircuits, trackers := [], slots := .const none, deferred := [], deferWarned := false,
        players := .const .clear, loops := s.loops.each restartLoop }
      s.clearForRestart := reportRecoveries_claims _ _

/-- Reported recoveries change no circuit. -/
theorem reportRecoveries_circuits (s : State) (cs : List Circuit) : (s.reportRecoveries cs).circuits = s.circuits := by
  unfold reportRecoveries
  dsimp only
  split
  · split <;> rfl
  · rfl

theorem circuit_clearForRestart (s : State) (c : Circuit) : s.clearForRestart.circuit c =
    if s.forced c then { s.circuit c with claims := [], raisedBy := none }
    else ({ s.circuit c with claims := [], raisedBy := none } : CircuitState).startTransition .restart none (s.level c)
      s.tables.settings.restartFade := by
  show s.clearForRestart.circuits.get c = _
  unfold clearForRestart
  rw [reportRecoveries_circuits]
  show (s.restartCircuits).get c = _
  unfold restartCircuits
  rw [Tab.get_build]

theorem foldl_onPort_eq (f : Port → PortState → PortState) : ∀ (l : List Port) (s : State),
    ∃ ports, l.foldl (fun t p => t.onPort p (f p)) s = { s with ports := ports }
  | [], s => ⟨s.ports, rfl⟩
  | p :: l, s => by
    obtain ⟨ports, rest⟩ := foldl_onPort_eq f l (s.onPort p (f p))
    exact ⟨ports, rest⟩

/-- A restart passes over the ports and nothing else. -/
theorem restartPorts_eq (s : State) : ∃ ports, s.restartPorts = { s with ports := ports } :=
  foldl_onPort_eq s.restartPort Port.all s

theorem port_restartPorts (s : State) (p : Port) : s.restartPorts.port p = s.restartPort p (s.port p) := by
  unfold restartPorts
  cases p <;> simp [Port.all, port_onPort_ite]

theorem restartPort_bounded (s : State) (p : Port) {x : PortState} (h : x.Bounded) : (s.restartPort p x).Bounded := by
  obtain ⟨queue, bad, busy, losses, dropped⟩ := h
  unfold restartPort
  split
  · exact ⟨Nat.zero_le _, bad, busy, losses, dropped⟩
  · exact ⟨queue, bad, busy, losses, dropped⟩
  · exact ⟨queue, bad, busy, losses, dropped⟩

end State
end Sys2Proof.Machine
end

section
/-! SUPPORT. What every single change of the part keeps (`Move`), and with it what every step keeps: the order of the claim
lists (R7), the sizes of queues and stores, forcing, relays and slots. -/

namespace Sys2Proof.Machine
open State

/-! ## Claim lists in order (R7) -/

theorem Broad.listsInOrder {s t : State} (h : Broad s t) (k : ListsInOrder s) : ListsInOrder t :=
  fun c => (h.circuits c).listed (k c)

/-- Lists that keep their claims stay in order. -/
theorem ListsInOrder.of_claims {s t : State} (k : ListsInOrder s) (h : ∀ c, t.claims c = s.claims c) : ListsInOrder t :=
  fun c => by rw [h c]; exact k c

theorem ListsInOrder.of_circuits {s t : State} (k : ListsInOrder s) (h : t.circuits = s.circuits) : ListsInOrder t :=
  k.of_claims fun c => congrArg (fun x => (x.get c).claims) h

theorem listsInOrder_of_nil {s : State} (h : ∀ c, s.claims c = []) : ListsInOrder s := fun c => by
  rw [h c]; exact ⟨List.Pairwise.nil, List.nodup_nil⟩

theorem advance_keys (us : Nat) (x : Claim) : (x.advance us).owner = x.owner ∧ (x.advance us).rank = x.rank := by
  unfold Claim.advance
  split <;> exact ⟨rfl, rfl⟩

theorem ListsInOrder.elapse {s : State} (k : ListsInOrder s) (us : Nat) : ListsInOrder (s.elapse us) := fun c => by
  show Listed ((s.elapse us).circuit c).claims
  rw [circuit_elapse]
  refine (k c).map _ fun x => ?_
  split
  · exact advance_keys us x
  · exact ⟨rfl, rfl⟩

theorem claims_setRecord (s : State) (c : Circuit) (r : CircuitRecord) (d : Circuit) :
    (s.setRecord c r).claims d = s.claims d := by
  show ((s.setRecord c r).circuit d).claims = (s.circuit d).claims
  by_cases h : d = c
  · rw [h, circuit_setRecord_self]; rfl
  · rw [circuit_setRecord_of_ne s r h]

theorem claims_sampleRelays (s : State) (c : Circuit) : s.sampleRelays.claims c = s.claims c := by
  show (s.sampleRelays.circuit c).claims = (s.circuit c).claims
  rw [circuit_sampleRelays]

theorem claims_endDwell (s : State) (c d : Circuit) (f : CircuitState → Relay) :
    (s.onCircuit c fun x => { x with relay := f x }).claims d = s.claims d := by
  show ((s.onCircuit c _).circuit d).claims = (s.circuit d).claims
  by_cases h : d = c
  · rw [h, circuit_onCircuit_self]
  · rw [circuit_onCircuit_of_ne s _ h]

theorem claims_clearForRestart (s : State) (c : Circuit) : s.clearForRestart.claims c = [] := by
  show (s.clearForRestart.circuit c).claims = []
  rw [circuit_clearForRestart]
  split <;> rfl

theorem Move.listsInOrder {s t : State} (h : Move s t) (k : ListsInOrder s) : ListsInOrder t := by
  cases h with
  | broad h => exact h.listsInOrder k
  | lost p t h free => exact h.listsInOrder (k.of_circuits (t := s.losePort p) rfl)
  | forced e cause force run => exact k.of_claims fun c => (circuit_enterEmergency_fields s e cause c).1
  | cleared p h => exact k.of_claims fun c => (circuit_clearForcing_fields s p c).1
  | record c r => exact k.of_claims (claims_setRecord s c r)
  | sampled d h => exact k.of_claims (claims_sampleRelays s)
  | dwelt c h => exact k.of_claims fun d => claims_endDwell s c d _
  | elapsed us => exact k.elapse us
  | reset now line m l =>
    exact listsInOrder_of_nil fun c => congrArg CircuitState.claims (circuit_afterFullReset now line m l c)
  | restarted => exact listsInOrder_of_nil (claims_clearForRestart _)
  | queue l => exact k.of_circuits rfl
  | port p f h => exact k.of_circuits rfl
  | armed n p cs r timeout house link => exact k.of_circuits rfl
  | contact line accepted debounce => exact k.of_circuits rfl
  | tables x v fit same => exact k.of_circuits rfl
  | lines l => exact k.of_circuits rfl
  | store x m v => exact k.of_circuits rfl
  | counters => exact k.of_circuits rfl
  | image read h => exact k.of_circuits rfl
  | loaded t v h => exact k.of_circuits rfl

/-- Settles O3: every command is a chain of single changes, and each keeps the lists in order. -/
theorem stepKeepsListsInOrder : Obligations.StepKeepsListsInOrder := fun s t k e =>
  (step_moves s t e).keeps (fun _ _ m i => m.listsInOrder i) k

/-! ## Queues and counters within their sizes (R122, R190, R193) -/

/-- `WithinBounds` without the claim pool and the trackers. -/
structure Sized (s : State) : Prop where
  ports : ∀ i, (s.ports.get i).Bounded
  loops : ∀ i, (s.loops.get i).Bounded
  counters : s.counters.Bounded
  deferred : s.deferred.length ≤ Config.deferredSlots

theorem withinBounds_iff {s : State} : WithinBounds s ↔ Sized s ∧ Stocked s :=
  ⟨fun h => ⟨⟨h.ports, h.loops, h.counters, h.deferred⟩, h.stock⟩,
    fun ⟨h, k⟩ => ⟨h.ports, h.loops, h.counters, h.deferred, k⟩⟩

theorem Broad.sized {s t : State} (h : Broad s t) (k : Sized s) : Sized t where
  ports i := (h.ports i).bounded (k.ports i)
  loops := h.loopCounters k.loops
  counters := h.counters k.counters
  deferred := h.deferred k.deferred

namespace Sized

/-- Sizes are kept where one port changes within its own. -/
theorem onPort {s : State} (k : Sized s) {p : Port} {f : PortState → PortState} (h : (f (s.port p)).Bounded) :
    Sized (s.onPort p f) where
  ports i := by
    show ((s.ports.modify p.ix f).get i).Bounded
    rw [Tab.get_modify]
    split
    · exact h
    · exact k.ports i
  loops := k.loops
  counters := k.counters
  deferred := k.deferred

theorem losePort {s : State} (k : Sized s) (p : Port) : Sized (s.losePort p) :=
  have ⟨_, bad, busy, _, dropped⟩ := k.ports p.ix
  k.onPort ⟨Nat.zero_le _, bad, busy, bump_le _, dropped⟩

theorem zero_bounded : GlobalCounters.zero.Bounded :=
  ⟨Nat.zero_le _, Nat.zero_le _, Nat.zero_le _, Nat.zero_le _, Nat.zero_le _⟩

theorem clearCounters {s : State} (k : Sized s) : Sized s.clearCounters where
  ports i := by
    unfold State.clearCounters
    rw [Tab.get_each]
    exact ⟨(k.ports i).1, Nat.zero_le _, Nat.zero_le _, Nat.zero_le _, Nat.zero_le _⟩
  loops i := by
    unfold State.clearCounters
    rw [Tab.get_each]
    exact ⟨Nat.zero_le _, Nat.zero_le _⟩
  counters := zero_bounded
  deferred := k.deferred

theorem reset (now : Nat) (line : Contact) (m : Option StoredImage) (l : List Instr) :
    Sized (.afterFullReset now line m l) where
  ports i := by
    unfold State.afterFullReset
    rw [Tab.get_const]
    exact ⟨Nat.zero_le _, Nat.zero_le _, Nat.zero_le _, Nat.zero_le _, Nat.zero_le _⟩
  loops i := by
    unfold State.afterFullReset
    rw [Tab.get_const]
    exact ⟨Nat.zero_le _, Nat.zero_le _⟩
  counters := zero_bounded
  deferred := Nat.zero_le _

theorem takeImage {s : State} (k : Sized s) (read : ImageRead) : Sized (s.takeImage read) where
  ports i := by
    unfold State.takeImage
    dsimp only
    rw [Tab.get_build]
    exact k.ports i
  loops := k.loops
  counters := k.counters
  deferred := k.deferred

theorem clearForRestart {s : State} (k : Sized s) : Sized s.clearForRestart := by
  refine (clearForRestart_claims s).toBroad.sized ⟨k.ports, fun i => ?_, k.counters, Nat.zero_le _⟩
  show ((s.loops.each restartLoop).get i).Bounded
  rw [Tab.get_each]
  exact k.loops i

theorem restartPorts {s : State} (k : Sized s) : Sized s.restartPorts := by
  have ports : ∀ i, (s.restartPorts.ports.get i).Bounded := fun i => by
    obtain ⟨p, rfl⟩ := Port.exists_ix i
    show (s.restartPorts.port p).Bounded
    rw [port_restartPorts]
    exact restartPort_bounded s p (k.ports p.ix)
  obtain ⟨passed, same⟩ := restartPorts_eq s
  rw [same] at ports ⊢
  exact ⟨ports, k.loops, k.counters, k.deferred⟩

theorem enterEmergency {s : State} (k : Sized s) (e : EmergencyState) (cause : EmergencyCause) :
    Sized (s.enterEmergency e cause) :=
  (enterEmergency_broad s e cause).sized ⟨k.ports, k.loops, k.counters, k.deferred⟩

theorem clearForcing {s : State} (k : Sized s) (p : Port) : Sized (s.clearForcing p) :=
  (clearForcing_broad s p).sized ⟨k.ports, k.loops, k.counters, k.deferred⟩

theorem setRecord {s : State} (k : Sized s) (c : Circuit) (r : CircuitRecord) : Sized (s.setRecord c r) := by
  rw [setRecord_eq]
  exact ⟨k.ports, k.loops, k.counters, k.deferred⟩

end Sized

theorem Move.sized {s t : State} (h : Move s t) (k : Sized s) : Sized t := by
  cases h with
  | broad h => exact h.sized k
  | port p f h => exact k.onPort (h.bounded (k.ports p.ix))
  | lost p t h free => exact h.sized (k.losePort p)
  | forced e cause force run => exact k.enterEmergency e cause
  | cleared p h => exact k.clearForcing p
  | record c r => exact k.setRecord c r
  | counters => exact k.clearCounters
  | reset now line m l => exact .reset now line m l
  | image read h => exact k.takeImage read
  | restarted => exact k.restartPorts.clearForRestart
  | sampled d h => exact ⟨k.ports, k.loops, k.counters, k.deferred⟩
  | dwelt c h => exact ⟨k.ports, k.loops, k.counters, k.deferred⟩
  | elapsed us => exact ⟨k.ports, k.loops, k.counters, k.deferred⟩
  | queue l => exact ⟨k.ports, k.loops, k.counters, k.deferred⟩
  | armed n p cs r timeout house link => exact ⟨k.ports, k.loops, k.counters, k.deferred⟩
  | contact line accepted debounce => exact ⟨k.ports, k.loops, k.counters, k.deferred⟩
  | tables x v fit same => exact ⟨k.ports, k.loops, k.counters, k.deferred⟩
  | lines l => exact ⟨k.ports, k.loops, k.counters, k.deferred⟩
  | store x m v => exact ⟨k.ports, k.loops, k.counters, k.deferred⟩
  | loaded t v h => exact ⟨k.ports, k.loops, k.counters, k.deferred⟩

/-- Settles O4: every single change keeps queues and counters (`Move.sized`) and the claim pool with the trackers
(`Move.stock`) within their sizes. -/
theorem stepKeepsBounds : Obligations.StepKeepsBounds := fun s t k e =>
  withinBounds_iff.mpr ((step_moves s t e).keeps (I := fun s => Sized s ∧ Stocked s)
    (fun _ _ m ⟨sized, stocked⟩ => ⟨m.sized sized, m.stock stocked⟩) (withinBounds_iff.mp k))

/-! ## The stores of the tables (R54, R57, R89) -/

theorem Broad.storesFit {s t : State} (h : Broad s t) (k : StoresFit s) : StoresFit t where
  live := by rw [h.tables]; exact k.live
  loading x v e := k.loading x v (h.startup ▸ e)

theorem fit_defaultTables : Tables.Fit defaultTables := by
  refine ⟨by decide, by decide, by decide, fun g => ?_, fun n d e => ?_⟩
  · show ((Tab.const [] : Tab (List Circuit) 64).get g).Nodup
    rw [Tab.get_const]
    exact List.nodup_nil
  · change (Tab.const none : Tab (Option PresetDef) 48).get n = some d at e
    rw [Tab.get_const] at e
    cases e

/-- An entry of a table passes a check that all of its entries pass. -/
theorem Tab.get_of_all {α : Type} {n : Nat} {t : Tab α n} {f : α → Bool} (h : t.rows.toList.all f = true) (i : Fin n) :
    f (t.get i) = true :=
  List.all_eq_true.mp h _ (Tab.mem_rows_iff.mpr ⟨i, rfl⟩)

/-- Tables that pass the checks of an image fit their stores, in whatever order their bindings are put (R196). -/
theorem fit_of_loadable {t : Tables} (h : Tables.loadable t = true) : Tables.Fit (Tables.ordered t) := by
  unfold Tables.loadable at h
  simp only [Bool.and_eq_true, decide_eq_true_eq] at h
  obtain ⟨⟨⟨⟨⟨⟨⟨⟨⟨groups, presets⟩, _⟩, _⟩, _⟩, _⟩, _⟩, _⟩, _⟩, members, pairs, bindings⟩ := h
  refine ⟨members, pairs, by rw [ordered_length]; exact bindings, fun g => ?_, fun n d e => ?_⟩
  · exact of_decide_eq_true (Tab.get_of_all groups g)
  · have range := Tab.get_of_all presets n
    rw [show t.presets.get n = some d from e] at range
    unfold Option.all PresetDef.inRange at range
    simp only [Bool.and_eq_true, decide_eq_true_eq] at range
    exact range.2.2

theorem fit_of_goodTables {image : Option StoredImage} {t : Tables} (h : goodTables image = some t) : Tables.Fit t := by
  unfold goodTables at h
  simp only [Option.bind_eq_some_iff] at h
  obtain ⟨x, _, checked⟩ := h
  split at checked
  · obtain ⟨y, _, loaded⟩ := Option.bind_eq_some_iff.mp checked
    split at loaded
    · rename_i loadable
      cases loaded
      exact fit_of_loadable loadable
    · cases loaded
  · cases checked

theorem fit_judgeRead (s : State) (read : ImageRead) : Tables.Fit (s.judgeRead read).1 := by
  unfold judgeRead
  split
  · exact fit_defaultTables
  all_goals
    split
    · rename_i good
      exact fit_of_goodTables good
    · exact fit_defaultTables

theorem StoresFit.clearForRestart {s : State} (k : StoresFit s) : StoresFit s.clearForRestart :=
  (clearForRestart_claims s).toBroad.storesFit ⟨k.live, k.loading⟩

theorem StoresFit.restartPorts {s : State} (k : StoresFit s) : StoresFit s.restartPorts := by
  obtain ⟨ports, same⟩ := restartPorts_eq s
  rw [same]
  exact ⟨k.live, k.loading⟩

theorem Move.storesFit {s t : State} (h : Move s t) (k : StoresFit s) : StoresFit t := by
  cases h with
  | broad h => exact h.storesFit k
  | lost p t h free => exact h.storesFit (s := s.losePort p) ⟨k.live, k.loading⟩
  | forced e cause force run => exact (enterEmergency_broad s e cause).storesFit ⟨k.live, k.loading⟩
  | cleared p h => exact (clearForcing_broad s p).storesFit ⟨k.live, k.loading⟩
  | tables x v fit same => exact ⟨fit k.live, k.loading⟩
  | record c r => rw [setRecord_eq]; exact ⟨k.live, k.loading⟩
  | reset now line m l => exact ⟨fit_defaultTables, fun _ _ e => by cases e⟩
  | image read h => exact ⟨k.live, fun x v e => by cases e; exact fit_judgeRead s read⟩
  | loaded x v h => exact ⟨k.loading x v h, fun _ _ e => by cases e⟩
  | restarted => exact k.restartPorts.clearForRestart
  | queue l => exact ⟨k.live, k.loading⟩
  | port p f h => exact ⟨k.live, k.loading⟩
  | armed n p cs r timeout house link => exact ⟨k.live, k.loading⟩
  | contact line accepted debounce => exact ⟨k.live, k.loading⟩
  | sampled d h => exact ⟨k.live, k.loading⟩
  | dwelt c h => exact ⟨k.live, k.loading⟩
  | lines l => exact ⟨k.live, k.loading⟩
  | store x m v => exact ⟨k.live, k.loading⟩
  | elapsed us => exact ⟨k.live, k.loading⟩
  | counters => exact ⟨k.live, k.loading⟩

/-- Settles O5: a write that is taken keeps the tables within their stores, and an image is loaded only where its tables
fit. -/
theorem stepKeepsStoresFit : Obligations.StepKeepsStoresFit := fun s t k e =>
  (step_moves s t e).keeps (fun _ _ m i => m.storesFit i) k

/-! ## Forcing (R35, R41, R157) -/

theorem Broad.forced {s t : State} (h : Broad s t) (c : Circuit) : t.forced c = s.forced c := by
  unfold State.forced forcedLevel
  rw [h.forces, show t.record c = s.record c from congrArg (fun x => x.circuits.get c) h.tables]

theorem Broad.forcingInOrder {s t : State} (h : Broad s t) (k : ForcingInOrder s) : ForcingInOrder t where
  fixed c x run toward := by
    rw [h.forced, h.startup]
    exact k.fixed c x ((h.circuits c).fixed x run toward) toward
  recovery := h.recovery k.recovery

/-- No circuit runs toward a fixed level in a part that has not started (R35). -/
theorem ForcingInOrder.not_fixed {s : State} (k : ForcingInOrder s) (start : s.startup ≠ .running) {c : Circuit}
    {x : Transition} (run : (s.circuit c).transition = some x) : ¬ x.fixed.isSome :=
  fun toward => start (k.fixed c x run toward).2

theorem fixed_startTransition {x : CircuitState} {cause : TransitionCause} {level duration : Nat} {y : Transition}
    (h : (x.startTransition cause none level duration).transition = some y) : ¬ y.fixed.isSome := by
  unfold CircuitState.startTransition at h
  dsimp only at h
  split at h
  · cases h
  · cases h; exact Bool.false_ne_true

theorem fixed_advance {x : Option Transition} {us : Nat} {y : Transition} (h : x.map (·.advance us) = some y) :
    ∃ z, x = some z ∧ y.fixed = z.fixed := by
  obtain ⟨z, rfl, rfl⟩ := Option.map_eq_some_iff.mp h
  exact ⟨z, rfl, rfl⟩

theorem record_eq {s t : State} (h : t.tables.circuits = s.tables.circuits) (c : Circuit) : t.record c = s.record c :=
  congrArg (fun x => x.get c) h

theorem forced_iff {s : State} {c : Circuit} :
    s.forced c = true ↔ s.emergency.state.forces = true ∧ (s.record c).emergency.isSome = true := by
  unfold State.forced forcedLevel
  cases s.emergency.state.forces <;> simp

namespace ForcingInOrder

/-- Forcing is in order where transitions, records, the start-up and the Emergency Plane stand. -/
theorem of_transitions {s t : State} (k : ForcingInOrder s)
    (h : ∀ c, (t.circuit c).transition = (s.circuit c).transition) (records : t.tables.circuits = s.tables.circuits)
    (emergency : t.emergency.state = s.emergency.state ∧ t.emergency.recovery = s.emergency.recovery)
    (startup : t.startup = s.startup) : ForcingInOrder t where
  fixed c x run toward := by
    obtain ⟨forced, running⟩ := k.fixed c x (by rw [← h c]; exact run) toward
    rw [forced_iff] at forced
    exact ⟨by rw [forced_iff, record_eq records, emergency.1]; exact forced, startup.trans running⟩
  recovery := by rw [emergency.1, emergency.2]; exact k.recovery

theorem of_same {s t : State} (k : ForcingInOrder s) (circuits : t.circuits = s.circuits)
    (records : t.tables.circuits = s.tables.circuits)
    (emergency : t.emergency.state = s.emergency.state ∧ t.emergency.recovery = s.emergency.recovery)
    (startup : t.startup = s.startup) : ForcingInOrder t :=
  k.of_transitions (fun c => congrArg (fun x => (x.get c).transition) circuits) records emergency startup

/-- A part that has not started runs no circuit toward a fixed level, and may be given any records. -/
theorem of_starting {s t : State} (k : ForcingInOrder s) (start : s.startup ≠ .running) (circuits : t.circuits = s.circuits)
    (emergency : t.emergency.state = s.emergency.state ∧ t.emergency.recovery = s.emergency.recovery) :
    ForcingInOrder t where
  fixed c x run toward := absurd toward (k.not_fixed start ((congrArg (fun y => (y.get c).transition) circuits).symm.trans run))
  recovery := by rw [emergency.1, emergency.2]; exact k.recovery

theorem enterEmergency {s : State} (k : ForcingInOrder s) {e : EmergencyState} (cause : EmergencyCause)
    (force : e.forces = true) (run : s.startup = .running) : ForcingInOrder (s.enterEmergency e cause) where
  fixed c x runs toward := by
    have same := enterEmergency_broad s e cause
    rw [forced_iff, record_eq (congrArg Tables.circuits same.tables), same.forces, same.startup]
    refine ⟨⟨force, ?_⟩, run⟩
    show (s.record c).emergency.isSome = true
    cases level : (s.record c).emergency with
    | some v => rfl
    | none =>
      rw [circuit_enterEmergency_unforced s e cause level] at runs
      have forced := (forced_iff.mp (k.fixed c x runs toward).1).2
      rw [level] at forced
      cases forced
  recovery := (enterEmergency_broad s e cause).recovery fun _ => rfl

theorem clearForcing {s : State} (k : ForcingInOrder s) (p : Port) : ForcingInOrder (s.clearForcing p) := by
  refine (clearForcing_broad s p).forcingInOrder ⟨fun c x runs toward => ?_, fun state => absurd rfl state⟩
  change (s.recoveryCircuits.get c).transition = some x at runs
  unfold recoveryCircuits at runs
  rw [Tab.get_build] at runs
  split at runs
  · exact absurd toward (fixed_startTransition runs)
  · rename_i free
    exact absurd (k.fixed c x runs toward).1 free

/-- A write of a record that takes a circuit's forcing away or gives it one removes its transition (R41). -/
theorem setRecord {s : State} (k : ForcingInOrder s) (c : Circuit) (r : CircuitRecord) :
    ForcingInOrder (s.setRecord c r) where
  fixed d x runs toward := by
    have state : (s.setRecord c r).emergency = s.emergency := by rw [setRecord_eq]; rfl
    have startup : (s.setRecord c r).startup = s.startup := by rw [setRecord_eq]; rfl
    rw [forced_iff, state, startup]
    by_cases here : d = c
    · subst here
      rw [circuit_setRecord_self] at runs
      change (if s.emergency.state.forces && ((s.record d).emergency.isSome != r.emergency.isSome) then none
        else (s.circuit d).transition) = some x at runs
      split at runs
      · cases runs
      · rename_i kept
        obtain ⟨forced, running⟩ := k.fixed d x runs toward
        obtain ⟨forces, level⟩ := forced_iff.mp forced
        refine ⟨⟨forces, ?_⟩, running⟩
        rw [record_setRecord_self]
        rw [forces, level] at kept
        cases same : r.emergency.isSome with
        | true => rfl
        | false => rw [same] at kept; exact absurd rfl kept
    · rw [circuit_setRecord_of_ne s r here] at runs
      rw [record_setRecord_of_ne s r here, ← forced_iff]
      exact k.fixed d x runs toward
  recovery := by rw [setRecord_eq]; exact k.recovery

theorem elapse {s : State} (k : ForcingInOrder s) (us : Nat) : ForcingInOrder (s.elapse us) where
  fixed c x runs toward := by
    rw [circuit_elapse] at runs
    obtain ⟨y, run, same⟩ := fixed_advance (x := (s.circuit c).transition) runs
    rw [same] at toward
    exact k.fixed c y run toward
  recovery := k.recovery

theorem reset (now : Nat) (line : Contact) (m : Option StoredImage) (l : List Instr) :
    ForcingInOrder (.afterFullReset now line m l) where
  fixed c x runs := by
    rw [circuit_afterFullReset] at runs
    cases runs
  recovery _ := rfl

theorem clearForRestart {s : State} (k : ForcingInOrder s) : ForcingInOrder s.clearForRestart := by
  refine (clearForRestart_claims s).toBroad.forcingInOrder ⟨fun c x runs toward => ?_, k.recovery⟩
  change (s.restartCircuits.get c).transition = some x at runs
  unfold restartCircuits at runs
  rw [Tab.get_build] at runs
  dsimp only at runs
  split at runs
  · exact k.fixed c x runs toward
  · exact absurd toward (fixed_startTransition runs)

theorem restartPorts {s : State} (k : ForcingInOrder s) : ForcingInOrder s.restartPorts := by
  obtain ⟨ports, same⟩ := restartPorts_eq s
  rw [same]
  exact k.of_same rfl rfl ⟨rfl, rfl⟩ rfl

end ForcingInOrder

theorem transition_sampleRelays (s : State) (c : Circuit) :
    (s.sampleRelays.circuit c).transition = (s.circuit c).transition := by
  rw [circuit_sampleRelays]

theorem transition_endDwell (s : State) (c d : Circuit) (f : CircuitState → Relay) :
    ((s.onCircuit c fun x => { x with relay := f x }).circuit d).transition = (s.circuit d).transition := by
  by_cases h : d = c
  · rw [h, circuit_onCircuit_self]
  · rw [circuit_onCircuit_of_ne s _ h]

theorem Move.forcingInOrder {s t : State} (h : Move s t) (k : ForcingInOrder s) : ForcingInOrder t := by
  cases h with
  | broad h => exact h.forcingInOrder k
  | lost p t h free => exact h.forcingInOrder (k.of_same (t := s.losePort p) rfl rfl ⟨rfl, rfl⟩ rfl)
  | forced e cause force run => exact k.enterEmergency cause force run
  | cleared p h => exact k.clearForcing p
  | record c r => exact k.setRecord c r
  | tables x v fit same =>
    exact k.of_same rfl same ⟨rfl, rfl⟩ rfl
  | sampled d h => exact k.of_transitions (transition_sampleRelays s) rfl ⟨rfl, rfl⟩ rfl
  | dwelt c h => exact k.of_transitions (fun d => transition_endDwell s c d _) rfl ⟨rfl, rfl⟩ rfl
  | elapsed us => exact k.elapse us
  | reset now line m l => exact .reset now line m l
  | image read h => exact k.of_starting (by rw [h]; nofun) rfl ⟨rfl, rfl⟩
  | loaded t v h => exact k.of_starting (by rw [h]; nofun) rfl ⟨rfl, rfl⟩
  | restarted => exact k.restartPorts.clearForRestart
  | queue l => exact k.of_same rfl rfl ⟨rfl, rfl⟩ rfl
  | port p f h => exact k.of_same rfl rfl ⟨rfl, rfl⟩ rfl
  | armed n p cs r timeout house link => exact k.of_same rfl rfl ⟨rfl, rfl⟩ rfl
  | contact line accepted debounce => exact k.of_same rfl rfl ⟨rfl, rfl⟩ rfl
  | lines l => exact k.of_same rfl rfl ⟨rfl, rfl⟩ rfl
  | store x m v => exact k.of_same rfl rfl ⟨rfl, rfl⟩ rfl
  | counters => exact k.of_same rfl rfl ⟨rfl, rfl⟩ rfl

/-- Settles O6: only a forcing starts a transition toward a fixed level, and a circuit that stops being forced loses it. -/
theorem stepKeepsForcingInOrder : Obligations.StepKeepsForcingInOrder := fun s t k e =>
  (step_moves s t e).keeps (fun _ _ m i => m.forcingInOrder i) k

/-! ## Relays (R169, R173, R178) -/

theorem Broad.relaysInOrder {s t : State} (h : Broad s t) (k : RelaysInOrder s) : RelaysInOrder t where
  dimmed c kind := by
    rw [show t.record c = s.record c from congrArg (fun x => x.circuits.get c) h.tables] at kind
    exact (h.circuits c).relay.trans (k.dimmed c kind)
  starting start c := (h.circuits c).relay.trans (k.starting (h.startup ▸ start) c)
  samples start := h.rackDue.trans (k.samples (h.startup ▸ start))

theorem switched_of_relay {s : State} (k : RelaysInOrder s) {c : Circuit} (h : (s.circuit c).relay ≠ .clear) :
    (s.record c).kind.isSwitched = true ∧ s.startup = .running :=
  ⟨by_contra fun kind => h (k.dimmed c (by simpa using kind)), by_contra fun start => h (k.starting start c)⟩

/-- A sample judges no DIMMED circuit (R169). -/
theorem sample_of_dimmed {kind : CircuitKind} (h : kind.isSwitched = false) (r : Relay) (now level : Nat) :
    r.sample kind now level = r := by
  cases kind with
  | dimmed c lo hi => rfl
  | switched t y d => cases h

namespace RelaysInOrder

/-- Relays are in order where relays, kinds, the start-up and the sample due stand. -/
theorem of_relays {s t : State} (k : RelaysInOrder s) (h : ∀ c, (t.circuit c).relay = (s.circuit c).relay)
    (records : t.tables.circuits = s.tables.circuits) (startup : t.startup = s.startup) (due : t.rackDue = s.rackDue) :
    RelaysInOrder t where
  dimmed c kind := (h c).trans (k.dimmed c (record_eq records c ▸ kind))
  starting start c := (h c).trans (k.starting (startup ▸ start) c)
  samples start := due.trans (k.samples (startup ▸ start))

theorem of_same {s t : State} (k : RelaysInOrder s) (circuits : t.circuits = s.circuits)
    (records : t.tables.circuits = s.tables.circuits) (startup : t.startup = s.startup) (due : t.rackDue = s.rackDue) :
    RelaysInOrder t := k.of_relays (fun c => congrArg (fun x => (x.get c).relay) circuits) records startup due

/-- Every relay of a part that has not started is clear, whatever records it is given. -/
theorem of_starting {s t : State} (k : RelaysInOrder s) (start : s.startup ≠ .running) (circuits : t.circuits = s.circuits)
    (due : t.startup ≠ .running → t.rackDue = none) : RelaysInOrder t :=
  have clear : ∀ c, (t.circuit c).relay = .clear := fun c =>
    (congrArg (fun x => (x.get c).relay) circuits).trans (k.starting start c)
  ⟨fun c _ => clear c, fun _ => clear, due⟩

/-- A change of kind clears the relay record (R167). -/
theorem setRecord {s : State} (k : RelaysInOrder s) (c : Circuit) (r : CircuitRecord) : RelaysInOrder (s.setRecord c r) where
  dimmed d kind := by
    by_cases here : d = c
    · subst here
      rw [record_setRecord_self] at kind
      rw [circuit_setRecord_self]
      show (if (s.record d).kind.isSwitched = r.kind.isSwitched then (s.circuit d).relay else .clear) = _
      split
      · rename_i same
        exact k.dimmed d (same.trans kind)
      · rfl
    · rw [circuit_setRecord_of_ne s r here]
      rw [record_setRecord_of_ne s r here] at kind
      exact k.dimmed d kind
  starting start d := by
    have before : s.startup ≠ .running := by rw [setRecord_eq] at start; exact start
    by_cases here : d = c
    · subst here
      rw [circuit_setRecord_self]
      show (if (s.record d).kind.isSwitched = r.kind.isSwitched then (s.circuit d).relay else .clear) = _
      split
      · exact k.starting before d
      · rfl
    · rw [circuit_setRecord_of_ne s r here]
      exact k.starting before d
  samples start := by
    rw [setRecord_eq] at start ⊢
    exact k.samples start

/-- A sample is due only in a part that has started, and passes over its DIMMED circuits. -/
theorem sampled {s t : State} (k : RelaysInOrder s) (due : s.rackDue ≠ none) {now : Nat} {level : Circuit → Nat}
    (h : ∀ c, (t.circuit c).relay = (s.circuit c).relay.sample (s.record c).kind now (level c))
    (records : t.tables.circuits = s.tables.circuits) (startup : t.startup = s.startup) : RelaysInOrder t :=
  have run : t.startup = .running := startup.trans (by_contra fun start => due (k.samples start))
  { dimmed := fun c kind => by
      rw [record_eq records] at kind
      rw [h c, sample_of_dimmed kind]
      exact k.dimmed c kind
    starting := fun start => absurd run start
    samples := fun start => absurd run start }

theorem dwelt {s : State} (k : RelaysInOrder s) (c : Circuit) (h : (s.circuit c).relay.dwellEnd ≠ none) :
    RelaysInOrder (s.onCircuit c fun x => { x with relay := x.relay.endDwell (s.record c).kind s.now }) := by
  obtain ⟨switched, run⟩ := switched_of_relay k (c := c) fun clear => h (by rw [clear]; rfl)
  refine ⟨fun d kind => ?_, fun start => absurd run start, fun start => absurd run start⟩
  by_cases here : d = c
  · subst here
    exact absurd (switched.symm.trans kind) nofun
  · rw [circuit_onCircuit_of_ne s _ here]
    exact k.dimmed d kind

theorem reset (now : Nat) (line : Contact) (m : Option StoredImage) (l : List Instr) :
    RelaysInOrder (.afterFullReset now line m l) where
  dimmed c _ := congrArg CircuitState.relay (circuit_afterFullReset now line m l c)
  starting _ c := congrArg CircuitState.relay (circuit_afterFullReset now line m l c)
  samples _ := rfl

theorem clearForRestart {s : State} (k : RelaysInOrder s) : RelaysInOrder s.clearForRestart := by
  refine (clearForRestart_claims s).toBroad.relaysInOrder (k.of_relays (fun c => ?_) rfl rfl rfl)
  show (s.restartCircuits.get c).relay = _
  unfold restartCircuits
  rw [Tab.get_build]
  dsimp only
  split <;> rfl

theorem restartPorts {s : State} (k : RelaysInOrder s) : RelaysInOrder s.restartPorts := by
  obtain ⟨ports, same⟩ := restartPorts_eq s
  rw [same]
  exact k.of_same rfl rfl rfl rfl

end RelaysInOrder

theorem Move.relaysInOrder {s t : State} (h : Move s t) (k : RelaysInOrder s) : RelaysInOrder t := by
  cases h with
  | broad h => exact h.relaysInOrder k
  | lost p t h free => exact h.relaysInOrder (k.of_same (t := s.losePort p) rfl rfl rfl rfl)
  | forced e cause force run =>
    have same := enterEmergency_broad s e cause
    exact k.of_relays (fun c => (circuit_enterEmergency_fields s e cause c).2.1)
      (congrArg Tables.circuits same.tables) same.startup same.rackDue
  | cleared p h =>
    have same := clearForcing_broad s p
    exact k.of_relays (fun c => (circuit_clearForcing_fields s p c).2.1)
      (congrArg Tables.circuits same.tables) same.startup same.rackDue
  | record c r => exact k.setRecord c r
  | tables x v fit same => exact k.of_same rfl same rfl rfl
  | sampled d h => exact k.sampled h (fun c => congrArg CircuitState.relay (circuit_sampleRelays s c)) rfl rfl
  | dwelt c h => exact k.dwelt c h
  | elapsed us =>
    exact k.of_relays (fun c => (congrArg CircuitState.relay (circuit_elapse s us c)).trans rfl) rfl rfl rfl
  | reset now line m l => exact .reset now line m l
  | image read h =>
    have start : s.startup ≠ .running := by rw [h]; nofun
    exact k.of_starting start rfl fun _ => k.samples start
  | loaded t v h => exact k.of_starting (by rw [h]; nofun) rfl fun run => absurd rfl run
  | restarted => exact k.restartPorts.clearForRestart
  | queue l => exact k.of_same rfl rfl rfl rfl
  | port p f h => exact k.of_same rfl rfl rfl rfl
  | armed n p cs r timeout house link => exact k.of_same rfl rfl rfl rfl
  | contact line accepted debounce => exact k.of_same rfl rfl rfl rfl
  | lines l => exact k.of_same rfl rfl rfl rfl
  | store x m v => exact k.of_same rfl rfl rfl rfl
  | counters => exact k.of_same rfl rfl rfl rfl

/-- Settles O7: relays are changed by samples and dwell ends of SWITCHED circuits, and by the writes that clear them. -/
theorem stepKeepsRelaysInOrder : Obligations.StepKeepsRelaysInOrder := fun s t k e =>
  (step_moves s t e).keeps (fun _ _ m i => m.relaysInOrder i) k

/-! ## Slots (R109, R116) -/

theorem isOnline_of_link {x y : PortState} (h : y.link = x.link) : y.isOnline = x.isOnline := by
  unfold PortState.isOnline
  rw [h]

/-- A slot in use after a change of the claims was in use before it, with the same owner, whose link stands. -/
theorem Broad.slot_used {s t : State} (h : Broad s t) (house : ∀ n x, s.slot n = some x → s.mode = some .inShow)
    {n : SlotNo} {y : Slot} (use : t.slot n = some y) :
    t.mode = some .inShow ∧ s.slot n ≠ none ∧ ∀ x, s.slot n = some x → y.owner = x.owner := by
  obtain ⟨x, before, owner⟩ := h.slots n y use
  have before : s.slot n = some x := before
  refine ⟨?_, by rw [before]; exact Option.some_ne_none x, fun z same => by rw [before] at same; cases same; exact owner⟩
  refine h.slotsInShow (fun m used => ?_) n (by rw [show t.slots.get n = some y from use]; exact Option.some_ne_none y)
  obtain ⟨z, some⟩ := Option.ne_none_iff_exists'.mp used
  exact house m z some

theorem Broad.isOnline {s t : State} (h : Broad s t) (q : Port) : (t.port q).isOnline = (s.port q).isOnline :=
  isOnline_of_link (h.ports q.ix).link

theorem Broad.slotsInOrder {s t : State} (h : Broad s t) (k : SlotsInOrder s) : SlotsInOrder t := fun n y use => by
  obtain ⟨house, used, owner⟩ := h.slot_used (fun m z some => (k m z some).1) use
  obtain ⟨x, before⟩ := Option.ne_none_iff_exists'.mp used
  rw [h.isOnline, owner x before]
  exact ⟨house, (k n x before).2⟩

theorem slotsInOrder_of_free {s : State} (h : ∀ n, s.slot n = none) : SlotsInOrder s := fun n y use => by
  rw [h n] at use
  cases use

namespace SlotsInOrder

/-- Slots are in order where slots, mode and the links of the ports stand. -/
theorem of_links {s t : State} (k : SlotsInOrder s) (slots : t.slots = s.slots) (mode : t.mode = s.mode)
    (h : ∀ q, (s.port q).isOnline = true → (t.port q).isOnline = true) : SlotsInOrder t := fun n y use => by
  obtain ⟨house, link⟩ := k n y (by unfold State.slot at use ⊢; rw [← slots]; exact use)
  exact ⟨mode.trans house, h _ link⟩

theorem of_same {s t : State} (k : SlotsInOrder s) (slots : t.slots = s.slots) (mode : t.mode = s.mode)
    (ports : t.ports = s.ports) : SlotsInOrder t :=
  k.of_links slots mode fun q link => (congrArg (fun x => (x.get q.ix).isOnline) ports).trans link

theorem onPort {s : State} (k : SlotsInOrder s) (p : Port) {f : PortState → PortState}
    (h : KeptPort (s.port p) (f (s.port p))) :
    SlotsInOrder (s.onPort p f) := k.of_links rfl rfl fun q link => by
  rw [port_onPort_ite]
  split
  · rename_i same
    subst same
    exact h.online link
  · exact link

/-- A port lost has left its slots (R180). -/
theorem lost {s t : State} (k : SlotsInOrder s) {p : Port} (h : Broad (s.losePort p) t)
    (free : ∀ n y, t.slot n = some y → y.owner ≠ p) : SlotsInOrder t := fun n y use => by
  obtain ⟨house, used, owner⟩ := h.slot_used (fun m z some => (k m z some).1) use
  obtain ⟨x, before⟩ := Option.ne_none_iff_exists'.mp used
  refine ⟨house, ?_⟩
  rw [h.isOnline, State.losePort, port_onPort_ite, if_neg (free n y use), owner x before]
  exact (k n x before).2

theorem armSlot {s : State} (k : SlotsInOrder s) (n : SlotNo) {p : Port} (cs : List Circuit) (r : Rank) (timeout : Nat)
    (house : s.inShow = true) (link : (s.port p).isOnline = true) : SlotsInOrder (s.armSlot n p cs r timeout) :=
  fun m y use => by
    change ((s.slots.set n _).get m) = some y at use
    rw [Tab.get_set] at use
    split at use
    · cases use
      exact ⟨by simpa [State.inShow, State.armSlot] using house, link⟩
    · exact k m y use

theorem takeImage {s : State} (k : SlotsInOrder s) (read : ImageRead) : SlotsInOrder (s.takeImage read) :=
  k.of_links rfl rfl fun q link => by
    unfold State.takeImage State.port
    dsimp only
    rw [Tab.get_build]
    exact link

theorem clearCounters {s : State} (k : SlotsInOrder s) : SlotsInOrder s.clearCounters :=
  k.of_links rfl rfl fun q link => by
    unfold State.clearCounters State.port
    rw [Tab.get_each]
    exact link

end SlotsInOrder

theorem Move.slotsInOrder {s t : State} (h : Move s t) (k : SlotsInOrder s) : SlotsInOrder t := by
  cases h with
  | broad h => exact h.slotsInOrder k
  | port p f h => exact k.onPort p h
  | lost p t h free => exact k.lost h free
  | armed n p cs r timeout house link => exact k.armSlot n cs r timeout house link
  | forced e cause force run => exact (enterEmergency_broad s e cause).slotsInOrder (k.of_same rfl rfl rfl)
  | cleared p h => exact (clearForcing_broad s p).slotsInOrder (k.of_same rfl rfl rfl)
  | record c r => rw [setRecord_eq]; exact k.of_same rfl rfl rfl
  | image read h => exact k.takeImage read
  | counters => exact k.clearCounters
  | reset now line m l => exact slotsInOrder_of_free fun n => Tab.get_const none n
  | restarted =>
    exact (clearForRestart_claims s.restartPorts).toBroad.slotsInOrder (slotsInOrder_of_free fun n => Tab.get_const none n)
  | queue l => exact k.of_same rfl rfl rfl
  | contact line accepted debounce => exact k.of_same rfl rfl rfl
  | tables x v fit same => exact k.of_same rfl rfl rfl
  | sampled d h => exact k.of_same rfl rfl rfl
  | dwelt c h => exact k.of_same rfl rfl rfl
  | lines l => exact k.of_same rfl rfl rfl
  | store x m v => exact k.of_same rfl rfl rfl
  | elapsed us => exact k.of_same rfl rfl rfl
  | loaded t v h => exact k.of_same rfl rfl rfl

/-- Settles O8: a slot is armed in SHOW by an ONLINE port, and leaving SHOW or losing the port frees it. -/
theorem stepKeepsSlotsInOrder : Obligations.StepKeepsSlotsInOrder := fun s t k e =>
  (step_moves s t e).keeps (fun _ _ m i => m.slotsInOrder i) k

/-! ## The state after reset -/

/-- Settles O9: after a full reset no claim, tracker, slot, transition or notice stands, and every count is 0. -/
theorem resetMeetsTheInvariants : Obligations.ResetMeetsTheInvariants := by
  have empty : ∀ c, State.reset.claims c = [] := fun c => congrArg CircuitState.claims (circuit_afterFullReset _ _ _ _ c)
  exact ⟨listsInOrder_of_nil empty, withinBounds_iff.mpr ⟨.reset _ _ _ _, .reset _ _ _ _⟩,
    ⟨fit_defaultTables, fun _ _ e => by cases e⟩, .reset _ _ _ _, .reset _ _ _ _,
    slotsInOrder_of_free fun n => Tab.get_const none n, rfl⟩

end Sys2Proof.Machine
end

section
/-! SUPPORT. What every command leaves alone: the clock, the queue of commands, and a replay that is not owed. Requests are
said over their answers, whose replay is taken before the reply; events over the operation each of them is. -/

namespace Sys2Proof.Machine
open State

/-! ## The clock and the queue -/

/-- The clock and the queue of commands stand. -/
structure Undisturbed (s t : State) : Prop where
  now : t.now = s.now
  pending : t.pending = s.pending

theorem Undisturbed.refl (s : State) : Undisturbed s s := ⟨rfl, rfl⟩

theorem Undisturbed.trans {a b c : State} (h : Undisturbed a b) (k : Undisturbed b c) : Undisturbed a c :=
  ⟨k.now.trans h.now, k.pending.trans h.pending⟩

theorem Broad.undisturbed {s t : State} (h : Broad s t) : Undisturbed s t := ⟨h.now, h.pending⟩

/-- `Undisturbed`, and no replay owed where none was. -/
structure Kept (s t : State) : Prop extends Undisturbed s t where
  owed : s.replayOwed = false → t.replayOwed = false

theorem Kept.refl (s : State) : Kept s s := ⟨.refl s, id⟩

theorem Kept.trans {a b c : State} (h : Kept a b) (k : Kept b c) : Kept a c :=
  ⟨h.toUndisturbed.trans k.toUndisturbed, fun o => k.owed (h.owed o)⟩

/-- A change that ends in a replay leaves none owed. -/
theorem Undisturbed.replay {s t : State} (h : Undisturbed s t) : Kept s t.replay :=
  ⟨h.trans (replay_steady t).toBroad.undisturbed, fun _ => replay_clear t⟩

/-! ## Operations on one part of the state -/

namespace State

theorem onPort_kept (s : State) (p : Port) (f : PortState → PortState) : Kept s (s.onPort p f) := ⟨⟨rfl, rfl⟩, id⟩

theorem respond_kept (s : State) (p : Port) (kind tag : Byte) (status : Status) (body : ReplyBody) :
    Kept s (s.respond p kind tag status body) := onPort_kept s p _

theorem refreshLease_kept (s : State) (p : Port) : Kept s (s.refreshLease p) := onPort_kept s p _

theorem answerBusy_kept (s : State) (p : Port) (kind tag : Byte) : Kept s (s.answerBusy p kind tag) :=
  (onPort_kept s p _).trans (respond_kept _ p kind tag _ _)

theorem announce_kept (s : State) (n : Notice) : Kept s (s.announce n) := ⟨⟨rfl, rfl⟩, id⟩

theorem notify_kept (s : State) (p : Port) (n : Notice) : Kept s (s.notify p n) := onPort_kept s p _

theorem onTables_kept (s : State) (f : Tables → Tables) : Kept s (s.onTables f) := ⟨⟨rfl, rfl⟩, id⟩

theorem setSlot_kept (s : State) (n : SlotNo) (x : Option Slot) : Kept s (s.setSlot n x) := ⟨⟨rfl, rfl⟩, id⟩

theorem onCircuit_kept (s : State) (c : Circuit) (f : CircuitState → CircuitState) : Kept s (s.onCircuit c f) :=
  ⟨⟨rfl, rfl⟩, id⟩

theorem onLoop_kept (s : State) (l : LoopNo) (f : LoopState → LoopState) : Kept s (s.onLoop l f) := ⟨⟨rfl, rfl⟩, id⟩

theorem onStation_kept (s : State) (l : LoopNo) (n : StationNo) (f : StationState → StationState) :
    Kept s (s.onStation l n f) := onLoop_kept s l _

theorem onKey_kept (s : State) (k : KeyAddr) (f : KeyRecord → KeyRecord) : Kept s (s.onKey k f) :=
  onStation_kept s _ _ _

theorem onLine_kept (s : State) (n : LineNo) (f : PwmLine → PwmLine) : Kept s (s.onLine n f) := ⟨⟨rfl, rfl⟩, id⟩

theorem setEmergency_kept (s : State) (e : EmergencyState) (l : List Circuit) : Kept s (s.setEmergency e l) :=
  ⟨⟨rfl, rfl⟩, id⟩

theorem announceEmergency_kept (s : State) (cause : EmergencyCause) : Kept s (s.announceEmergency cause) :=
  announce_kept s _

theorem countEntry_kept (s : State) : Kept s s.countEntry := ⟨⟨rfl, rfl⟩, id⟩

theorem countExpired_kept (s : State) : Kept s s.countExpired := ⟨⟨rfl, rfl⟩, id⟩

end State

theorem foldl_kept {β : Type} (f : State → β → State) (h : ∀ s b, Kept s (f s b)) (l : List β) (s : State) :
    Kept s (l.foldl f s) :=
  foldl_keeps Kept .refl (fun _ _ _ => .trans) f h l s

/-! ## Requests -/

/-- A frame answered at once, or taken with the lease started anew, disturbs nothing. -/
theorem receive_kept {α : Type} (s : State) (p : Port) (kind tag : Byte) (payload : Payload α) (formed : α → Bool) :
    (∀ t, s.receive p kind tag payload formed = .done t → Kept s t)
    ∧ ∀ t f, s.receive p kind tag payload formed = .taken t f → Kept s t := by
  have leased := refreshLease_kept s p
  unfold receive
  split
  · exact ⟨fun t h => by cases h; exact .refl s, fun t f h => by cases h⟩
  · exact ⟨fun t h => by cases h; exact respond_kept s p kind tag _ _, fun t f h => by cases h⟩
  · split
    · exact ⟨fun t h => by cases h; exact .refl s, fun t f h => by cases h⟩
    · unfold judgeRequest
      split
      · exact ⟨fun t h => by cases h; exact leased.trans (answerBusy_kept _ p kind tag), fun t f h => by cases h⟩
      · split
        · exact ⟨fun t h => by cases h; exact leased.trans (respond_kept _ p kind tag _ _), fun t f h => by cases h⟩
        · split
          · exact ⟨fun t h => (by cases h), fun t f h => by cases h; exact leased⟩
          · exact ⟨fun t h => by cases h; exact leased.trans (respond_kept _ p kind tag _ _), fun t f h => by cases h⟩

theorem plain_state (t : State) (status : Status) : (Answer.plain t status).state = t := rfl

/-- A request disturbs nothing where its answer leaves the clock and the queue. -/
theorem serve_kept {α : Type} {s : State} {p : Port} {kind tag : Byte} {payload : Payload α} {formed : α → Bool}
    {answer : State → α → Answer} (h : ∀ t f, Undisturbed t (answer t f).state) :
    Kept s (serve s p kind tag payload formed answer) := by
  obtain ⟨done, taken⟩ := receive_kept s p kind tag payload formed
  unfold serve
  split
  · exact done _ (by assumption)
  · rename_i t f e
    exact ((taken t f e).trans (h t f).replay).trans (respond_kept _ p kind tag _ _)

namespace State

theorem refusePlacement_undisturbed (s : State) (r : PlaceRefusal) : Undisturbed s (s.refusePlacement r).state := by
  unfold refusePlacement Answer.plain
  dsimp only
  split
  · exact (countPoolRefusal_steady s).toBroad.undisturbed
  · exact .refl s

theorem answerPlacement_undisturbed (s : State) (p : Port) (tag : Byte) (w : Option PortWork) :
    Undisturbed s (s.answerPlacement p tag w).state := by
  unfold answerPlacement
  split
  · exact .refl s
  · split
    · exact refusePlacement_undisturbed s _
    · rename_i free
      rw [plain_state]
      exact (place_claims s _ (portPlacement_supplied free)).toBroad.undisturbed

theorem answerRelease_undisturbed (s : State) (p : Port) (f : ReleaseFields) :
    Undisturbed s (s.answerRelease p f).state := by
  unfold answerRelease
  split
  · exact .refl s
  · rw [plain_state]
    exact (release_claims s _ _ _).toBroad.undisturbed

theorem answerStandby_undisturbed (s : State) (p : Port) (group rank timeout : Nat) :
    Undisturbed s (s.answerStandby p group rank timeout).state := by
  unfold answerStandby
  split
  · exact .refl s
  · split
    · exact .refl s
    · split
      · exact .refl s
      · split
        · exact .refl s
        · split
          · exact .refl s
          · exact (setSlot_kept s _ _).toUndisturbed

theorem submitCue_undisturbed (s : State) (p : Port) (n : SlotNo) (cue : Cue) :
    Undisturbed s (s.submitCue p n cue).state := by
  unfold submitCue
  split
  · exact .refl s
  · split
    · exact refusePlacement_undisturbed s _
    · rename_i w _ _ free
      rw [plain_state]
      have room := portRefusal_room free
      have placed := place_claims (s.restartExpiry n) (portPlacement p w (.slot n)) ⟨room, nofun⟩
      exact (setSlot_kept s n _).toUndisturbed.trans placed.toBroad.undisturbed

theorem answerGo_undisturbed (s : State) (p : Port) (number : Nat) (cue : Cue) :
    Undisturbed s (s.answerGo p number cue).state := by
  unfold answerGo
  split
  · exact .refl s
  · split
    · exact .refl s
    · split
      · exact .refl s
      · split
        · exact submitCue_undisturbed s p _ cue
        · exact .refl s

theorem answerCancel_undisturbed (s : State) (p : Port) (number : Nat) :
    Undisturbed s (s.answerCancel p number).state := by
  unfold answerCancel
  split
  · exact .refl s
  · split
    · exact .refl s
    · split
      · exact (endSlot_claims s _ _).toBroad.undisturbed
      · exact .refl s

theorem answerSetMode_undisturbed (s : State) (p : Port) (m : HouseMode) :
    Undisturbed s (s.answerSetMode p m).state := by
  unfold answerSetMode
  split
  · exact (requestMode_broad s m _).undisturbed
  · exact .refl s

theorem answerRun_undisturbed (s : State) (p : Port) (n : PlayerNo) (q : SequenceNo) (mode : PlayerMode) (rate : Nat) :
    Undisturbed s (s.answerRun p n q mode rate).state := by
  unfold answerRun
  split
  · exact ((writeRate_steady s n rate).trans (offRequest_steady _ n _)).toBroad.undisturbed
  · split
    · exact .refl s
    · exact ((writeRate_steady s n rate).trans (runRequest_steady _ n q _ _)).toBroad.undisturbed

theorem answerRestart_undisturbed (s : State) (p : Port) (n : PlayerNo) (m : RunMode) (rate : Nat) :
    Undisturbed s (s.answerRestart p n m rate).state := by
  unfold answerRestart
  split
  · exact .refl s
  · split
    · exact .refl s
    · exact ((writeRate_steady s n rate).trans (runRequest_steady _ n _ _ _)).toBroad.undisturbed

theorem answerSet_undisturbed (s : State) (p : Port) (n : PlayerNo) (mode : PlayerMode) (rate : Nat) :
    Undisturbed s (s.answerSet p n mode rate).state := by
  unfold answerSet
  split
  · exact ((writeRate_steady s n rate).trans (offRequest_steady _ n _)).toBroad.undisturbed
  · split
    · exact answerRestart_undisturbed s p n _ rate
    · exact ((writeRate_steady s n rate).trans (setPlayer_steady _ n _)).toBroad.undisturbed

theorem enterEmergency_undisturbed (s : State) (e : EmergencyState) (cause : EmergencyCause) :
    Undisturbed s (s.enterEmergency e cause) :=
  ⟨(enterEmergency_broad s e cause).now, (enterEmergency_broad s e cause).pending⟩

theorem answerEmergencyOn_undisturbed (s : State) (p : Port) : Undisturbed s (s.answerEmergencyOn p).state := by
  unfold answerEmergencyOn
  split
  · split
    · exact .refl s
    · exact enterEmergency_undisturbed s _ _
  · exact .refl s

theorem answerClear_undisturbed (s : State) (p : Port) : Undisturbed s (s.answerClear p).state := by
  unfold answerClear
  split
  · split
    · exact .refl s
    · exact .refl s
    · exact .refl s
    · exact ⟨(clearForcing_broad s p).now, (clearForcing_broad s p).pending⟩
  · exact .refl s

theorem answerQueryStation_undisturbed (s : State) (loop address : Nat) :
    Undisturbed s (s.answerQueryStation loop address).state := by
  unfold answerQueryStation
  split
  · split
    · exact .refl s
    · exact (onStation_broad s _ _ _).undisturbed
  · exact .refl s

/-! ## Table writes -/

theorem answerEdit_undisturbed {s : State} {p : Port} {a : Answer} (h : Undisturbed s a.state) :
    Undisturbed s (s.answerEdit p a).state := by
  unfold answerEdit
  split
  · exact .refl s
  · exact h

theorem setRanks_undisturbed (s : State) (modes : Tab MergeMode 8) : Undisturbed s (s.setRanks modes) := by
  unfold setRanks
  dsimp only
  generalize drops : promotionDropsWhere _ _ _ = lost
  have settled := (settle_claims
    { s with
      tables := { s.tables with ranks := modes }
      circuits := { s with tables := { s.tables with ranks := modes } }.promoteWhere s.circuits fun _ => true
      event := s.event + 1 } lost []).toBroad
  exact ⟨settled.now, settled.pending⟩

theorem setStations_undisturbed (s : State) (l : LoopNo) (new : Tab (Option StationType) 16) :
    Undisturbed s (s.setStations l new) := by
  have stopped : Undisturbed s (s.stopRaisesOf l new) := (foldl_claims _ stopRaise_claims _ s).toBroad.undisturbed
  unfold setStations
  dsimp only
  exact stopped.trans ((onTables_kept _ _).trans (onLoop_kept _ l _)).toUndisturbed

theorem takePairs_undisturbed (s : State) (p : Port) (e : PresetEdit) (pairs : List (Circuit × Nat)) :
    Undisturbed s (s.takePairs p e pairs).state := by
  unfold takePairs
  split
  · exact (onPort_kept s p _).toUndisturbed
  · split
    · exact ⟨rfl, rfl⟩
    · exact (onPort_kept s p _).toUndisturbed

theorem answerWriteRanks_undisturbed (s : State) (p : Port) (l : List Nat) :
    Undisturbed s (s.answerWriteRanks p l).state := by
  refine answerEdit_undisturbed ?_
  split
  · exact .refl s
  · rw [plain_state]
    exact setRanks_undisturbed s _

theorem answerWriteGroup_undisturbed (s : State) (p : Port) (number : Nat) (list : List Nat) :
    Undisturbed s (s.answerWriteGroup p number list).state := by
  refine answerEdit_undisturbed ?_
  split
  · exact .refl s
  · split
    · exact .refl s
    · split
      · exact .refl s
      · split <;> exact ⟨rfl, rfl⟩

theorem answerOpenPreset_undisturbed (s : State) (p : Port) (number fade count : Nat) :
    Undisturbed s (s.answerOpenPreset p number fade count).state := by
  refine answerEdit_undisturbed ?_
  split
  · exact .refl s
  · split
    · exact .refl s
    · split
      · exact .refl s
      · split <;> exact ⟨rfl, rfl⟩

theorem answerPresetPairs_undisturbed (s : State) (p : Port) (number : Nat) (list : List (Nat × Nat)) :
    Undisturbed s (s.answerPresetPairs p number list).state := by
  refine answerEdit_undisturbed ?_
  split
  · exact .refl s
  · split
    · exact .refl s
    · split
      · exact .refl s
      · split
        · exact takePairs_undisturbed s p _ _
        · exact .refl s

theorem answerWriteBindings_undisturbed (s : State) (p : Port) (k : RawKey) (edge : Nat) (list : List RawBinding) :
    Undisturbed s (s.answerWriteBindings p k edge list).state := by
  refine answerEdit_undisturbed ?_
  split
  · split
    · exact .refl s
    · split
      · exact .refl s
      · split <;> exact ⟨rfl, rfl⟩
  · exact .refl s

theorem answerWriteStations_undisturbed (s : State) (p : Port) (loop : Nat) (list : List (Nat × Nat)) :
    Undisturbed s (s.answerWriteStations p loop list).state := by
  refine answerEdit_undisturbed ?_
  split
  · exact .refl s
  · split
    · exact .refl s
    · exact setStations_undisturbed s _ _

theorem answerWriteSequence_undisturbed (s : State) (p : Port) (number : Nat) (q : RawSequence) :
    Undisturbed s (s.answerWriteSequence p number q).state := by
  refine answerEdit_undisturbed ?_
  split
  · exact .refl s
  · split
    · exact .refl s
    · split <;> exact ⟨rfl, rfl⟩

theorem answerWriteMode_undisturbed (s : State) (p : Port) (code : Nat) (r : RawModeRecord) :
    Undisturbed s (s.answerWriteMode p code r).state := by
  refine answerEdit_undisturbed ?_
  split
  · exact .refl s
  · split <;> exact ⟨rfl, rfl⟩

theorem answerWriteCircuit_undisturbed (s : State) (p : Port) (number : Nat) (r : RawCircuitRecord) :
    Undisturbed s (s.answerWriteCircuit p number r).state := by
  refine answerEdit_undisturbed ?_
  split
  · exact .refl s
  · split
    · exact .refl s
    · split
      · exact .refl s
      · unfold Answer.plain
        rw [setRecord_eq]
        exact ⟨rfl, rfl⟩

theorem answerWriteRole_undisturbed (s : State) (p : Port) (code : Nat) (r : RawRoleRecord) :
    Undisturbed s (s.answerWriteRole p code r).state := by
  unfold answerWriteRole
  split
  · exact .refl s
  · split
    · exact .refl s
    · split <;> exact ⟨rfl, rfl⟩

theorem answerWriteSetting_undisturbed (s : State) (p : Port) (setting line v : Nat) :
    Undisturbed s (s.answerWriteSetting p setting line v).state := by
  refine answerEdit_undisturbed ?_
  split
  · exact .refl s
  · split
    · exact .refl s
    · unfold setSetting Answer.plain
      dsimp only
      split <;> exact ⟨rfl, rfl⟩

/-! ## Operations of the events -/

theorem orphanRelease_kept (s : State) (p : Port) : Kept s (s.orphanRelease p) := by
  unfold orphanRelease
  dsimp only
  have released := (releaseAll_claims (s.onPort p fun x => { x with orphanEnd := none }) (.port p)
    (s.role p).orphanRelease).trans (announce_claims _ (.orphansReleased p (s.circuitsOf (.port p)).length))
  exact (onPort_kept s p _).trans released.toBroad.undisturbed.replay

theorem loseLease_kept (s : State) (p : Port) : Kept s (s.loseLease p) := by
  have lost : Kept s ((s.losePort p).forgoReply p) :=
    Kept.trans (b := s.losePort p) (onPort_kept s p _) ⟨⟨rfl, rfl⟩, id⟩
  have freed := lost.trans ((dropTrackers_claims _ p).trans
    (endSlots_claims _ (fun k => k.owner == p) .ownerLost)).toBroad.undisturbed.replay
  have cleared := freed.trans (onPort_kept _ p fun x => { x with edit := none })
  unfold loseLease
  refine cleared.trans ?_
  unfold startOrphanHold
  split
  · exact orphanRelease_kept _ p
  · exact onPort_kept _ p _

theorem reportRecoveries_kept (s : State) (cs : List Circuit) : Kept s (s.reportRecoveries cs) := by
  refine ⟨(reportRecoveries_claims s cs).toBroad.undisturbed, fun clear => ?_⟩
  unfold reportRecoveries
  dsimp only
  split
  · split <;> exact clear
  · exact clear

theorem endTransition_kept (s : State) (c : Circuit) : Kept s (s.endTransition c) := by
  unfold endTransition
  dsimp only
  split
  · exact (onCircuit_kept s c _).trans (reportRecoveries_kept _ _)
  · exact onCircuit_kept s c _

theorem carryOut_kept (s : State) (b : Binding) : Kept s (s.carryOut b) := (doBinding_broad s b).undisturbed.replay

theorem takeEdge_kept (s : State) (k : KeyAddr) (e : Edge) : Kept s (s.takeEdge k e) := by
  unfold takeEdge
  dsimp only
  have told := announce_kept s (.key k e)
  refine Kept.trans ?_ (foldl_kept _ carryOut_kept _ _)
  split
  · exact told.trans (stopRaise_claims _ k).toBroad.undisturbed.replay
  · exact told

theorem lockOut_kept (s : State) (k : KeyAddr) (d : Bool) : Kept s (s.lockOut k d) := by
  unfold lockOut
  dsimp only
  exact (((onKey_broad s k _).trans (stopRaise_claims _ k).toBroad).trans
    ((countLockout_steady _).trans (announce_steady _ _)).toBroad).undisturbed.replay

theorem acceptChange_kept (s : State) (k : KeyAddr) (d : Bool) (w : Nat × Nat) : Kept s (s.acceptChange k d w) := by
  have changed := onKey_kept s k
  unfold acceptChange
  split
  · exact (changed _).trans (takeEdge_kept _ k .press)
  · dsimp only
    split
    · exact ((changed _).trans (takeEdge_kept _ k .tap)).trans (takeEdge_kept _ k .release)
    · exact (changed _).trans (takeEdge_kept _ k .release)
    · exact changed _

theorem takeKey_kept (s : State) (k : KeyAddr) (d : Bool) : Kept s (s.takeKey k d) := by
  unfold takeKey
  dsimp only
  split
  · exact .refl s
  · split
    · exact onKey_kept s k _
    · split
      · exact lockOut_kept s k d
      · exact acceptChange_kept s k d _

theorem goodReply_kept (s : State) (l : LoopNo) (n : StationNo) (keys : Byte) : Kept s (s.goodReply l n keys) := by
  unfold goodReply
  split
  · exact (onStation_kept s l n _).trans (foldl_kept _ (fun s k => takeKey_kept s k _) _ _)
  · split
    · exact onStation_kept s l n _
    · exact ((onStation_kept s l n _).trans (foldl_kept _ (fun s k => onKey_kept s k _) _ _)).trans (announce_kept _ _)

theorem loseStation_kept (s : State) (l : LoopNo) (n : StationNo) : Kept s (s.loseStation l n) := by
  unfold loseStation
  dsimp only
  exact (onStation_kept s l n _).trans ((foldl_claims _ stopRaise_claims (s.keysAt l n) _).trans
    (announce_claims _ _)).toBroad.undisturbed.replay

theorem missReply_kept (s : State) (l : LoopNo) (n : StationNo) : Kept s (s.missReply l n) := by
  have counted := onLoop_kept s l fun x => { x with pollMisses := bump x.pollMisses }
  unfold missReply
  dsimp only
  split
  · split
    · exact counted.trans (onStation_kept _ l n _)
    · exact counted.trans (loseStation_kept _ l n)
  · exact counted.trans (onStation_kept _ l n _)

theorem takeReport_kept (s : State) (l : LoopNo) (n : StationNo) (bytes : List Byte) :
    Kept s (s.takeReport l n bytes) := by
  unfold takeReport
  split
  · exact missReply_kept s l n
  · exact (onLoop_kept s l _).trans (missReply_kept _ l n)
  · exact goodReply_kept s l n _

theorem enterEmergency_kept (s : State) (e : EmergencyState) (cause : EmergencyCause) :
    Kept s (s.enterEmergency e cause) := by
  have forced : Kept s { s with circuits := s.egressCircuits } := ⟨⟨rfl, rfl⟩, id⟩
  unfold enterEmergency
  exact ((forced.trans (setEmergency_kept _ e [])).trans (countEntry_kept _)).trans (announceEmergency_kept _ cause)

theorem handContact_kept (s : State) (r : Contact) (changed : Bool) : Kept s (s.handContact r changed) := by
  unfold handContact
  split
  · exact enterEmergency_kept s _ _
  · exact enterEmergency_kept s _ _
  · exact (setEmergency_kept s _ _).trans (announceEmergency_kept _ _)
  · exact (setEmergency_kept s _ _).trans (announceEmergency_kept _ _)
  · split
    · exact announceEmergency_kept s _
    · exact .refl s

theorem acceptContact_kept (s : State) (r : Contact) : Kept s (s.acceptContact r) := by
  have accepted : Kept s { s with emergency := { s.emergency with accepted := some r, debounce := none } } :=
    ⟨⟨rfl, rfl⟩, id⟩
  unfold acceptContact
  dsimp only
  split
  · exact accepted.trans (handContact_kept _ r _)
  · exact accepted

theorem expireEntry_kept (s : State) : Kept s s.expireEntry := by
  have removed : Kept s { s with deferred := s.deferred.eraseP s.entryDue }.countExpired := ⟨⟨rfl, rfl⟩, id⟩
  unfold expireEntry afterRemoval
  split
  · split
    · exact removed.trans ⟨⟨rfl, rfl⟩, id⟩
    · exact removed
  · exact .refl s

theorem finishSave_kept (s : State) (x : Save) (note : Notice) (v : Validity) (status : Status) :
    Kept s (s.finishSave x note v status) := by
  unfold finishSave
  split
  · exact ((notify_kept s _ _).trans (announce_kept _ _)).trans (respond_kept _ _ _ _ _ _)
  · exact announce_kept s _

theorem restart_kept (s : State) : Kept s s.restart := by
  have passed : Undisturbed s s.restartPorts := by
    obtain ⟨ports, same⟩ := restartPorts_eq s
    rw [same]
    exact ⟨rfl, rfl⟩
  have cleared := (clearForRestart_claims s.restartPorts).toBroad
  have entered := (reenterMode_broad s.restartPorts.clearForRestart).undisturbed
  have clears : Undisturbed s.restartPorts s.restartPorts.clearForRestart := ⟨cleared.now, cleared.pending⟩
  exact ((passed.trans clears).trans entered).replay

theorem endStartup_kept (s : State) (t : Tables) (v : Validity) : Kept s (s.endStartup t v) := by
  have loaded : Undisturbed s (s.loadTables t v) := ⟨rfl, rfl⟩
  have forced : Undisturbed s (s.loadTables t v).startEmergency := by
    unfold startEmergency
    split
    · exact loaded.trans (enterEmergency_undisturbed _ _ _)
    · exact loaded
  exact (forced.trans ((changeMode_broad _ _ _).trans (announce_steady _ _).toBroad).undisturbed).replay

end State

/-! ## Every command -/

/-- The command runs to a state that keeps clock, queue and replay. -/
def Runs (run : Host.Outcome State Fault Refusal) (s : State) : Prop := ∃ t, run = .next t ∧ Kept s t

theorem runs_next {s t : State} (h : Kept s t) : Runs (.next t) s := ⟨t, rfl, h⟩

theorem runs_self (s : State) : Runs (.next s) s := runs_next (.refl s)

theorem runs_serve {α : Type} {s : State} {p : Port} {kind tag : Byte} {payload : Payload α} {formed : α → Bool}
    {answer : State → α → Answer} (h : ∀ t f, Undisturbed t (answer t f).state) :
    Runs (.next (serve s p kind tag payload formed answer)) s := runs_next (serve_kept h)

/-- A request whose answer is read from the state alone. -/
theorem runs_read {α : Type} {s : State} {p : Port} {kind tag : Byte} {payload : Payload α} {formed : α → Bool}
    {answer : State → α → Answer} (h : ∀ t f, (answer t f).state = t) :
    Runs (.next (serve s p kind tag payload formed answer)) s :=
  runs_serve fun t f => by rw [h t f]; exact .refl t

theorem saveConfig_runs (p : Port) (tag : Byte) (payload : Payload Unit) (s : State) :
    Runs (execSaveConfig p tag payload s) s := by
  obtain ⟨done, taken⟩ := receive_kept s p 0x42 tag payload (fun _ => true)
  unfold execSaveConfig
  split
  · exact runs_next (done _ (by assumption))
  · rename_i t f e
    have leased := taken t f e
    split
    · exact runs_next (leased.trans ⟨⟨rfl, rfl⟩, id⟩)
    · split <;> exact runs_next (leased.trans ⟨⟨rfl, rfl⟩, id⟩)

theorem restart_runs (p : Port) (tag : Byte) (payload : Payload Unit) (s : State) :
    Runs (execRestart p tag payload s) s := by
  obtain ⟨done, taken⟩ := receive_kept s p 0x43 tag payload (fun _ => true)
  unfold execRestart
  split
  · exact runs_next (done _ (by assumption))
  · rename_i t f e
    have replied : ∀ status, Kept s (t.respond p 0x43 tag status .empty) := fun status =>
      (taken t f e).trans ⟨⟨rfl, rfl⟩, id⟩
    split
    · exact runs_next (replied _)
    · split
      · exact runs_next (replied _)
      · exact runs_next ((replied .ok).trans (restart_kept _))

/-! ## Timed events -/

theorem leaseExpiry_runs (p : Port) (s : State) : Runs (execLeaseExpiry p s) s := by
  unfold execLeaseExpiry
  split
  · exact runs_next (loseLease_kept s p)
  · exact runs_self s

theorem lostTimerExpiry_runs (p : Port) (s : State) : Runs (execLostTimerExpiry p s) s := by
  unfold execLostTimerExpiry
  split
  · exact runs_next (onPort_kept s p _)
  · exact runs_self s

theorem orphanHoldExpiry_runs (p : Port) (s : State) : Runs (execOrphanHoldExpiry p s) s := by
  unfold execOrphanHoldExpiry
  split
  · exact runs_next (orphanRelease_kept s p)
  · exact runs_self s

theorem fadeCompletion_runs (c : Circuit) (o : Owner) (s : State) : Runs (execFadeCompletion c o s) s := by
  unfold execFadeCompletion
  split
  · exact runs_self s
  · exact runs_next (completeFades_claims s _).toBroad.undisturbed.replay

theorem transitionEnd_runs (c : Circuit) (s : State) : Runs (execTransitionEnd c s) s := by
  unfold execTransitionEnd
  split
  · exact runs_next (endTransition_kept s c)
  · exact runs_self s

theorem poll_runs (l : LoopNo) (s : State) : Runs (execPoll l s) s := by
  unfold execPoll
  split
  · split
    · exact runs_self s
    · exact runs_next (onLoop_kept s l _)
  · exact runs_self s

theorem report_runs (l : LoopNo) (bytes : List Byte) (s : State) : Runs (execReport l bytes s) s := by
  have closed : Kept s (s.closeExchange l) := onLoop_kept s l _
  unfold execReport
  split
  · exact runs_self s
  · split
    · exact runs_next closed
    · exact runs_next (closed.trans (takeReport_kept _ l _ bytes))

theorem replyWindowExpiry_runs (l : LoopNo) (s : State) : Runs (execReplyWindowExpiry l s) s := by
  have closed : Kept s (s.closeExchange l) := onLoop_kept s l _
  unfold execReplyWindowExpiry
  split
  · exact runs_self s
  · split
    · split
      · exact runs_next closed
      · exact runs_next (closed.trans (missReply_kept _ l _))
    · exact runs_self s

theorem holdTimerExpiry_runs (k : KeyAddr) (s : State) : Runs (execHoldTimerExpiry k s) s := by
  unfold execHoldTimerExpiry
  split
  · exact runs_next ((onKey_kept s k _).trans (takeEdge_kept _ k .hold))
  · exact runs_self s

theorem quietTimerExpiry_runs (k : KeyAddr) (s : State) : Runs (execQuietTimerExpiry k s) s := by
  unfold execQuietTimerExpiry
  split
  · exact runs_next ((onKey_kept s k _).trans (announce_kept _ _))
  · exact runs_self s

theorem refusalBlinkExpiry_runs (k : KeyAddr) (s : State) : Runs (execRefusalBlinkExpiry k s) s := by
  unfold execRefusalBlinkExpiry
  split
  · exact runs_next (onKey_kept s k _)
  · exact runs_self s

theorem slotExpiry_runs (n : SlotNo) (s : State) : Runs (execSlotExpiry n s) s := by
  unfold execSlotExpiry
  split
  · exact runs_next (endSlot_claims s n _).toBroad.undisturbed.replay
  · exact runs_self s

theorem waitTimerExpiry_runs (n : PlayerNo) (s : State) : Runs (execWaitTimerExpiry n s) s := by
  unfold execWaitTimerExpiry
  split
  · split
    · exact runs_next (moveOn_steady s n).toBroad.undisturbed.replay
    · exact runs_self s
  · exact runs_self s
  · exact runs_self s

theorem debounceTimerExpiry_runs (s : State) : Runs (execDebounceTimerExpiry s) s := by
  unfold execDebounceTimerExpiry
  split
  · exact runs_self s
  · split
    · exact runs_next (acceptContact_kept s _)
    · exact runs_self s

theorem rackSample_runs (s : State) : Runs (execRackSample s) s := by
  unfold execRackSample
  split
  · exact runs_self s
  · split
    · exact runs_next ⟨⟨rfl, rfl⟩, id⟩
    · exact runs_self s

theorem dwellEnd_runs (c : Circuit) (s : State) : Runs (execDwellEnd c s) s := by
  unfold execDwellEnd
  split
  · exact runs_self s
  · split
    · exact runs_next (onCircuit_kept s c _)
    · exact runs_self s

theorem pwmPeriodEnd_runs (n : LineNo) (s : State) : Runs (execPwmPeriodEnd n s) s := by
  unfold execPwmPeriodEnd
  split
  · exact runs_self s
  · exact runs_self s
  · split
    · exact runs_next (onLine_kept s n _)
    · exact runs_self s

theorem badFrame_runs (p : Port) (cause : FrameFault) (s : State) : Runs (execBadFrame p cause s) s := by
  unfold execBadFrame
  split
  · exact runs_self s
  · exact runs_next (onPort_kept s p _)
  · exact runs_next (onPort_kept s p _)

theorem imageTaken_runs (read : ImageRead) (s : State) : Runs (execImageTaken read s) s := by
  unfold execImageTaken
  split
  · exact runs_next ⟨⟨rfl, rfl⟩, id⟩
  · exact runs_self s
  · exact runs_self s

theorem startupEnd_runs (s : State) : Runs (execStartupEnd s) s := by
  unfold execStartupEnd
  split
  · exact runs_next (endStartup_kept s _ _)
  · exact runs_self s
  · exact runs_self s

theorem saveDone_runs (s : State) : Runs (execSaveDone s) s := by
  unfold execSaveDone
  split
  · exact runs_self s
  · rename_i x _
    exact runs_next (Kept.trans (b := { s with save := none, memory := some (imageOf x.tables), imageState := .valid })
      ⟨⟨rfl, rfl⟩, id⟩ (finishSave_kept _ x _ _ _))

theorem saveFailed_runs (failure : SaveFailure) (s : State) : Runs (execSaveFailed failure s) s := by
  unfold execSaveFailed
  split
  · exact runs_self s
  · rename_i x _
    exact runs_next (Kept.trans (b := { s with save := none, memory := State.failedImage x failure, imageState := .invalid })
      ⟨⟨rfl, rfl⟩, id⟩ (finishSave_kept _ x _ _ _))

/-! ## Requests whose payload is read again when they are answered -/

theorem setMode_runs (p : Port) (tag : Byte) (payload : Payload Nat) (s : State) :
    Runs (execSetMode p tag payload s) s := runs_serve fun t f => by
  split
  · exact .refl t
  · exact answerSetMode_undisturbed t p _

theorem runSequence_runs (p : Port) (tag : Byte) (payload : Payload (Nat × Nat × Nat × Nat)) (s : State) :
    Runs (execRunSequence p tag payload s) s := runs_serve fun t f => by
  split
  · exact answerRun_undisturbed t p _ _ _ _
  · exact .refl t

theorem setPlayer_runs (p : Port) (tag : Byte) (payload : Payload (Nat × Nat × Nat)) (s : State) :
    Runs (execSetPlayer p tag payload s) s := runs_serve fun t f => by
  split
  · exact answerSet_undisturbed t p _ _ _
  · exact .refl t

theorem queryCircuit_runs (p : Port) (tag : Byte) (payload : Payload Nat) (s : State) :
    Runs (execQueryCircuit p tag payload s) s := runs_read fun t f => by
  unfold answerQueryCircuit
  split <;> rfl

theorem readGroup_runs (p : Port) (tag : Byte) (payload : Payload Nat) (s : State) :
    Runs (execReadGroup p tag payload s) s := runs_read fun t f => by
  unfold answerReadGroup
  split <;> rfl

theorem readPreset_runs (p : Port) (tag : Byte) (payload : Payload (Nat × Nat)) (s : State) :
    Runs (execReadPreset p tag payload s) s := runs_read fun t f => by
  unfold answerReadPreset
  split <;> rfl

theorem readBindings_runs (p : Port) (tag : Byte) (payload : Payload RawKey) (s : State) :
    Runs (execReadBindings p tag payload s) s := runs_read fun t f => by
  unfold answerReadBindings
  split <;> rfl

theorem readStationTable_runs (p : Port) (tag : Byte) (payload : Payload Nat) (s : State) :
    Runs (execReadStationTable p tag payload s) s := runs_read fun t f => by
  unfold answerReadStations
  split <;> rfl

theorem readSequence_runs (p : Port) (tag : Byte) (payload : Payload Nat) (s : State) :
    Runs (execReadSequence p tag payload s) s := runs_read fun t f => by
  unfold answerReadSequence
  split <;> rfl

theorem readModeRecord_runs (p : Port) (tag : Byte) (payload : Payload Nat) (s : State) :
    Runs (execReadModeRecord p tag payload s) s := runs_read fun t f => by
  unfold answerReadMode
  split <;> rfl

theorem readCircuitRecord_runs (p : Port) (tag : Byte) (payload : Payload Nat) (s : State) :
    Runs (execReadCircuitRecord p tag payload s) s := runs_read fun t f => by
  unfold answerReadCircuit
  split <;> rfl

theorem readRoleRecord_runs (p : Port) (tag : Byte) (payload : Payload Nat) (s : State) :
    Runs (execReadRoleRecord p tag payload s) s := runs_read fun t f => by
  unfold answerReadRole
  split <;> rfl

theorem readSystemSetting_runs (p : Port) (tag : Byte) (payload : Payload (Nat × Nat)) (s : State) :
    Runs (execReadSystemSetting p tag payload s) s := runs_read fun t f => by
  unfold answerReadSetting
  split <;> rfl

theorem exec_runs (c : Instr) (s : State) : Runs (exec c s) s := match c with
  | .fullReset => runs_next ⟨⟨rfl, rfl⟩, fun _ => rfl⟩
  | .imageTaken read => imageTaken_runs read s
  | .startupEnd => startupEnd_runs s
  | .badFrame p cause => badFrame_runs p cause s
  | .lostFrameIgnored _ => runs_self s
  | .unknownRequestKind p _ _ => runs_read (p := p) (payload := (.malformed : Payload Unit)) fun _ _ => rfl
  | .ping _ _ _ => runs_read fun _ _ => rfl
  | .place p tag _ => runs_serve fun t f => answerPlacement_undisturbed t p tag (t.placeWork f)
  | .release p _ _ => runs_serve fun t f => answerRelease_undisturbed t p f
  | .recall p tag _ => runs_serve fun t f => answerPlacement_undisturbed t p tag (t.recallWork f)
  | .setMode p tag payload => setMode_runs p tag payload s
  | .standby p _ _ => runs_serve fun t f => answerStandby_undisturbed t p f.1 f.2.1 f.2.2
  | .go p _ _ => runs_serve fun t f => answerGo_undisturbed t p f.1 f.2
  | .cancel p _ _ => runs_serve fun t n => answerCancel_undisturbed t p n
  | .runSequence p tag payload => runSequence_runs p tag payload s
  | .setPlayer p tag payload => setPlayer_runs p tag payload s
  | .emergencyOn p _ _ => runs_serve fun t _ => answerEmergencyOn_undisturbed t p
  | .clearEmergency p _ _ => runs_serve fun t _ => answerClear_undisturbed t p
  | .queryCircuit p tag payload => queryCircuit_runs p tag payload s
  | .queryStation _ _ _ => runs_serve fun t f => answerQueryStation_undisturbed t f.1 f.2
  | .readNotices p _ _ => runs_serve fun t _ => (onPort_kept t p _).toUndisturbed
  | .subscribe p _ _ => runs_serve fun t _ => (onPort_kept t p _).toUndisturbed
  | .readCounters _ _ _ => runs_serve fun _ _ => ⟨rfl, rfl⟩
  | .readRankTable _ _ _ => runs_read fun _ _ => rfl
  | .readGroup p tag payload => readGroup_runs p tag payload s
  | .readPreset p tag payload => readPreset_runs p tag payload s
  | .readBindings p tag payload => readBindings_runs p tag payload s
  | .readStationTable p tag payload => readStationTable_runs p tag payload s
  | .readSequence p tag payload => readSequence_runs p tag payload s
  | .readModeRecord p tag payload => readModeRecord_runs p tag payload s
  | .readCircuitRecord p tag payload => readCircuitRecord_runs p tag payload s
  | .readRoleRecord p tag payload => readRoleRecord_runs p tag payload s
  | .readSystemSetting p tag payload => readSystemSetting_runs p tag payload s
  | .writeRankTable p _ _ => runs_serve fun t l => answerWriteRanks_undisturbed t p l
  | .writeGroup p _ _ => runs_serve fun t f => answerWriteGroup_undisturbed t p f.1 f.2
  | .writePresetOpen p _ _ => runs_serve fun t f => answerOpenPreset_undisturbed t p f.1 f.2.1 f.2.2
  | .writePresetPairs p _ _ => runs_serve fun t f => answerPresetPairs_undisturbed t p f.1 f.2
  | .writeBindings p _ _ => runs_serve fun t f => answerWriteBindings_undisturbed t p f.1 f.2.1 f.2.2
  | .writeStationTable p _ _ => runs_serve fun t f => answerWriteStations_undisturbed t p f.1 f.2
  | .writeSequence p _ _ => runs_serve fun t f => answerWriteSequence_undisturbed t p f.1 f.2
  | .writeModeRecord p _ _ => runs_serve fun t f => answerWriteMode_undisturbed t p f.1 f.2
  | .writeCircuitRecord p _ _ => runs_serve fun t f => answerWriteCircuit_undisturbed t p f.1 f.2
  | .writeRoleRecord p _ _ => runs_serve fun t f => answerWriteRole_undisturbed t p f.1 f.2
  | .writeSystemSetting p _ _ => runs_serve fun t f => answerWriteSetting_undisturbed t p f.1 f.2.1 f.2.2
  | .saveConfig p tag payload => saveConfig_runs p tag payload s
  | .saveDone => saveDone_runs s
  | .saveFailed failure => saveFailed_runs failure s
  | .restart p tag payload => restart_runs p tag payload s
  | .leaseExpiry p => leaseExpiry_runs p s
  | .lostTimerExpiry p => lostTimerExpiry_runs p s
  | .orphanHoldExpiry p => orphanHoldExpiry_runs p s
  | .fadeCompletion c o => fadeCompletion_runs c o s
  | .transitionEnd c => transitionEnd_runs c s
  | .poll l => poll_runs l s
  | .report l bytes => report_runs l bytes s
  | .replyWindowExpiry l => replyWindowExpiry_runs l s
  | .holdTimerExpiry k => holdTimerExpiry_runs k s
  | .quietTimerExpiry k => quietTimerExpiry_runs k s
  | .refusalBlinkExpiry k => refusalBlinkExpiry_runs k s
  | .deferredEntryExpiry => runs_next (expireEntry_kept s)
  | .slotExpiry n => slotExpiry_runs n s
  | .waitTimerExpiry n => waitTimerExpiry_runs n s
  | .contactReading _ => runs_next ⟨⟨rfl, rfl⟩, id⟩
  | .debounceTimerExpiry => debounceTimerExpiry_runs s
  | .rackSample => rackSample_runs s
  | .dwellEnd c => dwellEnd_runs c s
  | .pwmPeriodEnd n => pwmPeriodEnd_runs n s

/-- Settles O2, command by command. -/
theorem everyCommandRuns : Obligations.EveryCommandRuns := fun c s => by
  obtain ⟨t, run, kept⟩ := exec_runs c s
  exact ⟨t, run, kept.now, kept.pending, kept.owed⟩

end Sys2Proof.Machine
end

section
/-! SUPPORT. How a request frame is received, said once for every kind: it comes to the port as a payload with a check of its
form, and a frame that is answered or ignored there does nothing else; and with these the statements on frames not served
and on malformed requests (R180, R183 to R185). -/

namespace Sys2Proof.Machine
open State

/-! ## Admission -/

section
variable {α : Type} {s : State} {p : Port} (kind tag : Byte) (payload : Payload α) (formed : α → Bool)

theorem receive_lost (run : s.startup = .running) (lost : s.isLost p = true) :
    s.receive p kind tag payload formed = .done s := by
  unfold receive
  simp [run, lost]

theorem receive_reading (h : s.startup = .reading) : s.receive p kind tag payload formed = .done s := by
  unfold receive
  simp [h]

theorem receive_judging {t : Tables} {v : Validity} (h : s.startup = .judging t v) :
    s.receive p kind tag payload formed = .done (s.respond p kind tag .notReady .empty) := by
  unfold receive
  simp [h]

theorem receive_busy (run : s.startup = .running) (lost : s.isLost p = false) (busy : s.busy p = true) :
    s.receive p kind tag payload formed = .done ((s.refreshLease p).answerBusy p kind tag) := by
  unfold receive judgeRequest
  simp [run, lost, busy_refreshLease, busy]

theorem receive_malformed (h : Ready s p) : s.receive p kind tag (.malformed : Payload α) formed =
    .done (answered s p kind tag .badRequest .empty) := by
  unfold receive judgeRequest
  simp [h.running, h.listening, busy_refreshLease, h.free, respond_refreshLease]

theorem receive_unformed (h : Ready s p) {f : α} (out : formed f = false) : s.receive p kind tag (.fields f) formed =
    .done (answered s p kind tag .badRequest .empty) := by
  unfold receive judgeRequest
  simp [h.running, h.listening, busy_refreshLease, h.free, out, respond_refreshLease]

end

/-! ## Fields out of range are not formed -/

theorem target_unformed {t : Target} (h : BadList t) : Target.formed t = false := by
  cases t with
  | group g => exact h.elim
  | circuits l =>
    refine decide_eq_false fun ⟨above, below, once⟩ => ?_
    rcases h with empty | many | twice
    · omega
    · omega
    · exact twice once

theorem place_unformed {f : PlaceFields} (h : BadPlace f) : PlaceFields.formed f = false := by
  unfold PlaceFields.formed
  rw [Bool.and_eq_false_iff]
  rcases h with list | range
  · exact .inl (target_unformed list)
  · exact .inr (decide_eq_false fun ⟨level, fade⟩ => range.elim (not_lt.mpr level) (not_lt.mpr fade))

theorem release_unformed {f : ReleaseFields} (h : BadList f.target ∨ 36000 < f.time) : ReleaseFields.formed f = false := by
  unfold ReleaseFields.formed
  rw [Bool.and_eq_false_iff]
  exact h.imp target_unformed fun range => decide_eq_false (not_le.mpr range)

theorem recall_unformed {f : RecallFields} (h : BadRecall f) : RecallFields.formed f = false := by
  obtain ⟨t, given, range⟩ := h
  unfold RecallFields.formed
  rw [given]
  exact decide_eq_false (not_le.mpr range)

theorem rate_unformed {r : Nat} (h : BadRate r) : rateFormed r = false :=
  decide_eq_false fun range => by obtain ⟨used, out⟩ := h; omega

theorem houseMode_none {n : Nat} (h : n = 0 ∨ 5 < n) : HouseMode.ofCode n = none := by
  cases e : HouseMode.ofCode n with
  | none => rfl
  | some m =>
    rw [houseMode_code] at e
    omega

theorem playerMode_none {n : Nat} (h : 2 < n) : PlayerMode.ofCode n = none := by
  match n, h with
  | n + 3, _ => rfl

theorem isSome_indexOf {n k : Nat} (h : k = 0 ∨ n < k) : (indexOf n k).isSome = false := by rw [indexOf_none.mpr h]; rfl

/-! ## Every kind of request -/

/-- Command `c` is the frame of a request of port `p`: it is received with this payload and check of form, and does nothing
where the port answers or ignores it. -/
structure Received (c : Instr) (p : Port) (kind tag : Byte) {α : Type} (payload : Payload α) (formed : α → Bool) :
    Prop where
  done : ∀ s t, s.receive p kind tag payload formed = .done t → exec c s = .next t
  malformed : malformedRequest c = true → payload = .malformed
  bad : BadFields c → ∃ f, payload = .fields f ∧ formed f = false

/-- A request that is served is received first. -/
theorem exec_of_done {c : Instr} {p : Port} {kind tag : Byte} {α : Type} {payload : Payload α} {formed : α → Bool}
    {answer : State → α → Answer} (served : ∀ s, exec c s = .next (serve s p kind tag payload formed answer)) :
    ∀ s t, s.receive p kind tag payload formed = .done t → exec c s = .next t := fun s t done => by
  rw [served]
  unfold serve
  rw [done]

theorem saveConfig_done (p : Port) (tag : Byte) (payload : Payload Unit) (s t : State)
    (done : s.receive p 0x42 tag payload (fun _ => true) = .done t) : exec (.saveConfig p tag payload) s = .next t := by
  show execSaveConfig p tag payload s = _
  unfold execSaveConfig
  rw [done]

theorem restart_done (p : Port) (tag : Byte) (payload : Payload Unit) (s t : State)
    (done : s.receive p 0x43 tag payload (fun _ => true) = .done t) : exec (.restart p tag payload) s = .next t := by
  show execRestart p tag payload s = _
  unfold execRestart
  rw [done]

theorem received_malformed {c : Instr} {p : Port} {kind tag : Byte} {α : Type} {formed : α → Bool}
    {answer : State → α → Answer} (served : ∀ s, exec c s = .next (serve s p kind tag .malformed formed answer))
    (absent : ¬ BadFields c) : Received c p kind tag (.malformed : Payload α) formed :=
  ⟨exec_of_done served, fun _ => rfl, fun bad => absurd bad absent⟩

theorem received_fields {c : Instr} {p : Port} {kind tag : Byte} {α : Type} {formed : α → Bool} {f : α}
    {answer : State → α → Answer} (served : ∀ s, exec c s = .next (serve s p kind tag (.fields f) formed answer))
    (written : malformedRequest c = false) (bad : BadFields c → formed f = false) :
    Received c p kind tag (.fields f) formed :=
  ⟨exec_of_done served, fun h => (by rw [written] at h; cases h), fun h => ⟨f, rfl, bad h⟩⟩

theorem go_unformed {n : Nat} {cue : Cue} {p : Port} {tag : Byte} (h : BadFields (.go p tag (.fields (n, cue)))) :
    Cue.formed cue = false := by
  obtain f | f := cue
  · exact place_unformed h
  · exact recall_unformed h

theorem runSequence_unformed {n q m rate : Nat} (h : n = 0 ∨ 4 < n ∨ q = 0 ∨ 16 < q ∨ 2 < m ∨ BadRate rate) :
    ((indexOf 4 n).isSome && (indexOf 16 q).isSome && (PlayerMode.ofCode m).isSome && rateFormed rate) = false := by
  simp only [Bool.and_eq_false_iff]
  rcases h with player | player | sequence | sequence | mode | rate
  · exact .inl (.inl (.inl (isSome_indexOf (.inl player))))
  · exact .inl (.inl (.inl (isSome_indexOf (.inr player))))
  · exact .inl (.inl (.inr (isSome_indexOf (.inl sequence))))
  · exact .inl (.inl (.inr (isSome_indexOf (.inr sequence))))
  · exact .inl (.inr (by rw [playerMode_none mode]; rfl))
  · exact .inr (rate_unformed rate)

theorem setPlayer_unformed {n m rate : Nat} (h : n = 0 ∨ 4 < n ∨ 2 < m ∨ BadRate rate) :
    ((indexOf 4 n).isSome && (PlayerMode.ofCode m).isSome && rateFormed rate) = false := by
  simp only [Bool.and_eq_false_iff]
  rcases h with player | player | mode | rate
  · exact .inl (.inl (isSome_indexOf (.inl player)))
  · exact .inl (.inl (isSome_indexOf (.inr player)))
  · exact .inl (.inr (by rw [playerMode_none mode]; rfl))
  · exact .inr (rate_unformed rate)

theorem lineSetting_none {setting line : Nat}
    (h : 9 < setting ∨ ((setting = 8 ∨ setting = 9) ∧ (line = 0 ∨ 16 < line))) : lineSetting setting line = none := by
  unfold lineSetting
  rcases h with unknown | ⟨ofLine, outside⟩
  · rw [if_neg (by omega), if_neg (by omega)]
  · rw [if_pos ofLine, indexOf_none.mpr outside]
    rfl

theorem recall_received (p : Port) (tag : Byte) (payload : Payload RecallFields) :
    ∃ (α : Type) (payload' : Payload α) (formed : α → Bool),
      Received (.recall p tag payload) p 0x12 tag payload' formed := by
  cases payload with
  | malformed => exact ⟨_, _, _, received_malformed (fun _ => rfl) id⟩
  | fields f => exact ⟨_, _, _, received_fields (fun _ => rfl) rfl recall_unformed⟩

/-- Every request is received as its kind says. -/
theorem request_received {c : Instr} {p : Port} {kind tag : Byte} (h : requestOf c = some (p, kind, tag)) :
    ∃ (α : Type) (payload : Payload α) (formed : α → Bool), Received c p kind tag payload formed := by
  cases c
  all_goals cases h
  case unknownRequestKind => exact ⟨Unit, .malformed, _, exec_of_done fun _ => rfl, fun _ => rfl, False.elim⟩
  case saveConfig payload =>
    refine ⟨_, payload, _, saveConfig_done _ _ _, ?_, ?_⟩
    all_goals cases payload <;> simp [malformedRequest, BadFields]
  case restart payload =>
    refine ⟨_, payload, _, restart_done _ _ _, ?_, ?_⟩
    all_goals cases payload <;> simp [malformedRequest, BadFields]
  case place payload =>
    cases payload with
    | malformed => exact ⟨_, _, _, received_malformed (fun _ => rfl) id⟩
    | fields f => exact ⟨_, _, _, received_fields (fun _ => rfl) rfl place_unformed⟩
  case release payload =>
    cases payload with
    | malformed => exact ⟨_, _, _, received_malformed (fun _ => rfl) id⟩
    | fields f => exact ⟨_, _, _, received_fields (fun _ => rfl) rfl release_unformed⟩
  case setMode payload =>
    cases payload with
    | malformed => exact ⟨_, _, _, received_malformed (fun _ => rfl) id⟩
    | fields f => exact ⟨_, _, _, received_fields (fun _ => rfl) rfl (fun bad => by rw [houseMode_none bad]; rfl)⟩
  case standby payload =>
    cases payload with
    | malformed => exact ⟨_, _, _, received_malformed (fun _ => rfl) id⟩
    | fields f => exact ⟨_, _, _, received_fields (fun _ => rfl) rfl (fun bad => decide_eq_false (by rcases bad with h | h | h | h <;> omega))⟩
  case go payload =>
    cases payload with
    | malformed => exact ⟨_, _, _, received_malformed (fun _ => rfl) id⟩
    | fields f => exact ⟨_, _, _, received_fields (fun _ => rfl) rfl go_unformed⟩
  case runSequence payload =>
    cases payload with
    | malformed => exact ⟨_, _, _, received_malformed (fun _ => rfl) id⟩
    | fields f => exact ⟨_, _, _, received_fields (fun _ => rfl) rfl runSequence_unformed⟩
  case setPlayer payload =>
    cases payload with
    | malformed => exact ⟨_, _, _, received_malformed (fun _ => rfl) id⟩
    | fields f => exact ⟨_, _, _, received_fields (fun _ => rfl) rfl setPlayer_unformed⟩
  case readNotices payload =>
    cases payload with
    | malformed => exact ⟨_, _, _, received_malformed (fun _ => rfl) id⟩
    | fields f => exact ⟨_, _, _, received_fields (fun _ => rfl) rfl (fun bad => decide_eq_false (by rcases bad with h | h <;> omega))⟩
  case readPreset payload =>
    cases payload with
    | malformed => exact ⟨_, _, _, received_malformed (fun _ => rfl) id⟩
    | fields f => exact ⟨_, _, _, received_fields (fun _ => rfl) rfl (fun bad => decide_eq_false (by rw [bad]; omega))⟩
  case readModeRecord payload =>
    cases payload with
    | malformed => exact ⟨_, _, _, received_malformed (fun _ => rfl) id⟩
    | fields f => exact ⟨_, _, _, received_fields (fun _ => rfl) rfl (fun bad => by rw [houseMode_none bad]; rfl)⟩
  case readSystemSetting payload =>
    cases payload with
    | malformed => exact ⟨_, _, _, received_malformed (fun _ => rfl) id⟩
    | fields f => exact ⟨_, _, _, received_fields (fun _ => rfl) rfl (fun bad => by rw [lineSetting_none bad]; rfl)⟩
  case writeRankTable payload =>
    cases payload with
    | malformed => exact ⟨_, _, _, received_malformed (fun _ => rfl) id⟩
    | fields f => exact ⟨_, _, _, received_fields (fun _ => rfl) rfl decide_eq_false⟩
  case writePresetOpen payload =>
    cases payload with
    | malformed => exact ⟨_, _, _, received_malformed (fun _ => rfl) id⟩
    | fields f => exact ⟨_, _, _, received_fields (fun _ => rfl) rfl (fun bad => decide_eq_false (not_le.mpr bad))⟩
  case writePresetPairs payload =>
    cases payload with
    | malformed => exact ⟨_, _, _, received_malformed (fun _ => rfl) id⟩
    | fields f => exact ⟨_, _, _, received_fields (fun _ => rfl) rfl (fun bad => decide_eq_false (by rcases bad with h | h <;> omega))⟩
  case writeSequence payload =>
    cases payload with
    | malformed => exact ⟨_, _, _, received_malformed (fun _ => rfl) id⟩
    | fields f => exact ⟨_, _, _, received_fields (fun _ => rfl) rfl (fun bad => decide_eq_false (not_le.mpr bad))⟩
  -- RECALL, which no case can name: Mathlib has its name for a keyword
  any_goals exact recall_received _ _ _
  -- the kinds of which no field is out of range
  all_goals
    rename_i payload
    cases payload with
    | malformed => exact ⟨_, _, _, received_malformed (fun _ => rfl) id⟩
    | fields f => exact ⟨_, _, _, received_fields (fun _ => rfl) rfl False.elim⟩

/-! ## Frames not served -/

/-- Settles O10: a frame that the port does not take is received and no more. -/
theorem framesNotServedDoNothingElse : Obligations.FramesNotServedDoNothingElse := by
  refine ⟨fun c p kind tag s request => ?frames, fun _ _ => rfl, fun p cause s start => ?early, fun p cause s start => ?counted⟩
  case frames =>
    obtain ⟨α, payload, formed, received⟩ := request_received request
    refine ⟨fun run lost => ?_, fun start => ?_, fun t v start => ?_, fun run lost busy => ?_⟩
    · exact received.done _ _ (receive_lost kind tag payload formed run lost)
    · exact received.done _ _ (receive_reading kind tag payload formed start)
    · exact received.done _ _ (receive_judging kind tag payload formed start)
    · rw [received.done _ _ (receive_busy kind tag payload formed run lost busy), answerBusy_refreshLease]
      rfl
  case early =>
    show execBadFrame p cause s = _
    unfold execBadFrame
    rw [start]
  case counted =>
    show execBadFrame p cause s = _
    unfold execBadFrame
    cases e : s.startup with
    | reading => exact absurd e start
    | judging t v => rfl
    | running => rfl

/-- Settles O11: a payload that is not of its form, or whose fields are not formed, is answered where it is received. -/
theorem malformedRequestsAreRefused : Obligations.MalformedRequestsAreRefused := by
  intro p kind tag s ready
  refine ⟨fun c request malformed => ?_, fun c request bad => ?_, ?_⟩
  · obtain ⟨α, payload, formed, received⟩ := request_received request
    refine received.done _ _ ?_
    rw [received.malformed malformed]
    exact receive_malformed kind tag formed ready
  · obtain ⟨α, payload, formed, received⟩ := request_received request
    obtain ⟨f, written, out⟩ := received.bad bad
    refine received.done _ _ ?_
    rw [written]
    exact receive_unformed kind tag formed ready out
  · exact congrArg Host.Outcome.next (serve_malformed kind tag _ ready)

end Sys2Proof.Machine
end

section
/-! SUPPORT. The requests that only read, and those that read and clear: how an answer that leaves the state is sent, and
with it the statements on reads, queries, subscriptions and counters (R27, R73, R188, R192, R193, R197). -/

namespace Sys2Proof.Machine
open State

/-! ## Answers that change nothing -/

theorem reply_ok_refreshLease {s : State} {p : Port} (ready : Ready s p) (kind tag : Byte) (body : ReplyBody) :
    (Answer.ok (s.refreshLease p) body).reply p kind tag = answered s p kind tag .ok body := by
  rw [reply_ok, replay_of_clear (s.refreshLease p) ready.settled, respond_refreshLease]

section
variable {c : Instr} {s : State} {p : Port} {kind tag : Byte} {α : Type} {f : α} {formed : α → Bool}
  {answer : State → α → Answer}

theorem exec_of_ok (served : exec c s = .next (serve s p kind tag (.fields f) formed answer)) (ready : Ready s p)
    (form : formed f = true) {body : ReplyBody} (ok : answer (s.refreshLease p) f = .ok (s.refreshLease p) body) :
    exec c s = .next (answered s p kind tag .ok body) := by
  rw [served, serve_ready kind tag answer ready form, ok, reply_ok_refreshLease ready]

theorem exec_of_plain (served : exec c s = .next (serve s p kind tag (.fields f) formed answer)) (ready : Ready s p)
    (form : formed f = true) {status : Status}
    (plain : answer (s.refreshLease p) f = .plain (s.refreshLease p) status) :
    exec c s = .next (answered s p kind tag status .empty) := by
  rw [served, serve_ready kind tag answer ready form, plain, reply_plain_refreshLease ready]

theorem exec_of_unformed (served : exec c s = .next (serve s p kind tag (.fields f) formed answer)) (ready : Ready s p)
    (form : formed f = false) : exec c s = .next (answered s p kind tag .badRequest .empty) := by
  rw [served, serve_unformed kind tag answer ready form]

end

namespace State

theorem sameClaims_refreshLease (s : State) (p : Port) : SameClaims s (s.refreshLease p) :=
  ⟨rfl, rfl, rfl, rfl, rfl, rfl⟩

theorem port_refreshLease_of_ne (s : State) {p q : Port} (h : q ≠ p) : (s.refreshLease p).port q = s.port q := by
  unfold refreshLease
  rw [port_onPort_ite, if_neg h]

/-- A lease started anew touches only the link and the orphan hold of its port. -/
theorem port_refreshLease (s : State) (p q : Port) : (s.refreshLease p).port q =
    { s.port q with link := ((s.refreshLease p).port q).link, orphanEnd := ((s.refreshLease p).port q).orphanEnd } := by
  by_cases h : q = p
  · subst h
    unfold refreshLease
    rw [port_onPort]
  · rw [port_refreshLease_of_ne s h]

/-! ## The answers of the reads -/

theorem answerReadStations_of_number (t : State) (l : LoopNo) :
    t.answerReadStations (numberOf l) = .ok t (.stationTable (t.stationList l)) := by
  unfold answerReadStations
  rw [indexOf_numberOf]

theorem answerReadSequence_of_number (t : State) (q : SequenceNo) :
    t.answerReadSequence (numberOf q) = .ok t (.sequence (t.tables.sequences.get q) (t.sequenceUsers q)) := by
  unfold answerReadSequence
  rw [indexOf_numberOf]
  rfl

theorem answerReadMode_of_code (t : State) {n : Nat} {m : HouseMode} (h : HouseMode.ofCode n = some m) :
    t.answerReadMode n = .ok t (.modeRecord (t.tables.modes.get m.ix) (t.mode == some m)) := by
  unfold answerReadMode
  rw [h]
  rfl

theorem answerReadCircuit_of_number (t : State) (c : Circuit) :
    t.answerReadCircuit (numberOf c) = .ok t (.circuitRecord (t.tables.circuits.get c)) := by
  unfold answerReadCircuit
  rw [indexOf_numberOf]
  rfl

theorem answerReadRole_of_code (t : State) {n : Nat} {q : Port} (h : Port.ofCode n = some q) :
    t.answerReadRole n = .ok t (.roleRecord (t.tables.roles.get q.ix) (t.port q).linkRate) := by
  unfold answerReadRole
  rw [h]
  rfl

theorem answerReadGroup_of_number (t : State) (g : GroupNo) : t.answerReadGroup g.val =
    .ok t (.group (t.members g).isSome ((t.members g).getD []) (2048 - Tables.membersUsed t.tables)) := by
  unfold answerReadGroup
  rw [codeOf_val]
  rfl

theorem answerReadPreset_of_number (t : State) (n : PresetNo) (first : Nat) : ∃ fade,
    t.answerReadPreset (numberOf n) first = .ok t
      (.preset (t.presetDef n).isSome (t.versions.get n) fade (pairsOf (t.presetDef n)).length
        (3072 - Tables.pairsUsed t.tables) (((pairsOf (t.presetDef n)).drop (first - 1)).take 64))
    ∧ ∀ d, t.presetDef n = some d → fade = d.defaultFade := by
  unfold answerReadPreset
  rw [indexOf_numberOf]
  exact ⟨_, rfl, fun d defined => by rw [defined]⟩

theorem answerReadBindings_of_address (t : State) {k : RawKey} {a : KeyAddr} (h : RawKey.address k = some a) :
    t.answerReadBindings k = .ok t (.bindings
      (Edge.all.map fun e => t.tables.bindings.filter fun b => b.key == a && b.edge == e)
      (512 - t.tables.bindings.length)) := by
  unfold answerReadBindings
  rw [h]
  rfl

theorem answerReadSetting_of_line (t : State) {setting line : Nat} {n : Option LineNo}
    (h : lineSetting setting line = some n) : t.answerReadSetting setting line =
      .ok t (.setting setting (Settings.value t.tables.settings setting n) (t.pendingSetting setting n)) := by
  unfold answerReadSetting
  rw [h]

end State

/-- Settles O12: each read answers from the state as it stands. -/
theorem pingAndRecordReadsAnswer : Obligations.PingAndRecordReadsAnswer := by
  intro s p tag ready
  refine ⟨?ping, ?ranks, fun l => ?stations, fun q => ?sequence, fun n m code => ?mode, fun c => ?circuit,
    fun n q code => ?role, fun n out => ?noLoop, fun n out => ?noSequence, fun n out => ?noMode, fun n out => ?noCircuit,
    fun n out => ?noRole⟩
  case ping => exact exec_of_ok (f := ()) rfl ready rfl rfl
  case ranks => exact exec_of_ok (f := ()) rfl ready rfl rfl
  case stations => exact exec_of_ok rfl ready rfl (answerReadStations_of_number _ l)
  case sequence => exact exec_of_ok rfl ready rfl (answerReadSequence_of_number _ q)
  case mode => exact exec_of_ok rfl ready (by rw [code]; rfl) (answerReadMode_of_code _ code)
  case circuit => exact exec_of_ok rfl ready rfl (answerReadCircuit_of_number _ c)
  case role =>
    refine exec_of_ok rfl ready rfl ((answerReadRole_of_code _ code).trans ?_)
    rw [port_refreshLease]
    rfl
  case noLoop => exact exec_of_plain rfl ready rfl (by unfold answerReadStations; rw [out])
  case noSequence => exact exec_of_plain rfl ready rfl (by unfold answerReadSequence; rw [out])
  case noMode => exact exec_of_unformed rfl ready (by rw [out]; rfl)
  case noCircuit => exact exec_of_plain rfl ready rfl (by unfold answerReadCircuit; rw [out])
  case noRole => exact exec_of_plain rfl ready rfl (by unfold answerReadRole; rw [out])

/-- Settles O13: each read answers from the stores as they stand. -/
theorem storeReadsAnswer : Obligations.StoreReadsAnswer := by
  intro s p tag ready
  refine ⟨fun g => ?group, fun n out => ?noGroup, fun n first above => ?preset, fun n first above out => ?noPreset,
    fun k a at_k => ?bindings, fun k out => ?noKey, fun setting line n known => ?setting, fun setting line out => ?noSetting⟩
  case group => exact exec_of_ok rfl ready rfl (answerReadGroup_of_number _ g)
  case noGroup =>
    exact exec_of_plain rfl ready rfl (by unfold answerReadGroup; rw [codeOf_none.mpr out])
  case preset =>
    obtain ⟨fade, ok, default⟩ := answerReadPreset_of_number (s.refreshLease p) n first
    have form : decide (1 ≤ first) = true := decide_eq_true above
    exact ⟨fade, exec_of_ok (f := (numberOf n, first)) rfl ready form ok, default⟩
  case noPreset =>
    have form : decide (1 ≤ first) = true := decide_eq_true above
    exact exec_of_plain (f := (n, first)) rfl ready form (by unfold answerReadPreset; rw [out])
  case bindings => exact exec_of_ok rfl ready rfl (answerReadBindings_of_address _ at_k)
  case noKey => exact exec_of_plain rfl ready rfl (by unfold answerReadBindings; rw [out])
  case setting => exact exec_of_ok rfl ready (by rw [known]; rfl) (answerReadSetting_of_line _ known)
  case noSetting => exact exec_of_unformed rfl ready (by rw [out]; rfl)

/-! ## QUERY_CIRCUIT -/

namespace State

theorem answerQueryCircuit_of_number (t : State) (c : Circuit) :
    t.answerQueryCircuit (numberOf c) = .ok t (.circuit (t.circuitReport c)) := by
  unfold answerQueryCircuit
  rw [indexOf_numberOf]

theorem orphaned_refreshLease (s : State) (p : Port) (o : Owner) : (s.refreshLease p).orphaned o =
    match o with
    | .port q => q != p && !(s.port q).isOnline
    | .field | .seq _ | .mode => false := by
  unfold orphaned
  cases o with
  | port q =>
    by_cases h : q = p
    · subst h
      simp [isOnline_refreshLease]
    · simp [port_refreshLease_of_ne s h, h]
  | field => rfl
  | seq n => rfl
  | mode => rfl

/-- The time a claim still has, and whether it waits (R27). -/
theorem claimReport_time (t : State) (c : Circuit) (x : Claim) :
    ((t.claimReport c x).waiting, (t.claimReport c x).remaining) = match x.state with
      | .waiting h => (true, h)
      | .effective none => (false, 0)
      | .effective (some f) => (false, f.duration - f.spent / 100000) := by
  unfold claimReport Claim.isEffective
  cases x.state with
  | waiting h => rfl
  | effective f => cases f <;> rfl

theorem relayReport_dwell (t : State) (c : Circuit) : t.relayReport c =
    { relay := (t.circuit c).relay.on, wish := (t.circuit c).relay.wish,
      dwellRemaining := match (t.circuit c).relay.dwellEnd with
        | some e => (e - t.now) / 100000
        | none => 0 } := by
  unfold relayReport
  dsimp only
  cases (t.circuit c).relay.dwellEnd with
  | none => rw [Option.getD_none, Nat.sub_self, Nat.zero_div]
  | some e => rfl

theorem output_refreshLease (s : State) (p : Port) (c : Circuit) : (s.refreshLease p).output c = s.output c := by
  have lease := sameClaims_refreshLease s p
  unfold output
  rw [lease.record, lease.level, lease.circuit]

end State

/-- Settles O14: the report is read from the state with the lease started anew, which leaves all it reports but the link of
the port that asks. -/
theorem queryCircuitReports : Obligations.QueryCircuitReports := by
  intro s p tag ready
  have lease := sameClaims_refreshLease s p
  refine ⟨fun c => ⟨(s.refreshLease p).circuitReport c,
    exec_of_ok rfl ready rfl (answerQueryCircuit_of_number _ c), ?heads, ?times, ?flags, ?commandLevel, ?free, ?level,
    ?forced, ?route, ?output, ?transition, fun k lo hi kind => ?dimmed, fun h y d kind => ?switched, fun n route => ?line,
    fun unrouted => ?noLine⟩, fun n out => exec_of_plain rfl ready rfl (by unfold answerQueryCircuit; rw [out])⟩
  all_goals unfold circuitReport
  case heads =>
    dsimp only
    rw [List.map_map, lease.claims]
    exact List.map_congr_left fun x _ => by simp [claimReport, lease.inCommand]
  case times =>
    dsimp only
    rw [List.map_map, lease.claims]
    exact List.map_congr_left fun x _ => claimReport_time _ c x
  case flags =>
    dsimp only
    rw [List.map_map, lease.claims]
    exact List.map_congr_left fun x _ => congrArg (fun b => (b, x.tracker.isSome)) (orphaned_refreshLease s p x.owner)
  case commandLevel => rfl
  case free => exact lease.freeRecords
  case level => exact lease.level c
  case forced => exact lease.forced c
  case route => exact congrArg CircuitRecord.route (lease.record c)
  case output => exact output_refreshLease s p c
  case transition => rfl
  case dimmed =>
    dsimp only
    rw [lease.record, kind]
    exact ⟨rfl, rfl⟩
  case switched =>
    dsimp only
    rw [lease.record, kind, relayReport_dwell, lease.circuit]
    exact ⟨rfl, rfl⟩
  case line =>
    dsimp only
    rw [lease.record, route]
    rfl
  case noLine =>
    dsimp only
    rw [lease.record]
    cases route : (s.record c).route with
    | pwm n => exact absurd route (unrouted n)
    | link => rfl
    | unrouted => rfl

/-! ## QUERY_STATION -/

theorem answerQueryStation_of_type (t : State) {l : LoopNo} {n : StationNo} {type : StationType}
    (h : t.stationType l n = some type) : t.answerQueryStation (numberOf l) (numberOf n) =
      .ok (t.onStation l n fun x => { x with lost := false }) (.station (t.stationReport l n type)) := by
  unfold answerQueryStation
  rw [indexOf_numberOf, indexOf_numberOf]
  dsimp only
  rw [h]

theorem answerQueryStation_of_none (t : State) {l : LoopNo} {n : StationNo} (h : t.stationType l n = none) :
    t.answerQueryStation (numberOf l) (numberOf n) = .plain t .badTarget := by
  unfold answerQueryStation
  rw [indexOf_numberOf, indexOf_numberOf]
  dsimp only
  rw [h]

/-- An answer OK of a state that is the lease over another one. -/
theorem exec_of_ok_changed {c : Instr} {s u : State} {p : Port} {kind tag : Byte} {α : Type} {f : α} {formed : α → Bool}
    {answer : State → α → Answer} (served : exec c s = .next (serve s p kind tag (.fields f) formed answer))
    (ready : Ready s p) (form : formed f = true) {body : ReplyBody}
    (ok : answer (s.refreshLease p) f = .ok (u.refreshLease p) body) (clear : u.replayOwed = false) :
    exec c s = .next (answered u p kind tag .ok body) := by
  rw [served, serve_ready kind tag answer ready form, ok, reply_ok, replay_of_clear (u.refreshLease p) clear,
    respond_refreshLease]

/-- Settles O15: the report is made before the flag is cleared. -/
theorem queryStationReportsAndClears : Obligations.QueryStationReportsAndClears := by
  intro s p tag ready l n
  refine ⟨fun type configured => ⟨(s.refreshLease p).stationReport l n type, ?_, rfl, rfl, rfl, rfl⟩, fun none => ?_⟩
  · exact exec_of_ok_changed (f := (numberOf l, numberOf n)) rfl ready rfl
      (answerQueryStation_of_type (s.refreshLease p) configured) ready.settled
  · exact exec_of_plain (f := (numberOf l, numberOf n)) rfl ready rfl
      (answerQueryStation_of_none (s.refreshLease p) none)

/-! ## READ_COUNTERS -/

namespace State

theorem clearCounters_refreshLease (s : State) (p : Port) :
    (s.refreshLease p).clearCounters = s.clearCounters.refreshLease p := by
  have ports : (s.refreshLease p).clearCounters.ports = (s.clearCounters.refreshLease p).ports := by
    refine Tab.ext fun i => ?_
    obtain ⟨q, rfl⟩ := Port.exists_ix i
    unfold clearCounters refreshLease onPort
    dsimp only
    rw [Tab.get_each, Tab.get_modify, Tab.get_modify, Tab.get_each, Tab.get_each]
    split <;> rfl
  show { s.clearCounters with ports := (s.refreshLease p).clearCounters.ports } = _
  rw [ports]
  rfl

theorem counterValues_length (s : State) : s.counterValues.length = 29 := by
  unfold counterValues
  simp only [List.length_append, List.length_flatMap, List.length_cons, List.length_nil]
  rfl

/-- A change of a port that leaves its counters leaves them all. -/
theorem counterValues_onPort (s : State) (p : Port) (f : PortState → PortState)
    (bad : ∀ x, (f x).badFrames = x.badFrames) (busy : ∀ x, (f x).busyReplies = x.busyReplies)
    (losses : ∀ x, (f x).leaseLosses = x.leaseLosses) (dropped : ∀ x, (f x).noticesDropped = x.noticesDropped) :
    (s.onPort p f).counterValues = s.counterValues := by
  have port : ∀ q, [((s.onPort p f).port q).badFrames, ((s.onPort p f).port q).busyReplies,
      ((s.onPort p f).port q).leaseLosses, ((s.onPort p f).port q).noticesDropped] =
      [(s.port q).badFrames, (s.port q).busyReplies, (s.port q).leaseLosses, (s.port q).noticesDropped] := fun q => by
    rw [port_onPort_ite]
    split
    · rw [bad, busy, losses, dropped]
    · rfl
  unfold counterValues
  simp only [port]
  rfl

theorem counterValues_clearCounters (s : State) : s.clearCounters.counterValues = List.replicate 29 0 := by
  have port : ∀ q, [(s.clearCounters.port q).badFrames, (s.clearCounters.port q).busyReplies,
      (s.clearCounters.port q).leaseLosses, (s.clearCounters.port q).noticesDropped] = [0, 0, 0, 0] := fun q => by
    unfold clearCounters State.port
    rw [Tab.get_each]
  have loop : ∀ l, [(s.clearCounters.loop l).pollMisses, (s.clearCounters.loop l).typeMismatches] = [0, 0] := fun l => by
    unfold clearCounters State.loop
    rw [Tab.get_each]
  unfold counterValues
  simp only [port, loop]
  rfl

end State

/-- Settles O18: the values are those before the clearing, which leaves none. -/
theorem readCountersClearsThem : Obligations.ReadCountersClearsThem := by
  intro s p tag ready t
  have lease : (s.refreshLease p).counterValues = s.counterValues :=
    counterValues_onPort s p _ (fun _ => rfl) (fun _ => rfl) (fun _ => rfl) fun _ => rfl
  refine ⟨exec_of_ok_changed (f := ()) (u := s.clearCounters) rfl ready rfl ?_ ready.settled, counterValues_length s, ?_⟩
  · rw [clearCounters_refreshLease, lease]
  · show (answered s.clearCounters p 0x34 tag .ok (.counters s.counterValues)).counterValues = _
    unfold answered
    rw [counterValues_onPort, counterValues_clearCounters]
    all_goals exact fun _ => rfl

/-! ## SUBSCRIBE -/

namespace State

theorem subscribe_answered (s : State) (p : Port) (kind tag : Byte) (body : ReplyBody) (l : List NoticeKind) :
    ((s.refreshLease p).onPort p fun x => { x with subscriptions := l }).respond p kind tag .ok body =
      (answered s p kind tag .ok body).onPort p fun x => { x with subscriptions := l } := by
  unfold answered refreshLease respond
  simp only [onPort_onPort]
  exact onPort_congr s p rfl

theorem subscriptions_broad {s t : State} (h : Broad s t) (q : Port) :
    (t.port q).subscriptions = (s.port q).subscriptions := (h.ports q.ix).subscriptions

theorem subscriptions_onPort (s : State) (p q : Port) {f : PortState → PortState}
    (h : ∀ x, (f x).subscriptions = x.subscriptions) :
    ((s.onPort p f).port q).subscriptions = (s.port q).subscriptions := by
  rw [port_onPort_ite]
  split
  · exact h _
  · rfl

theorem subscriptions_orphanRelease (s : State) (p q : Port) :
    ((s.orphanRelease p).port q).subscriptions = (s.port q).subscriptions := by
  unfold orphanRelease
  dsimp only
  have released := ((releaseAll_claims (s.onPort p fun x => { x with orphanEnd := none }) (.port p)
    (s.role p).orphanRelease).trans (announce_claims _ (.orphansReleased p (s.circuitsOf (.port p)).length))).toSteady.trans
    (replay_steady _)
  rw [subscriptions_broad released.toBroad, subscriptions_onPort]
  exact fun _ => rfl

/-- A port whose lease has run out subscribes to nothing (R181). -/
theorem subscriptions_loseLease (s : State) (p : Port) : ((s.loseLease p).port p).subscriptions = [] := by
  have lost : (((s.losePort p).forgoReply p).port p).subscriptions = [] := by
    show ((s.losePort p).port p).subscriptions = []
    unfold losePort
    rw [port_onPort]
  have freed := ((dropTrackers_claims ((s.losePort p).forgoReply p) p).trans
    (endSlots_claims _ (fun k => k.owner == p) .ownerLost)).toSteady.trans (replay_steady _)
  unfold loseLease startOrphanHold loseSlots
  split
  · rw [subscriptions_orphanRelease, subscriptions_onPort, subscriptions_broad freed.toBroad, lost]
    exact fun _ => rfl
  · rw [subscriptions_onPort, subscriptions_onPort, subscriptions_broad freed.toBroad, lost]
    all_goals exact fun _ => rfl

/-- A restart keeps every port's subscriptions (R192). -/
theorem subscriptions_restart (s : State) (q : Port) : (s.restart.port q).subscriptions = (s.port q).subscriptions := by
  have passed : (s.restartPorts.port q).subscriptions = (s.port q).subscriptions := by
    rw [port_restartPorts]
    unfold restartPort
    split <;> rfl
  have cleared : (s.restartPorts.clearForRestart.port q).subscriptions = (s.restartPorts.port q).subscriptions :=
    ((clearForRestart_claims s.restartPorts).ports q.ix).subscriptions
  have entered := (reenterMode_broad s.restartPorts.clearForRestart).trans (replay_steady _).toBroad
  unfold restart
  rw [subscriptions_broad entered, cleared, passed]

end State

/-- A RESTART that passes is answered, then taken (R200). -/
theorem exec_restart_ready {s : State} {p : Port} (ready : Ready s p) (tag : Byte) (admin : s.permits p .admin = true)
    (saves : s.save = none) :
    exec (.restart p tag (.fields ())) s = .next (answered s p 0x43 tag .ok .empty).restart := by
  have allowed : (s.refreshLease p).permits p .admin = true := admin
  have idle : (s.refreshLease p).saving = false := congrArg Option.isSome saves
  show execRestart p tag (.fields ()) s = _
  unfold execRestart
  rw [receive_ready 0x43 tag ready rfl]
  dsimp only
  simp only [allowed, idle, respond_refreshLease, Bool.not_true, Bool.false_eq_true, if_false]

/-- Settles O17: the set is a field of the port that the lease and the reply pass over. -/
theorem subscribeReplacesTheSet : Obligations.SubscribeReplacesTheSet := by
  refine ⟨fun s p tag bits ready => ?taken, fun s => ⟨_, rfl, fun q => ?reset⟩, fun s p due => ?lost,
    fun s p tag ready admin saves => ?restart⟩
  case taken =>
    have served : exec (.subscribe p tag (.fields bits)) s = .next ((Answer.ok
        ((s.refreshLease p).onPort p fun x => { x with subscriptions := subscriptionSet bits })
        (.subscriptions (subscriptionSet bits))).reply p 0x33 tag) :=
      congrArg Host.Outcome.next (serve_ready 0x33 tag _ ready rfl)
    have clear : ((s.refreshLease p).onPort p fun x =>
        { x with subscriptions := subscriptionSet bits }).replayOwed = false := ready.settled
    rw [served, reply_ok, replay_of_clear _ clear, subscribe_answered]
    rfl
  case reset => exact congrArg PortState.subscriptions (Tab.get_const _ _)
  case lost =>
    refine ⟨s.loseLease p, ?_, subscriptions_loseLease s p⟩
    show execLeaseExpiry p s = _
    unfold execLeaseExpiry
    rw [if_pos due]
  case restart =>
    refine ⟨_, exec_restart_ready ready tag admin saves, fun q => ?_⟩
    rw [subscriptions_restart]
    exact subscriptions_onPort s p q fun _ => rfl

end Sys2Proof.Machine
end

section
/-! SUPPORT. The requests on claims and cues: what a port's placement that passes its checks leaves, said once for PLACE,
RECALL and the cue of a GO; and with it the statements on PLACE, RECALL, RELEASE, STANDBY, GO, CANCEL and the slot expiry. -/

namespace Sys2Proof.Machine
open State

namespace State

/-! ## Work expanded -/

theorem placeWork_circuits (s : State) (f : PlaceFields) :
    ((s.placeWork f).map fun w => w.items.map PlaceItem.circuit) = s.expand f.target := by
  unfold placeWork
  rw [Option.map_map]
  cases s.expand f.target with
  | none => rfl
  | some cs => simp [Function.comp_def]

theorem placeWork_rank (s : State) (f : PlaceFields) {w : PortWork} (h : s.placeWork f = some w) : w.rank = f.rank := by
  unfold placeWork at h
  obtain ⟨cs, _, rfl⟩ := Option.map_eq_some_iff.mp h
  rfl

theorem placeWork_of_expand (s : State) (f : PlaceFields) {cs : List Circuit} (h : s.expand f.target = some cs) :
    s.placeWork f = some
      { items := cs.map fun c => { circuit := c, target := f.level, fade := f.fade, rank := rankOf f.rank, cause := none }
        rank := f.rank
        wait := f.wait } := by
  unfold placeWork
  rw [h]
  rfl

theorem recallItems_circuits (d : PresetDef) (fade : Nat) (r : Rank) (k : Option KeyAddr) :
    (recallItems d fade r k).map PlaceItem.circuit = d.pairs.map Prod.fst := by
  unfold recallItems
  rw [List.map_map]
  rfl

theorem recallWork_circuits (s : State) (f : RecallFields) :
    ((s.recallWork f).map fun w => w.items.map PlaceItem.circuit) =
      (s.presetNumbered f.preset).map fun d => d.pairs.map Prod.fst := by
  unfold recallWork
  rw [Option.map_map]
  cases s.presetNumbered f.preset with
  | none => rfl
  | some d => exact congrArg some (recallItems_circuits d _ _ _)

theorem recallWork_rank (s : State) (f : RecallFields) {w : PortWork} (h : s.recallWork f = some w) :
    w.rank = f.rank := by
  unfold recallWork at h
  obtain ⟨d, _, rfl⟩ := Option.map_eq_some_iff.mp h
  rfl

theorem recallWork_of_preset (s : State) (f : RecallFields) {d : PresetDef} (h : s.presetNumbered f.preset = some d) :
    s.recallWork f = some
      { items := recallItems d (f.fade.getD d.defaultFade) (rankOf f.rank) none, rank := f.rank, wait := false } := by
  unfold recallWork
  rw [h]
  rfl

end State

/-! ## Placements of a port -/

section
variable {s : State} {p : Port} {kind tag : Byte} {run : Host.Outcome State Fault Refusal}

/-- A PLACE or RECALL is refused in the order of R11. -/
theorem placement_refused {r : Nat} {work : Option PortWork} (ready : Ready s p)
    (rank : ∀ w, work = some w → w.rank = r)
    (answered : run = .next (((s.refreshLease p).answerPlacement p tag work).reply p kind tag)) :
    RefusedInOrder s p kind tag run r (work.map fun w => w.items.map PlaceItem.circuit) := by
  refine refusedInOrder ready rank (fun none => ?_) fun w x some refused => ?_
  · rw [answered, none]
    rfl
  · rw [answered, some]
    unfold answerPlacement
    dsimp only
    rw [refused]

/-- A PLACE or RECALL that passes its checks is placed and its tracker taken (R11, R17, R46). -/
theorem placement_taken {w : PortWork} {cs : List Circuit}
    (answered : run = .next (((s.refreshLease p).answerPlacement p tag (some w)).reply p kind tag))
    (circuits : w.items.map PlaceItem.circuit = cs) (may : MayPlace s p w.rank cs) (once : StoresFit s → cs.Nodup) :
    ∃ (v : State) (status : Status) (link : Option TrackerLink),
      run = .next (v.replay.respond p kind tag status .empty) ∧ PlacedAs s v (.port p) w.items w.wait link
      ∧ TrackerTaken s v p tag cs status link ∧ CommandTold s v (.port p) ∧ ClaimEvent (s.refreshLease p) v := by
  have free := may.accepted circuits
  subst circuits
  refine ⟨_, _, _, ?_, (place_placed _ (portPlacement p w ((s.refreshLease p).obtainTracker p tag).1)).of_lease,
    place_tracker s p tag w once, (place_told _ _).of_lease, place_event _ _ (portPlacement_supplied free)⟩
  rw [answered]
  unfold answerPlacement
  dsimp only
  rw [free]
  exact congrArg _ (reply_plain _ _ p kind tag)

end

/-- Settles O19. -/
theorem placeIsTaken : Obligations.PlaceIsTaken := by
  intro s p tag f ready formed
  have answered : exec (.place p tag (.fields f)) s =
      .next (((s.refreshLease p).answerPlacement p tag (s.placeWork f)).reply p 0x10 tag) :=
    congrArg Host.Outcome.next (serve_ready 0x10 tag _ ready formed)
  constructor
  · rw [← placeWork_circuits s f]
    exact placement_refused ready (fun w => placeWork_rank s f) answered
  · intro cs expands may
    rw [placeWork_of_expand s f expands] at answered
    exact placement_taken answered (by simp [Function.comp_def]) may fun fit => expand_nodup fit
      ((Bool.and_eq_true _ _).mp formed).1 expands

/-- Settles O20. -/
theorem recallIsTaken : Obligations.RecallIsTaken := by
  intro s p tag f ready formed
  have answered : exec (.recall p tag (.fields f)) s =
      .next (((s.refreshLease p).answerPlacement p tag (s.recallWork f)).reply p 0x12 tag) :=
    congrArg Host.Outcome.next (serve_ready 0x12 tag _ ready formed)
  constructor
  · rw [← recallWork_circuits s f]
    exact placement_refused ready (fun w => recallWork_rank s f) answered
  · intro d defined may
    rw [recallWork_of_preset s f defined] at answered
    exact placement_taken answered (recallItems_circuits d _ _ _) may fun fit => preset_nodup fit defined

/-- Settles O21. -/
theorem releaseIsTaken : Obligations.ReleaseIsTaken := by
  intro s p tag f ready formed
  refine ⟨fun undefined => exec_of_plain rfl ready formed ?_, fun cs expands => ?_⟩
  · have undefined : (s.refreshLease p).expand f.target = none := undefined
    unfold answerRelease
    rw [undefined]
  · have expands' : (s.refreshLease p).expand f.target = some cs := expands
    have released := release_released (s.refreshLease p) (.port p) cs f.time
    refine ⟨(s.refreshLease p).release (.port p) cs f.time, ?_, released.of_lease, released.of_lease.moved,
      fun lists fit => ?_, (release_told _ _ _ _).of_lease, release_event _ _ _ _⟩
    · have served : exec (.release p tag (.fields f)) s =
          .next (((s.refreshLease p).answerRelease p f).reply p 0x11 tag) :=
        congrArg Host.Outcome.next (serve_ready 0x11 tag _ ready formed)
      rw [served]
      unfold answerRelease
      rw [expands']
      exact congrArg _ (reply_plain _ _ p 0x11 tag)
    · have lists' : ListsInOrder (s.refreshLease p) := lists.of_circuits rfl
      exact (release_settles (s.refreshLease p) (.port p) f.time lists' (expand_nodup fit
        ((Bool.and_eq_true _ _).mp formed).1 expands)).of_lease

/-! ## STANDBY -/

namespace State

theorem freeSlot_none {s : State} (h : ∀ n, s.slot n ≠ none) : s.freeSlot = none := by
  unfold freeSlot
  rw [List.find?_eq_none]
  exact fun n _ free => h n (Option.isNone_iff_eq_none.mp free)

/-- The FREE slot found is the lowest (R112). -/
theorem freeSlot_some {s : State} {n : SlotNo} (free : s.slot n = none) (below : ∀ m, m < n → s.slot m ≠ none) :
    s.freeSlot = some n := by
  have ascending : (indices 4).Pairwise (· < ·) := by decide
  cases found : s.freeSlot with
  | none =>
    unfold freeSlot at found
    exact absurd (Option.isNone_iff_eq_none.mpr free) (List.find?_eq_none.mp found n (mem_indices n))
  | some m =>
    obtain ⟨isFree, before, after, split, taken⟩ := List.find?_eq_some_iff_append.mp found
    have mem := mem_indices n
    rw [split] at mem ascending
    rcases List.mem_append.mp mem with earlier | later
    · have := taken n earlier
      rw [free] at this
      exact absurd this (by decide)
    · rcases List.mem_cons.mp later with rfl | higher
      · rfl
      · have lower : m < n := (List.pairwise_cons.mp (List.pairwise_append.mp ascending).2.1).1 n higher
        exact absurd (Option.isNone_iff_eq_none.mp isFree) (below m lower)

end State

/-- The checks of STANDBY in their order (R112). -/
theorem answerStandby_group (t : State) (p : Port) (group rank timeout : Nat) (may : t.permits p .cue = true)
    {cs : List Circuit} (defined : t.group group = some cs) :
    t.answerStandby p group rank timeout =
      if decide ((t.role p).maxRank.val < rank) || !(cs.all (t.mayReach p)) then .plain t .denied
      else if !t.inShow then .plain t .wrongState
      else
        match t.freeSlot with
        | none => .plain t .noSlot
        | some n => .ok (t.armSlot n p cs (rankOf rank) timeout) (.slot n) := by
  unfold answerStandby
  rw [may, defined]
  rfl

/-- Settles O24. -/
theorem standbyArmsASlot : Obligations.StandbyArmsASlot := by
  intro s p tag group rank timeout ready low high short long
  have formed : decide (1 ≤ rank ∧ rank ≤ 7 ∧ 1 ≤ timeout ∧ timeout ≤ 600) = true := by simp [*]
  have plain : ∀ {status : Status}, (s.refreshLease p).answerStandby p group rank timeout = .plain (s.refreshLease p) status →
      exec (.standby p tag (.fields (group, rank, timeout))) s = .next (answered s p 0x21 tag status .empty) :=
    fun h => exec_of_plain (f := (group, rank, timeout)) rfl ready formed h
  refine ⟨fun never => plain ?_, fun may undefined => plain ?_, fun cs may defined => ?_⟩
  · have never : (s.refreshLease p).permits p .cue = false := never
    unfold answerStandby
    rw [never]
    rfl
  · have may : (s.refreshLease p).permits p .cue = true := may
    have undefined : (s.refreshLease p).group group = none := undefined
    unfold answerStandby
    rw [may, undefined]
    rfl
  have checks := answerStandby_group (s.refreshLease p) p group rank timeout may defined
  refine ⟨fun beyond => plain ?_, fun within reach => ?_⟩
  · rw [checks, if_pos]
    rcases beyond with above | ⟨c, mem, far⟩
    · exact (Bool.or_eq_true _ _).mpr (.inl (decide_eq_true above))
    · have far : (s.refreshLease p).mayReach p c = false := far
      have : cs.all ((s.refreshLease p).mayReach p) = false := List.all_eq_false.mpr ⟨c, mem, ne_true_of_eq_false far⟩
      rw [this]
      exact Bool.or_true _
  have passes : (decide (((s.refreshLease p).role p).maxRank.val < rank)
      || !(cs.all ((s.refreshLease p).mayReach p))) = false := by
    have : cs.all ((s.refreshLease p).mayReach p) = true := List.all_eq_true.mpr reach
    rw [this, Bool.not_true, Bool.or_false]
    exact decide_eq_false (Nat.not_lt.mpr within)
  rw [passes, if_neg Bool.false_ne_true] at checks
  refine ⟨fun out => plain ?_, fun show_ full => plain ?_, fun n show_ free below => ?_⟩
  · have out : (s.refreshLease p).inShow = false := beq_eq_false_iff_ne.mpr out
    rw [checks, out]
    rfl
  · have show_ : (s.refreshLease p).inShow = true := beq_iff_eq.mpr show_
    rw [checks, show_, freeSlot_none (s := s.refreshLease p) full]
    rfl
  · have show_ : (s.refreshLease p).inShow = true := beq_iff_eq.mpr show_
    refine exec_of_ok_changed (f := (group, rank, timeout)) rfl ready formed ?_ ready.settled
    rw [show (s.refreshLease p).answerStandby p group rank timeout = _ from checks, show_,
      freeSlot_some (s := s.refreshLease p) free below]
    rfl

/-! ## Slots that end -/

/-- Slot `n` of `s`, in use as `k`, has ended in `v` for this reason (R116). -/
structure SlotEnded (s v : State) (n : SlotNo) (k : Slot) (reason : EndReason) : Prop where
  free : v.slot n = none
  others : ∀ m, m ≠ n → v.slot m = s.slot m
  claims : ∀ c, (v.claims c).map Claim.unlinked = (s.claims c).map Claim.unlinked
  unlinked : ∀ c, ∀ x ∈ v.claims c, x.tracker ≠ some (.slot n)
  level : ∀ c, v.level c = s.level c
  trackers : v.trackers = s.trackers
  told : (s.port k.owner).isOnline = true → Told v k.owner (.standbyEnd n reason)
  owed : v.replayOwed = true
  event : ClaimEvent s v

theorem endSlot_slotEnded {s : State} {n : SlotNo} {k : Slot} (h : s.slot n = some k) (reason : EndReason) :
    SlotEnded s (s.endSlot n reason) n k reason where
  free := endSlot_free s n reason
  others m other := by rw [endSlot_slot, if_neg other]
  claims c := (endSlot_relinked s n reason c).claims
  unlinked c x mem := by
    rw [claims_of_circuits (endSlot_some h reason).1, claims_onClaims] at mem
    obtain ⟨y, _, rfl⟩ := List.mem_map.mp mem
    unfold Claim.unlink
    split
    · exact nofun
    · assumption
  level c := by
    have same := endSlot_claims s n reason
    unfold level
    rw [same.tables, (endSlot_quiet s n reason).emergency, show (s.endSlot n reason).record c = s.record c from
      record_eq (congrArg Tables.circuits same.tables) c]
    exact (endSlot_relinked s n reason c).level _ _ _
  trackers := endSlot_trackers s n reason
  told := endSlot_told h reason
  owed := by rw [endSlot_owed, h]; exact Bool.or_true _
  event := endSlot_event s n reason

section
variable {s : State} {p : Port} {tag : Byte}

theorem exec_cancel (ready : Ready s p) (number : Nat) :
    exec (.cancel p tag (.fields number)) s = .next (((s.refreshLease p).answerCancel p number).reply p 0x23 tag) :=
  congrArg Host.Outcome.next (serve_ready 0x23 tag _ ready rfl)

theorem exec_go (ready : Ready s p) (number : Nat) {cue : Cue} (formed : Cue.formed cue = true) :
    exec (.go p tag (.fields (number, cue))) s = .next (((s.refreshLease p).answerGo p number cue).reply p 0x22 tag) :=
  congrArg Host.Outcome.next (serve_ready (f := (number, cue)) 0x22 tag _ ready formed)

end

/-- Settles O26. -/
theorem cancelAndExpiryEndASlot : Obligations.CancelAndExpiryEndASlot := by
  refine ⟨fun s p tag ready => ⟨fun n k used own => ?_, fun n k used other => ?_, fun n free => ?_, fun n out => ?_⟩,
    fun s n k used due => ?_⟩
  · have used : (s.refreshLease p).slot n = some k := used
    have ended := endSlot_slotEnded used .cancelled
    refine ⟨(s.refreshLease p).endSlot n .cancelled, ?_, ended.free, ended.others, ended.claims, ended.unlinked,
      ended.level, ended.trackers, ?_, ended.owed, ended.event⟩
    · rw [exec_cancel ready]
      unfold answerCancel
      rw [indexOf_numberOf]
      dsimp only
      rw [used]
      dsimp only
      rw [if_pos own]
      exact congrArg _ (reply_plain _ _ p 0x23 tag)
    · have told := ended.told
      rw [own] at told
      exact told (refreshLease_online s p)
  · refine exec_of_plain (f := numberOf n) rfl ready rfl ?_
    have used : (s.refreshLease p).slot n = some k := used
    unfold answerCancel
    rw [indexOf_numberOf]
    dsimp only
    rw [used]
    exact if_neg other
  · refine exec_of_plain (f := numberOf n) rfl ready rfl ?_
    have free : (s.refreshLease p).slot n = none := free
    unfold answerCancel
    rw [indexOf_numberOf]
    dsimp only
    rw [free]
  · refine exec_of_plain (f := n) rfl ready rfl ?_
    unfold answerCancel
    rw [out]
  · have ended := endSlot_slotEnded used .expired
    refine ⟨s.endSlot n .expired, ?_, ended.free, ended.others, ended.claims, ended.unlinked, ended.trackers, ended.told,
      ended.owed, ended.event⟩
    have isDue : s.slotDue n = true := by
      unfold slotDue
      rw [used]
      exact decide_eq_true due
    show execSlotExpiry n s = _
    unfold execSlotExpiry
    rw [if_pos isDue]

/-! ## GO -/

theorem PlacedAs.of_restart {s v : State} {n : SlotNo} {o : Owner} {items : List PlaceItem} {wait : Bool}
    {link : Option TrackerLink} (h : PlacedAs (s.restartExpiry n) v o items wait link) : PlacedAs s v o items wait link :=
  ⟨h.named, h.order, h.others, h.standing, h.elsewhere,
    fun c it m => (h.judged c it m).imp fun _ k => ⟨⟨k.1.enters, k.1.continues, k.1.rests⟩, k.2⟩, h.still, h.fixed, h.raises⟩

theorem CommandTold.of_restart {s v : State} {n : SlotNo} {o : Owner} (h : CommandTold (s.restartExpiry n) v o) :
    CommandTold s v o := ⟨h.taken, h.given⟩

theorem restartExpiry_recovers (s : State) (n : SlotNo) : Recovers s (s.restartExpiry n) :=
  (Quiet.of_ports (s := s) (t := s.restartExpiry n) rfl rfl rfl).recovers

theorem restartExpiry_claimsOnly (s : State) (n : SlotNo) : ClaimsOnly s (s.restartExpiry n) :=
  setSlot_claims s n _ fun y h => by
    obtain ⟨k, used, rfl⟩ := Option.map_eq_some_iff.mp h
    exact ⟨k, used, rfl⟩

section
variable {s : State} {p : Port} {tag : Byte} {n : SlotNo} {k : Slot} {cue : Cue}

theorem exec_go_submitted (ready : Ready s p) (formed : Cue.formed cue = true) (used : s.slot n = some k)
    (armed : k.phase = .armed) (own : k.owner = p) :
    exec (.go p tag (.fields (numberOf n, cue))) s = .next (((s.refreshLease p).submitCue p n cue).reply p 0x22 tag) := by
  rw [exec_go ready _ formed]
  have used : (s.refreshLease p).slot n = some k := used
  unfold answerGo
  rw [indexOf_numberOf]
  dsimp only
  rw [used]
  dsimp only
  rw [armed]
  dsimp only
  rw [if_pos own]

theorem restarted_supplied {w : PortWork} (h : s.portRefusal p w = none) :
    Supplied (s.restartExpiry n) (portPlacement p w (.slot n)) :=
  ⟨portRefusal_room (s := s) h, fun _ _ _ pool => (by cases pool)⟩

/-- A cue is refused in the order of R11, and its slot stays ARMED (R113). -/
theorem cue_refused {r : Nat} (ready : Ready s p) (formed : Cue.formed cue = true) (used : s.slot n = some k)
    (armed : k.phase = .armed) (own : k.owner = p) (rank : ∀ w, s.cueWork cue = some w → w.rank = r) :
    RefusedInOrder s p 0x22 tag (exec (.go p tag (.fields (numberOf n, cue))) s) r
      ((s.cueWork cue).map fun w => w.items.map PlaceItem.circuit) := by
  rw [exec_go_submitted ready formed used armed own]
  refine refusedInOrder ready rank (fun none => ?_) fun w x some refused => ?_
  · unfold submitCue
    rw [show (s.refreshLease p).cueWork cue = _ from none]
  · unfold submitCue
    rw [show (s.refreshLease p).cueWork cue = _ from some]
    dsimp only
    rw [refused]

/-- A cue that passes its checks is placed as the port's, and its slot runs (R113, R114, R117). -/
theorem cue_taken {w : PortWork} {cs : List Circuit} (ready : Ready s p) (formed : Cue.formed cue = true)
    (used : s.slot n = some k) (armed : k.phase = .armed) (own : k.owner = p) (work : s.cueWork cue = some w)
    (circuits : w.items.map PlaceItem.circuit = cs) (may : MayPlace s p w.rank cs) (once : StoresFit s → cs.Nodup) :
    ∃ v : State, exec (.go p tag (.fields (numberOf n, cue))) s = .next (v.replay.respond p 0x22 tag .ok .empty)
      ∧ PlacedAs s v (.port p) w.items w.wait (some (.slot n))
      ∧ CueRuns s v n k cs ∧ CommandTold s v (.port p) ∧ ClaimEvent (s.refreshLease p) v := by
  have free := may.accepted circuits
  subst circuits
  refine ⟨((s.refreshLease p).restartExpiry n).place (portPlacement p w (.slot n)), ?_,
    (place_placed _ (portPlacement p w (.slot n))).of_restart.of_lease, cue_runs s p n k w used own once,
    (place_told _ _).of_restart.of_lease, ?_⟩
  · rw [exec_go_submitted ready formed used armed own]
    unfold submitCue
    rw [show (s.refreshLease p).cueWork cue = _ from work]
    dsimp only
    rw [free]
    exact congrArg _ (reply_plain _ _ p 0x22 tag)
  · have moved := restartExpiry_claimsOnly (s.refreshLease p) n
    exact (moved.trans (place_claims _ _ (restarted_supplied free))).event
      ((restartExpiry_recovers _ n).trans (place_recovers _ _))

end

/-- Settles O25. -/
theorem goPlacesTheCue : Obligations.GoPlacesTheCue := by
  intro s p tag ready
  refine ⟨fun number cue formed out => ?_, fun n cue formed => ⟨fun free => ?_, fun k m used going => ?_,
    fun k used armed other => ?_⟩, fun n k used armed own => ⟨fun f formed => ⟨?_, fun cs expands may => ?_⟩,
    fun f formed => ⟨?_, fun d defined may => ?_⟩⟩⟩
  · refine exec_of_plain (f := (number, cue)) rfl ready formed ?_
    unfold answerGo
    rw [out]
  · refine exec_of_plain (f := (numberOf n, cue)) rfl ready formed ?_
    have free : (s.refreshLease p).slot n = none := free
    unfold answerGo
    rw [indexOf_numberOf]
    dsimp only
    rw [free]
  · refine exec_of_plain (f := (numberOf n, cue)) rfl ready formed ?_
    have used : (s.refreshLease p).slot n = some k := used
    unfold answerGo
    rw [indexOf_numberOf]
    dsimp only
    rw [used]
    dsimp only
    rw [going]
  · refine exec_of_plain (f := (numberOf n, cue)) rfl ready formed ?_
    have used : (s.refreshLease p).slot n = some k := used
    unfold answerGo
    rw [indexOf_numberOf]
    dsimp only
    rw [used]
    dsimp only
    rw [armed]
    exact if_neg other
  · rw [← placeWork_circuits s f]
    exact cue_refused (cue := .place f) ready formed used armed own fun w => placeWork_rank s f
  · exact cue_taken (cue := .place f) ready formed used armed own (placeWork_of_expand s f expands)
      (by simp [Function.comp_def]) may fun fit => expand_nodup fit ((Bool.and_eq_true _ _).mp formed).1 expands
  · rw [← recallWork_circuits s f]
    exact cue_refused (cue := .recall f) ready formed used armed own fun w => recallWork_rank s f
  · exact cue_taken (cue := .recall f) ready formed used armed own (recallWork_of_preset s f defined)
      (recallItems_circuits d _ _ _) may fun fit => preset_nodup fit defined

end Sys2Proof.Machine
end

section
/-! SUPPORT. Fades and transitions that have run their time: the claims a fade completion completes, the recovery a
transition's end reports; and with it the statements on both. -/

namespace Sys2Proof.Machine

/-! ## Completed claims -/

theorem complete_owner (n : Nat) (x : Claim) : (x.complete n).owner = x.owner := by
  unfold Claim.complete
  split <;> rfl

theorem complete_wish (n : Nat) (x : Claim) : (x.complete n).wish = x.wish := by
  unfold Claim.complete
  split <;> rfl

theorem complete_of_completes {n : Nat} {x : Claim} (h : x.completes n = true) :
    x.complete n = { x with state := .effective none, tracker := none } := if_pos h

theorem complete_of_not {n : Nat} {x : Claim} (h : x.completes n = false) : x.complete n = x :=
  if_neg (Bool.eq_false_iff.mp h)

theorem complete_isEffective (n : Nat) {x : Claim} (h : x.isEffective = true) : (x.complete n).isEffective = true := by
  unfold Claim.complete
  split
  · rfl
  · exact h

theorem complete_claims (x : CircuitState) (n : Nat) : (x.complete n).claims = x.claims.map (Claim.complete n) := rfl

theorem claimOf_complete (x : CircuitState) (n : Nat) (o : Owner) :
    claimOf o (x.complete n).claims = (claimOf o x.claims).map (Claim.complete n) :=
  claimOf_map o _ _ (complete_owner n)

/-- A promotion leaves an EFFECTIVE claim as it is (R16). -/
theorem claimOf_promote_effective (x : CircuitState) (modes : Tab MergeMode 8) (r : CircuitRecord) (e : EmergencyState)
    (event : Nat) {o : Owner} {c : Claim} (h : claimOf o x.claims = some c) (k : c.isEffective = true) :
    claimOf o (x.promote modes r e event).claims = some c := by
  rcases promote_map x modes r e event with same | ⟨level, mapped⟩
  · rw [same, h]
  · rw [mapped, claimOf_map o _ _ fun c => (SameCircuit.promoted_keys _ _ _ c).1, h]
    unfold Claim.promoted
    unfold Claim.isEffective at k
    dsimp only [Option.map_some]
    cases state : c.state with
    | effective f => rfl
    | waiting held => rw [state] at k; cases k

/-- A claim with a fade is EFFECTIVE. -/
theorem isEffective_of_fade {x : Claim} (h : x.fade.isSome = true) : x.isEffective = true := by
  unfold Claim.fade at h
  unfold Claim.isEffective
  cases state : x.state with
  | effective f => rfl
  | waiting held => rw [state] at h; cases h

theorem completes_fade {n : Nat} {x : Claim} (h : x.completes n = true) : x.fade.isSome = true := by
  unfold Claim.completes at h
  cases fade : x.fade with
  | none => rw [fade] at h; cases h
  | some f => rfl

namespace State

/-! ## Fade completion -/

theorem fadeDue_some {s : State} {c : Circuit} {o : Owner} {n : Nat} (h : s.fadeDue c o = some n) :
    ∃ x, claimOf o (s.claims c) = some x ∧ x.completes n = true := by
  unfold fadeDue at h
  obtain ⟨f, fading, due⟩ := Option.bind_eq_some_iff.mp h
  obtain ⟨x, claim, fade⟩ := Option.bind_eq_some_iff.mp fading
  refine ⟨x, claim, ?_⟩
  unfold Claim.completes
  rw [fade]
  dsimp only
  split at due
  · rename_i ran
    obtain rfl := Option.some.inj due
    rw [ran, beq_self_eq_true]
    rfl
  · cases due

/-- What a fade completion leaves of a circuit, but for links (R34). -/
theorem completeFades_links (s : State) (n : Nat) (c : Circuit) :
    ∃ x : CircuitState, LinksOnly x ((s.completeFades n).circuit c)
      ∧ x.claims.map (fun c => (c.owner, c.wish)) = (s.claims c).map (fun c => (c.owner, c.wish))
      ∧ x.raisedBy = ((s.circuit c).complete n).raisedBy
      ∧ ∀ o y, claimOf o (s.claims c) = some y → y.isEffective = true → claimOf o x.claims = some (y.complete n) := by
  have links := completeFades_circuit s n c
  have wishes : ((s.circuit c).complete n).claims.map (fun c => (c.owner, c.wish)) =
      (s.claims c).map fun c => (c.owner, c.wish) := by
    rw [complete_claims, List.map_map]
    exact List.map_congr_left fun x _ => congrArg₂ Prod.mk (complete_owner n x) (complete_wish n x)
  have claim : ∀ o y, claimOf o (s.claims c) = some y →
      claimOf o ((s.circuit c).complete n).claims = some (y.complete n) := fun o y h => by
    rw [claimOf_complete, show claimOf o (s.circuit c).claims = some y from h]
    rfl
  split at links
  · exact ⟨_, links, (promote_wishes ..).trans wishes, promote_raisedBy .., fun o y h effective =>
      claimOf_promote_effective _ _ _ _ _ (claim o y h) (complete_isEffective n effective)⟩
  · exact ⟨_, links, wishes, rfl, fun o y h _ => claim o y h⟩

/-- A claim with a fade arrives where its fade was given by the event and has run (R34). -/
theorem arrived_completeFades {s : State} {n : Nat} {c : Circuit} {o : Owner} {x : Claim}
    (h : claimOf o (s.claims c) = some x) (fading : x.fade.isSome = true) :
    arrived (s.completeFades n) c x = x.completes n := by
  obtain ⟨y, links, _, _, stands⟩ := completeFades_links s n c
  have effective := isEffective_of_fade fading
  have claim : claimOf x.owner y.claims = some (x.complete n) := by
    rw [(mem_of_claimOf h).2]
    exact stands o x h effective
  rw [arrived_eq links]
  unfold arrivedIn
  rw [claim]
  have moving : x.state ≠ .effective none := fun rest => by
    unfold Claim.fade at fading
    rw [rest] at fading
    cases fading
  cases done : x.completes n with
  | true => rw [complete_of_completes done]; simp [moving]
  | false => rw [complete_of_not done]; simp [moving]

/-- A completed FIELD claim leaves its raise set (R100). -/
theorem completeFades_raisedBy {s : State} (lists : ListsInOrder s) (n : Nat) (c : Circuit) :
    ((s.completeFades n).circuit c).raisedBy =
      if (claimOf .field (s.claims c)).any (fun x => x.fade.isSome && arrived (s.completeFades n) c x) then none
      else (s.circuit c).raisedBy := by
  obtain ⟨y, links, _, raised, _⟩ := completeFades_links s n c
  rw [links.raisedBy, raised]
  have same : (s.claims c).any (fun x => x.completes n && x.owner == .field) =
      (claimOf .field (s.claims c)).any fun x => x.fade.isSome && arrived (s.completeFades n) c x := by
    rw [Bool.eq_iff_iff, List.any_eq_true, Option.any_eq_true]
    constructor
    · rintro ⟨x, mem, done⟩
      obtain ⟨completes, field⟩ := (Bool.and_eq_true _ _).mp done
      have claim : claimOf .field (s.claims c) = some x := by
        rw [← beq_iff_eq.mp field]
        exact claimOf_mem (lists c).2 mem
      refine ⟨x, claim, (Bool.and_eq_true _ _).mpr ⟨completes_fade completes, ?_⟩⟩
      rw [arrived_completeFades claim (completes_fade completes)]
      exact completes
    · rintro ⟨x, claim, done⟩
      obtain ⟨fading, came⟩ := (Bool.and_eq_true _ _).mp done
      obtain ⟨mem, field⟩ := mem_of_claimOf claim
      rw [arrived_completeFades claim fading] at came
      exact ⟨x, mem, (Bool.and_eq_true _ _).mpr ⟨came, beq_iff_eq.mpr field⟩⟩
  exact congrArg (fun b => if b = true then none else (s.circuit c).raisedBy) same

end State

open State

/-- Settles O22. -/
theorem fadeCompletionCompletes : Obligations.FadeCompletionCompletes := by
  intro s c o
  refine ⟨fun n due => ?_, fun idle => ?_⟩
  · refine ⟨s.completeFades n, ?_, fun d => ?_, fun x claim => ?_, fun d ends => ?_, fun d stands =>
      completeFades_stands s n d stands, fun lists => completeFades_settles s n lists, fun lists d =>
      completeFades_raisedBy lists n d, completeFades_event s n⟩
    · show execFadeCompletion c o s = _
      unfold execFadeCompletion
      rw [due]
    · obtain ⟨y, links, wishes, _⟩ := completeFades_links s n d
      exact links.wishes.trans wishes
    · obtain ⟨y, before, done⟩ := fadeDue_some due
      obtain ⟨z, links, _, _, stands⟩ := completeFades_links s n c
      have completed := stands o y before (isEffective_of_fade (completes_fade done))
      rw [complete_of_completes done] at completed
      obtain ⟨w, after, state, tracker⟩ := links.claim completed
      obtain rfl : w = x := Option.some.inj (after.symm.trans claim)
      exact ⟨state, tracker rfl⟩
    · obtain ⟨claims, judged⟩ := completeFades_judged s n d ends
      exact ⟨(s.circuit d).complete n, claims, rfl, judged⟩
  · show execFadeCompletion c o s = _
    unfold execFadeCompletion
    rw [idle]

/-! ## Transition end -/

namespace State

theorem dropTransition_claims (s : State) (c : Circuit) :
    ClaimsOnly s (s.onCircuit c fun x => { x with transition := none }) :=
  .of_circuits s _ s.trackers s.event s.replayOwed
    (fun i => by
      rw [Tab.get_modify]
      split
      · rename_i here; subst here; exact ⟨id, rfl, by simp⟩
      · exact .refl _)
    fun x => x.of_le (fun i => by
      rw [Tab.get_modify]
      split
      · rename_i here; subst here; exact le_rfl
      · exact le_rfl) rfl

theorem endTransition_claims (s : State) (c : Circuit) : ClaimsOnly s (s.endTransition c) := by
  unfold endTransition
  dsimp only
  split
  · exact (dropTransition_claims s c).trans (reportRecoveries_claims _ _)
  · exact dropTransition_claims s c

theorem endTransition_self (s : State) (c : Circuit) :
    (s.endTransition c).circuit c = { s.circuit c with transition := none } := by
  have drop := circuit_onCircuit_self s c fun x => { x with transition := none }
  unfold endTransition
  dsimp only
  split
  · exact (congrArg (Tab.get · c) (reportRecoveries_circuits _ _)).trans drop
  · exact drop

theorem endTransition_of_ne (s : State) {c d : Circuit} (h : d ≠ c) : (s.endTransition c).circuit d = s.circuit d := by
  have drop := circuit_onCircuit_of_ne s (fun x => { x with transition := none }) h
  unfold endTransition
  dsimp only
  split
  · exact (congrArg (Tab.get · d) (reportRecoveries_circuits _ _)).trans drop
  · exact drop

theorem endTransition_recovers (s : State) (c : Circuit) : Recovers s (s.endTransition c) := by
  let t := s.onCircuit c fun x => { x with transition := none }
  have gone : (t.circuit c).recovering = false := by
    dsimp only [t]
    rw [circuit_onCircuit_self]
    rfl
  have other : ∀ d, d ≠ c → (t.circuit d).recovering = (s.circuit d).recovering := fun d h => by
    dsimp only [t]
    rw [circuit_onCircuit_of_ne s _ h]
  have less : ∀ d, (t.circuit d).recovering = true → (s.circuit d).recovering = true := fun d h => by
    by_cases here : d = c
    · rw [here, gone] at h; cases h
    · rw [← other d here]; exact h
  unfold endTransition
  dsimp only
  split
  · rename_i recovering
    refine Recovers.report (s := s) (u := t) (.of_ports rfl) rfl less [c] fun _ d => ?_
    rw [List.mem_singleton]
    refine ⟨fun here => ?_, fun ⟨was, is_⟩ => Classical.byContradiction fun here => ?_⟩
    · rw [here]; exact ⟨recovering, gone⟩
    · rw [other d here, was] at is_; cases is_
  · rename_i still
    refine Quiet.recovers (t := t) ⟨.of_ports rfl, rfl, fun d => ?_⟩
    by_cases here : d = c
    · rw [here, gone]; exact (Bool.eq_false_iff.mpr still).symm
    · exact other d here

theorem endTransition_event (s : State) (c : Circuit) : ClaimEvent s (s.endTransition c) :=
  (endTransition_claims s c).event (endTransition_recovers s c)

/-- The end of a RECOVERY transition takes its circuit from the recovery set (R161). -/
theorem endTransition_left {s : State} {c : Circuit} (h : (s.circuit c).recovering = true) :
    recoveriesLeft s (s.endTransition c) = s.emergency.recovery.filter fun d => d != c := by
  unfold recoveriesLeft
  refine List.filter_congr fun d _ => ?_
  by_cases here : d = c
  · rw [here, h, endTransition_self, bne_self_eq_false]
    rfl
  · rw [endTransition_of_ne s here, Bool.not_or_self, bne_iff_ne.mpr here]

theorem reportRecoveries_still {s : State} {cs : List Circuit} (h : s.emergency.state ≠ .recovering) :
    s.reportRecoveries cs = s := if_neg h

/-- A transition that is no recovery, or ends outside RECOVERING, is reported to nobody (R40). -/
theorem endTransition_unreported {s : State} {c : Circuit}
    (h : (s.circuit c).recovering = false ∨ s.emergency.state ≠ .recovering) :
    (s.endTransition c).emergency = s.emergency ∧ (s.endTransition c).ports = s.ports := by
  unfold endTransition
  dsimp only
  split
  · rename_i recovering
    rcases h with still | other
    · rw [still] at recovering; cases recovering
    · rw [reportRecoveries_still (s := s.onCircuit c _) other]
      exact ⟨rfl, rfl⟩
  · exact ⟨rfl, rfl⟩

end State

theorem recovering_of_transition {x : CircuitState} {y : Transition} (h : x.transition = some y) :
    x.recovering = (y.cause == .recovery) := by
  unfold CircuitState.recovering
  rw [h]

/-- The level of a circuit without a transition (R42). -/
theorem levelUnder_rest {x : CircuitState} (h : x.transition = none) (modes : Tab MergeMode 8) (r : CircuitRecord)
    (e : EmergencyState) : x.levelUnder modes r e = (forcedLevel r e).getD (commandLevelOf modes r.base x.claims) := by
  unfold CircuitState.levelUnder
  rw [h]

/-- Settles O23. -/
theorem transitionEndsAtTheOrdinaryLevel : Obligations.TransitionEndsAtTheOrdinaryLevel := by
  intro s c
  refine ⟨fun due => ?_, fun running => if_neg (Bool.eq_false_iff.mp running)⟩
  have self := endTransition_self s c
  have event := endTransition_event s c
  have tables := (endTransition_claims s c).tables
  have atRest : ((s.endTransition c).circuit c).transition = none := by rw [self]
  have claims : (s.endTransition c).claims c = s.claims c := (congrArg CircuitState.claims self).trans rfl
  have record := record_eq (congrArg Tables.circuits tables) c
  refine ⟨s.endTransition c, if_pos due, atRest, claims, ?_, fun d other => endTransition_of_ne s other,
    fun y standing => ⟨fun cause recovering => ?_, fun other => endTransition_unreported ?_⟩, event⟩
  · refine (levelUnder_rest atRest _ _ _).trans ?_
    rw [record, tables]
    exact congrArg (fun l => (forcedLevel (s.record c) (s.endTransition c).emergency.state).getD
      (commandLevelOf s.tables.ranks (s.record c).base l)) claims
  · have left := endTransition_left (s := s) (c := c)
      ((recovering_of_transition standing).trans (beq_iff_eq.mpr cause))
    refine ⟨fun more => ?_, fun some only => ?_⟩
    · obtain ⟨d, mem, other⟩ := more
      rw [← left]
      refine event.recovering recovering (.inr fun none => ?_)
      rw [left] at none
      exact List.filter_eq_nil_iff.mp none d mem (bne_iff_ne.mpr other)
    · refine event.recovered recovering some ?_
      rw [left, List.filter_eq_nil_iff]
      intro d mem other
      exact bne_iff_ne.mp other (only d mem)
  · refine other.imp_left fun cause => ?_
    rw [recovering_of_transition standing]
    exact beq_eq_false_iff_ne.mpr cause

end Sys2Proof.Machine
end

section
/-! SUPPORT. The deferred queue's expiry and replay, the house mode's request and the players' requests and waits; and with
it the statements on them. -/

namespace Sys2Proof.Machine
open State

namespace State

/-! ## The deferred queue -/

/-- The entry that expires is the first that is due (R123). -/
theorem expireEntry_first {s : State} {l r : List Deferred} {d : Deferred} (queue : s.deferred = l ++ d :: r)
    (due : d.expiry ≤ s.now) (before : ∀ x ∈ l, s.now < x.expiry) :
    s.expireEntry = ({ s with deferred := l ++ r }.countExpired).afterRemoval := by
  have isDue : s.entryDue d = true := decide_eq_true due
  have notDue : ∀ x ∈ l, ¬ s.entryDue x = true := fun x mem reached =>
    absurd (of_decide_eq_true reached) (Nat.not_le.mpr (before x mem))
  have found : s.deferred.any s.entryDue = true := by
    rw [queue, List.any_eq_true]
    exact ⟨d, by simp, isDue⟩
  have removed : s.deferred.eraseP s.entryDue = l ++ r := by
    rw [queue, List.eraseP_append_right _ notDue, List.eraseP_cons_of_pos isDue]
  unfold expireEntry
  rw [if_pos found, removed]

theorem afterRemoval_below {s : State} (h : s.deferred.length < s.tables.settings.warningLevel) :
    s.afterRemoval = { s with deferWarned := false } := if_pos h

theorem afterRemoval_above {s : State} (h : ¬ s.deferred.length < s.tables.settings.warningLevel) :
    s.afterRemoval = s := if_neg h

/-- Only the warning is judged after a removal (R124). -/
theorem afterRemoval_eq (s : State) : s.afterRemoval = { s with deferWarned := s.afterRemoval.deferWarned } := by
  unfold afterRemoval
  split <;> rfl

/-- The pass over the queue leaves the tables as they are (R125). -/
theorem foldl_replayEntry_tables (l : List Deferred) (s : State) : (l.foldl replayEntry s).tables = s.tables :=
  (foldl_keeps SteadyAside (fun _ => Steady.refl _) (fun _ _ _ => Steady.trans) _ replayEntry_aside l s).tables

/-- The pass clears the warning where it leaves fewer entries, and fewer than the level (R124). -/
theorem replayQueue_pass (s : State) :
    ∃ t, t = s.deferred.foldl State.replayEntry { s with deferred := [] }
      ∧ (t.deferred.length < s.deferred.length → t.deferred.length < s.tables.settings.warningLevel →
          s.replayQueue = { t with deferWarned := false })
      ∧ (s.deferred.length ≤ t.deferred.length ∨ s.tables.settings.warningLevel ≤ t.deferred.length →
          s.replayQueue = t) := by
  have tables := foldl_replayEntry_tables s.deferred { s with deferred := [] }
  refine ⟨_, rfl, fun fewer below => ?_, fun kept => ?_⟩
  · unfold replayQueue
    dsimp only
    rw [if_pos fewer, afterRemoval_below]
    rw [tables]
    exact below
  · unfold replayQueue
    dsimp only
    split
    · rename_i fewer
      refine afterRemoval_above fun below => ?_
      rw [tables] at below
      exact kept.elim (fun more => absurd fewer (Nat.not_lt.mpr more)) fun above =>
        absurd below (Nat.not_lt.mpr above)
    · rfl

theorem replay_mode (s : State) : s.replay.mode = s.mode := (replay_steady s).mode

end State

/-- Settles O27. -/
theorem deferredEntryExpires : Obligations.DeferredEntryExpires := by
  refine ⟨fun s l d r queue due before => ?_, fun s => ⟨(replay_rounds s 4).1, (replay_rounds s 4).2,
    fun n => (replay_rounds s n).1, fun n => (replay_rounds s n).2, replayQueue_slots s, settleSlots_fall _ _,
    replayQueue_pass s, replayEntry_judged s, retryStep_retried s⟩⟩
  let u : State := { s with deferred := l ++ r }.countExpired
  have left : u.afterRemoval = { u with deferWarned := u.afterRemoval.deferWarned } := afterRemoval_eq u
  refine ⟨u.afterRemoval, congrArg Host.Outcome.next (expireEntry_first queue due before), ?_, ?_, ?_, fun below => ?_⟩
  · rw [left]
    rfl
  · rw [left]
    rfl
  · rw [left]
    rfl
  · rw [afterRemoval_below (s := u) below]

/-! ## SET_MODE -/

theorem exec_setMode {s : State} {p : Port} {tag : Byte} {n : Nat} {m : HouseMode} (ready : Ready s p)
    (code : HouseMode.ofCode n = some m) : exec (.setMode p tag (.fields n)) s =
      .next (((s.refreshLease p).answerSetMode p m).reply p 0x20 tag) := by
  have served := serve_ready (s := s) (p := p) (f := n) (formed := fun n => (HouseMode.ofCode n).isSome) 0x20 tag
    (fun t n =>
      match HouseMode.ofCode n with
      | none => Answer.plain t .badRequest
      | some m => t.answerSetMode p m) ready (by rw [code]; rfl)
  rw [code] at served
  exact congrArg Host.Outcome.next served

/-- Settles O28. -/
theorem setModeEntersTheMode : Obligations.SetModeEntersTheMode := by
  intro s p tag n m ready code
  refine ⟨fun may other => ?_, fun may same => ?_, fun never => ?_⟩ <;> rw [exec_setMode ready code] <;> unfold answerSetMode
  · have may : (s.refreshLease p).permits p .mode = true := may
    have change : (s.refreshLease p).requestMode m (.port p) = (s.refreshLease p).changeMode m (.port p) := if_neg other
    rw [if_pos may, change]
    exact ⟨_, _, _, congrArg _ (reply_ok _ _ p 0x20 tag), changeMode_entered _ m _,
      (replay_mode _).trans (changeMode_mode _ m _)⟩
  · have may : (s.refreshLease p).permits p .mode = true := may
    have stay : (s.refreshLease p).requestMode m (.port p) = (s.refreshLease p, .none, .none) := if_pos same
    rw [if_pos may, stay]
    exact congrArg _ (reply_ok_refreshLease ready 0x20 tag _)
  · have never : ¬ (s.refreshLease p).permits p .mode = true := Bool.eq_false_iff.mp never
    rw [if_neg never]
    exact congrArg _ (reply_plain_refreshLease ready 0x20 tag _)

end Sys2Proof.Machine
end

section
/-! SUPPORT. The requests on players and the waits that run out; and with it the statements on RUN_SEQUENCE, SET_PLAYER and
the wait timer. -/

namespace Sys2Proof.Machine
open State

namespace State

/-! ## Answers with a player's record -/

theorem reply_player (v : State) (n : PlayerNo) (status : Status) (p : Port) (kind tag : Byte) :
    (answerPlayer v n status).reply p kind tag = v.replay.respond p kind tag status (.player (v.replay.playerReport n)) :=
  rfl

/-- An answer that leaves no replay owed is what the lease and the reply make of the state. -/
theorem reply_player_refreshLease {u : State} (settled : u.replayOwed = false) (n : PlayerNo) (status : Status) (p : Port)
    (kind tag : Byte) : (answerPlayer (u.refreshLease p) n status).reply p kind tag =
      answered u p kind tag status (.player (u.playerReport n)) := by
  rw [reply_player, replay_of_clear (u.refreshLease p) settled, respond_refreshLease]
  rfl

end State

/-- `s` with a request's rate written to player `n`; a rate of 0 writes nothing (R131). -/
def ratedBy (s : State) (n : PlayerNo) (rate : Nat) : State :=
  s.setPlayer n { s.player n with pendingRate := if rate = 0 then (s.player n).pendingRate else some rate }

theorem writeRate_refreshLease (s : State) (p : Port) (n : PlayerNo) (rate : Nat) :
    (s.refreshLease p).writeRate n rate = (ratedBy s n rate).refreshLease p := writeRate_eq (s.refreshLease p) n rate

theorem player_ratedBy (s : State) (n : PlayerNo) (rate : Nat) : (ratedBy s n rate).player n =
    { s.player n with pendingRate := if rate = 0 then (s.player n).pendingRate else some rate } := player_setPlayer _ _ _

theorem player_ratedBy_of_ne (s : State) {n k : PlayerNo} (h : k ≠ n) (rate : Nat) :
    (ratedBy s n rate).player k = s.player k := Tab.get_set_of_ne _ _ h

theorem mode_ratedBy (s : State) (n : PlayerNo) (rate : Nat) :
    ((ratedBy s n rate).player n).mode = (s.player n).mode := by rw [player_ratedBy]

theorem sequence_ratedBy (s : State) (n : PlayerNo) (rate : Nat) :
    ((ratedBy s n rate).player n).sequence = (s.player n).sequence := by rw [player_ratedBy]

theorem player_refreshLease (s : State) (p : Port) (n : PlayerNo) : (s.refreshLease p).player n = s.player n := rfl

/-- The status of a run's reply is that of its step 1 (R142). -/
theorem runStatus_startOutcome (refused : Option StepRefusal) : runStatus (startOutcome refused) = statusOf refused := by
  cases refused with
  | none => rfl
  | some r => cases r <;> rfl

/-- A code of SINGLE or LOOP. -/
theorem runCode {code : Nat} {m : RunMode} (h : (PlayerMode.ofCode code).bind PlayerMode.run = some m) :
    ∃ mode, PlayerMode.ofCode code = some mode ∧ mode.run = some m := Option.bind_eq_some_iff.mp h

section
variable {s : State} {p : Port} {n : PlayerNo} {q : SequenceNo} {m : RunMode} {d : SequenceDef}

/-- The checks of a run, each with the answer it gives (R132). -/
theorem runRefusal_undefined (h : s.tables.sequences.get q = none) :
    (s.refreshLease p).runRefusal p q = some .badTarget := by
  have undefined : (s.refreshLease p).sequenceDef q = none := h
  unfold runRefusal
  rw [undefined]

theorem runRefusal_denied (h : s.tables.sequences.get q = some d) (above : (s.role p).maxRank < d.rank) :
    (s.refreshLease p).runRefusal p q = some .denied := by
  have defined : (s.refreshLease p).sequenceDef q = some d := h
  unfold runRefusal
  rw [defined]
  exact if_pos above

theorem runRefusal_none (h : s.tables.sequences.get q = some d) (within : d.rank ≤ (s.role p).maxRank) :
    (s.refreshLease p).runRefusal p q = none := by
  have defined : (s.refreshLease p).sequenceDef q = some d := h
  unfold runRefusal
  rw [defined]
  exact if_neg (Nat.not_lt.mpr within)

/-- A run that passes its checks is answered with its step 1's refusal (R132, R142). -/
theorem run_answered (kind tag : Byte) (rate : Nat) (defined : s.tables.sequences.get q = some d)
    (start : (s.player n).mode = .off ∨ (s.player n).sequence ≠ some q) :
    ∃ (w v : State) (refused : Option StepRefusal),
      (answerPlayer (((s.refreshLease p).writeRate n rate).runRequest n q m (.port p)).1 n
        (runStatus (((s.refreshLease p).writeRate n rate).runRequest n q m (.port p)).2)).reply p kind tag =
        v.replay.respond p kind tag (statusOf refused) (.player (v.replay.playerReport n))
      ∧ RunTaken s ((ratedBy s n rate).refreshLease p) w v p n q m d refused := by
  have begins : ((ratedBy s n rate).player n).mode = .off ∨ ((ratedBy s n rate).player n).sequence ≠ some q := by
    rw [mode_ratedBy, sequence_ratedBy]
    exact start
  obtain ⟨w, v, refused, run, taken⟩ := runRequest_taken (s := s) (b := (ratedBy s n rate).refreshLease p) p n q m d rfl rfl
    rfl (fun k other => player_ratedBy_of_ne s other rate) begins defined
  refine ⟨w, v, refused, ?_, taken⟩
  rw [writeRate_refreshLease, run, ← runStatus_startOutcome]
  exact reply_player v n _ p kind tag

/-- A request of mode OFF writes its rate to a player that is OFF (R135). -/
theorem off_answered (ready : Ready s p) (kind tag : Byte) (rate : Nat) (off : (s.player n).mode = .off) :
    (answerPlayer (((s.refreshLease p).writeRate n rate).offRequest n (.port p)) n .ok).reply p kind tag =
      answered (ratedBy s n rate) p kind tag .ok (.player ((ratedBy s n rate).playerReport n)) := by
  have idle : ((ratedBy s n rate).refreshLease p).offRequest n (.port p) = (ratedBy s n rate).refreshLease p :=
    if_pos ((mode_ratedBy s n rate).trans off)
  rw [writeRate_refreshLease, idle]
  exact reply_player_refreshLease (u := ratedBy s n rate) ready.settled n .ok p kind tag

/-- A request of mode OFF stops a player that runs (R135). -/
theorem stop_answered (kind tag : Byte) (rate : Nat) (runs : (s.player n).mode ≠ .off) :
    ∃ v : State, (answerPlayer (((s.refreshLease p).writeRate n rate).offRequest n (.port p)) n .ok).reply p kind tag =
        v.replay.respond p kind tag .ok (.player (v.replay.playerReport n))
      ∧ Stopped ((ratedBy s n rate).refreshLease p) v n (.port p)
      ∧ RunOf n ((ratedBy s n rate).refreshLease p) v := by
  have stops : ((ratedBy s n rate).refreshLease p).offRequest n (.port p) =
      ((ratedBy s n rate).refreshLease p).stopPlayer n (.port p) :=
    if_neg fun off => runs ((mode_ratedBy s n rate).symm.trans off)
  obtain ⟨stopped, kept, _⟩ := stopPlayer_stopped ((ratedBy s n rate).refreshLease p) n (.port p)
  refine ⟨_, ?_, stopped, kept⟩
  rw [writeRate_refreshLease, stops, reply_player]

/-- A mode written to a player that runs changes nothing else of the run (R134). -/
theorem mode_answered (ready : Ready s p) (kind tag : Byte) (rate : Nat) :
    (answerPlayer (((s.refreshLease p).writeRate n rate).writePlayerMode n m) n .ok).reply p kind tag =
      answered ((ratedBy s n rate).setPlayer n { (ratedBy s n rate).player n with mode := m.toPlayer }) p kind tag .ok
        (.player (((ratedBy s n rate).setPlayer n
          { (ratedBy s n rate).player n with mode := m.toPlayer }).playerReport n)) := by
  rw [writeRate_refreshLease]
  exact reply_player_refreshLease (u := (ratedBy s n rate).setPlayer n
    { (ratedBy s n rate).player n with mode := m.toPlayer }) ready.settled n .ok p kind tag

end

/-! ## RUN_SEQUENCE -/

section
variable {s : State} {p : Port} {tag : Byte} {n : PlayerNo} {rate : Nat} {code : Nat} {mode : PlayerMode}

theorem exec_runSequence (ready : Ready s p) (formed : rateFormed rate = true) (q : SequenceNo)
    (known : PlayerMode.ofCode code = some mode) :
    exec (.runSequence p tag (.fields (numberOf n, numberOf q, code, rate))) s =
      .next (((s.refreshLease p).answerRun p n q mode rate).reply p 0x24 tag) := by
  show execRunSequence p tag (.fields (numberOf n, numberOf q, code, rate)) s = _
  unfold execRunSequence
  refine congrArg Host.Outcome.next ((serve_ready 0x24 tag _ ready ?_).trans ?_)
  · dsimp only
    rw [indexOf_numberOf, indexOf_numberOf, known, formed]
    rfl
  · dsimp only
    rw [indexOf_numberOf, indexOf_numberOf, known]

theorem exec_setPlayer (ready : Ready s p) (formed : rateFormed rate = true)
    (known : PlayerMode.ofCode code = some mode) :
    exec (.setPlayer p tag (.fields (numberOf n, code, rate))) s =
      .next (((s.refreshLease p).answerSet p n mode rate).reply p 0x25 tag) := by
  show execSetPlayer p tag (.fields (numberOf n, code, rate)) s = _
  unfold execSetPlayer
  refine congrArg Host.Outcome.next ((serve_ready 0x25 tag _ ready ?_).trans ?_)
  · dsimp only
    rw [indexOf_numberOf, known, formed]
    rfl
  · dsimp only
    rw [indexOf_numberOf, known]

end

/-- RUN_SEQUENCE of SINGLE or LOOP, its checks before the run (R132). -/
theorem answerRun_refused {s : State} {p : Port} {n : PlayerNo} {q : SequenceNo} {mode : PlayerMode} {m : RunMode}
    {rate : Nat} {status : Status} (run : mode.run = some m) (refused : s.runRefusal p q = some status) :
    s.answerRun p n q mode rate = answerPlayer s n status := by
  unfold answerRun
  rw [run, refused]

theorem answerRun_taken {s : State} {p : Port} {n : PlayerNo} {q : SequenceNo} {mode : PlayerMode} {m : RunMode}
    {rate : Nat} (run : mode.run = some m) (free : s.runRefusal p q = none) :
    s.answerRun p n q mode rate = answerPlayer ((s.writeRate n rate).runRequest n q m (.port p)).1 n
      (runStatus ((s.writeRate n rate).runRequest n q m (.port p)).2) := by
  unfold answerRun
  rw [run, free]

/-- A run request on the sequence that runs writes the mode (R134). -/
theorem runRequest_continued {s : State} {n : PlayerNo} {q : SequenceNo} (m : RunMode) (source : RunSource)
    (runs : (s.player n).mode ≠ .off) (same : (s.player n).sequence = some q) :
    s.runRequest n q m source = (s.writePlayerMode n m, .continued) := (if_neg runs).trans (if_pos same)

/-- Settles O29. -/
theorem runSequenceStartsTheRun : Obligations.RunSequenceStartsTheRun := by
  intro s p tag n q rate ready formed
  refine ⟨fun code m d code_ defined within => ⟨fun start => ?_, fun runs same => ?_⟩, fun off => ?_, fun runs => ?_,
    fun code m code_ undefined => ?_, fun code m d code_ defined above => ?_⟩
  · obtain ⟨mode, known, run⟩ := runCode code_
    obtain ⟨w, v, refused, reply, taken⟩ := run_answered (p := p) (m := m) 0x24 tag rate defined start
    refine ⟨w, v, refused, ?_, taken⟩
    dsimp only
    rw [exec_runSequence ready formed q known, answerRun_taken run (runRefusal_none defined within), reply]
  · obtain ⟨mode, known, run⟩ := runCode code_
    have continues := runRequest_continued (s := (ratedBy s n rate).refreshLease p) m (.port p)
      (fun off => runs ((mode_ratedBy s n rate).symm.trans off)) ((sequence_ratedBy s n rate).trans same)
    dsimp only
    rw [exec_runSequence ready formed q known, answerRun_taken run (runRefusal_none defined within),
      writeRate_refreshLease, continues, ← writeRate_refreshLease]
    exact congrArg _ (mode_answered ready 0x24 tag rate)
  · exact (exec_runSequence (mode := .off) ready formed q rfl).trans (congrArg _ (off_answered ready 0x24 tag rate off))
  · obtain ⟨v, reply, stopped, _⟩ := stop_answered (p := p) 0x24 tag rate runs
    exact ⟨v, (exec_runSequence (mode := .off) ready formed q rfl).trans (congrArg _ reply), stopped⟩
  · obtain ⟨mode, known, run⟩ := runCode code_
    dsimp only
    rw [exec_runSequence ready formed q known, answerRun_refused run (runRefusal_undefined undefined)]
    exact congrArg _ (reply_player_refreshLease ready.settled n .badTarget p 0x24 tag)
  · obtain ⟨mode, known, run⟩ := runCode code_
    dsimp only
    rw [exec_runSequence ready formed q known, answerRun_refused run (runRefusal_denied defined above)]
    exact congrArg _ (reply_player_refreshLease ready.settled n .denied p 0x24 tag)

end Sys2Proof.Machine
end

section
/-! SUPPORT. SET_PLAYER and the wait timer; and with it the statements on them. -/

namespace Sys2Proof.Machine
open State

/-! ## What a reply leaves at its port -/

theorem replied_answered (s : State) (p : Port) (kind tag : Byte) (status : Status) (body : ReplyBody) :
    Replied (answered s p kind tag status body) p kind tag status body := by
  rw [← respond_refreshLease]
  exact replied_respond _ p kind tag status body

theorem leased_answered (s : State) (p : Port) (kind tag : Byte) (status : Status) (body : ReplyBody) :
    Leased s (answered s p kind tag status body) p := by
  unfold Leased answered
  rw [port_onPort]
  exact ⟨rfl, rfl⟩

/-! ## SET_PLAYER -/

section
variable {s : State} {p : Port} {n : PlayerNo} {mode : PlayerMode} {m : RunMode} {rate : Nat}

theorem answerSet_off : s.answerSet p n .off rate = answerPlayer ((s.writeRate n rate).offRequest n (.port p)) n .ok := rfl

theorem answerSet_restart (run : mode.run = some m) (off : (s.player n).mode = .off) :
    s.answerSet p n mode rate = s.answerRestart p n m rate := by
  unfold answerSet
  rw [run]
  exact if_pos off

theorem answerSet_running (run : mode.run = some m) (runs : (s.player n).mode ≠ .off) :
    s.answerSet p n mode rate = answerPlayer ((s.writeRate n rate).writePlayerMode n m) n .ok := by
  unfold answerSet
  rw [run]
  exact if_neg runs

theorem answerRestart_empty (none : (s.player n).sequence = none) :
    s.answerRestart p n m rate = answerPlayer s n .wrongState := by
  unfold answerRestart
  rw [none]

theorem answerRestart_refused {q : SequenceNo} {status : Status} (holds : (s.player n).sequence = some q)
    (refused : s.runRefusal p q = some status) : s.answerRestart p n m rate = answerPlayer s n status := by
  unfold answerRestart
  rw [holds]
  dsimp only
  rw [refused]

theorem answerRestart_taken {q : SequenceNo} (holds : (s.player n).sequence = some q) (free : s.runRefusal p q = none) :
    s.answerRestart p n m rate = answerPlayer ((s.writeRate n rate).runRequest n q m (.port p)).1 n
      (runStatus ((s.writeRate n rate).runRequest n q m (.port p)).2) := by
  unfold answerRestart
  rw [holds]
  dsimp only
  rw [free]

end

/-- Settles O30. -/
theorem setPlayerActsOnTheRun : Obligations.SetPlayerActsOnTheRun := by
  intro s p tag n rate ready formed
  have refuses : ∀ status : Status, (answerPlayer (s.refreshLease p) n status).reply p 0x25 tag =
      answered s p 0x25 tag status (.player (s.playerReport n)) := fun status =>
    reply_player_refreshLease (u := s) ready.settled n status p 0x25 tag
  refine ⟨fun off => ?_, fun code m off code_ => ⟨fun empty => ?_, fun q holds => ⟨fun undefined => ?_, fun d defined =>
    ⟨fun above => ?_, fun within => ?_⟩⟩⟩, fun code m runs code_ => ?_, fun runs => ?_⟩
  · exact (exec_setPlayer (mode := .off) ready formed rfl).trans (congrArg _ (off_answered ready 0x25 tag rate off))
  · obtain ⟨mode, known, run⟩ := runCode code_
    dsimp only
    rw [exec_setPlayer ready formed known, answerSet_restart (s := s.refreshLease p) run off,
      answerRestart_empty (s := s.refreshLease p) empty, refuses]
  · obtain ⟨mode, known, run⟩ := runCode code_
    dsimp only
    rw [exec_setPlayer ready formed known, answerSet_restart (s := s.refreshLease p) run off,
      answerRestart_refused (s := s.refreshLease p) holds (runRefusal_undefined undefined), refuses]
  · obtain ⟨mode, known, run⟩ := runCode code_
    dsimp only
    rw [exec_setPlayer ready formed known, answerSet_restart (s := s.refreshLease p) run off,
      answerRestart_refused (s := s.refreshLease p) holds (runRefusal_denied defined above), refuses]
  · obtain ⟨mode, known, run⟩ := runCode code_
    obtain ⟨w, v, refused, reply, taken⟩ := run_answered (p := p) (m := m) 0x25 tag rate defined (.inl off)
    refine ⟨w, v, refused, ?_, taken⟩
    dsimp only
    rw [exec_setPlayer ready formed known, answerSet_restart (s := s.refreshLease p) run off,
      answerRestart_taken (s := s.refreshLease p) holds (runRefusal_none defined within), reply]
  · obtain ⟨mode, known, run⟩ := runCode code_
    let u := (ratedBy s n rate).setPlayer n { (ratedBy s n rate).player n with mode := m.toPlayer }
    have player : u.player n = { s.player n with
        mode := m.toPlayer, pendingRate := if rate = 0 then (s.player n).pendingRate else some rate } := by
      dsimp only [u]
      rw [player_setPlayer, player_ratedBy]
    have others : ∀ k, k ≠ n → u.player k = s.player k := fun k other =>
      (Tab.get_set_of_ne _ _ other).trans (player_ratedBy_of_ne s other rate)
    refine ⟨answered u p 0x25 tag .ok (.player (u.playerReport n)), ?_, player, replied_answered u p 0x25 tag .ok _,
      leased_answered u p 0x25 tag .ok _, others, rfl⟩
    rw [exec_setPlayer ready formed known, answerSet_running (s := s.refreshLease p) run runs]
    exact congrArg _ (mode_answered ready 0x25 tag rate)
  · obtain ⟨v, reply, stopped, kept⟩ := stop_answered (p := p) 0x25 tag rate runs
    refine ⟨v, (exec_setPlayer (mode := .off) ready formed rfl).trans (congrArg _ reply), stopped, ?_, stopped.gone,
      fun k other => (kept.others k other).trans (player_ratedBy_of_ne s other rate), kept.steady.mode, kept.steady.tables⟩
    rw [stopped.off, player_refreshLease, player_ratedBy]

/-! ## The wait timer -/

namespace State

theorem exec_waitTimer_due {s : State} {n : PlayerNo} {t : Nat} (run : (s.player n).run = .running t) (due : t ≤ s.now) :
    exec (.waitTimerExpiry n) s = .next (s.moveOn n).replay := by
  show execWaitTimerExpiry n s = _
  unfold execWaitTimerExpiry
  rw [run]
  exact if_pos due

theorem exec_waitTimer_early {s : State} {n : PlayerNo} {t : Nat} (run : (s.player n).run = .running t)
    (early : s.now < t) : exec (.waitTimerExpiry n) s = .next s := by
  show execWaitTimerExpiry n s = _
  unfold execWaitTimerExpiry
  rw [run]
  exact if_neg (Nat.not_le.mpr early)

theorem playerSequence_of {s : State} {n : PlayerNo} {q : SequenceNo} {d : SequenceDef}
    (holds : (s.player n).sequence = some q) (defined : s.tables.sequences.get q = some d) :
    s.playerSequence n = some d := by
  unfold playerSequence
  rw [holds]
  exact defined

theorem setPlayer_setPlayer (s : State) (n : PlayerNo) (a b : Player) :
    (s.setPlayer n a).setPlayer n b = s.setPlayer n b := by
  unfold setPlayer
  rw [Tab.set_set]

/-- A wait that runs out before the last step leads to the next (R139). -/
theorem moveOn_next {s : State} {n : PlayerNo} {d : SequenceDef} (holds : s.playerSequence n = some d)
    (more : (s.player n).step < d.steps.length) :
    s.moveOn n = ((s.setPlayer n { s.player n with step := (s.player n).step + 1 }).takeStep n).1 := by
  unfold moveOn
  rw [holds]
  exact if_pos more

theorem moveOn_last {s : State} {n : PlayerNo} {d : SequenceDef} (holds : s.playerSequence n = some d)
    (last : d.steps.length ≤ (s.player n).step) : s.moveOn n = s.endPass n d := by
  unfold moveOn
  rw [holds]
  exact if_neg (Nat.not_lt.mpr last)

/-- The player `y` after a pass has ended on it (R140). -/
def passedPlayer (y : Player) : Player := { y with passes := min (y.passes + 1) 65535 }

/-- The end of a pass told, before a new pass or the end of the run (R140). -/
def passTold (s : State) (n : PlayerNo) (q : SequenceNo) : State :=
  (s.setPlayer n (passedPlayer (s.player n))).announce
    (.seq n (some q) .passDone (passedPlayer (s.player n)).passes (passedPlayer (s.player n)).step)

theorem player_passTold (s : State) (n : PlayerNo) (q : SequenceNo) :
    (s.passTold n q).player n = passedPlayer (s.player n) := player_setPlayer _ _ _

theorem passTold_eq {s : State} {n : PlayerNo} {q : SequenceNo} (holds : (s.player n).sequence = some q) :
    (s.setPlayer n { s.player n with passes := bump (s.player n).passes }).announceSeq n .passDone = s.passTold n q := by
  unfold announceSeq passTold
  rw [player_setPlayer, ← holds]
  rfl

/-- A pass that another follows begins at step 1 (R140). -/
theorem endPass_again {s : State} {n : PlayerNo} {q : SequenceNo} {d : SequenceDef}
    (holds : (s.player n).sequence = some q) (on : passesOn (s.player n).mode d.passLimit (bump (s.player n).passes) = true) :
    s.endPass n d =
      (((s.passTold n q).setPlayer n { passedPlayer (s.player n) with step := 1 }).takeStep n).1 := by
  unfold endPass
  dsimp only
  rw [if_pos on, passTold_eq holds, player_passTold]

theorem endPass_over {s : State} {n : PlayerNo} {q : SequenceNo} {d : SequenceDef}
    (holds : (s.player n).sequence = some q)
    (off : passesOn (s.player n).mode d.passLimit (bump (s.player n).passes) = false) :
    s.endPass n d = (s.passTold n q).endRun n d := by
  unfold endPass
  dsimp only
  rw [if_neg (Bool.eq_false_iff.mp off), passTold_eq holds]

/-- The end action HOLD keeps the claims, and the release time for the next run (R133, R140). -/
theorem endRun_hold {s : State} {n : PlayerNo} {d : SequenceDef} (action : d.endAction = .hold) :
    s.endRun n d = (s.setPlayer n
      { s.player n with mode := .off, run := .idle, step := 0, heldRelease := some d.releaseTime }).announce
        (.seq n (s.player n).sequence (.ended .hold) (s.player n).passes 0) := by
  have kept : (s.idlePlayer n).setPlayer n { (s.idlePlayer n).player n with heldRelease := some d.releaseTime } =
      s.setPlayer n
        { s.player n with mode := .off, run := .idle, step := 0, heldRelease := some d.releaseTime } := by
    unfold idlePlayer
    rw [player_setPlayer, setPlayer_setPlayer]
  unfold endRun
  rw [action]
  dsimp only
  rw [kept]
  unfold announceSeq
  rw [player_setPlayer]

/-- What the end action RELEASE leaves (R140). -/
theorem endRun_release {s : State} {n : PlayerNo} {d : SequenceDef} (action : d.endAction = .release) :
    RunOf n s (s.endRun n d)
      ∧ (s.endRun n d).player n = { s.player n with mode := .off, run := .idle, step := 0 }
      ∧ ReleasedAs s (s.endRun n d) (.seq n) (s.circuitsOf (.seq n)) d.releaseTime
      ∧ (∀ c, claimOf (.seq n) ((s.endRun n d).claims c) = none)
      ∧ Announced (s.endRun n d) (.seq n (s.player n).sequence (.ended .release) (s.player n).passes 0) := by
  let told := (s.idlePlayer n).announce (.seq n (s.player n).sequence (.ended .release) (s.player n).passes 0)
  have same : SameClaims s told := (sameClaims_setPlayer s n _).trans (sameClaims_announce _ _)
  have toldRun : RunOf n s told := (RunOf.of_setPlayer s n _).trans (.of_announce n _ _)
  have ended : s.endRun n d = told.releaseAll (.seq n) d.releaseTime := by
    unfold endRun announceSeq
    rw [action]
    dsimp only
    rw [show (s.idlePlayer n).player n = _ from player_setPlayer _ _ _]
  have claims := releaseAll_claims told (.seq n) d.releaseTime
  have released := same.released (releaseAll_released told (.seq n) d.releaseTime)
  rw [same.circuitsOf] at released
  rw [ended]
  refine ⟨toldRun.trans (.of_claims n claims (releaseAll_recovers _ _ _)), ?_, released, releaseAll_none told _ _,
    releaseAll_announced _ _ _ _⟩
  unfold player
  rw [claims.players]
  exact player_setPlayer _ _ _

end State

theorem passesOn_true {limit passes : Nat} (h : limit = 0 ∨ passes < limit) : passesOn .loop limit passes = true := by
  unfold passesOn
  rcases h with rfl | below
  · rfl
  · rw [decide_eq_true below, Bool.or_true]
    rfl

theorem passesOn_false {mode : PlayerMode} {limit passes : Nat} (h : mode ≠ .loop ∨ (limit ≠ 0 ∧ limit ≤ passes)) :
    passesOn mode limit passes = false := by
  unfold passesOn
  rcases h with single | ⟨some, reached⟩
  · rw [beq_eq_false_iff_ne.mpr single]
    rfl
  · rw [beq_eq_false_iff_ne.mpr some, decide_eq_false (Nat.not_lt.mpr reached)]
    exact Bool.and_false _

/-- A step taken brings the pending rate into force and leaves the pass count, whether it faults or not (R131, R138). -/
theorem StepTaken.rate {w v : State} {n : PlayerNo} {q : SequenceDef} {x : SeqStep} {refused : Option StepRefusal}
    (h : StepTaken w v n q x refused) : (v.player n).rate = (w.player n).pendingRate.getD (w.player n).rate
      ∧ (v.player n).pendingRate = none ∧ (v.player n).passes = (w.player n).passes := by
  by_cases went : refused = none
  · obtain ⟨_, _, _, passes, rate, pending⟩ := h.kept went
    exact ⟨rate, pending, passes⟩
  · obtain ⟨r, fault⟩ := h.fault went
    rw [fault.off]
    exact ⟨rfl, rfl, rfl⟩

/-- Settles O31. -/
theorem waitExpiryTakesTheNextStep : Obligations.WaitExpiryTakesTheNextStep := by
  refine ⟨fun s n t q d run due holds defined => ⟨fun more => ?_, fun last => ⟨fun loop limit x rest steps => ?_,
    fun ends => ⟨fun action => ?_, fun action => ?_⟩⟩⟩, fun s n t run early => exec_waitTimer_early run early⟩ <;>
    have sequence := playerSequence_of holds defined
  · let w := s.setPlayer n { s.player n with step := (s.player n).step + 1 }
    have player : w.player n = { s.player n with step := (s.player n).step + 1 } := player_setPlayer _ _ _
    have taken : ∀ x, d.steps[(s.player n).step]? = some x → StepTaken w (w.takeStep n).1 n d x (w.takeStep n).2 :=
      fun x at_ => takeStep_taken w n d x (playerSequence_of (by rw [player]; exact holds) defined) (by
        rw [player]
        exact at_)
    have this := taken _ (List.getElem?_eq_getElem more)
    have runs := takeStep_runs w n
    obtain ⟨rate, pending, passes⟩ := this.rate
    refine ⟨(w.takeStep n).1, (w.takeStep n).2, ?_, taken, fun went => ?_, fun failed => ?_, ?_, pending, ?_,
      fun k other => (runs.others k other).trans (Tab.get_set_of_ne _ _ other), runs.steady.mode, runs.steady.tables⟩
    · rw [exec_waitTimer_due run due, moveOn_next sequence more]
    · obtain ⟨mode, _, step, _⟩ := this.kept went
      rw [mode, step, player]
      exact ⟨rfl, rfl⟩
    · obtain ⟨r, fault⟩ := this.fault failed
      rw [fault.off]
      exact ⟨rfl, rfl, fault.gone⟩
    · rw [rate, player]
    · rw [passes, player]
  · let w := (s.passTold n q).setPlayer n { passedPlayer (s.player n) with step := 1 }
    have player : w.player n = { passedPlayer (s.player n) with step := 1 } := player_setPlayer _ _ _
    have again : passesOn (s.player n).mode d.passLimit (bump (s.player n).passes) = true := by
      rw [show (s.player n).mode = .loop from loop]
      exact passesOn_true limit
    have same : w.playerSequence n = some d := playerSequence_of (by rw [player]; exact holds) defined
    refine ⟨(w.takeStep n).1, (w.takeStep n).2, ?_, takeStep_taken w n d x same ?_⟩
    · rw [exec_waitTimer_due run due, moveOn_last sequence last, endPass_again holds again]
    · rw [player, steps]
      rfl
  · have moved : s.moveOn n = (s.passTold n q).endRun n d :=
      (moveOn_last sequence last).trans (endPass_over holds (passesOn_false ends))
    rw [exec_waitTimer_due run due, moved, endRun_hold action, player_passTold]
    unfold passTold
    rw [← holds]
    rfl
  · have moved : s.moveOn n = (s.passTold n q).endRun n d :=
      (moveOn_last sequence last).trans (endPass_over holds (passesOn_false ends))
    have same : SameClaims s (s.passTold n q) := (sameClaims_setPlayer s n _).trans (sameClaims_announce _ _)
    have toldRun : RunOf n s (s.passTold n q) := (RunOf.of_setPlayer s n _).trans (.of_announce n _ _)
    obtain ⟨ran, player, released, gone, told⟩ := endRun_release (s := s.passTold n q) (n := n) action
    have whole := toldRun.trans ran
    rw [player_passTold] at player told
    rw [same.circuitsOf] at released
    refine ⟨(s.passTold n q).endRun n d, ?_, player, same.released released, gone, ?_, whole.others, whole.steady.mode,
      whole.steady.tables⟩
    · rw [exec_waitTimer_due run due, moved]
    · rw [← holds]
      exact told

end Sys2Proof.Machine
end

section
/-! SUPPORT. The emergency: what EMERGENCY_ON and CLEAR_EMERGENCY leave at their port, and what the contact does by the
emergency state; and with it the statements on them. -/

namespace Sys2Proof.Machine
open State

/-! ## What a reply leaves of the ports -/

namespace State

theorem respond_heard (s : State) (p : Port) (kind tag : Byte) (status : Status) (body : ReplyBody) :
    Heard s (s.respond p kind tag status body) := by
  have same : ∀ q, ((s.respond p kind tag status body).port q).link = (s.port q).link
      ∧ ((s.respond p kind tag status body).port q).subscriptions = (s.port q).subscriptions
      ∧ ((s.respond p kind tag status body).port q).queue = (s.port q).queue
      ∧ ((s.respond p kind tag status body).port q).overflow = (s.port q).overflow := fun q => by
    unfold respond
    rw [port_onPort_ite]
    split
    · rename_i here; rw [here]; exact ⟨rfl, rfl, rfl, rfl⟩
    · exact ⟨rfl, rfl, rfl, rfl⟩
  refine ⟨fun q => ?_, fun q => (same q).2.1, fun q n told => ?_⟩
  · exact isOnline_of_link (same q).1
  · obtain ⟨_, _, queue, overflow⟩ := same q
    unfold Told
    rw [queue, overflow]
    exact told

end State

/-- A lease started anew stands in what an event leaves of the port (R180). -/
theorem leased_respond {s v : State} {p : Port} (same : SamePort ((s.refreshLease p).port p) (v.port p)) (kind tag : Byte)
    (status : Status) (body : ReplyBody) : Leased s (v.respond p kind tag status body) p := by
  have lease : ((s.refreshLease p).port p).link = .online (s.now + (s.role p).lease * Config.second)
      ∧ ((s.refreshLease p).port p).orphanEnd = none := by
    unfold refreshLease
    rw [port_onPort]
    exact ⟨rfl, rfl⟩
  unfold Leased respond
  rw [port_onPort]
  exact ⟨same.link.trans lease.1, same.orphanEnd.trans lease.2⟩

/-! ## EMERGENCY_ON -/

namespace State

/-- An entry reaches circuits, the emergency, the count of entries and notices alone. -/
theorem enterEmergency_frame (s : State) (e : EmergencyState) (cause : EmergencyCause) :
    s.enterEmergency e cause = { s with
      circuits := s.egressCircuits, emergency := { s.emergency with state := e, recovery := [] }
      counters := { s.counters with emergencyEntries := min (s.counters.emergencyEntries + 1) 65535 }
      ports := (s.enterEmergency e cause).ports } := rfl

end State

theorem exec_emergencyOn {s : State} {p : Port} {tag : Byte} (ready : Ready s p) : exec (.emergencyOn p tag (.fields ())) s =
    .next (((s.refreshLease p).answerEmergencyOn p).reply p 0x26 tag) :=
  congrArg Host.Outcome.next (serve_ready (f := ()) 0x26 tag (fun t _ => t.answerEmergencyOn p) ready rfl)

theorem exec_clearEmergency {s : State} {p : Port} {tag : Byte} (ready : Ready s p) :
    exec (.clearEmergency p tag (.fields ())) s = .next (((s.refreshLease p).answerClear p).reply p 0x27 tag) :=
  congrArg Host.Outcome.next (serve_ready (f := ()) 0x27 tag (fun t _ => t.answerClear p) ready rfl)

/-- Settles O32. -/
theorem emergencyOnForces : Obligations.EmergencyOnForces := by
  intro s p tag ready
  refine ⟨fun may calm => ?_, fun may forces => ?_, fun never => ?_⟩ <;> rw [exec_emergencyOn ready]
  · let v := (s.refreshLease p).enterEmergency .latched (.port p)
    have entered : (s.refreshLease p).answerEmergencyOn p = .plain v .ok :=
      (if_pos (show (s.refreshLease p).permits p .safety = true from may)).trans
        (if_neg (Bool.eq_false_iff.mp (show (s.refreshLease p).emergency.state.forces = false from calm)))
    have port : SamePort ((s.refreshLease p).port p) (v.port p) :=
      (enterEmergency_broad (s.refreshLease p) .latched (.port p)).ports p.ix
    have told : Announced v (.emergency .latched s.emergency.accepted (.port p) (forcible s)) :=
      enterEmergency_announced (s.refreshLease p) .latched (.port p)
    refine ⟨v.respond p 0x26 tag .ok .empty, ?_, rfl, fun c => ?_, fun c w level => ?_, fun c level => ?_, rfl,
      (respond_heard v p 0x26 tag .ok .empty).announced told, replied_respond v p 0x26 tag .ok _,
      leased_respond port 0x26 tag .ok _, ?_⟩
    · rw [entered, reply_plain, replay_of_clear v ready.settled]
    · exact (circuit_enterEmergency_fields (s.refreshLease p) .latched (.port p) c).1
    · exact congrArg CircuitState.transition (circuit_enterEmergency_forced (s.refreshLease p) .latched (.port p) level)
    · exact circuit_enterEmergency_unforced (s.refreshLease p) .latched (.port p) level
    · dsimp only [v]
      rw [enterEmergency_frame]
      rfl
  · have stays : (s.refreshLease p).answerEmergencyOn p = .plain (s.refreshLease p) .ok :=
      (if_pos (show (s.refreshLease p).permits p .safety = true from may)).trans
        (if_pos (show (s.refreshLease p).emergency.state.forces = true from forces))
    rw [stays, reply_plain_refreshLease ready]
  · have denied : (s.refreshLease p).answerEmergencyOn p = .plain (s.refreshLease p) .denied :=
      if_neg (Bool.eq_false_iff.mp (show (s.refreshLease p).permits p .safety = false from never))
    rw [denied, reply_plain_refreshLease ready]

/-! ## CLEAR_EMERGENCY -/

namespace State

theorem recoveryOf_none {s : State} (h : s.tables.settings.recoveryTime = 0 ∨ ∀ c, s.forced c = false) :
    s.recoveryOf = [] := by
  unfold recoveryOf
  split
  · rfl
  · rename_i some_
    rw [List.filter_eq_nil_iff]
    exact fun c _ => Bool.eq_false_iff.mp (h.resolve_left some_ c)

theorem mem_recoveryOf {s : State} (h : 0 < s.tables.settings.recoveryTime) (c : Circuit) :
    c ∈ s.recoveryOf ↔ s.forced c = true := by
  unfold recoveryOf
  rw [if_neg (Nat.ne_of_gt h), List.mem_filter]
  exact and_iff_right (mem_indices c)

/-- A clear ends at once where no recovery runs (R160, R161). -/
theorem clearForcing_atOnce {s : State} (p : Port) (h : s.recoveryOf = []) :
    (s.clearForcing p).emergency = { s.emergency with state := .normal, recovery := [] } := by
  unfold clearForcing
  dsimp only
  rw [h]
  rfl

theorem clearForcing_recovering {s : State} (p : Port) (h : s.recoveryOf ≠ []) :
    (s.clearForcing p).emergency = { s.emergency with state := .recovering, recovery := s.recoveryOf } := by
  unfold clearForcing
  dsimp only
  rw [if_neg (by rw [List.isEmpty_iff]; exact h)]
  rfl

/-- `t` is `s` but for circuits, the emergency and ports. -/
def EmergencyOnly (s t : State) : Prop := ∃ a b c, t = { s with circuits := a, emergency := b, ports := c }

theorem EmergencyOnly.announced {s t : State} (h : EmergencyOnly s t) (cause : EmergencyCause) :
    EmergencyOnly s (t.announceEmergency cause) := by
  obtain ⟨a, b, c, rfl⟩ := h
  exact ⟨a, b, _, rfl⟩

theorem EmergencyOnly.passed {s t : State} (h : EmergencyOnly s t) (e : EmergencyState) (l : List Circuit) :
    EmergencyOnly s (t.setEmergency e l) := by
  obtain ⟨a, b, c, rfl⟩ := h
  exact ⟨a, _, c, rfl⟩

theorem EmergencyOnly.frame {s t : State} (h : EmergencyOnly s t) :
    t = { s with circuits := t.circuits, emergency := t.emergency, ports := t.ports } := by
  obtain ⟨a, b, c, rfl⟩ := h
  rfl

/-- A clear reaches circuits, the emergency and notices alone. -/
theorem clearForcing_only (s : State) (p : Port) : EmergencyOnly s (s.clearForcing p) := by
  have began : EmergencyOnly s { s with circuits := s.recoveryCircuits } := ⟨_, s.emergency, s.ports, rfl⟩
  have told := (began.passed .recovering s.recoveryOf).announced (.port p)
  unfold clearForcing
  dsimp only
  split
  · exact (told.passed .normal []).announced .recoveryComplete
  · exact told

theorem answerClear_latched {s : State} {p : Port} (may : s.permits p .safety = true) (h : s.emergency.state = .latched) :
    s.answerClear p = .plain (s.clearForcing p) .ok := by
  unfold answerClear
  rw [if_pos may, h]

theorem answerClear_active {s : State} {p : Port} (may : s.permits p .safety = true) (h : s.emergency.state = .active) :
    s.answerClear p = .plain s .contactActive := by
  unfold answerClear
  rw [if_pos may, h]

theorem answerClear_calm {s : State} {p : Port} (may : s.permits p .safety = true)
    (h : s.emergency.state = .normal ∨ s.emergency.state = .recovering) : s.answerClear p = .plain s .wrongState := by
  unfold answerClear
  rw [if_pos may]
  rcases h with normal | recovering
  · rw [normal]
  · rw [recovering]

end State

/-- Settles O33. -/
theorem clearEmergencyRecovers : Obligations.ClearEmergencyRecovers := by
  intro s p tag ready
  refine ⟨fun may latched => ?_, fun may active => ?_, fun may calm => ?_, fun never => ?_⟩ <;>
    rw [exec_clearEmergency ready]
  · let v := (s.refreshLease p).clearForcing p
    have circuit := circuit_clearForcing (s.refreshLease p) p
    have frame := (clearForcing_only (s.refreshLease p) p).frame
    have clear : v.replayOwed = false := by
      dsimp only [v]
      rw [frame]
      exact ready.settled
    have port : SamePort ((s.refreshLease p).port p) (v.port p) := (clearForcing_broad (s.refreshLease p) p).ports p.ix
    obtain ⟨told, ended⟩ := clearForcing_announced (s.refreshLease p) p
    have heard := respond_heard v p 0x27 tag .ok .empty
    refine ⟨v.respond p 0x27 tag .ok .empty, ?_, fun c forced => ?_, fun c free => ?_, fun c => ?_, fun none => ⟨?_, ?_⟩,
      heard.announced told, fun some_ d forced => ?_, replied_respond v p 0x27 tag .ok _, leased_respond port 0x27 tag .ok _,
      ?_⟩
    · rw [answerClear_latched (s := s.refreshLease p) may latched, reply_plain, replay_of_clear v clear]
    · exact congrArg CircuitState.transition ((circuit c).trans (if_pos forced))
    · exact (circuit c).trans (if_neg (Bool.eq_false_iff.mp free))
    · exact (circuit_clearForcing_fields (s.refreshLease p) p c).1
    · exact clearForcing_atOnce (s := s.refreshLease p) p (recoveryOf_none none)
    · exact heard.announced (ended (recoveryOf_none none))
    · have mem := mem_recoveryOf (s := s.refreshLease p) some_
      have runs : (s.refreshLease p).recoveryOf ≠ [] := List.ne_nil_of_mem ((mem d).mpr forced)
      have emergency : (v.respond p 0x27 tag .ok .empty).emergency = _ := clearForcing_recovering p runs
      rw [emergency]
      exact ⟨rfl, mem⟩
    · dsimp only [v]
      rw [frame]
      rfl
  · rw [answerClear_active (s := s.refreshLease p) may active, reply_plain_refreshLease ready]
  · rw [answerClear_calm (s := s.refreshLease p) may calm, reply_plain_refreshLease ready]
  · have denied : (s.refreshLease p).answerClear p = .plain (s.refreshLease p) .denied :=
      if_neg (Bool.eq_false_iff.mp (show (s.refreshLease p).permits p .safety = false from never))
    rw [denied, reply_plain_refreshLease ready]

/-! ## The contact -/

/-- Settles O34: a candidate of the other assertion starts the debounce anew, one of the same leaves its end. -/
theorem contactReadingIsDebounced : Obligations.ContactReadingIsDebounced := by
  intro s r
  refine ⟨{ s with emergency := s.emergency.takeReading s.now r }, rfl, ?_, fun same => ?_, fun other none => ?_,
    fun c e other candidate changed => ?_, fun c e other candidate kept => ?_⟩ <;> dsimp only <;>
    unfold EmergencyPlane.takeReading
  · dsimp only
    split
    · rfl
    · split
      · rfl
      · split <;> rfl
  · rw [if_pos same]
  · rw [if_neg other, none]
    rfl
  · rw [if_neg other, candidate]
    dsimp only
    rw [if_neg changed]
    rfl
  · rw [if_neg other, candidate]
    dsimp only
    rw [if_pos kept]

namespace State

/-- The contact reaches circuits, the emergency state, the entry count and notices alone, and leaves every claim. -/
theorem handContact_frame (s : State) (r : Contact) (changed : Bool) :
    s.handContact r changed = { s with
      circuits := (s.handContact r changed).circuits, emergency := (s.handContact r changed).emergency
      counters := (s.handContact r changed).counters, ports := (s.handContact r changed).ports }
    ∧ (s.handContact r changed).emergency.accepted = s.emergency.accepted
    ∧ (s.handContact r changed).emergency.debounce = s.emergency.debounce
    ∧ (s.handContact r changed).emergency.line = s.emergency.line
    ∧ ∀ c, (s.handContact r changed).claims c = s.claims c := by
  unfold handContact
  split
  · exact ⟨rfl, rfl, rfl, rfl, fun c => (circuit_enterEmergency_fields s .active .contact c).1⟩
  · exact ⟨rfl, rfl, rfl, rfl, fun c => (circuit_enterEmergency_fields s .active .contact c).1⟩
  · exact ⟨rfl, rfl, rfl, rfl, fun _ => rfl⟩
  · exact ⟨rfl, rfl, rfl, rfl, fun _ => rfl⟩
  · split <;> exact ⟨rfl, rfl, rfl, rfl, fun _ => rfl⟩

/-- An asserted contact enters the emergency where it does not force (R158). -/
theorem handContact_enters {s : State} {r : Contact} (changed : Bool) (asserted : r.asserted = true)
    (calm : s.emergency.state.forces = false) : s.handContact r changed = s.enterEmergency .active .contact := by
  unfold handContact
  rw [asserted]
  cases state : s.emergency.state with
  | normal => rfl
  | recovering => rfl
  | active => rw [state] at calm; cases calm
  | latched => rw [state] at calm; cases calm

/-- Where it forces, an asserted contact makes the state ACTIVE without a transition (R159). -/
theorem handContact_stays {s : State} {r : Contact} (changed : Bool) (asserted : r.asserted = true)
    (forces : s.emergency.state.forces = true) : (s.handContact r changed).emergency.state = .active
      ∧ (s.handContact r changed).circuits = s.circuits ∧ (s.handContact r changed).counters = s.counters := by
  unfold handContact
  rw [asserted]
  cases state : s.emergency.state with
  | normal => rw [state] at forces; cases forces
  | recovering => rw [state] at forces; cases forces
  | active =>
    dsimp only
    split
    · exact ⟨state, rfl, rfl⟩
    · exact ⟨state, rfl, rfl⟩
  | latched => exact ⟨rfl, rfl, rfl⟩

/-- A contact that is NORMAL makes ACTIVE LATCHED, without a transition (R159). -/
theorem handContact_lifts {s : State} {r : Contact} (changed : Bool) (lifted : r.asserted = false) :
    (s.handContact r changed).emergency.state =
        (if s.emergency.state = .active then .latched else s.emergency.state)
      ∧ (s.handContact r changed).circuits = s.circuits ∧ (s.handContact r changed).counters = s.counters := by
  unfold handContact
  rw [lifted]
  cases state : s.emergency.state with
  | active => exact ⟨rfl, rfl, rfl⟩
  | normal =>
    dsimp only
    split <;> exact ⟨state, rfl, rfl⟩
  | recovering =>
    dsimp only
    split <;> exact ⟨state, rfl, rfl⟩
  | latched =>
    dsimp only
    split <;> exact ⟨state, rfl, rfl⟩

/-- The plane with the candidate `r` accepted (R155). -/
def accepted (s : State) (r : Contact) : State :=
  { s with emergency := { s.emergency with accepted := some r, debounce := none } }

theorem acceptContact_running {s : State} (r : Contact) (run : s.startup = .running) :
    s.acceptContact r = (s.accepted r).handContact r (s.emergency.accepted != some r) :=
  if_pos (by unfold isRunning; rw [run])

theorem acceptContact_starting {s : State} (r : Contact) (start : s.startup ≠ .running) :
    s.acceptContact r = s.accepted r := by
  refine if_neg fun run => start ?_
  unfold isRunning at run
  cases state : s.startup with
  | running => rfl
  | reading => rw [state] at run; cases run
  | judging _ _ => rw [state] at run; cases run

/-- What an acceptance leaves, whether the part runs or not. -/
theorem acceptContact_frame (s : State) (r : Contact) :
    s.acceptContact r = { s with
      circuits := (s.acceptContact r).circuits, emergency := (s.acceptContact r).emergency
      counters := (s.acceptContact r).counters, ports := (s.acceptContact r).ports }
    ∧ (s.acceptContact r).emergency.accepted = some r ∧ (s.acceptContact r).emergency.debounce = none
    ∧ (s.acceptContact r).emergency.line = s.emergency.line ∧ ∀ c, (s.acceptContact r).claims c = s.claims c := by
  by_cases run : s.startup = .running
  · rw [acceptContact_running r run]
    exact handContact_frame (s.accepted r) r (s.emergency.accepted != some r)
  · rw [acceptContact_starting r run]
    exact ⟨rfl, rfl, rfl, rfl, fun _ => rfl⟩

end State

/-- Settles O35. -/
theorem debounceExpiryAcceptsTheContact : Obligations.DebounceExpiryAcceptsTheContact := by
  intro s r e candidate
  refine ⟨fun early => ?_, fun due => ?_⟩
  · show execDebounceTimerExpiry s = _
    unfold execDebounceTimerExpiry
    rw [candidate]
    exact if_neg (Nat.not_le.mpr early)
  obtain ⟨frame, accepted, debounce, line, claims⟩ := acceptContact_frame s r
  have announced := handContact_announced (s.accepted r) r (s.emergency.accepted != some r)
  refine ⟨s.acceptContact r, ?_, accepted, debounce, line, fun start => ?_, fun run asserted calm => ?_,
    fun run asserted forces => ?_, fun run lifted => ?_, fun run change => ?_, fun same still => ?_, claims, frame⟩
  · show execDebounceTimerExpiry s = _
    unfold execDebounceTimerExpiry
    rw [candidate]
    exact if_pos due
  · rw [acceptContact_starting r start]
    exact ⟨rfl, rfl, rfl⟩
  · rw [acceptContact_running r run, handContact_enters (s := s.accepted r) _ asserted calm]
    exact ⟨rfl, rfl, fun c v level => congrArg CircuitState.transition
        (circuit_enterEmergency_forced (s.accepted r) .active .contact level),
      fun c level => circuit_enterEmergency_unforced (s.accepted r) .active .contact level, rfl⟩
  · rw [acceptContact_running r run]
    exact handContact_stays (s := s.accepted r) _ asserted forces
  · rw [acceptContact_running r run]
    exact handContact_lifts (s := s.accepted r) _ lifted
  · rw [acceptContact_running r run] at change ⊢
    exact announced.1 (change.imp_left bne_iff_ne.mpr)
  · by_cases run : s.startup = .running
    · rw [acceptContact_running r run] at still ⊢
      exact announced.2 (by rw [same]; exact bne_self_eq_false _) still
    · rw [acceptContact_starting r run]
      rfl

end Sys2Proof.Machine
end

section
/-! SUPPORT. Table writes: how a write let through is answered, said once; and with it the statements on the writes of the
rank table, of circuit records, of bindings and of station lists. -/

namespace Sys2Proof.Machine
open State

/-! ## Answers of a write -/

section
variable {s : State} {p : Port} {tag : Byte} {status : Status}

/-- An answer that changes nothing but what an event before it did is what the lease and the reply make of that. -/
theorem reply_taken {u : State} (settled : u.replayOwed = false) (kind tag : Byte) (status : Status) :
    (Answer.plain (u.refreshLease p) status).reply p kind tag = answered u p kind tag status .empty := by
  rw [reply_plain, replay_of_clear (u.refreshLease p) settled, respond_refreshLease]

theorem exec_writeRankTable (ready : Ready s p) {l : List Nat} (eight : l.length = 8) :
    exec (.writeRankTable p tag (.fields l)) s = .next (((s.refreshLease p).answerWriteRanks p l).reply p 0x41 tag) :=
  congrArg Host.Outcome.next (serve_ready (f := l) 0x41 tag _ ready (decide_eq_true eight))

theorem exec_writeBindings (ready : Ready s p) (k : RawKey) (edge : Nat) (list : List RawBinding) :
    exec (.writeBindings p tag (.fields (k, edge, list))) s =
      .next (((s.refreshLease p).answerWriteBindings p k edge list).reply p 0x41 tag) :=
  congrArg Host.Outcome.next (serve_ready (f := (k, edge, list)) 0x41 tag
    (fun t f => t.answerWriteBindings p f.1 f.2.1 f.2.2) ready rfl)

theorem exec_writeStationTable (ready : Ready s p) (n : Nat) (list : List (Nat × Nat)) :
    exec (.writeStationTable p tag (.fields (n, list))) s =
      .next (((s.refreshLease p).answerWriteStations p n list).reply p 0x41 tag) :=
  congrArg Host.Outcome.next (serve_ready (f := (n, list)) 0x41 tag (fun t f => t.answerWriteStations p f.1 f.2) ready rfl)

theorem exec_writeCircuitRecord (ready : Ready s p) (n : Nat) (raw : RawCircuitRecord) :
    exec (.writeCircuitRecord p tag (.fields (n, raw))) s =
      .next (((s.refreshLease p).answerWriteCircuit p n raw).reply p 0x41 tag) :=
  congrArg Host.Outcome.next (serve_ready (f := (n, raw)) 0x41 tag (fun t f => t.answerWriteCircuit p f.1 f.2) ready rfl)

end

/-! ## The rank table -/

namespace State

section
variable {s : State} {p : Port} {l : List Nat}

theorem answerWriteRanks_badRecord (may : MayEdit s p) (bad : BadRanks l) : s.answerWriteRanks p l = .plain s .badRecord := by
  unfold answerWriteRanks
  rw [answerEdit_of_mayEdit _ may, (typedRanks_checks l).1.mpr bad]

theorem answerWriteRanks_taken (may : MayEdit s p) {modes : Tab MergeMode 8} (typed : typedRanks l = some modes) :
    s.answerWriteRanks p l = .plain (s.setRanks modes) .ok := by
  unfold answerWriteRanks
  rw [answerEdit_of_mayEdit _ may, typed]

end

/-- `s` with the rank table written, before the lists are arbitrated again (R3). -/
def withRanks (s : State) (modes : Tab MergeMode 8) : State := { s with tables := { s.tables with ranks := modes } }

theorem setRanks_claims (s : State) (modes : Tab MergeMode 8) : ClaimsOnly (s.withRanks modes) (s.setRanks modes) :=
  (ClaimsOnly.of_circuits (s.withRanks modes) _ s.trackers (s.event + 1) s.replayOwed (promoteWhere_same _ _ _) fun x =>
    x.of_le (fun c => (promoteWhere_length _ _ _ c).le) rfl).trans (settle_claims _ _ _)

theorem setRanks_recovers (s : State) (modes : Tab MergeMode 8) : Recovers (s.withRanks modes) (s.setRanks modes) := by
  let u := s.withRanks modes
  have same : ∀ c, ((u.promoteWhere u.circuits fun _ => true).get c).recovering = (u.circuit c).recovering := fun c =>
    promoteWhere_recovering u u.circuits _ c
  refine settle_recovers (s := u)
    (u := { u with circuits := u.promoteWhere u.circuits fun _ => true, event := u.event + 1 })
    (.of_ports rfl) rfl (fun c recovering => (same c).symm.trans recovering) _ _ fun _ c => ?_
  refine ⟨fun none => absurd none List.not_mem_nil, fun ⟨was, is_⟩ => ?_⟩
  exact absurd ((same c).symm.trans is_) (by rw [was]; decide)

theorem setRanks_tables (s : State) (modes : Tab MergeMode 8) :
    (s.setRanks modes).tables = { s.tables with ranks := modes } := (setRanks_claims s modes).tables

theorem setRanks_wishes (s : State) (modes : Tab MergeMode 8) (c : Circuit) :
    ((s.setRanks modes).claims c).map (fun x => (x.owner, x.wish)) = (s.claims c).map fun x => (x.owner, x.wish) :=
  (setRanks_circuit s modes c).wishes.trans (promote_wishes ..)

end State

/-- Settles O36. -/
theorem rankTableWriteReplacesAll : Obligations.RankTableWriteReplacesAll := by
  refine ⟨fun s p tag l ready eight => ⟨?_, fun may bad => ?_⟩, fun s p tag l ready may eight good => ?_⟩ <;>
    rw [exec_writeRankTable ready eight]
  · exact editRefused_answerEdit ready tag _
  · rw [answerWriteRanks_badRecord may.refreshLease bad, reply_plain_refreshLease ready]
  · obtain ⟨none_iff, written⟩ := typedRanks_checks l
    cases typed : typedRanks l with
    | none => exact absurd (none_iff.mp typed) good
    | some modes =>
      let v := (s.refreshLease p).setRanks modes
      have tables := setRanks_tables (s.refreshLease p) modes
      refine ⟨v, modes, written modes typed, ?_, tables, fun c => setRanks_wishes (s.refreshLease p) modes c,
        fun c x still moved => ?_, fun c => setRanks_judged (s.refreshLease p) modes c, ?_⟩
      · rw [answerWriteRanks_taken may.refreshLease typed, reply_plain]
      · have rest := promote_still (s.circuit c) modes (s.record c) s.emergency.state s.event still
        have same := (setRanks_circuit (s.refreshLease p) modes c).transition.trans rest
        rw [show (v.circuit c).transition = none from same] at moved
        cases moved
      · rw [tables]
        exact (setRanks_claims (s.refreshLease p) modes).event (setRanks_recovers (s.refreshLease p) modes)

/-! ## Circuit records -/

namespace State

theorem lineTaken_iff {s : State} {c : Circuit} {r : Route} :
    s.lineTaken c r = true ↔ ∃ i d, r = .pwm i ∧ d ≠ c ∧ (s.record d).route = .pwm i := by
  cases r with
  | link => exact ⟨fun taken => (by cases taken), fun ⟨_, _, line, _⟩ => (by cases line)⟩
  | unrouted => exact ⟨fun taken => (by cases taken), fun ⟨_, _, line, _⟩ => (by cases line)⟩
  | pwm i =>
    unfold lineTaken
    dsimp only
    rw [List.any_eq_true]
    constructor
    · rintro ⟨d, _, both⟩
      obtain ⟨other, route⟩ := (Bool.and_eq_true _ _).mp both
      exact ⟨i, d, rfl, bne_iff_ne.mp other, beq_iff_eq.mp route⟩
    · rintro ⟨j, d, line, other, route⟩
      obtain rfl := Route.pwm.inj line
      exact ⟨d, mem_indices d, (Bool.and_eq_true _ _).mpr ⟨bne_iff_ne.mpr other, beq_iff_eq.mpr route⟩⟩

section
variable {s : State} {p : Port} {c : Circuit} {raw : RawCircuitRecord}

theorem answerWriteCircuit_badTarget (may : MayEdit s p) {n : Nat} (outside : n = 0 ∨ 192 < n) :
    s.answerWriteCircuit p n raw = .plain s .badTarget := by
  unfold answerWriteCircuit
  rw [answerEdit_of_mayEdit _ may, indexOf_none.mpr outside]

theorem answerWriteCircuit_untyped (may : MayEdit s p) (bad : BadCircuitRecord raw) :
    s.answerWriteCircuit p (numberOf c) raw = .plain s .badRecord := by
  unfold answerWriteCircuit
  rw [answerEdit_of_mayEdit _ may, indexOf_numberOf, (circuitRecord_checks raw).1.mpr bad]

theorem answerWriteCircuit_typed (may : MayEdit s p) {r : CircuitRecord} (typed : RawCircuitRecord.typed raw = some r) :
    s.answerWriteCircuit p (numberOf c) raw =
      if s.lineTaken c r.route then .plain s .badRecord else .plain (s.setRecord c r) .ok := by
  unfold answerWriteCircuit
  rw [answerEdit_of_mayEdit _ may, indexOf_numberOf, typed]

end

end State

/-- A record's route as a write carries it. -/
theorem writtenCircuitRecord_route (d : CircuitRecord) :
    ((writtenCircuitRecord d).route, (writtenCircuitRecord d).line) = rawRoute d.route := by
  unfold writtenCircuitRecord rawRoute
  dsimp only
  cases d.kind <;> cases d.route <;> rfl

theorem route_of_written {d r : CircuitRecord} (h : writtenCircuitRecord d = writtenCircuitRecord r) : d.route = r.route := by
  have raw : rawRoute d.route = rawRoute r.route := by
    rw [← writtenCircuitRecord_route, ← writtenCircuitRecord_route, h]
  have typed := typedRoute_raw d.route
  rw [raw, typedRoute_raw] at typed
  exact (Option.some.inj typed).symm

/-- A circuit record is written alike before and after a lease is started anew. -/
theorem setRecord_refreshLease (s : State) (p : Port) (c : Circuit) (r : CircuitRecord) :
    (s.refreshLease p).setRecord c r = (s.setRecord c r).refreshLease p := by
  rw [setRecord_eq, setRecord_eq]
  rfl

theorem setRecord_tables (s : State) (c : Circuit) (r : CircuitRecord) :
    (s.setRecord c r).tables = { s.tables with circuits := s.tables.circuits.set c r } := by
  rw [setRecord_eq]
  rfl

theorem setRecord_frame (s : State) (c : Circuit) (r : CircuitRecord) : s.setRecord c r =
    { s with tables := (s.setRecord c r).tables, circuits := (s.setRecord c r).circuits } := by
  rw [setRecord_eq]
  rfl

/-- The transition a write removes, where the circuit becomes forced or ceases to be (R41). -/
theorem rewrite_transition (x : CircuitState) (old new : CircuitRecord) (forcing : Bool) :
    (CircuitState.rewrite x old new forcing).transition =
      if forcing = true ∧ new.emergency.isSome ≠ old.emergency.isSome then none else x.transition := by
  unfold CircuitState.rewrite
  dsimp only
  simp only [Bool.and_eq_true, bne_iff_ne, ne_comm (a := new.emergency.isSome)]

theorem rewrite_relay (x : CircuitState) (old new : CircuitRecord) (forcing : Bool) :
    (CircuitState.rewrite x old new forcing).relay =
      if new.kind.isSwitched = old.kind.isSwitched then x.relay else Relay.clear := by
  unfold CircuitState.rewrite
  dsimp only
  simp only [eq_comm (a := old.kind.isSwitched)]

/-- Settles O42. -/
theorem circuitWriteReplacesTheRecord : Obligations.CircuitWriteReplacesTheRecord := by
  refine ⟨fun s p tag n raw ready => ?_, fun s p tag c raw ready may good => ?_⟩
  · dsimp only
    rw [exec_writeCircuitRecord ready]
    refine ⟨editRefused_answerEdit ready tag _, fun may outside => ?_, fun c may number bad => ?_⟩
    · rw [answerWriteCircuit_badTarget may.refreshLease outside, reply_plain_refreshLease ready]
    · subst number
      have refused : (s.refreshLease p).answerWriteCircuit p (numberOf c) raw = .plain (s.refreshLease p) .badRecord := by
        cases typed : RawCircuitRecord.typed raw with
        | none => exact answerWriteCircuit_untyped may.refreshLease ((circuitRecord_checks raw).1.mp typed)
        | some d =>
          obtain ⟨r, i, e, written, route, other, taken⟩ := bad.resolve_left fun wrong => by
            rw [(circuitRecord_checks raw).1.mpr wrong] at typed
            cases typed
          have same : d.route = r.route :=
            route_of_written (((circuitRecord_checks raw).2 d typed).trans written.symm)
          rw [answerWriteCircuit_typed may.refreshLease typed,
            if_pos (lineTaken_iff (s := s.refreshLease p).mpr ⟨i, e, same.trans route, other, taken⟩)]
      rw [refused, reply_plain_refreshLease ready]
  · cases typed : RawCircuitRecord.typed raw with
    | none => exact absurd ((circuitRecord_checks raw).1.mp typed) good
    | some r =>
      refine ⟨r, (circuitRecord_checks raw).2 r typed, fun free => ?_⟩
      let u := s.setRecord c r
      have settled : u.replayOwed = false := by
        dsimp only [u]
        rw [setRecord_frame]
        exact ready.settled
      have untaken : (s.refreshLease p).lineTaken c r.route = false := by
        rw [Bool.eq_false_iff]
        intro taken
        obtain ⟨i, d, route, other, line⟩ := lineTaken_iff.mp taken
        exact free i d route other line
      have self := circuit_setRecord_self s c r
      have role : u.role p = s.role p ∧ u.now = s.now := by
        dsimp only [u]
        rw [setRecord_frame]
        unfold role
        rw [setRecord_tables]
        exact ⟨rfl, rfl⟩
      have leased := leased_answered u p 0x41 tag .ok .empty
      unfold Leased at leased
      rw [role.1, role.2] at leased
      refine ⟨answered u p 0x41 tag .ok .empty, ?_, setRecord_tables s c r, fun d other => circuit_setRecord_of_ne s r other,
        (congrArg CircuitState.claims self).trans rfl, (congrArg CircuitState.relay self).trans (rewrite_relay ..),
        (congrArg CircuitState.transition self).trans (rewrite_transition ..), replied_answered u p 0x41 tag .ok _, leased, ?_⟩
      · rw [exec_writeCircuitRecord ready, answerWriteCircuit_typed may.refreshLease typed, if_neg
          (Bool.eq_false_iff.mp untaken), setRecord_refreshLease, reply_taken settled]
      · have frame : u = { s with tables := u.tables, circuits := u.circuits } := setRecord_frame s c r
        rw [frame]
        rfl

end Sys2Proof.Machine
end

section
/-! SUPPORT. Writes of bindings and of station lists: which entries of the table a new list replaces, and which stations it
leaves; and with it the statements on both. -/

namespace Sys2Proof.Machine
open State

/-! ## Bindings -/

/-- The entries of a key address and edge. -/
def ofPlace (k : KeyAddr) (e : Edge) (b : Binding) : Bool := b.key == k && b.edge == e

theorem ofPlace_iff {k : KeyAddr} {e : Edge} {b : Binding} : ofPlace k e b = true ↔ b.key = k ∧ b.edge = e := by
  unfold ofPlace
  rw [Bool.and_eq_true, beq_iff_eq, beq_iff_eq]

/-- A list replaced is the list written (R90). -/
theorem replaceBindings_here (t : List Binding) (k : KeyAddr) (e : Edge) {l : List Binding}
    (own : ∀ x ∈ l, x.key = k ∧ x.edge = e) : (replaceBindings t k e l).filter (ofPlace k e) = l := by
  have none : ∀ q : Binding → Bool, (∀ b, ofPlace k e b = true → q b = false) → (t.filter q).filter (ofPlace k e) = [] :=
    fun q off => by
      rw [List.filter_filter, List.filter_eq_nil_iff]
      intro b _ both
      obtain ⟨here, there⟩ := (Bool.and_eq_true _ _).mp both
      rw [off b here] at there
      cases there
  unfold replaceBindings
  rw [List.filter_append, List.filter_append, none, none, List.filter_eq_self.mpr fun x mem => ofPlace_iff.mpr (own x mem)]
  · exact List.append_nil _
  · intro b here
    obtain ⟨rfl, rfl⟩ := ofPlace_iff.mp here
    exact decide_eq_false (Nat.lt_irrefl _)
  · intro b here
    obtain ⟨rfl, rfl⟩ := ofPlace_iff.mp here
    exact decide_eq_false (Nat.lt_irrefl _)

/-- A list replaced leaves those of every other key address and edge (R90). -/
theorem replaceBindings_elsewhere (t : List Binding) {k k' : KeyAddr} {e e' : Edge} {l : List Binding}
    (own : ∀ x ∈ l, x.key = k ∧ x.edge = e) (other : (k', e') ≠ (k, e)) :
    (replaceBindings t k e l).filter (ofPlace k' e') = t.filter (ofPlace k' e') := by
  have apart : bindingPlace k' e' ≠ bindingPlace k e := fun same => by
    obtain ⟨rfl, rfl⟩ := bindingPlace_inj same
    exact other rfl
  have gone : l.filter (ofPlace k' e') = [] := by
    rw [List.filter_eq_nil_iff]
    intro x mem here
    obtain ⟨rfl, rfl⟩ := ofPlace_iff.mp here
    obtain ⟨rfl, rfl⟩ := own x mem
    exact other rfl
  have all : ∀ q : Binding → Bool, (∀ b, ofPlace k' e' b = true → q b = true) →
      (t.filter q).filter (ofPlace k' e') = t.filter (ofPlace k' e') := fun q on => by
    rw [List.filter_filter]
    refine List.filter_congr fun b _ => ?_
    cases here : ofPlace k' e' b with
    | true => rw [on b here]; rfl
    | false => rfl
  have none : ∀ q : Binding → Bool, (∀ b, ofPlace k' e' b = true → q b = false) →
      (t.filter q).filter (ofPlace k' e') = [] := fun q off => by
    rw [List.filter_filter, List.filter_eq_nil_iff]
    intro b _ both
    obtain ⟨here, there⟩ := (Bool.and_eq_true _ _).mp both
    rw [off b here] at there
    cases there
  unfold replaceBindings
  rw [List.filter_append, List.filter_append, gone, List.append_nil]
  rcases Nat.lt_or_gt_of_ne apart with below | above
  · rw [all, none]
    · exact List.append_nil _
    · intro b here
      obtain ⟨rfl, rfl⟩ := ofPlace_iff.mp here
      exact decide_eq_false (Nat.lt_asymm below)
    · intro b here
      obtain ⟨rfl, rfl⟩ := ofPlace_iff.mp here
      exact decide_eq_true below
  · rw [none, all]
    · rfl
    · intro b here
      obtain ⟨rfl, rfl⟩ := ofPlace_iff.mp here
      exact decide_eq_true above
    · intro b here
      obtain ⟨rfl, rfl⟩ := ofPlace_iff.mp here
      exact decide_eq_false (Nat.lt_asymm above)

namespace State

section
variable {s : State} {p : Port} {k : RawKey} {edge : Nat} {list : List RawBinding}

theorem answerWriteBindings_badTarget (may : MayEdit s p) (bad : RawKey.address k = none ∨ Edge.ofCode edge = none) :
    s.answerWriteBindings p k edge list = .plain s .badTarget := by
  unfold answerWriteBindings
  rw [answerEdit_of_mayEdit _ may]
  rcases bad with key | code
  · rw [key]
  · rw [code]
    cases RawKey.address k <;> rfl

section
variable {a : KeyAddr} {e : Edge} (may : MayEdit s p) (key : RawKey.address k = some a) (code : Edge.ofCode edge = some e)
include may key code

theorem answerWriteBindings_long (long : 4 < list.length) : s.answerWriteBindings p k edge list = .plain s .badRecord := by
  unfold answerWriteBindings
  rw [answerEdit_of_mayEdit _ may, key, code]
  exact if_pos long

theorem answerWriteBindings_untyped (short : list.length ≤ 4) (untyped : list.mapM (RawBinding.typed a e) = none) :
    s.answerWriteBindings p k edge list = .plain s .badRecord := by
  unfold answerWriteBindings
  rw [answerEdit_of_mayEdit _ may, key, code]
  dsimp only
  rw [if_neg (Nat.not_lt.mpr short), untyped]

theorem answerWriteBindings_typed (short : list.length ≤ 4) {l : List Binding}
    (typed : list.mapM (RawBinding.typed a e) = some l) : s.answerWriteBindings p k edge list =
      if Config.bindingSlots + (Tables.bindingsOf s.tables a e).length < s.tables.bindings.length + l.length then
        .plain s .tableFull
      else .plain (s.onTables fun t => { t with bindings := replaceBindings t.bindings a e l }) .ok := by
  unfold answerWriteBindings
  rw [answerEdit_of_mayEdit _ may, key, code]
  dsimp only
  rw [if_neg (Nat.not_lt.mpr short), typed]

end

end

end State

/-- Entries none of which is out of range are typed, as many as were written. -/
theorem bindings_typed {a : KeyAddr} {e : Edge} {list : List RawBinding} (good : ∀ b ∈ list, ¬ BadBinding b) :
    ∃ l, list.mapM (RawBinding.typed a e) = some l ∧ l.length = list.length := by
  obtain ⟨none_iff, written⟩ := bindings_checks a e list
  cases typed : list.mapM (RawBinding.typed a e) with
  | none =>
    obtain ⟨b, mem, bad⟩ := none_iff.mp typed
    exact absurd bad (good b mem)
  | some l =>
    refine ⟨l, rfl, ?_⟩
    rw [← (written l typed).1, List.length_map]

/-- Settles O39. -/
theorem bindingWriteReplacesOneList : Obligations.BindingWriteReplacesOneList := by
  refine ⟨fun s p tag k edge list ready => ?_, fun s p tag k edge a e list ready may key code short good room => ?_⟩
  · dsimp only
    rw [exec_writeBindings ready]
    refine ⟨editRefused_answerEdit ready tag _, fun may bad => ?_, fun a e may key code => ⟨fun bad => ?_,
      fun short good full => ?_⟩⟩
    · rw [answerWriteBindings_badTarget may.refreshLease bad, reply_plain_refreshLease ready]
    · have refused : (s.refreshLease p).answerWriteBindings p k edge list = .plain (s.refreshLease p) .badRecord := by
        by_cases long : 4 < list.length
        · exact answerWriteBindings_long may.refreshLease key code long
        · exact answerWriteBindings_untyped may.refreshLease key code (Nat.not_lt.mp long)
            ((bindings_checks a e list).1.mpr (bad.resolve_left long))
      rw [refused, reply_plain_refreshLease ready]
    · obtain ⟨l, typed, length⟩ := bindings_typed (a := a) (e := e) good
      rw [answerWriteBindings_typed may.refreshLease key code short typed, if_pos, reply_plain_refreshLease ready]
      rw [length]
      exact full
  · obtain ⟨l, typed, length⟩ := bindings_typed (a := a) (e := e) good
    obtain ⟨written, own⟩ := (bindings_checks a e list).2 l typed
    refine ⟨l, replaceBindings s.tables.bindings a e l, written, own, ?_, replaceBindings_here _ a e own,
      fun k' e' other => replaceBindings_elsewhere _ own other⟩
    rw [exec_writeBindings ready, answerWriteBindings_typed may.refreshLease key code short typed, if_neg]
    · exact congrArg _ (reply_taken (u := { s with
        tables := { s.tables with bindings := replaceBindings s.tables.bindings a e l } }) ready.settled 0x41 tag .ok)
    · rw [length]
      exact Nat.not_lt.mpr room

/-! ## Station lists -/

namespace State

section
variable {s : State} {p : Port} {list : List (Nat × Nat)}

theorem answerWriteStations_badTarget (may : MayEdit s p) {n : Nat} (outside : n = 0 ∨ 4 < n) :
    s.answerWriteStations p n list = .plain s .badTarget := by
  unfold answerWriteStations
  rw [answerEdit_of_mayEdit _ may, indexOf_none.mpr outside]

theorem answerWriteStations_badRecord (may : MayEdit s p) (l : LoopNo) (bad : BadStations list) :
    s.answerWriteStations p (numberOf l) list = .plain s .badRecord := by
  unfold answerWriteStations
  rw [answerEdit_of_mayEdit _ may, indexOf_numberOf, (typedStations_checks list).1.mpr bad]

theorem answerWriteStations_taken (may : MayEdit s p) (l : LoopNo) {entries : List (StationNo × StationType)}
    (typed : typedStations list = some entries) :
    s.answerWriteStations p (numberOf l) list = .plain (s.setStations l (stationTab entries)) .ok := by
  unfold answerWriteStations
  rw [answerEdit_of_mayEdit _ may, indexOf_numberOf, typed]

end

section
variable (s : State) (l : LoopNo) (new : Tab (Option StationType) 16)

theorem stopRaisesOf_claims : ClaimsOnly s (s.stopRaisesOf l new) := foldl_claims _ stopRaise_claims _ s

/-- The stops of raises touch no wish but FIELD's (R101). -/
theorem stopRaise_wish (k : KeyAddr) (c : Circuit) {q : Owner} (other : q ≠ .field) :
    (claimOf q ((s.stopRaise k).claims c)).map Claim.wish = (claimOf q (s.claims c)).map Claim.wish := by
  obtain ⟨idle, stopped, _⟩ := stopRaise_stopped s k
  by_cases raised : ∃ c, (s.circuit c).raisedBy = some k
  · obtain ⟨items, _, placed, _⟩ := stopped raised
    exact placed.others c q other
  · rw [idle fun c marked => raised ⟨c, marked⟩]

theorem stopRaisesOf_wish (c : Circuit) {q : Owner} (other : q ≠ .field) :
    (claimOf q ((s.stopRaisesOf l new).claims c)).map Claim.wish = (claimOf q (s.claims c)).map Claim.wish :=
  foldl_keeps (fun a b : State => (claimOf q (b.claims c)).map Claim.wish = (claimOf q (a.claims c)).map Claim.wish)
    (fun _ => rfl) (fun _ _ _ first second => second.trans first) stopRaise
    (fun s k => stopRaise_wish s k c other) _ s

theorem setStations_tables :
    (s.setStations l new).tables = { s.tables with stations := s.tables.stations.set l new } :=
  congrArg (fun t : Tables => { t with stations := t.stations.set l new }) (stopRaisesOf_claims s l new).tables

theorem setStations_loops : (s.setStations l new).loops =
    s.loops.modify l fun x => LoopState.relist x (s.tables.stations.get l) new :=
  congrArg (fun t : Tab LoopState 4 => t.modify l fun x => LoopState.relist x (s.tables.stations.get l) new)
    (stopRaisesOf_claims s l new).loops

theorem onLoop_onTables_frame (t : State) (f : Tables → Tables) (g : LoopState → LoopState) :
    (t.onTables f).onLoop l g =
      { t with tables := ((t.onTables f).onLoop l g).tables, loops := ((t.onTables f).onLoop l g).loops } := rfl

theorem onLoop_onTables_circuits (t : State) (f : Tables → Tables) (g : LoopState → LoopState) :
    ((t.onTables f).onLoop l g).circuits = t.circuits := rfl

theorem setStations_circuits : (s.setStations l new).circuits = (s.stopRaisesOf l new).circuits :=
  onLoop_onTables_circuits l _ _ _

/-- Beside the raises it stops, a station list reaches the tables and the loops alone. -/
theorem setStations_frame : s.setStations l new =
    { s.stopRaisesOf l new with tables := (s.setStations l new).tables, loops := (s.setStations l new).loops } :=
  onLoop_onTables_frame l _ _ _

theorem setStations_wish (c : Circuit) {q : Owner} (other : q ≠ .field) :
    (claimOf q ((s.setStations l new).claims c)).map Claim.wish = (claimOf q (s.claims c)).map Claim.wish := by
  rw [claims_of_circuits (setStations_circuits s l new)]
  exact stopRaisesOf_wish s l new c other

theorem setStations_stationType (n : StationNo) : (s.setStations l new).stationType l n = new.get n := by
  unfold stationType
  rw [setStations_tables]
  exact congrArg (Tab.get · n) (Tab.get_set_self _ _ _)

/-- A station whose type stands carries on, and every other is fresh (R67). -/
theorem setStations_station (n : StationNo) : (s.setStations l new).station l n =
    if s.stationType l n = new.get n then s.station l n else .fresh := by
  have here : (s.setStations l new).loop l = LoopState.relist (s.loop l) (s.tables.stations.get l) new := by
    unfold loop
    rw [setStations_loops, Tab.get_modify_self]
  unfold station
  rw [here]
  exact Tab.get_build _ _

theorem setStations_elsewhere {m : LoopNo} (other : m ≠ l) : (s.setStations l new).loop m = s.loop m
    ∧ (s.setStations l new).tables.stations.get m = s.tables.stations.get m := by
  unfold loop
  rw [setStations_loops, setStations_tables]
  exact ⟨Tab.get_modify_of_ne _ _ other, Tab.get_set_of_ne _ _ other⟩

end

end State

/-- Settles O40. -/
theorem stationWriteReplacesTheList : Obligations.StationWriteReplacesTheList := by
  refine ⟨fun s p tag n list ready => ?_, fun s k => stopRaise_stopped s k, fun s p tag l list ready may good => ?_⟩
  · dsimp only
    rw [exec_writeStationTable ready]
    refine ⟨editRefused_answerEdit ready tag _, fun may outside => ?_, fun may above below bad => ?_⟩
    · rw [answerWriteStations_badTarget may.refreshLease outside, reply_plain_refreshLease ready]
    · have number : n = numberOf (⟨n - 1, by omega⟩ : Fin 4) := (Nat.sub_add_cancel above).symm
      rw [number, answerWriteStations_badRecord may.refreshLease _ bad, reply_plain_refreshLease ready]
  · obtain ⟨none_iff, written⟩ := typedStations_checks list
    cases typed : typedStations list with
    | none => exact absurd (none_iff.mp typed) good
    | some entries =>
      let b := s.refreshLease p
      let new := stationTab entries
      have type : ∀ n, new.get n = (entries.find? fun x => x.1 == n).map Prod.snd := fun n => Tab.get_build _ n
      have types := setStations_stationType b l new
      have stations := setStations_station b l new
      refine ⟨b.setStations l new, entries, written entries typed, ?_, ?_, fun n same => ?_, fun n changed => ?_, ?_, ?_, ?_,
        ?_⟩
      · rw [exec_writeStationTable ready, answerWriteStations_taken may.refreshLease l typed, reply_plain]
      · exact fun n => (types n).trans (type n)
      · exact (stations n).trans (if_pos ((types n).symm.trans same).symm)
      · exact (stations n).trans (if_neg fun same => changed ((types n).trans same.symm))
      · exact fun m other => setStations_elsewhere b l new other
      · rw [setStations_tables]
        rfl
      · exact fun c q other => setStations_wish b l new c other
      · have which : b.stationChanges l new = fun n => decide (s.stationType l n ≠
            (entries.find? fun x => x.1 == n).map Prod.snd) := funext fun n => by
          rw [← type n, Bool.eq_iff_iff, decide_eq_true_iff]
          exact bne_iff_ne
        rw [← which]
        exact setStations_frame b l new

end Sys2Proof.Machine
end

section
/-! SUPPORT. Presets written in parts: the edit record at its port, the pairs a part adds, and the commit; and with it the
statement on preset writes. -/

namespace Sys2Proof.Machine
open State

/-! ## Pairs as a write carries them -/

/-- A pair of a preset as a write carries it. -/
def writtenPair (x : Circuit × Nat) : Nat × Nat := (numberOf x.1, x.2)

theorem writtenPair_injective : Function.Injective writtenPair := fun x y same => by
  obtain ⟨number, level⟩ := Prod.mk.inj same
  exact Prod.ext (numberOf_injective number) level

theorem typedPairs_written {l : List (Nat × Nat)} {m : List (Circuit × Nat)} (h : typedPairs l = some m) :
    m.map writtenPair = l := by
  refine mapM_written (fun x y typed => ?_) h
  obtain ⟨c, number, level⟩ := Option.bind_eq_some_iff.mp typed
  split at level
  · obtain rfl := Option.some.inj level
    exact Prod.ext (indexOf_some.mp number).symm rfl
  · cases level

theorem typedPairs_none {l : List (Nat × Nat)} (h : ∃ x ∈ l, x.1 = 0 ∨ 192 < x.1 ∨ 1000 < x.2) : typedPairs l = none := by
  obtain ⟨x, mem, bad⟩ := h
  refine (mapM_none _ l).mpr ⟨x, mem, ?_⟩
  cases number : indexOf 192 x.1 with
  | none => rfl
  | some c =>
    have above : 1000 < x.2 := by
      rcases bad with zero | beyond | above
      · rw [indexOf_none.mpr (.inl zero)] at number; cases number
      · rw [indexOf_none.mpr (.inr beyond)] at number; cases number
      · exact above
    exact if_neg (Nat.not_le.mpr above)

/-! ## The edit record at its port -/

namespace State

theorem setEdit_refreshLease (s : State) (p : Port) (e : Option PresetEdit) :
    (s.refreshLease p).setEdit p e = (s.setEdit p e).refreshLease p := by
  unfold setEdit refreshLease
  rw [onPort_onPort, onPort_onPort]
  rfl

theorem setPreset_refreshLease (s : State) (p : Port) (n : PresetNo) (d : Option PresetDef) :
    (s.refreshLease p).setPreset n d = (s.setPreset n d).refreshLease p := rfl

theorem edit_refreshLease (s : State) (p : Port) : ((s.refreshLease p).port p).edit = (s.port p).edit := by
  rw [port_refreshLease]

/-- A preset committed or deleted: its version rises, and no other preset is touched (R56). -/
theorem setPreset_effect (t : State) (n : PresetNo) (d : Option PresetDef) :
    (t.setPreset n d).versions.get n = t.versions.get n + 1 ∧ (t.setPreset n d).presetDef n = d
    ∧ ∀ m, m ≠ n → (t.setPreset n d).versions.get m = t.versions.get m ∧ (t.setPreset n d).presetDef m = t.presetDef m :=
  ⟨Tab.get_modify_self _ _ _, Tab.get_set_self _ _ _, fun _ other =>
    ⟨Tab.get_modify_of_ne _ _ other, Tab.get_set_of_ne _ _ other⟩⟩

theorem pairsFit_iff {s : State} {n : PresetNo} {count : Nat} : s.pairsFit n count = true ↔
    count ≤ 3072 - Tables.pairsUsed s.tables + (pairsOf (s.presetDef n)).length := decide_eq_true_iff

theorem pairsFit_false {s : State} {n : PresetNo} {count : Nat}
    (full : 3072 - Tables.pairsUsed s.tables + (pairsOf (s.presetDef n)).length < count) : s.pairsFit n count = false :=
  decide_eq_false (Nat.not_le.mpr full)

/-! ## The open part -/

section
variable {s : State} {p : Port} {fade count : Nat} (may : MayEdit s p)
include may

theorem answerOpenPreset_badTarget {n : Nat} (outside : n = 0 ∨ 48 < n) :
    s.answerOpenPreset p n fade count = .plain s .badTarget := by
  unfold answerOpenPreset
  rw [answerEdit_of_mayEdit _ may, indexOf_none.mpr outside]

theorem answerOpenPreset_badRecord (n : PresetNo) (long : 36000 < fade) :
    s.answerOpenPreset p (numberOf n) fade count = .plain s .badRecord := by
  unfold answerOpenPreset
  rw [answerEdit_of_mayEdit _ may, indexOf_numberOf]
  exact if_pos long

variable (short : fade ≤ 36000)
include short

theorem answerOpenPreset_tableFull {n : PresetNo}
    (full : 3072 - Tables.pairsUsed s.tables + (pairsOf (s.presetDef n)).length < count) :
    s.answerOpenPreset p (numberOf n) fade count = .plain s .tableFull := by
  unfold answerOpenPreset
  rw [answerEdit_of_mayEdit _ may, indexOf_numberOf]
  dsimp only
  rw [if_neg (show ¬ Config.fadeTop < fade from Nat.not_lt.mpr short), pairsFit_false full]
  rfl

theorem answerOpenPreset_undefines (n : PresetNo) :
    s.answerOpenPreset p (numberOf n) fade 0 = .plain ((s.setEdit p none).setPreset n none) .ok := by
  unfold answerOpenPreset
  rw [answerEdit_of_mayEdit _ may, indexOf_numberOf]
  dsimp only
  rw [if_neg (show ¬ Config.fadeTop < fade from Nat.not_lt.mpr short), pairsFit_iff.mpr (Nat.zero_le _)]
  rfl

theorem answerOpenPreset_opens {n : PresetNo} (some_ : 1 ≤ count)
    (room : count ≤ 3072 - Tables.pairsUsed s.tables + (pairsOf (s.presetDef n)).length) :
    s.answerOpenPreset p (numberOf n) fade count =
      .plain (s.setEdit p (some { preset := n, fade := fade, declared := count, received := [] })) .ok := by
  unfold answerOpenPreset
  rw [answerEdit_of_mayEdit _ may, indexOf_numberOf]
  dsimp only
  rw [if_neg (show ¬ Config.fadeTop < fade from Nat.not_lt.mpr short), pairsFit_iff.mpr room]
  exact if_neg (Nat.ne_of_gt some_)

end

/-! ## The pairs parts -/

section
variable {s : State} {p : Port} {n : Nat} {list : List (Nat × Nat)} (may : MayEdit s p)
include may

theorem answerPresetPairs_closed (closed : ∀ e, (s.port p).edit = some e → numberOf e.preset ≠ n) :
    s.answerPresetPairs p n list = .plain s .wrongState := by
  unfold answerPresetPairs
  rw [answerEdit_of_mayEdit _ may]
  cases edit : (s.port p).edit with
  | none => rfl
  | some e => exact if_pos (closed e edit)

variable {e : PresetEdit} (edit : (s.port p).edit = some e)
include edit

theorem answerPresetPairs_untyped (untyped : typedPairs list = none) :
    s.answerPresetPairs p (numberOf e.preset) list = .plain s .badRecord := by
  unfold answerPresetPairs
  rw [answerEdit_of_mayEdit _ may, edit]
  dsimp only
  rw [if_neg (not_not.mpr rfl), untyped]

theorem answerPresetPairs_typed {pairs : List (Circuit × Nat)} (typed : typedPairs list = some pairs) :
    s.answerPresetPairs p (numberOf e.preset) list =
      if ((e.received ++ pairs).map Prod.fst).Nodup ∧ (e.received ++ pairs).length ≤ e.declared then
        s.takePairs p e (e.received ++ pairs)
      else .plain s .badRecord := by
  unfold answerPresetPairs
  rw [answerEdit_of_mayEdit _ may, edit]
  dsimp only
  rw [if_neg (not_not.mpr rfl), typed]

end

end State

section
variable {s : State} {p : Port} {tag : Byte} (ready : Ready s p)
include ready

theorem exec_writePresetOpen (n fade : Nat) {count : Nat} (few : count ≤ 192) :
    exec (.writePresetOpen p tag (.fields (n, fade, count))) s =
      .next (((s.refreshLease p).answerOpenPreset p n fade count).reply p 0x41 tag) :=
  congrArg Host.Outcome.next (serve_ready (f := (n, fade, count)) 0x41 tag
    (fun t f => t.answerOpenPreset p f.1 f.2.1 f.2.2) ready (decide_eq_true few))

theorem exec_writePresetPairs (n : Nat) {list : List (Nat × Nat)} (some_ : 1 ≤ list.length) (few : list.length ≤ 64) :
    exec (.writePresetPairs p tag (.fields (n, list))) s =
      .next (((s.refreshLease p).answerPresetPairs p n list).reply p 0x41 tag) :=
  congrArg Host.Outcome.next (serve_ready (f := (n, list)) 0x41 tag
    (fun t f => t.answerPresetPairs p f.1 f.2) ready (decide_eq_true ⟨some_, few⟩))

end

/-- Settles O38. -/
theorem presetIsWrittenInParts : Obligations.PresetIsWrittenInParts := by
  refine ⟨fun s p tag ready => ⟨fun n fade count few => ?_, fun n list some_ few => ?_⟩, fun s p tag n ready may =>
    ⟨fun fade short => ?_, fun fade count short some_ few room => ?_, fun e list edit preset some_ few levels once =>
      ⟨fun more => ?_, fun full room => ?_⟩, fun t d => setPreset_effect t n d⟩⟩
  · dsimp only
    rw [exec_writePresetOpen ready n fade few]
    refine ⟨editRefused_answerEdit ready tag _, fun may outside => ?_, fun may above below long => ?_,
      fun i may number short full => ?_⟩
    · rw [answerOpenPreset_badTarget may.refreshLease outside, reply_plain_refreshLease ready]
    · have number : n = numberOf (⟨n - 1, by omega⟩ : PresetNo) := (Nat.sub_add_cancel above).symm
      rw [number, answerOpenPreset_badRecord may.refreshLease _ long, reply_plain_refreshLease ready]
    · rw [number, answerOpenPreset_tableFull may.refreshLease short full, reply_plain_refreshLease ready]
  · dsimp only
    rw [exec_writePresetPairs ready n some_ few]
    refine ⟨editRefused_answerEdit ready tag _, fun may closed => ?_, fun e may edit number => ?_⟩
    · rw [answerPresetPairs_closed may.refreshLease (by rw [edit_refreshLease]; exact closed),
        reply_plain_refreshLease ready]
    subst number
    rw [← edit_refreshLease] at edit
    refine ⟨fun bad => ?_, fun pairs written => ⟨fun bad => ?_, fun levels once full room => ?_⟩⟩
    · rw [answerPresetPairs_untyped may.refreshLease edit (typedPairs_none bad), reply_plain_refreshLease ready]
    · have refused : (s.refreshLease p).answerPresetPairs p (numberOf e.preset) list =
          .plain (s.refreshLease p) .badRecord := by
        cases typed : typedPairs list with
        | none => exact answerPresetPairs_untyped may.refreshLease edit typed
        | some read =>
          have same : read = pairs := List.map_injective_iff.mpr writtenPair_injective
            ((typedPairs_written typed).trans written)
          rw [answerPresetPairs_typed may.refreshLease edit typed, same, if_neg]
          rintro ⟨once, fits⟩
          exact bad.elim (fun twice => twice once) fun more => absurd fits (Nat.not_le.mpr more)
      rw [refused, reply_plain_refreshLease ready]
    · have typed : typedPairs list = some pairs := by rw [written]; exact typedPairs_raw pairs levels
      rw [answerPresetPairs_typed may.refreshLease edit typed, if_pos ⟨once, full.le⟩]
      unfold takePairs
      rw [if_neg (Nat.not_lt.mpr full.ge), pairsFit_false (s := s.refreshLease p) room, setEdit_refreshLease]
      exact congrArg _ (reply_taken (u := s.setEdit p none) ready.settled 0x41 tag .tableFull)
  · rw [exec_writePresetOpen ready (numberOf n) fade (Nat.zero_le _), answerOpenPreset_undefines may.refreshLease short,
      setEdit_refreshLease, setPreset_refreshLease]
    exact congrArg _ (reply_taken (u := (s.setEdit p none).setPreset n none) ready.settled 0x41 tag .ok)
  · rw [exec_writePresetOpen ready (numberOf n) fade few, answerOpenPreset_opens may.refreshLease short some_ room,
      setEdit_refreshLease]
    exact congrArg _ (reply_taken (u := s.setEdit p
      (some { preset := n, fade := fade, declared := count, received := [] })) ready.settled 0x41 tag .ok)
  · subst preset
    rw [← edit_refreshLease] at edit
    rw [exec_writePresetPairs ready _ (by rw [List.length_map]; exact some_) (by rw [List.length_map]; exact few),
      answerPresetPairs_typed may.refreshLease edit (typedPairs_raw list levels), if_pos ⟨once, more.le⟩]
    unfold takePairs
    rw [if_pos more, setEdit_refreshLease]
    exact congrArg _ (reply_taken (u := s.setEdit p (some { e with received := e.received ++ list })) ready.settled
      0x41 tag .ok)
  · subst preset
    rw [← edit_refreshLease] at edit
    rw [exec_writePresetPairs ready _ (by rw [List.length_map]; exact some_) (by rw [List.length_map]; exact few),
      answerPresetPairs_typed may.refreshLease edit (typedPairs_raw list levels), if_pos ⟨once, full.le⟩]
    unfold takePairs
    rw [if_neg (Nat.not_lt.mpr full.ge), pairsFit_iff (s := s.refreshLease p).mpr room, if_pos rfl, setEdit_refreshLease,
      setPreset_refreshLease]
    exact congrArg _ (reply_taken (u := (s.setEdit p none).setPreset e.preset
      (some { defaultFade := e.fade, pairs := e.received ++ list })) ready.settled 0x41 tag .ok)

end Sys2Proof.Machine
end

section
/-! SUPPORT. Writes of sequences, mode records, role records and settings; and with it the statement on record writes. -/

namespace Sys2Proof.Machine
open State

section
variable {s : State} {p : Port} {tag : Byte} (ready : Ready s p)
include ready

theorem exec_writeSequence (n : Nat) {q : RawSequence} (few : q.steps.length ≤ 16) :
    exec (.writeSequence p tag (.fields (n, q))) s =
      .next (((s.refreshLease p).answerWriteSequence p n q).reply p 0x41 tag) :=
  congrArg Host.Outcome.next (serve_ready (f := (n, q)) 0x41 tag
    (fun t f => t.answerWriteSequence p f.1 f.2) ready (decide_eq_true few))

theorem exec_writeModeRecord (n : Nat) (r : RawModeRecord) : exec (.writeModeRecord p tag (.fields (n, r))) s =
    .next (((s.refreshLease p).answerWriteMode p n r).reply p 0x41 tag) :=
  congrArg Host.Outcome.next (serve_ready (f := (n, r)) 0x41 tag (fun t f => t.answerWriteMode p f.1 f.2) ready rfl)

theorem exec_writeRoleRecord (n : Nat) (r : RawRoleRecord) : exec (.writeRoleRecord p tag (.fields (n, r))) s =
    .next (((s.refreshLease p).answerWriteRole p n r).reply p 0x41 tag) :=
  congrArg Host.Outcome.next (serve_ready (f := (n, r)) 0x41 tag (fun t f => t.answerWriteRole p f.1 f.2) ready rfl)

theorem exec_writeSystemSetting (setting line v : Nat) : exec (.writeSystemSetting p tag (.fields (setting, line, v))) s =
    .next (((s.refreshLease p).answerWriteSetting p setting line v).reply p 0x41 tag) :=
  congrArg Host.Outcome.next (serve_ready (f := (setting, line, v)) 0x41 tag
    (fun t f => t.answerWriteSetting p f.1 f.2.1 f.2.2) ready rfl)

end

namespace State

/-! ## Sequences -/

section
variable {s : State} {p : Port} {q : RawSequence} (may : MayEdit s p)
include may

theorem answerWriteSequence_badTarget {n : Nat} (outside : n = 0 ∨ 16 < n) :
    s.answerWriteSequence p n q = .plain s .badTarget := by
  unfold answerWriteSequence
  rw [answerEdit_of_mayEdit _ may, indexOf_none.mpr outside]

theorem answerWriteSequence_inUse {n : SequenceNo} (used : s.sequenceUsers n ≠ []) :
    s.answerWriteSequence p (numberOf n) q = .plain s .inUse := by
  unfold answerWriteSequence
  rw [answerEdit_of_mayEdit _ may, indexOf_numberOf]
  refine if_pos ?_
  rw [Bool.not_eq_true', Bool.eq_false_iff, ne_eq, List.isEmpty_iff]
  exact used

theorem answerWriteSequence_unused {n : SequenceNo} (unused : s.sequenceUsers n = []) :
    s.answerWriteSequence p (numberOf n) q =
      match RawSequence.typed q with
      | none => .plain s .badRecord
      | some d => .plain (s.onTables fun t =>
          { t with sequences := t.sequences.set n (if d.steps.isEmpty then none else some d) }) .ok := by
  unfold answerWriteSequence
  rw [answerEdit_of_mayEdit _ may, indexOf_numberOf]
  dsimp only
  rw [unused]
  rfl

end

/-! ## Mode records -/

section
variable {s : State} {p : Port} {n : Nat} {r : RawModeRecord} (may : MayEdit s p)
include may

theorem answerWriteMode_badTarget (unknown : HouseMode.ofCode n = none) : s.answerWriteMode p n r = .plain s .badTarget := by
  unfold answerWriteMode
  rw [answerEdit_of_mayEdit _ may, unknown]

theorem answerWriteMode_known {m : HouseMode} (known : HouseMode.ofCode n = some m) : s.answerWriteMode p n r =
    match RawModeRecord.typed r with
    | none => .plain s .badRecord
    | some d => .plain (s.onTables fun t => { t with modes := t.modes.set m.ix d }) .ok := by
  unfold answerWriteMode
  rw [answerEdit_of_mayEdit _ may, known] <;> rfl

end

/-! ## Role records -/

section
variable {s : State} {p : Port} {n : Nat} {r : RawRoleRecord}

theorem answerWriteRole_refused {status : Status}
    (refused : s.writeRefusal (s.permits p .edit && s.permits p .admin) = some status) :
    s.answerWriteRole p n r = .plain s status := by
  unfold answerWriteRole
  rw [refused]

theorem writeRefusal_none (may : MayEdit s p) : s.writeRefusal true = none := by
  simp [writeRefusal, saving, may.mode, may.saves]

variable (may : MayEdit s p) (admin : s.permits p .admin = true)
include may admin

theorem answerWriteRole_badTarget (unknown : Port.ofCode n = none) : s.answerWriteRole p n r = .plain s .badTarget := by
  unfold answerWriteRole
  rw [may.allowed, admin, Bool.and_self, writeRefusal_none may, unknown]

theorem answerWriteRole_known {q : Port} (known : Port.ofCode n = some q) : s.answerWriteRole p n r =
    match RawRoleRecord.typed r with
    | none => .plain s .badRecord
    | some d => .plain (s.onTables fun t => { t with roles := t.roles.set q.ix d }) .ok := by
  unfold answerWriteRole
  rw [may.allowed, admin, Bool.and_self, writeRefusal_none may, known] <;> rfl

end

/-! ## Settings -/

section
variable {s : State} {p : Port} {setting line v : Nat} (may : MayEdit s p)
include may

theorem answerWriteSetting_badTarget (unknown : lineSetting setting line = none) :
    s.answerWriteSetting p setting line v = .plain s .badTarget := by
  unfold answerWriteSetting
  rw [answerEdit_of_mayEdit _ may, unknown]

theorem answerWriteSetting_known {n : Option LineNo} (known : lineSetting setting line = some n) :
    s.answerWriteSetting p setting line v =
      match Settings.replaced s.tables.settings setting n v with
      | none => .plain s .badRecord
      | some x => .plain (s.setSetting setting n v x) .ok := by
  unfold answerWriteSetting
  rw [answerEdit_of_mayEdit _ may, known] <;> rfl

end

end State

/-- The first three checks of a role write (R186). -/
theorem editRefused_role {s : State} {p : Port} (ready : Ready s p) (tag : Byte) (n : Nat) (r : RawRoleRecord) :
    EditRefused s p tag (s.permits p .edit && s.permits p .admin)
      (.next (((s.refreshLease p).answerWriteRole p n r).reply p 0x41 tag)) := by
  have refused {status : Status} (h : s.writeRefusal (s.permits p .edit && s.permits p .admin) = some status) :
      Host.Outcome.next (((s.refreshLease p).answerWriteRole p n r).reply p 0x41 tag) =
        (.next (answered s p 0x41 tag status .empty) : Host.Outcome State Fault Refusal) := by
    rw [answerWriteRole_refused (s := s.refreshLease p) h, reply_plain_refreshLease ready]
  constructor
  case denied => exact fun lacks => refused (by rw [lacks]; rfl)
  case showActive => exact fun holds mode => refused (by rw [holds, writeRefusal_of_inShow mode])
  case saving => exact fun holds mode saves => refused (by rw [holds, writeRefusal_of_saving mode saves])

section
variable {s : State} {p : Port} {tag : Byte} (ready : Ready s p) (may : MayEdit s p)
include ready may

/-- A setting of the part is written where its value is in range, and refused elsewhere (R197, R198). -/
theorem setting_written {setting line v : Nat} (known : lineSetting setting line = some none) (fits : Prop)
    [Decidable fits] {y : Settings}
    (replaced : Settings.replaced s.tables.settings setting none v = if fits then some y else none) :
    (fits → exec (.writeSystemSetting p tag (.fields (setting, line, v))) s =
      .next (answered { s with tables := { s.tables with settings := y } } p 0x41 tag .ok .empty))
    ∧ (¬ fits → exec (.writeSystemSetting p tag (.fields (setting, line, v))) s =
      .next (answered s p 0x41 tag .badRecord .empty)) := by
  have checks := answerWriteSetting_known may.refreshLease (v := v) known
  rw [show Settings.replaced (s.refreshLease p).tables.settings setting none v = _ from replaced] at checks
  rw [exec_writeSystemSetting ready, checks]
  refine ⟨fun fit => ?_, fun off => ?_⟩
  · rw [if_pos fit]
    exact congrArg _ (reply_taken (u := { s with tables := { s.tables with settings := y } }) ready.settled 0x41 tag .ok)
  · rw [if_neg off]
    exact congrArg _ (reply_plain_refreshLease ready 0x41 tag .badRecord)

/-- A line setting also becomes pending on its line (R174). -/
theorem lineSetting_written {setting v : Nat} {n : LineNo} (known : lineSetting setting (numberOf n) = some (some n))
    {y : Settings} (replaced : Settings.replaced s.tables.settings setting (some n) v = some y)
    {f : PwmLine → PwmLine} (pending : (fun x => PwmLine.await x setting v) = f) :
    exec (.writeSystemSetting p tag (.fields (setting, numberOf n, v))) s =
      .next (answered { s with tables := { s.tables with settings := y }, lines := s.lines.modify n f }
        p 0x41 tag .ok .empty) := by
  have checks := answerWriteSetting_known may.refreshLease (v := v) known
  rw [show Settings.replaced (s.refreshLease p).tables.settings setting (some n) v = _ from replaced] at checks
  rw [exec_writeSystemSetting ready, checks, ← pending]
  exact congrArg _ (reply_taken (u := { s with
    tables := { s.tables with settings := y }, lines := s.lines.modify n fun x => PwmLine.await x setting v })
    ready.settled 0x41 tag .ok)

theorem lineSetting_refused {setting v : Nat} {n : LineNo} (known : lineSetting setting (numberOf n) = some (some n))
    (replaced : Settings.replaced s.tables.settings setting (some n) v = none) :
    exec (.writeSystemSetting p tag (.fields (setting, numberOf n, v))) s =
      .next (answered s p 0x41 tag .badRecord .empty) := by
  have checks := answerWriteSetting_known may.refreshLease (v := v) known
  rw [show Settings.replaced (s.refreshLease p).tables.settings setting (some n) v = _ from replaced] at checks
  rw [exec_writeSystemSetting ready, checks]
  exact congrArg _ (reply_plain_refreshLease ready 0x41 tag .badRecord)

end

theorem lineSetting_line {setting : Nat} (ofLine : setting = 8 ∨ setting = 9) (n : LineNo) :
    lineSetting setting (numberOf n) = some (some n) := by
  unfold lineSetting
  rw [if_pos ofLine, indexOf_numberOf]
  rfl

theorem lineSetting_part {setting : Nat} (below : setting < 8) (line : Nat) : lineSetting setting line = some none := by
  unfold lineSetting
  rw [if_neg (by omega), if_pos below]

theorem polarity_none {v : Nat} (h : 1 < v) : Polarity.ofCode v = none := by
  match v, h with
  | _ + 2, _ => rfl

/-- Settles O41. -/
theorem recordWritesReplaceTheRecord : Obligations.RecordWritesReplaceTheRecord := by
  refine ⟨fun s p tag ready => ⟨fun n q few => ?_, fun n r => ?_, fun n r => ?_, fun setting line v => ?_⟩,
    fun s p tag ready may => ⟨fun n q unused few good => ?_, fun n q used few => ?_, fun n m r known good => ?_,
      fun n q r admin known good => ?_, fun n r lacks => ?_, fun line v => ?_, fun n v => ?_⟩⟩
  · dsimp only
    rw [exec_writeSequence ready n few]
    refine ⟨editRefused_answerEdit ready tag _, fun may outside => ?_, fun i may number unused bad => ?_⟩
    · rw [answerWriteSequence_badTarget may.refreshLease outside, reply_plain_refreshLease ready]
    · rw [number, answerWriteSequence_unused (s := s.refreshLease p) may.refreshLease unused,
        (sequence_checks q).1.mpr bad]
      exact congrArg _ (reply_plain_refreshLease ready 0x41 tag .badRecord)
  · dsimp only
    rw [exec_writeModeRecord ready]
    refine ⟨editRefused_answerEdit ready tag _, fun may unknown => ?_, fun may known bad => ?_⟩
    · rw [answerWriteMode_badTarget may.refreshLease unknown, reply_plain_refreshLease ready]
    · obtain ⟨m, code⟩ := Option.ne_none_iff_exists'.mp known
      rw [answerWriteMode_known may.refreshLease code, (modeRecord_checks r).1.mpr bad]
      exact congrArg _ (reply_plain_refreshLease ready 0x41 tag .badRecord)
  · dsimp only
    rw [exec_writeRoleRecord ready]
    refine ⟨editRefused_role ready tag n r, fun may admin unknown => ?_, fun may admin known bad => ?_⟩
    · rw [answerWriteRole_badTarget may.refreshLease admin unknown, reply_plain_refreshLease ready]
    · obtain ⟨q, code⟩ := Option.ne_none_iff_exists'.mp known
      rw [answerWriteRole_known may.refreshLease admin code, (roleRecord_checks r).1.mpr bad]
      exact congrArg _ (reply_plain_refreshLease ready 0x41 tag .badRecord)
  · dsimp only
    rw [exec_writeSystemSetting ready]
    refine ⟨editRefused_answerEdit ready tag _, fun may unknown => ?_⟩
    rw [answerWriteSetting_badTarget may.refreshLease (lineSetting_none unknown), reply_plain_refreshLease ready]
  · obtain ⟨none_iff, written⟩ := sequence_checks q
    cases typed : RawSequence.typed q with
    | none => exact absurd (none_iff.mp typed) good
    | some d =>
      have steps : q.steps = d.steps.map writtenStep := (congrArg RawSequence.steps (written d typed)).symm
      have entry : (if d.steps.isEmpty then none else some d) = if q.steps = [] then none else some d := by
        simp only [steps, List.map_eq_nil_iff, List.isEmpty_iff]
      refine ⟨d, written d typed, ?_⟩
      rw [exec_writeSequence ready _ few, answerWriteSequence_unused (s := s.refreshLease p) may.refreshLease unused, typed,
        ← entry]
      exact congrArg _ (reply_taken (u := { s with tables := { s.tables with
        sequences := s.tables.sequences.set n (if d.steps.isEmpty then none else some d) } }) ready.settled 0x41 tag .ok)
  · rw [exec_writeSequence ready _ few, answerWriteSequence_inUse (s := s.refreshLease p) may.refreshLease used,
      reply_plain_refreshLease ready]
  · obtain ⟨none_iff, written⟩ := modeRecord_checks r
    cases typed : RawModeRecord.typed r with
    | none => exact absurd (none_iff.mp typed) good
    | some d =>
      refine ⟨d, written d typed, ?_⟩
      rw [exec_writeModeRecord ready, answerWriteMode_known may.refreshLease known, typed]
      exact congrArg _ (reply_taken (u := { s with tables := { s.tables with modes := s.tables.modes.set m.ix d } })
        ready.settled 0x41 tag .ok)
  · obtain ⟨none_iff, written⟩ := roleRecord_checks r
    cases typed : RawRoleRecord.typed r with
    | none => exact absurd (none_iff.mp typed) good
    | some d =>
      refine ⟨d, written d typed, ?_⟩
      let u := (s.refreshLease p).onTables fun t => { t with roles := t.roles.set q.ix d }
      rw [exec_writeRoleRecord ready, answerWriteRole_known may.refreshLease admin known, typed]
      refine congrArg Host.Outcome.next ((reply_plain u .ok p 0x41 tag).trans ?_)
      rw [replay_of_clear u ready.settled, ← respond_refreshLease]
      rfl
  · rw [exec_writeRoleRecord ready]
    refine (editRefused_role ready tag n r).denied ?_
    rw [lacks, Bool.and_false]
  · have written {setting : Nat} (below : setting < 8) := setting_written (tag := tag) (v := v) ready may
      (lineSetting_part below line)
    refine ⟨written (by decide) _ rfl, written (by decide) _ rfl, written (by decide) _ rfl, written (by decide) _ rfl,
      written (by decide) _ rfl, written (by decide) _ rfl, written (by decide) _ rfl, fun m code => ?_, fun outside => ?_⟩
    · refine written (setting := 7) (by decide) True ?_
      show (HouseMode.ofCode v).map _ = _
      rw [code, if_pos trivial]
      rfl
    · refine written (setting := 7) (by decide) False ?_
      show (HouseMode.ofCode v).map _ = _
      rw [houseMode_none outside, if_neg not_false]
      rfl
  · refine ⟨fun low high => ?_, fun outside => ?_, fun pol code => ?_, fun outside => ?_⟩
    · exact lineSetting_written ready may (lineSetting_line (.inl rfl) n) (if_pos ⟨low, high⟩) rfl
    · exact lineSetting_refused ready may (lineSetting_line (.inl rfl) n) (if_neg (by omega))
    · refine lineSetting_written ready may (lineSetting_line (.inr rfl) n) ?_ ?_
      · show (Polarity.ofCode v).map _ = _
        rw [code]
        rfl
      · unfold PwmLine.await
        rw [code]
        rfl
    · refine lineSetting_refused ready may (lineSetting_line (.inr rfl) n) ?_
      show (Polarity.ofCode v).map _ = _
      rw [polarity_none outside]
      rfl

end Sys2Proof.Machine
end

section
/-! SUPPORT. Mode changes and replays leave the emergency as its recoveries leave it. -/

namespace Sys2Proof.Machine
open State
namespace State

theorem enterPreset_recovers (s : State) (r : ModeRecord) : Recovers s (s.enterPreset r).1 := by
  unfold enterPreset
  cases r.entryPreset with
  | none => exact Recovers.refl s
  | some a =>
    dsimp only
    cases s.presetDef a with
    | none =>
      dsimp only
      exact Recovers.refl s
    | some d =>
      dsimp only
      cases s.placeRefusal .mode r.entryRank (PresetDef.circuits d) false with
      | none =>
        dsimp only
        exact place_recovers s _
      | some _ =>
        dsimp only
        exact (Quiet.of_ports (s := s) (t := s.countPoolRefusal) rfl rfl rfl).recovers

theorem startRun_runs (s : State) (n : PlayerNo) (q : SequenceNo) (m : RunMode) (source : RunSource) :
    RunOf n s (s.startRun n q m source).1 := by
  obtain ⟨w, start, _, run, _⟩ := startRun_off s n q m source
  rw [start]
  exact run.trans (takeStep_runs w n)

/-- A run request that continues changes its player alone; another starts a run, after a stop where one was on (R133). -/
theorem runRequest_runs (s : State) (n : PlayerNo) (q : SequenceNo) (m : RunMode) (source : RunSource) :
    RunOf n s (s.runRequest n q m source).1 := by
  unfold runRequest
  split
  · exact startRun_runs s n q m source
  · split
    · dsimp only
      exact RunOf.of_setPlayer s n _
    · dsimp only
      exact (stopPlayer_stopped s n source).2.1.trans (startRun_runs _ n q m source)

theorem enterSequence_recovers (s : State) (r : ModeRecord) : Recovers s (s.enterSequence r).1 := by
  unfold enterSequence
  cases r.entrySequence with
  | none => exact Recovers.refl s
  | some e =>
    cases e with
    | off n =>
      dsimp only
      split
      · exact Recovers.refl s
      · dsimp only
        exact (stopPlayer_stopped s n .mode).2.1.recovers
    | run n m q =>
      dsimp only
      cases s.sequenceDef q with
      | none =>
        dsimp only
        exact Recovers.refl s
      | some d =>
        dsimp only
        exact (runRequest_runs s n q m .mode).recovers

/-- A mode change leaves the emergency as the recoveries its releases and placements end leave it (R149, R164). -/
theorem changeMode_recovers (s : State) (m : HouseMode) (source : ModeSource) :
    Recovers s (s.changeMode m source).1 := by
  have entered := (enterMode_entered s m).2.2.1.recovers
  have released := releaseAll_recovers (s.enterMode m) .mode (s.modeRecord m).entryFade
  have placed := enterPreset_recovers ((s.enterMode m).releaseAll .mode (s.modeRecord m).entryFade) (s.modeRecord m)
  have started := enterSequence_recovers
    (((s.enterMode m).releaseAll .mode (s.modeRecord m).entryFade).enterPreset (s.modeRecord m)).1 (s.modeRecord m)
  exact (((entered.trans released).trans placed).trans started).trans (announce_quiet _ _).recovers

theorem replayEntry_recovers (s : State) (d : Deferred) : Recovers s (s.replayEntry d) := by
  unfold replayEntry
  split
  · cases s.fieldRefusal (s.deferredWork d) with
    | none => exact doReplayedWork_recovers s _
    | some refusal =>
      cases refusal with
      | locked =>
        exact (Quiet.of_ports (s := s) (t := { s with deferred := s.deferred ++ [d] }) rfl rfl rfl).recovers
      | badTarget | denied | poolFull => exact (Quiet.of_ports (s := s) (t := s.countDropped) rfl rfl rfl).recovers
  · exact (Quiet.of_ports (s := s) (t := s.countExpired) rfl rfl rfl).recovers

theorem afterRemoval_recovers (s : State) : Recovers s s.afterRemoval := by
  unfold afterRemoval
  split
  · exact (Quiet.of_ports (s := s) (t := { s with deferWarned := false }) rfl rfl rfl).recovers
  · exact .refl s

theorem replayQueue_recovers (s : State) : Recovers s s.replayQueue := by
  have pass : Recovers s (s.deferred.foldl replayEntry { s with deferred := [] }) :=
    (Quiet.of_ports (s := s) (t := { s with deferred := [] }) rfl rfl rfl).recovers.trans
      (foldl_keeps Recovers .refl (fun _ _ _ => .trans) replayEntry replayEntry_recovers _ _)
  unfold replayQueue
  dsimp only
  split
  · exact pass.trans (afterRemoval_recovers _)
  · exact pass

theorem retryStep_recovers (s : State) (n : PlayerNo) : Recovers s (s.retryStep n) := by
  unfold retryStep
  cases (s.player n).run with
  | idle => exact .refl s
  | running _ => exact .refl s
  | waitLock =>
    dsimp only
    split
    · exact .refl s
    · exact (takeStep_runs s n).recovers

theorem takeReplay_recovers (s : State) : Recovers s s.takeReplay :=
  ((replayQueue_recovers s).trans
    (foldl_keeps Recovers .refl (fun _ _ _ => .trans) retryStep retryStep_recovers _ _)).trans
    (settleSlots_quiet _ _).recovers

theorem clearOwed_recovers (s : State) : Recovers s { s with replayOwed := false } :=
  (Quiet.of_ports (s := s) (t := { s with replayOwed := false }) rfl rfl rfl).recovers

theorem replayWithin_recovers : ∀ (n : Nat) (s : State), Recovers s (s.replayWithin n)
  | 0, s => clearOwed_recovers s
  | n + 1, s => by
    unfold replayWithin
    split
    · exact ((clearOwed_recovers s).trans (takeReplay_recovers _)).trans (replayWithin_recovers n _)
    · exact .refl s

/-- A replay leaves the emergency as the recoveries its releases and placements end leave it (R125, R164). -/
theorem replay_recovers (s : State) : Recovers s s.replay := replayWithin_recovers 5 s

end State

end Sys2Proof.Machine
end

section
/-! SUPPORT. The full reset and saves; and with them the statements on them. -/

namespace Sys2Proof.Machine
open State
namespace State

/-! ## Full reset -/

theorem counterValues_afterFullReset (now : Nat) (line : Contact) (m : Option StoredImage) (l : List Instr) :
    (State.afterFullReset now line m l).counterValues = List.replicate 29 0 := by
  have port : ∀ q, (State.afterFullReset now line m l).port q = .fresh := fun _ => Tab.get_const _ _
  have loop : ∀ i, (State.afterFullReset now line m l).loop i = .fresh := fun _ => Tab.get_const _ _
  unfold counterValues
  simp only [port, loop]
  rfl

end State

/-- Settles O43. -/
theorem fullResetClears : Obligations.FullResetClears := by
  intro s
  refine ⟨_, rfl, rfl, fun q => ?_, fun c => ?_, rfl, fun n => Tab.get_const _ _, rfl, rfl, fun n => Tab.get_const _ _,
    rfl, rfl, rfl, rfl, fun n => ?_, rfl, rfl, rfl, counterValues_afterFullReset _ _ _ _⟩
  · have fresh : (State.afterFullReset s.now s.emergency.line s.memoryAtReset s.pending).port q = .fresh :=
      Tab.get_const _ _
    rw [fresh]
    exact ⟨rfl, rfl, rfl, rfl, rfl, rfl⟩
  · unfold State.claims
    rw [circuit_afterFullReset]
    exact ⟨rfl, rfl, rfl⟩
  · exact congrArg PwmLine.drive (Tab.get_const _ n)

/-! ## SAVE_CONFIG -/

namespace State

/-- What the end of a save tells (R181, R199): CONFIG to all, and to the saving port its notice and its reply, where the
reply is still owed. -/
theorem finishSave_ended (s : State) (x : Save) (note : Notice) (image : Validity) (status : Status) (t : State)
    (ended : s.finishSave x note image status = t) :
    Announced t (.config image)
    ∧ (x.replyOwed = true → Replied t x.port 0x42 x.tag status .empty
        ∧ ((s.port x.port).isOnline = true → Told t x.port note))
    ∧ (x.replyOwed = false → (t.port x.port).lastReply = (s.port x.port).lastReply)
    ∧ t = { s with ports := t.ports } := by
  unfold finishSave at ended
  split at ended
  · rename_i owed
    let u := (s.notify x.port note).announce (.config image)
    have heard := respond_heard u x.port 0x42 x.tag status .empty
    have told : (s.port x.port).isOnline = true → Told u x.port note := fun on =>
      (announce_heard _ _).told _ _ (notify_told s x.port note on)
    rw [← ended]
    exact ⟨heard.announced (announce_announced _ _),
      fun _ => ⟨replied_respond _ _ _ _ _ _, fun on => heard.told _ _ (told on)⟩,
      fun gone => absurd owed (by rw [gone]; exact Bool.false_ne_true), rfl⟩
  · rename_i gone
    rw [← ended]
    exact ⟨announce_announced _ _, fun owed => absurd owed gone,
      fun _ => ((announce_claims s (.config image)).ports x.port.ix).lastReply, rfl⟩

end State

theorem exec_saveConfig {s : State} {p : Port} {tag : Byte} (ready : Ready s p) :
    exec (.saveConfig p tag (.fields ())) s =
      if !s.permits p .edit then .next (answered s p 0x42 tag .denied .empty)
      else if s.saving then .next (answered s p 0x42 tag .busySaving .empty)
      else .next ((s.refreshLease p).beginSave p tag) := by
  rw [← respond_refreshLease, ← respond_refreshLease]
  show execSaveConfig p tag (.fields ()) s = _
  unfold execSaveConfig
  rw [receive_ready 0x42 tag ready rfl]
  rfl

theorem exec_saveDone {s : State} {x : Save} (saves : s.save = some x) :
    exec .saveDone s = .next ({ s with save := none, memory := some (imageOf x.tables), imageState := .valid }.finishSave
      x .saveDone .valid .ok) := by
  show execSaveDone s = _
  unfold execSaveDone
  rw [saves]

theorem exec_saveFailed {s : State} {x : Save} (saves : s.save = some x) (failure : SaveFailure) :
    exec (.saveFailed failure) s = .next ({ s with
      save := none, memory := State.failedImage x failure, imageState := .invalid }.finishSave x .saveFailed .invalid
        .saveFailed) := by
  show execSaveFailed failure s = _
  unfold execSaveFailed
  rw [saves]

/-- Settles O46. -/
theorem saveBeginsAndEnds : Obligations.SaveBeginsAndEnds := by
  refine ⟨fun s p tag ready => ⟨fun may free => ?_, fun may saves => ?_, fun denied => ?_⟩,
    fun s x saves => ⟨?_, fun failure => ?_⟩⟩
  · rw [exec_saveConfig ready, if_neg (by rw [may]; decide), if_neg (by unfold saving; rw [free]; decide)]
    have port : ((s.refreshLease p).beginSave p tag).port p = { s.port p with
        link := .online (s.now + (s.role p).lease * Config.second), orphanEnd := none } := port_onPort s p _
    refine ⟨_, rfl, rfl, rfl, rfl, ?_, ?_, ?_, rfl⟩
    · exact beq_self_eq_true p
    · rw [port]
    · exact ⟨by rw [port], by rw [port]⟩
  · rw [exec_saveConfig ready, if_neg (by rw [may]; decide), if_pos (show s.saving = true from Option.isSome_iff_ne_none.mpr saves)]
  · rw [exec_saveConfig ready, if_pos (by rw [denied]; rfl)]
  · generalize ended : { s with save := none, memory := some (imageOf x.tables), imageState := .valid }.finishSave
      x .saveDone .valid .ok = t
    obtain ⟨told, owed, gone, frame⟩ := finishSave_ended _ _ _ _ _ t ended
    refine ⟨t, (exec_saveDone saves).trans (congrArg _ ended), ?_, ?_, ?_, ?_, told, owed, gone, ?_⟩ <;>
    · rw [frame]
  · generalize ended : { s with save := none, memory := State.failedImage x failure, imageState := .invalid }.finishSave
      x .saveFailed .invalid .saveFailed = t
    obtain ⟨told, owed, gone, frame⟩ := finishSave_ended _ _ _ _ _ t ended
    have memory : t.memory = State.failedImage x failure := by rw [frame]
    refine ⟨t, (exec_saveFailed saves failure).trans (congrArg _ ended), ?_, ?_, ?_, ?_, told, fun stage => ?_, fun stage => ?_,
      fun format length crc stage => ?_, owed, gone, ?_⟩
    · rw [frame]
    · rw [frame]
    · rw [frame]
    · rw [frame]
    · rw [memory]
      obtain stage | stage | stage := stage <;> rw [stage] <;> rfl
    · rw [memory, stage]
      rfl
    · rw [memory, stage]
      rfl
    · rw [memory]
      exact frame

end Sys2Proof.Machine
end

section
/-! SUPPORT. The image and the end of start-up; and with them the statements on them. -/

namespace Sys2Proof.Machine
open State

/-! ## The image -/

/-- The bytes of an image bring it back, where its fields fit them and its length encloses its body (R196). -/
theorem ofBytes_bytes (x : StoredImage) (format : x.format < 256) (short : x.length < 65536)
    (whole : x.length = 7 + x.body.length) : StoredImage.ofBytes (StoredImage.bytes x) = some x := by
  have crc := x.crc.isLt
  have high : x.crc.toNat / 65536 < 65536 := by omega
  have low : x.crc.toNat % 65536 < 65536 := by omega
  have value : BitVec.ofNat 32 (x.crc.toNat / 65536 * 65536 + x.crc.toNat % 65536) = x.crc := by
    rw [Nat.div_add_mod', BitVec.ofNat_toNat, BitVec.setWidth_eq]
  have body : x.body.take (x.length - headerBytes) = x.body :=
    List.take_of_length_le (by rw [whole]; exact Nat.le_of_eq (Nat.add_sub_cancel_left 7 _).symm)
  unfold StoredImage.ofBytes StoredImage.bytes crc32Field
  simp only [List.append_assoc, Reads.one format _, Reads.two short _, Reads.two high _, Reads.two low _,
    Option.bind_eq_bind, Option.bind_some, Option.pure_def, value, body]

/-- An image that passes every check brings its tables (R196). -/
theorem goodTables_of_passed {x : StoredImage} {y : Tables} (format : x.format = 1)
    (length : x.length = 7 + x.body.length) (crc : x.crc = crc32 x.body)
    (tables : readTables x.body = some y) (passes : Tables.loadable y = true) :
    goodTables (some x) = some (Tables.ordered y) := by
  unfold goodTables
  rw [Option.bind_some, if_pos ⟨format, length, crc⟩, tables, Option.bind_some, if_pos passes]

/-- An image that fails a check brings none (R196). -/
theorem goodTables_of_failed {x : StoredImage} (fails : x.format ≠ 1 ∨ x.length ≠ 7 + x.body.length
    ∨ x.crc ≠ crc32 x.body ∨ readTables x.body = none ∨ ∃ y, readTables x.body = some y ∧ Tables.loadable y = false) :
    goodTables (some x) = none := by
  unfold goodTables
  rw [Option.bind_some]
  split
  · rename_i header
    obtain ⟨format, length, crc⟩ := header
    obtain h | h | h | h | ⟨y, h, bad⟩ := fails
    · exact absurd format h
    · exact absurd length h
    · exact absurd crc h
    · rw [h, Option.bind_none]
    · rw [h, Option.bind_some, bad, if_neg Bool.false_ne_true]
  · rfl

namespace State

/-- A read that did not fail is judged by what the memory holds after it (R196). -/
theorem judgeRead_good {s : State} {read : ImageRead} {x : Tables} (read_ : read ≠ .failed)
    (good : goodTables (s.memoryAfter read) = some x) : s.judgeRead read = (x, .valid) := by
  unfold judgeRead
  cases read with
  | failed => exact absurd rfl read_
  | stored | external b => simp only [good]

theorem judgeRead_bad {s : State} {read : ImageRead} (bad : goodTables (s.memoryAfter read) = none) :
    s.judgeRead read = (defaultTables, .invalid) := by
  unfold judgeRead
  cases read with
  | failed => rfl
  | stored | external b => simp only [bad]

theorem memoryAfter_of {s : State} {read : ImageRead} {image : Option StoredImage}
    (h : read = .stored ∧ image = s.memory ∨ ∃ b, read = .external b ∧ image = StoredImage.ofBytes b) :
    read ≠ .failed ∧ s.memoryAfter read = image := by
  obtain ⟨read_, memory⟩ | ⟨b, read_, memory⟩ := h <;> rw [read_, memory] <;> exact ⟨fun h => (by cases h), rfl⟩

theorem exec_imageTaken {s : State} (reading : s.startup = .reading) (read : ImageRead) :
    exec (.imageTaken read) s = .next (s.takeImage read) := by
  show execImageTaken read s = _
  unfold execImageTaken
  rw [reading]

theorem port_takeImage (s : State) (read : ImageRead) (q : Port) : (s.takeImage read).port q =
    { s.port q with linkRate := ((s.judgeRead read).1.roles.get q.ix).linkRate } := Tab.get_build _ q.ix

theorem line_takeImage (s : State) (read : ImageRead) (n : LineNo) : (s.takeImage read).lines.get n =
    { s.lines.get n with
      drive := .heldInactive, polarity := (s.judgeRead read).1.settings.pwmPolarity.get n } := Tab.get_build _ n

end State

/-- Settles O44. -/
theorem imageIsTaken : Obligations.ImageIsTaken := by
  refine ⟨fun s read reading => ⟨s.takeImage read, (s.judgeRead read).1, (s.judgeRead read).2, exec_imageTaken reading read,
    rfl, fun image taken => ?_, fun failed => ?_, fun x stored memory passes canonical => ?_, fun q => ?_, fun n => ?_⟩,
    ofBytes_bytes⟩
  · obtain ⟨read_, memory⟩ := memoryAfter_of taken
    refine ⟨memory, fun x y whole format length crc tables passes => ?_, fun bad => ?_⟩
    · have good : goodTables (s.memoryAfter read) = some (Tables.ordered y) := by
        rw [memory, whole]
        exact goodTables_of_passed format length crc tables passes
      rw [judgeRead_good read_ good]
      exact ⟨rfl, rfl⟩
    · have none_ : goodTables (s.memoryAfter read) = none := by
        rw [memory]
        obtain absent | ⟨x, whole, fails⟩ := bad
        · rw [absent]
          rfl
        · rw [whole]
          exact goodTables_of_failed fails
      rw [judgeRead_bad none_]
      exact ⟨rfl, rfl⟩
  · rw [failed]
    exact ⟨rfl, rfl, rfl⟩
  · have good : goodTables (s.memoryAfter read) = some (Tables.ordered x) := by
      rw [stored]
      show goodTables s.memory = _
      rw [memory]
      exact goodTables_imageOf x passes canonical
    rw [judgeRead_good (by rw [stored]; exact fun h => (by cases h)) good]
    exact ⟨rfl, rfl⟩
  · rw [port_takeImage]
    exact ⟨rfl, rfl⟩
  · rw [line_takeImage]
    exact ⟨rfl, rfl⟩

/-! ## The end of start-up -/

namespace State

theorem exec_startupEnd {s : State} {tables : Tables} {config : Validity} (judging : s.startup = .judging tables config) :
    exec .startupEnd s = .next (s.endStartup tables config) := by
  show execStartupEnd s = _
  unfold execStartupEnd
  rw [judging]

theorem startEmergency_frame (s : State) : s.startEmergency = { s with
    circuits := s.startEmergency.circuits, emergency := s.startEmergency.emergency
    counters := s.startEmergency.counters, ports := s.startEmergency.ports } := by
  unfold startEmergency
  split <;> rfl

theorem startEmergency_accepted (s : State) : s.startEmergency.emergency.accepted = s.emergency.accepted := by
  unfold startEmergency
  split <;> rfl

/-- What follows the contact as start-up ends keeps what the loading brought (R154, R196). -/
theorem endStartup_broad (s : State) (t : Tables) (config : Validity) :
    Broad (s.loadTables t config).startEmergency (s.endStartup t config) :=
  ((changeMode_broad _ _ _).trans (announce_claims _ _).toBroad).trans (replay_steady _).toBroad

theorem endStartup_mode (s : State) (t : Tables) (config : Validity) :
    (s.endStartup t config).mode = some t.settings.startMode :=
  (replay_mode _).trans ((announce_claims _ _).mode.trans (changeMode_mode _ _ _))

theorem endStartup_recovers (s : State) (t : Tables) (config : Validity) :
    Recovers (s.loadTables t config).startEmergency (s.endStartup t config) :=
  ((changeMode_recovers _ _ _).trans (announce_quiet _ _).recovers).trans (replay_recovers _)

end State

/-- Settles O45: the entry of the start mode and the replay leave what the loading brought, and a forcing that stands. -/
theorem startupEndsRunning : Obligations.StartupEndsRunning := by
  intro s tables config judging
  have kept := endStartup_broad s tables config
  have recovers := endStartup_recovers s tables config
  have frame := startEmergency_frame (s.loadTables tables config)
  obtain ⟨v, preset, sequence, entered, ends, told⟩ := endStartup_entered s tables config
  obtain ⟨quiet, forced⟩ := startEmergency_entered (s.loadTables tables config)
  have lines : ∀ n, (s.endStartup tables config).lines.get n = startedLine tables.settings s.now n := fun n => by
    rw [kept.lines, frame]
    exact Tab.get_build _ n
  refine ⟨s.endStartup tables config, exec_startupEnd judging, ?_, ?_, ?_, ?_, endStartup_mode s tables config, fun n => ?_, ?_,
    lines, fun r accepted asserted => ?_, ?_, _, v, preset, sequence, quiet, forced, entered, ends, told⟩
  · rw [kept.startup, frame]
    rfl
  · rw [kept.tables, frame]
    rfl
  · rw [kept.configState, frame]
    rfl
  · rw [kept.imageState, frame]
    rfl
  · rw [kept.versions, frame]
    exact Tab.get_const _ n
  · rw [kept.rackDue, frame]
    rfl
  · obtain ⟨emergency, _⟩ := forced r accepted asserted
    have active : (s.loadTables tables config).startEmergency.emergency.state = .active := by rw [emergency]
    exact (recovers.still (by rw [active]; exact fun h => (by cases h))).1.trans active
  · rw [recovers.accepted, startEmergency_accepted]
    rfl

end Sys2Proof.Machine
end

section
/-! SUPPORT. What an event leaves of the ports that are not ONLINE, and of who holds trackers. -/

namespace Sys2Proof.Machine
open State

/-- An event that no port asked for: a port that is not ONLINE hears nothing, and no port takes a tracker. -/
structure SparesAbsent (s t : State) : Prop where
  absent : ∀ q, (s.port q).isOnline = false → t.port q = s.port q
  held : ∀ k ∈ t.trackers, ∃ x ∈ s.trackers, k.port = x.port

namespace SparesAbsent

theorem of_eq {s t : State} (ports : t.ports = s.ports) (trackers : t.trackers = s.trackers) : SparesAbsent s t :=
  ⟨fun q _ => by unfold State.port; rw [ports], fun k m => ⟨k, by rw [← trackers]; exact m, rfl⟩⟩

theorem refl (s : State) : SparesAbsent s s := of_eq rfl rfl

theorem trans {a b c : State} (h : SparesAbsent a b) (k : SparesAbsent b c) : SparesAbsent a c where
  absent q off := (k.absent q (by rw [h.absent q off]; exact off)).trans (h.absent q off)
  held x m := by
    obtain ⟨y, hy, e⟩ := k.held x m
    obtain ⟨z, hz, f⟩ := h.held y hy
    exact ⟨z, hz, e.trans f⟩

theorem foldl {β : Type} (f : State → β → State) (h : ∀ s b, SparesAbsent s (f s b)) (l : List β) (s : State) :
    SparesAbsent s (l.foldl f s) := foldl_keeps SparesAbsent refl (fun _ _ _ => trans) f h l s

theorem without_held {s t : State} {p : Port} (h : SparesAbsent s t) (none : ∀ k ∈ s.trackers, k.port ≠ p) :
    ∀ k ∈ t.trackers, k.port ≠ p := fun k m => by
  obtain ⟨x, hx, e⟩ := h.held k m
  rw [e]
  exact none x hx

end SparesAbsent

namespace State

theorem notify_spares (s : State) (p : Port) (n : Notice) : SparesAbsent s (s.notify p n) where
  absent q off := by
    unfold notify
    rw [port_onPort_ite]
    split
    · exact if_neg (by rw [off]; exact Bool.false_ne_true)
    · rfl
  held k m := ⟨k, m, rfl⟩

theorem announce_spares (s : State) (n : Notice) : SparesAbsent s (s.announce n) where
  absent q off := by
    unfold announce onPorts State.port
    rw [Tab.get_each]
    unfold PortState.hear
    rw [show (s.ports.get q.ix).isOnline = false from off, Bool.false_and, if_neg Bool.false_ne_true]
  held k m := ⟨k, m, rfl⟩

theorem endSlot_spares (s : State) (n : SlotNo) (r : EndReason) : SparesAbsent s (s.endSlot n r) := by
  unfold endSlot
  cases s.slot n with
  | none => exact SparesAbsent.refl s
  | some k =>
    have told := notify_spares ((s.onClaims (Claim.unlink (.slot n))).setSlot n none) k.owner (.standbyEnd n r)
    exact ⟨told.absent, told.held⟩

theorem endSlots_spares (s : State) (which : Slot → Bool) (r : EndReason) : SparesAbsent s (s.endSlots which r) :=
  .foldl _ (fun s n => by
    split
    · exact endSlot_spares s n r
    · exact .refl s) _ s

theorem decrement_spares (s : State) (drops : List TrackerLink) : SparesAbsent s (s.decrement drops) where
  absent _ _ := rfl
  held k m := by
    obtain ⟨x, hx, e⟩ := List.mem_map.mp (show k ∈ s.trackers.map _ from m)
    exact ⟨x, hx, by rw [← e]⟩

theorem freeZeroTrackers_spares (s : State) : SparesAbsent s s.freeZeroTrackers := by
  have told := SparesAbsent.foldl (fun s (t : Tracker) => s.notify t.port (.fadeDone t.tag))
    (fun s t => notify_spares s t.port (.fadeDone t.tag)) (s.trackers.filter fun t => t.count == 0) s
  unfold freeZeroTrackers
  exact ⟨told.absent, fun k m => ⟨k, List.mem_of_mem_filter m, rfl⟩⟩

theorem reportRecoveries_spares (s : State) (cs : List Circuit) : SparesAbsent s (s.reportRecoveries cs) := by
  unfold reportRecoveries
  split
  · dsimp only
    split
    · exact (SparesAbsent.of_eq (s := s) (t := s.setEmergency .normal []) rfl rfl).trans (announce_spares _ _)
    · exact SparesAbsent.of_eq rfl rfl
  · exact .refl s

theorem settle_spares (s : State) (drops : List TrackerLink) (reports : List Circuit) :
    SparesAbsent s (s.settle drops reports) := by
  unfold settle endDoneSlots
  exact (((decrement_spares s drops).trans (freeZeroTrackers_spares _)).trans (reportRecoveries_spares _ _)).trans
    (endSlots_spares _ _ _)

theorem commandNotices_spares (s : State) (t : Standings) (actor : Option Owner) :
    SparesAbsent s (s.commandNotices t actor) := by
  have preempted : ∀ p (s : State) o, SparesAbsent s (s.notifyPreempted t actor p o) := fun p s o => by
    unfold notifyPreempted
    dsimp only
    split
    · exact notify_spares s p _
    · exact .refl s
  have restored : ∀ p (s : State), SparesAbsent s (s.notifyRestored t actor p) := fun p s => by
    unfold notifyRestored
    dsimp only
    split
    · exact notify_spares s p _
    · exact .refl s
  exact .foldl _ (fun s p => (SparesAbsent.foldl _ (preempted p) _ s).trans (restored p _)) _ s

/-- A placement that takes no tracker of the pool. -/
theorem place_spares (s : State) (pl : Placement) (untracked : pl.tracker = .untracked) :
    SparesAbsent s (s.place pl) := by
  have start : SparesAbsent s (s.placeStart pl) := by
    unfold placeStart
    rw [untracked]
    exact SparesAbsent.of_eq rfl rfl
  rw [place_eq]
  exact (start.trans (commandNotices_spares _ _ _)).trans (settle_spares _ _ _)

theorem release_spares (s : State) (o : Owner) (cs : List Circuit) (time : Nat) :
    SparesAbsent s (s.release o cs time) := by
  unfold release
  dsimp only
  refine SparesAbsent.trans ?_ (settle_spares _ _ _)
  refine SparesAbsent.trans ?_ (commandNotices_spares _ _ _)
  exact SparesAbsent.of_eq rfl rfl

theorem releaseAll_spares (s : State) (o : Owner) (time : Nat) : SparesAbsent s (s.releaseAll o time) :=
  release_spares s o _ time

/-! ## Players -/

theorem setPlayer_spares (s : State) (n : PlayerNo) (p : Player) : SparesAbsent s (s.setPlayer n p) := .of_eq rfl rfl

theorem faultPlayer_spares (s : State) (n : PlayerNo) (r : StepRefusal) : SparesAbsent s (s.faultPlayer n r) :=
  ((setPlayer_spares s n _).trans (announce_spares _ _)).trans (releaseAll_spares _ _ _)

theorem stopPlayer_spares (s : State) (n : PlayerNo) (r : RunSource) : SparesAbsent s (s.stopPlayer n r) :=
  ((setPlayer_spares s n _).trans (announce_spares _ _)).trans (releaseAll_spares _ _ _)

theorem takeAction_spares (s : State) (n : PlayerNo) : SparesAbsent s (s.takeAction n).1 := by
  unfold takeAction
  split
  · exact SparesAbsent.refl s
  · split
    · dsimp only
      exact (releaseAll_spares s _ _).trans (setPlayer_spares _ n _)
    · split
      · dsimp only
        exact faultPlayer_spares s n _
      · split
        · dsimp only
          exact (place_spares s _ rfl).trans (setPlayer_spares _ n _)
        · dsimp only
          exact (setPlayer_spares s n _).trans (announce_spares _ _)
        · dsimp only
          exact (SparesAbsent.of_eq (s := s) (t := s.countPoolRefusal) rfl rfl).trans (faultPlayer_spares _ n _)

theorem takeStep_spares (s : State) (n : PlayerNo) : SparesAbsent s (s.takeStep n).1 :=
  (setPlayer_spares s n _).trans (takeAction_spares _ n)

/-! ## The replay -/

theorem doFieldWork_spares (s : State) (w : FieldWork) : SparesAbsent s (s.doFieldWork w) := by
  cases w with
  | place items rank => exact place_spares s _ rfl
  | release cs time rank => exact release_spares s .field cs time

theorem doReplayedWork_spares (s : State) (w : FieldWork) : SparesAbsent s (s.doReplayedWork w) := by
  have work := doFieldWork_spares { s with slots := .const none } w
  exact ⟨work.absent, work.held⟩

theorem replayEntry_spares (s : State) (d : Deferred) : SparesAbsent s (s.replayEntry d) := by
  unfold replayEntry
  split
  · split
    · exact doReplayedWork_spares s _
    · exact SparesAbsent.of_eq rfl rfl
    · exact SparesAbsent.of_eq rfl rfl
  · exact SparesAbsent.of_eq rfl rfl

theorem afterRemoval_spares (s : State) : SparesAbsent s s.afterRemoval := by
  unfold afterRemoval
  split
  · exact SparesAbsent.of_eq rfl rfl
  · exact .refl s

theorem replayQueue_spares (s : State) : SparesAbsent s s.replayQueue := by
  have pass : SparesAbsent s (s.deferred.foldl replayEntry { s with deferred := [] }) :=
    (SparesAbsent.of_eq (s := s) (t := { s with deferred := [] }) rfl rfl).trans
      (.foldl replayEntry replayEntry_spares _ _)
  unfold replayQueue
  dsimp only
  split
  · exact pass.trans (afterRemoval_spares _)
  · exact pass

theorem retryStep_spares (s : State) (n : PlayerNo) : SparesAbsent s (s.retryStep n) := by
  unfold retryStep
  split
  · split
    · exact .refl s
    · exact takeStep_spares s n
  · exact .refl s
  · exact .refl s

theorem settleSlots_spares (s : State) (lost : SlotNo → Nat) : SparesAbsent s (s.settleSlots lost) := by
  unfold settleSlots endDoneSlots
  exact (SparesAbsent.of_eq (s := s)
    (t := { s with slots := .build fun n => (s.slot n).map (Slot.decrement (lost n)) }) rfl rfl).trans
    (endSlots_spares _ _ _)

theorem takeReplay_spares (s : State) : SparesAbsent s s.takeReplay :=
  ((replayQueue_spares s).trans (.foldl retryStep retryStep_spares _ _)).trans (settleSlots_spares _ _)

theorem clearOwed_spares (s : State) : SparesAbsent s { s with replayOwed := false } := .of_eq rfl rfl

theorem replayWithin_spares : ∀ (n : Nat) (s : State), SparesAbsent s (s.replayWithin n)
  | 0, s => clearOwed_spares s
  | n + 1, s => by
    unfold replayWithin
    split
    · exact ((clearOwed_spares s).trans (takeReplay_spares _)).trans (replayWithin_spares n _)
    · exact .refl s

theorem replay_spares (s : State) : SparesAbsent s s.replay := replayWithin_spares 5 s

end State

end Sys2Proof.Machine
end

section
/-! SUPPORT. The loss of a port and the timers that follow it; and with them the statements on them. -/

namespace Sys2Proof.Machine
open State

/-- What the steps of a port's loss change of the rest of the part (R181). -/
structure AroundPort (p : Port) (s t : State) : Prop where
  now : t.now = s.now
  tables : t.tables = s.tables
  mode : t.mode = s.mode
  loops : t.loops = s.loops
  lines : t.lines = s.lines
  slots : ∀ n y, t.slot n = some y → ∃ x, s.slot n = some x ∧ y.owner = x.owner
  held : ∀ k ∈ t.trackers, ∃ x ∈ s.trackers, k.port = x.port
  others : ∀ q, q ≠ p → (t.port q).link = (s.port q).link ∧ (t.port q).subscriptions = (s.port q).subscriptions

namespace AroundPort

theorem trans {p : Port} {a b c : State} (h : AroundPort p a b) (k : AroundPort p b c) : AroundPort p a c where
  now := k.now.trans h.now
  tables := k.tables.trans h.tables
  mode := k.mode.trans h.mode
  loops := k.loops.trans h.loops
  lines := k.lines.trans h.lines
  slots n y e := by
    obtain ⟨x, hx, f⟩ := k.slots n y e
    obtain ⟨w, hw, g⟩ := h.slots n x hx
    exact ⟨w, hw, f.trans g⟩
  held x m := by
    obtain ⟨y, hy, e⟩ := k.held x m
    obtain ⟨z, hz, f⟩ := h.held y hy
    exact ⟨z, hz, e.trans f⟩
  others q other := ⟨(k.others q other).1.trans (h.others q other).1, (k.others q other).2.trans (h.others q other).2⟩

theorem of_spares {s t : State} (p : Port) (steady : Steady s t) (spares : SparesAbsent s t) : AroundPort p s t :=
  ⟨steady.now, steady.tables, steady.mode, steady.loops, steady.lines, steady.slots, spares.held,
    fun q _ => ⟨(steady.ports q.ix).link, (steady.ports q.ix).subscriptions⟩⟩

theorem of_onPort (s : State) (p : Port) (f : PortState → PortState) : AroundPort p s (s.onPort p f) :=
  ⟨rfl, rfl, rfl, rfl, rfl, fun _ y e => ⟨y, e, rfl⟩, fun k m => ⟨k, m, rfl⟩, fun q other => by
    rw [port_onPort_ite, if_neg other]
    exact ⟨rfl, rfl⟩⟩

end AroundPort

namespace State

/-- An owner in command of a circuit has a claim there. -/
theorem mem_circuitsOf_of_inCommand {s : State} {c : Circuit} {o : Owner} (h : s.inCommand c o = true) :
    c ∈ s.circuitsOf o := by
  obtain ⟨x, commands, own⟩ := List.any_eq_true.mp (show (commanding _ (s.claims c)).any _ = true from h)
  refine List.mem_filter.mpr ⟨mem_indices c, List.find?_isSome.mpr ⟨x, (commanding_mem commands).1, own⟩⟩

/-! ## Orphan hold -/

/-- An orphan release before its replay (R182). -/
def orphansReleased (s : State) (p : Port) : State :=
  ((s.onPort p fun x => { x with orphanEnd := none }).releaseAll (.port p) (s.role p).orphanRelease).announce
    (.orphansReleased p (s.circuitsOf (.port p)).length)

theorem orphanRelease_eq (s : State) (p : Port) : s.orphanRelease p = (s.orphansReleased p).replay := rfl

theorem circuits_announce (s : State) (n : Notice) : (s.announce n).circuits = s.circuits := rfl

theorem orphansReleased_claims (s : State) (p : Port) :
    ClaimsOnly (s.onPort p fun x => { x with orphanEnd := none }) (s.orphansReleased p) :=
  (releaseAll_claims _ _ _).trans (announce_claims _ _)

theorem orphansReleased_event (s : State) (p : Port) :
    ClaimEvent (s.onPort p fun x => { x with orphanEnd := none }) (s.orphansReleased p) :=
  (orphansReleased_claims s p).event ((releaseAll_recovers _ _ _).trans (announce_quiet _ _).recovers)

theorem orphansReleased_released (s : State) (p : Port) :
    ReleasedAs s (s.orphansReleased p) (.port p) (s.circuitsOf (.port p)) (s.role p).orphanRelease := by
  let t := s.onPort p fun x => { x with orphanEnd := none }
  have same : SameClaims s t := ⟨rfl, rfl, rfl, rfl, rfl, rfl⟩
  have put := releaseAll_released t (.port p) (s.role p).orphanRelease
  rw [same.circuitsOf] at put
  unfold orphansReleased
  exact same.released (put.after (circuits_announce _ _))

theorem orphansReleased_none (s : State) (p : Port) (c : Circuit) :
    claimOf (.port p) ((s.orphansReleased p).claims c) = none := by
  unfold orphansReleased State.claims State.circuit
  rw [circuits_announce]
  exact releaseAll_none _ _ _ c

theorem orphansReleased_port (s : State) (p : Port) : ((s.orphansReleased p).port p).orphanEnd = none := by
  have same := ((orphansReleased_claims s p).ports p.ix).orphanEnd
  exact same.trans (congrArg PortState.orphanEnd (port_onPort s p _))

/-! ## The steps of a loss -/

theorem dropTrackers_around (s : State) (p : Port) : AroundPort p s (s.dropTrackers p) where
  now := (dropTrackers_claims s p).now
  tables := (dropTrackers_claims s p).tables
  mode := (dropTrackers_claims s p).mode
  loops := (dropTrackers_claims s p).loops
  lines := (dropTrackers_claims s p).lines
  slots := (dropTrackers_claims s p).slots
  held k m := ⟨k, List.mem_of_mem_filter m, rfl⟩
  others q _ := ⟨((dropTrackers_claims s p).ports q.ix).link, ((dropTrackers_claims s p).ports q.ix).subscriptions⟩

theorem dropTrackers_none (s : State) (p : Port) : ∀ k ∈ (s.dropTrackers p).trackers, k.port ≠ p := fun k m => by
  have h := (List.mem_filter.mp (show k ∈ s.trackers.filter fun t => !(t.port == p) from m)).2
  exact fun e => by rw [e, beq_self_eq_true] at h; cases h

theorem dropTrackers_ports (s : State) (p : Port) : (s.dropTrackers p).ports = s.ports :=
  foldl_keeps (fun a b : State => b.ports = a.ports) (fun _ => rfl) (fun _ _ _ h k => k.trans h)
    (fun s (t : Tracker) => s.onClaims (Claim.unlink (.pool t.id))) (fun _ _ => rfl) _ s

/-- The link lost, the port's trackers dropped, its slots ended and its edit buffer let go (R181, steps 1 to 6). -/
def cutOff (s : State) (p : Port) : State :=
  ((((s.losePort p).forgoReply p).dropTrackers p).loseSlots p).onPort p fun x => { x with edit := none }

theorem loseLease_eq (s : State) (p : Port) : s.loseLease p = (s.cutOff p).startOrphanHold p := rfl

theorem loseSlots_steady (s : State) (p : Port) : Steady s (s.loseSlots p) :=
  (endSlots_claims _ _ _).toSteady.trans (replay_steady _)

theorem loseSlots_spares (s : State) (p : Port) : SparesAbsent s (s.loseSlots p) :=
  (endSlots_spares _ _ _).trans (replay_spares _)

theorem loseSlots_none (s : State) (p : Port) (n : SlotNo) (k : Slot) (h : (s.loseSlots p).slot n = some k) :
    k.owner ≠ p := by
  obtain ⟨x, hx, owner⟩ := (replay_steady _).slots n k h
  rw [owner]
  exact endSlots_owner s p .ownerLost n x hx

theorem port_losePort (s : State) (p : Port) : (s.losePort p).port p = { s.port p with
    link := .lost (s.now + Config.quietTime), leaseLosses := bump (s.port p).leaseLosses, queue := []
    overflow := false, subscriptions := [] } := port_onPort s p _

/-- What a port's loss leaves of its port, before its orphan hold. -/
theorem port_cutOff (s : State) (p : Port) : (s.cutOff p).port p = { s.port p with
    link := .lost (s.now + Config.quietTime), leaseLosses := bump (s.port p).leaseLosses, queue := []
    overflow := false, subscriptions := [], edit := none } := by
  let u := ((s.losePort p).forgoReply p).dropTrackers p
  have lost : u.port p = (s.losePort p).port p := by
    unfold State.port u
    rw [dropTrackers_ports]
    rfl
  have off : (u.port p).isOnline = false := by
    rw [lost, port_losePort]
    rfl
  have kept : (u.loseSlots p).port p = u.port p := (loseSlots_spares u p).absent p off
  refine (port_onPort (u.loseSlots p) p _).trans ?_
  rw [kept, lost, port_losePort]

theorem cutOff_around (s : State) (p : Port) : AroundPort p s (s.cutOff p) := by
  have forgo : AroundPort p (s.losePort p) ((s.losePort p).forgoReply p) :=
    ⟨rfl, rfl, rfl, rfl, rfl, fun _ y e => ⟨y, e, rfl⟩, fun k m => ⟨k, m, rfl⟩, fun _ _ => ⟨rfl, rfl⟩⟩
  exact ((((AroundPort.of_onPort s p _).trans forgo).trans (dropTrackers_around _ p)).trans
    (.of_spares p (loseSlots_steady _ p) (loseSlots_spares _ p))).trans (.of_onPort _ p _)

theorem cutOff_trackers (s : State) (p : Port) : ∀ k ∈ (s.cutOff p).trackers, k.port ≠ p := fun k m => by
  obtain ⟨x, hx, same⟩ := (AroundPort.of_onPort _ p _).held k m
  rw [same]
  exact (loseSlots_spares _ p).without_held (dropTrackers_none _ p) x hx

theorem cutOff_slots (s : State) (p : Port) (n : SlotNo) (k : Slot) (h : (s.cutOff p).slot n = some k) :
    k.owner ≠ p := by
  obtain ⟨x, hx, same⟩ := (AroundPort.of_onPort _ p _).slots n k h
  rw [same]
  exact loseSlots_none _ p n x hx

theorem startOrphanHold_around (s : State) (p : Port) : AroundPort p s (s.startOrphanHold p) := by
  unfold startOrphanHold
  split
  · have spares : SparesAbsent (s.onPort p fun x => { x with orphanEnd := none }) (s.orphanRelease p) :=
      ((releaseAll_spares _ _ _).trans (announce_spares _ _)).trans (replay_spares _)
    exact (AroundPort.of_onPort s p _).trans
      (.of_spares p ((orphansReleased_claims s p).toSteady.trans (replay_steady _)) spares)
  · exact .of_onPort s p _

/-- The orphan hold of a port that is not ONLINE changes nothing else of it. -/
theorem port_startOrphanHold {s : State} {p : Port} (off : (s.port p).isOnline = false) :
    (s.startOrphanHold p).port p = { s.port p with orphanEnd :=
      if (s.role p).orphanHold = 0 then none else some (s.now + (s.role p).orphanHold * Config.second) } := by
  unfold startOrphanHold
  split
  · have here : (s.onPort p fun x => { x with orphanEnd := none }).port p = { s.port p with orphanEnd := none } :=
      port_onPort s p _
    have spares : SparesAbsent (s.onPort p fun x => { x with orphanEnd := none }) (s.orphanRelease p) :=
      ((releaseAll_spares _ _ _).trans (announce_spares _ _)).trans (replay_spares _)
    exact (spares.absent p (by rw [here]; exact off)).trans here
  · exact port_onPort s p _

theorem exec_lease_early {s : State} {p : Port} {e : Nat} (link : (s.port p).link = .online e) (early : s.now < e) :
    exec (.leaseExpiry p) s = .next s :=
  if_neg (by unfold leaseDue; rw [link]; simpa using early)

theorem exec_lease_due {s : State} {p : Port} {e : Nat} (link : (s.port p).link = .online e) (due : e ≤ s.now) :
    exec (.leaseExpiry p) s = .next (s.loseLease p) :=
  if_pos (by unfold leaseDue; rw [link]; simpa using due)

theorem exec_lost_early {s : State} {p : Port} {e : Nat} (link : (s.port p).link = .lost e) (early : s.now < e) :
    exec (.lostTimerExpiry p) s = .next s :=
  if_neg (by unfold lostDue; rw [link]; simpa using early)

theorem exec_lost_due {s : State} {p : Port} {e : Nat} (link : (s.port p).link = .lost e) (due : e ≤ s.now) :
    exec (.lostTimerExpiry p) s = .next (s.endLost p) :=
  if_pos (by unfold lostDue; rw [link]; simpa using due)

theorem exec_orphan_early {s : State} {p : Port} {e : Nat} (hold : (s.port p).orphanEnd = some e) (early : s.now < e) :
    exec (.orphanHoldExpiry p) s = .next s :=
  if_neg (by unfold orphanDue; rw [hold]; simpa using early)

theorem exec_orphan_due {s : State} {p : Port} {e : Nat} (hold : (s.port p).orphanEnd = some e) (due : e ≤ s.now) :
    exec (.orphanHoldExpiry p) s = .next (s.orphanRelease p) :=
  if_pos (by unfold orphanDue; rw [hold]; simpa using due)

end State

/-- Settles O48. -/
theorem leaseExpiryLosesThePort : Obligations.LeaseExpiryLosesThePort := by
  intro s p e link
  refine ⟨exec_lease_early link, fun due => ⟨s.loseLease p, exec_lease_due link due, ?_⟩⟩
  have cut := port_cutOff s p
  have around := cutOff_around s p
  have hold := startOrphanHold_around (s.cutOff p) p
  have all := around.trans hold
  have off : ((s.cutOff p).port p).isOnline = false := by
    rw [cut]
    rfl
  have role : (s.cutOff p).role p = s.role p := by
    unfold State.role
    rw [around.tables]
  have port := port_startOrphanHold off
  rw [cut, role, around.now] at port
  rw [loseLease_eq, port]
  refine ⟨rfl, rfl, rfl, rfl, rfl, rfl, fun k m => ?_, fun n k h => ?_, fun held => if_neg (Nat.ne_of_gt held), all.others,
    all.tables, all.mode, all.loops, all.lines⟩
  · obtain ⟨x, hx, same⟩ := hold.held k m
    rw [same]
    exact cutOff_trackers s p x hx
  · obtain ⟨x, hx, same⟩ := hold.slots n k h
    rw [same]
    exact cutOff_slots s p n x hx

/-- Settles O49. -/
theorem quietAndOrphanTimersEnd : Obligations.QuietAndOrphanTimersEnd := by
  refine ⟨fun s p e link => ⟨exec_lost_early link, fun due => exec_lost_due link due⟩, fun s p e hold =>
    ⟨exec_orphan_early hold, fun due => ⟨s.orphansReleased p, exec_orphan_due hold due, orphansReleased_released s p,
      announce_announced _ _, orphansReleased_none s p, fun c command free => ?_, orphansReleased_port s p,
      orphansReleased_event s p⟩⟩⟩
  exact (orphansReleased_released s p).moved c (mem_circuitsOf_of_inCommand command) command free

end Sys2Proof.Machine
end

section
/-! SUPPORT. The Output Stage and the step; and with them the statements on them. -/

namespace Sys2Proof.Machine
open State

/-! ## Outputs -/

theorem curve_le (k : Curve) {v : Nat} (h : v ≤ 1000) : Curve.apply k v ≤ 1000 := by
  cases k with
  | linear => exact h
  | square =>
    have square : v * v ≤ 1000 * 1000 := Nat.mul_le_mul h h
    show v * v / 1000 ≤ 1000
    omega

/-- An output lies between the ends of its range (R168). -/
theorem dimmedOutput_between (k : Curve) {lo hi v : Nat} (range : lo ≤ hi) (h : v ≤ 1000) :
    lo ≤ dimmedOutput k lo hi v ∧ dimmedOutput k lo hi v ≤ hi := by
  have part : (hi - lo) * Curve.apply k v / 1000 ≤ hi - lo :=
    Nat.div_le_of_le_mul (by rw [Nat.mul_comm 1000]; exact Nat.mul_le_mul_left _ (curve_le k h))
  unfold dimmedOutput
  omega

/-- Settles O60. -/
theorem outputsFollowTheRecord : Obligations.OutputsFollowTheRecord := by
  refine ⟨fun k lo hi range => ⟨fun v h => dimmedOutput_between k range h, ?_, ?_⟩, fun lo hi v => ⟨rfl, rfl⟩,
    fun s c k lo hi dimmed => ?_, fun s c h y d switched => ?_⟩
  · unfold dimmedOutput
    cases k <;> simp [Curve.apply]
  · unfold dimmedOutput
    cases k <;> simp [Curve.apply] <;> omega
  · unfold State.output
    rw [dimmed]
  · unfold State.output
    rw [switched]
    rfl

/-! ## Relays -/

namespace Relay

/-- A relay whose wish agrees with its state, or whose dwell runs, keeps its state (R170). -/
theorem act_agrees {r : Relay} (now dwell : Nat) (agrees : r.wish = r.on) : r.act now dwell = r :=
  if_neg (by rw [agrees]; simp)

theorem act_dwelling {r : Relay} {now d : Nat} (dwell : Nat) (runs : r.dwellEnd = some d) (ahead : now ≤ d) :
    r.act now dwell = r :=
  if_neg (by unfold dwelling; rw [runs]; simp [ahead])

theorem act_changes {r : Relay} {now : Nat} (dwell : Nat) (differs : r.wish ≠ r.on)
    (free : r.dwellEnd = none ∨ ∃ d, r.dwellEnd = some d ∧ d < now) : r.act now dwell = r.change now dwell := by
  refine if_pos ?_
  have rests : r.dwelling now = false := by
    unfold dwelling
    obtain none_ | ⟨d, ends, past⟩ := free
    · rw [none_]
      rfl
    · rw [ends]
      simpa using past
  rw [rests]
  simpa using differs

end Relay

namespace State

theorem onCircuit_congr (s : State) (c : Circuit) {f g : CircuitState → CircuitState}
    (h : f (s.circuit c) = g (s.circuit c)) : s.onCircuit c f = s.onCircuit c g := by
  unfold onCircuit Tab.modify
  rw [show f (s.circuits.get c) = g (s.circuits.get c) from h]

theorem exec_rackSample {s : State} {e : Nat} (stands : s.rackDue = some e) (due : e ≤ s.now) :
    exec .rackSample s = .next { s.sampleRelays.sendRackFrame with rackDue := some (e + Config.rackPeriod) } := by
  show execRackSample s = _
  unfold execRackSample
  rw [stands]
  exact if_pos due

theorem rackSlot_eq (s : State) (c : Circuit) :
    s.rackSlot c = if (s.record c).route = .link then s.output c else 0 := by
  unfold rackSlot
  cases (s.record c).route with
  | link => exact (if_pos rfl).symm
  | pwm n => exact (if_neg (fun h => by cases h)).symm
  | unrouted => exact (if_neg (fun h => by cases h)).symm

end State

/-- Settles O55. -/
theorem rackSampleJudgesAndSends : Obligations.RackSampleJudgesAndSends := by
  intro s e stands due
  have circuit : ∀ c, s.sampleRelays.circuit c =
      { s.circuit c with relay := (s.circuit c).relay.sample (s.record c).kind s.now (s.level c) } := circuit_sampleRelays s
  refine ⟨_, exec_rackSample stands due, rfl, rfl, ⟨_, rfl, rfl, List.map_congr_left fun c _ => rackSlot_eq _ c⟩,
    fun c => ?_, fun c a lo hi dimmed => (circuit c).trans ?_, fun c h y dwell switched => ?_, rfl⟩
  · show (s.sampleRelays.circuit c).claims = _ ∧ (s.sampleRelays.circuit c).transition = _
    rw [circuit]
    exact ⟨rfl, rfl⟩
  · rw [dimmed]
    rfl
  · intro wish
    have relay : (s.sampleRelays.circuit c).relay = ({ (s.circuit c).relay with wish := wish } : Relay).act s.now dwell := by
      rw [circuit, switched]
      rfl
    show (s.sampleRelays.circuit c).relay.wish = _ ∧ (_ → (s.sampleRelays.circuit c).relay = _)
      ∧ (_ → _ → (s.sampleRelays.circuit c).relay = _) ∧ (∀ d, _ → _ → _ → (s.sampleRelays.circuit c).relay = _)
    rw [relay]
    refine ⟨?_, fun agrees => Relay.act_agrees _ _ agrees, fun differs free => ?_, fun d _ runs ahead => ?_⟩
    · unfold Relay.act
      split <;> rfl
    · exact Relay.act_changes dwell differs free
    · exact Relay.act_dwelling dwell runs ahead

/-- Settles O56. -/
theorem dwellEndCarriesOutTheWish : Obligations.DwellEndCarriesOutTheWish := by
  intro s c h y dwell d switched runs due
  let relay := (s.circuit c).relay.endDwell (s.record c).kind s.now
  have run : exec (.dwellEnd c) s = .next (s.onCircuit c fun x =>
      { x with relay := x.relay.endDwell (s.record c).kind s.now }) := by
    show execDwellEnd c s = _
    unfold execDwellEnd
    rw [runs]
    exact if_pos due
  have here : ((s.onCircuit c fun x => { x with relay := x.relay.endDwell (s.record c).kind s.now }).circuit c).relay = relay := by
    rw [circuit_onCircuit_self]
  have ended : relay = (if (s.circuit c).relay.wish != (s.circuit c).relay.on then
      ({ (s.circuit c).relay with dwellEnd := none } : Relay).change s.now dwell
      else { (s.circuit c).relay with dwellEnd := none }) := by
    unfold relay Relay.endDwell
    rw [switched]
  refine ⟨_, run, fun agrees => ?_, fun differs => ?_, ?_⟩
  · rw [here, ended, if_neg (by rw [agrees]; simp)]
  · rw [here, ended, if_pos (by simpa using differs)]
    rfl
  · rw [here]
    exact onCircuit_congr s c rfl

/-! ## Lines -/

namespace State

theorem onLine_congr (s : State) (n : LineNo) {f g : PwmLine → PwmLine} (h : f (s.lines.get n) = g (s.lines.get n)) :
    s.onLine n f = s.onLine n g := by
  unfold onLine Tab.modify
  rw [h]

theorem lineOutput_none {s : State} {n : LineNo} (free : ∀ c, (s.record c).route ≠ .pwm n) : s.lineOutput n = 0 := by
  have none_ : s.lineCircuit n = none := List.find?_eq_none.mpr fun c _ => by simpa using free c
  unfold lineOutput
  rw [none_]

theorem lineOutput_one {s : State} {n : LineNo} {c : Circuit} (routed : (s.record c).route = .pwm n)
    (alone : ∀ d, (s.record d).route = .pwm n → d = c) : s.lineOutput n = s.output c := by
  have found : s.lineCircuit n = some c := by
    cases h : s.lineCircuit n with
    | none => exact absurd (List.find?_eq_none.mp h c (mem_indices c)) (by simp [routed])
    | some d => rw [alone d (by simpa using List.find?_some h)]
  unfold lineOutput
  rw [found]

end State

/-- Settles O57. -/
theorem periodEndBeginsTheNext : Obligations.PeriodEndBeginsTheNext := by
  intro s n start runs due period
  refine ⟨s.lineOutput n * period / 1000, ?_, fun free => ?_, fun c routed alone => ?_⟩
  · show execPwmPeriodEnd n s = _
    unfold execPwmPeriodEnd
    rw [runs]
    exact (if_pos due).trans (congrArg _ (onLine_congr s n rfl))
  · rw [lineOutput_none free, Nat.zero_mul, Nat.zero_div]
  · rw [lineOutput_one routed alone]

end Sys2Proof.Machine
end

section
/-! SUPPORT. The step and the events due; and with them the statement on the step. -/

namespace Sys2Proof.Machine
open State

/-- A fade in command advances by the time that passes, and never past its duration (R32, R34). -/
theorem Claim.advance_eq (us : Nat) (x : Claim) : x.advance us = { x with state := match x.state with
    | .effective (some f) => .effective (some { f with spent := min (f.spent + us) (f.duration * 100000) })
    | .effective none => .effective none
    | .waiting h => .waiting h } := by
  unfold Claim.advance
  cases x with
  | mk owner rank state target cause tracker =>
    cases state with
    | waiting h => rfl
    | effective f => cases f <;> rfl

/-! ## The events due -/

theorem Fade.due_iff (f : Fade) : f.due = true ↔ f.duration * 100000 ≤ f.spent := decide_eq_true_iff

namespace State

theorem leaseExpiry_mem_due (s : State) (p : Port) : .leaseExpiry p ∈ s.dueEvents ↔ s.leaseDue p = true := by
  unfold dueEvents duePorts dueLevels dueField dueCues dueOutputs
  simp [Port.mem_all, apply_ite (fun l : List Instr => Instr.leaseExpiry p ∈ l)]

theorem fadeCompletion_mem_due (s : State) (c : Circuit) (o : Owner) :
    .fadeCompletion c o ∈ s.dueEvents ↔ (s.fadeDue c o).isSome = true := by
  unfold dueEvents duePorts dueLevels dueField dueCues dueOutputs
  simp [Owner.mem_all, apply_ite (fun l : List Instr => Instr.fadeCompletion c o ∈ l)]

theorem transitionEnd_mem_due (s : State) (c : Circuit) : .transitionEnd c ∈ s.dueEvents ↔ s.transitionDue c = true := by
  unfold dueEvents duePorts dueLevels dueField dueCues dueOutputs
  simp [apply_ite (fun l : List Instr => Instr.transitionEnd c ∈ l)]

theorem leaseDue_iff (s : State) (p : Port) :
    s.leaseDue p = true ↔ ∃ e, (s.port p).link = .online e ∧ e ≤ s.now := by
  unfold leaseDue
  cases (s.port p).link with
  | online t => simp
  | offline => simp
  | lost t => simp

theorem fadeDue_iff (s : State) (c : Circuit) (o : Owner) : (s.fadeDue c o).isSome = true ↔
    ∃ x f, claimOf o (s.claims c) = some x ∧ x.state = .effective (some f) ∧ f.duration * 100000 ≤ f.spent := by
  unfold fadeDue
  cases claimOf o (s.claims c) with
  | none => simp
  | some x =>
    unfold Claim.fade
    cases state : x.state with
    | waiting h => simp [state]
    | effective f =>
      cases f with
      | none => simp [state]
      | some f =>
        rw [Option.bind_some, state]
        show (if f.due then some f.event else none).isSome = true ↔ _
        cases d : f.due with
        | true => exact ⟨fun _ => ⟨x, f, rfl, state, (Fade.due_iff f).mp d⟩, fun _ => rfl⟩
        | false =>
          refine ⟨fun h => (by cases h), fun ⟨y, g, same, fades, spent⟩ => ?_⟩
          cases same
          rw [state] at fades
          cases fades
          rw [(Fade.due_iff f).mpr spent] at d
          cases d

theorem transitionDue_iff (s : State) (c : Circuit) :
    s.transitionDue c = true ↔ ∃ y, (s.circuit c).transition = some y ∧ y.duration * 100000 ≤ y.spent := by
  have due : ∀ y : Transition, y.due = true ↔ y.duration * 100000 ≤ y.spent := fun y => decide_eq_true_iff
  unfold transitionDue
  rw [Option.any_eq_true]
  exact exists_congr fun y => and_congr_right fun _ => due y

end State

/-- Settles O1. -/
theorem stepTakesTheFront : Obligations.StepTakesTheFront := by
  refine ⟨fun c s => rfl, fun s e rest empty due => ?_, fun s empty none_ => ?_,
    fun s => ⟨fun p => ?_, fun c o => ?_, fun c => ?_⟩⟩
  · unfold step idle
    rw [empty]
    dsimp only
    rw [due]
  · refine ⟨s.elapse 1, ?_, rfl, fun c => ?_⟩
    · unfold step idle
      rw [empty]
      dsimp only
      rw [none_]
      rfl
    · unfold State.claims
      rw [circuit_elapse]
      refine ⟨rfl, rfl, List.map_congr_left fun x _ => ?_, rfl⟩
      exact congrArg (fun y => if inCommandOf s.tables.ranks (s.circuit c).claims x.owner then y else x)
        (Claim.advance_eq 1 x)
  · exact (leaseExpiry_mem_due s p).trans (leaseDue_iff s p)
  · exact (fadeCompletion_mem_due s c o).trans (fadeDue_iff s c o)
  · exact (transitionEnd_mem_due s c).trans (transitionDue_iff s c)

end Sys2Proof.Machine
end

section
/-! SUPPORT. Polls, misses and the timers of a key; and with them the statements on them. -/

namespace Sys2Proof.Machine
open State
namespace State

/-! ## POLL -/

theorem startup_of_isRunning {s : State} (h : s.isRunning = true) : s.startup = .running := by
  unfold isRunning at h
  cases startup : s.startup with
  | running => rfl
  | reading | judging _ _ =>
    rw [startup] at h
    cases h

section
variable {s : State} {l : LoopNo} (running : s.startup = .running) (idle : (s.loop l).exchange = none)
include running idle

theorem exec_poll_next {n : StationNo} (next : s.nextPolled l = some n) : exec (.poll l) s = .next (s.sendPoll l n) := by
  show execPoll l s = _
  unfold execPoll
  rw [if_pos (by unfold isRunning; rw [running, idle]; rfl), next]

theorem exec_poll_none (bare : s.nextPolled l = none) : exec (.poll l) s = .next s := by
  show execPoll l s = _
  unfold execPoll
  rw [if_pos (by unfold isRunning; rw [running, idle]; rfl), bare]

end

theorem exec_poll_busy {s : State} {l : LoopNo} (busy : s.startup ≠ .running ∨ (s.loop l).exchange ≠ none) :
    exec (.poll l) s = .next s := by
  refine if_neg fun h => ?_
  obtain ⟨running, idle⟩ := (Bool.and_eq_true _ _).mp h
  obtain stops | opens := busy
  · exact stops (startup_of_isRunning running)
  · exact opens (Option.isNone_iff_eq_none.mp idle)

end State

/-- Settles O50. -/
theorem pollOpensAWindow : Obligations.PollOpensAWindow := by
  refine ⟨fun s l n running idle next => ?_, fun s l refused => ?_⟩
  · exact exec_poll_next running idle (nextPolled_of_next next)
  · by_cases busy : s.startup ≠ .running ∨ (s.loop l).exchange ≠ none
    · exact exec_poll_busy busy
    · rw [not_or, not_not, not_not] at busy
      obtain ⟨running, idle⟩ := busy
      obtain stops | opens | bare := refused
      · exact absurd running stops
      · exact absurd idle opens
      · exact exec_poll_none running idle (nextPolled_none bare)

/-! ## Exchanges -/

namespace State

theorem onLoop_congr (s : State) (l : LoopNo) {f g : LoopState → LoopState} (h : f (s.loop l) = g (s.loop l)) :
    s.onLoop l f = s.onLoop l g := by
  unfold onLoop Tab.modify
  rw [show f (s.loops.get l) = g (s.loops.get l) from h]

theorem loop_onLoop (s : State) (l : LoopNo) (f : LoopState → LoopState) : (s.onLoop l f).loop l = f (s.loop l) :=
  Tab.get_modify_self _ _ _

theorem onLoop_onLoop (s : State) (l : LoopNo) (f g : LoopState → LoopState) :
    (s.onLoop l f).onLoop l g = s.onLoop l fun x => g (f x) := by
  unfold onLoop
  rw [Tab.modify_modify]

section
variable {s : State} {l : LoopNo} {x : Exchange} (stands : (s.loop l).exchange = some x)
include stands

theorem exec_report_open (kept : x.removed = false) (bytes : List Byte) :
    exec (.report l bytes) s = .next ((s.closeExchange l).takeReport l x.station bytes) := by
  show execReport l bytes s = _
  unfold execReport
  rw [stands]
  exact if_neg (by rw [kept]; exact Bool.false_ne_true)

theorem exec_report_removed (removed : x.removed = true) (bytes : List Byte) :
    exec (.report l bytes) s = .next (s.closeExchange l) := by
  show execReport l bytes s = _
  unfold execReport
  rw [stands]
  exact if_pos removed

theorem exec_window_open (kept : x.removed = false) (due : x.windowEnd ≤ s.now) :
    exec (.replyWindowExpiry l) s = .next ((s.closeExchange l).missReply l x.station) := by
  show execReplyWindowExpiry l s = _
  unfold execReplyWindowExpiry
  rw [stands]
  exact (if_pos due).trans (if_neg (by rw [kept]; exact Bool.false_ne_true))

theorem exec_window_removed (removed : x.removed = true) (due : x.windowEnd ≤ s.now) :
    exec (.replyWindowExpiry l) s = .next (s.closeExchange l) := by
  show execReplyWindowExpiry l s = _
  unfold execReplyWindowExpiry
  rw [stands]
  exact (if_pos due).trans (if_pos removed)

end

theorem exec_report_closed {s : State} {l : LoopNo} (closed : (s.loop l).exchange = none) (bytes : List Byte) :
    exec (.report l bytes) s = .next s := by
  show execReport l bytes s = _
  unfold execReport
  rw [closed]

/-- A miss that is no type mismatch. -/
theorem missReply_closed (s : State) (l : LoopNo) (n : StationNo) : Missed s ((s.closeExchange l).missReply l n) l n
    ∧ (((s.closeExchange l).missReply l n).loop l).typeMismatches = (s.loop l).typeMismatches :=
  missReply_missed s l n (s.loop l).typeMismatches (s.closeExchange l) (onLoop_congr s l rfl)

theorem missReply_mismatch (s : State) (l : LoopNo) (n : StationNo) (w : State)
    (counted : w = (s.closeExchange l).onLoop l fun x => { x with typeMismatches := bump x.typeMismatches }) :
    Missed s (w.missReply l n) l n ∧ ((w.missReply l n).loop l).typeMismatches = bump (s.loop l).typeMismatches :=
  missReply_missed s l n (bump (s.loop l).typeMismatches) w
    (counted.trans ((onLoop_onLoop s l _ _).trans (onLoop_congr s l rfl)))

theorem takeReport_other (s : State) (l : LoopNo) (n : StationNo) {bytes : List Byte}
    (other : ∀ type keys, bytes ≠ reportOf type keys) : s.takeReport l n bytes = s.missReply l n := by
  unfold takeReport
  rw [judgeReport_other _ _ other]

theorem takeReport_mismatch {s : State} {l : LoopNo} {n : StationNo} {type : Byte} (keys : Byte)
    (other : ¬ NamesType (s.stationType l n) type) : s.takeReport l n (reportOf type keys) =
      (s.onLoop l fun x => { x with typeMismatches := bump x.typeMismatches }).missReply l n := by
  unfold takeReport
  rw [judgeReport_reportOf, if_neg (fun h => other ((namesType_iff _ _).mp h))]

theorem takeReport_good {s : State} {l : LoopNo} {n : StationNo} {type : Byte} (keys : Byte)
    (named : NamesType (s.stationType l n) type) : s.takeReport l n (reportOf type keys) = s.goodReply l n keys := by
  unfold takeReport
  rw [judgeReport_reportOf, if_pos ((namesType_iff _ _).mpr named)]

end State

/-- Settles O51. -/
theorem silenceIsAMiss : Obligations.SilenceIsAMiss := by
  refine ⟨fun s l x stands kept => ⟨fun due => ?_, fun bytes other => ?_, fun type keys other => ?_⟩,
    fun s l x bytes stands removed => ⟨exec_report_removed stands removed bytes, fun due =>
      exec_window_removed stands removed due⟩, fun s l bytes closed => exec_report_closed closed bytes,
    stopRaise_stopped⟩
  · exact ⟨_, exec_window_open stands kept due, missReply_closed s l x.station⟩
  · refine ⟨_, exec_report_open stands kept bytes, ?_⟩
    rw [takeReport_other _ l x.station other]
    exact missReply_closed s l x.station
  · refine ⟨_, exec_report_open stands kept _, ?_⟩
    rw [takeReport_mismatch (s := s.closeExchange l) keys other]
    exact missReply_mismatch s l x.station _ rfl

/-! ## Key timers -/

namespace State

theorem takeEdge_plain (s : State) (k : KeyAddr) {e : Edge} (other : e ≠ .release) :
    s.takeEdge k e = (s.liveEntries k e).foldl carryOut (s.announce (.key k e)) := by
  unfold takeEdge
  dsimp only
  rw [if_neg other]

theorem takeEdge_release (s : State) (k : KeyAddr) : s.takeEdge k .release =
    (s.liveEntries k .release).foldl carryOut (((s.announce (.key k .release)).stopRaise k).replay) := by
  unfold takeEdge
  dsimp only
  rw [if_pos rfl]

theorem exec_hold {s : State} {k : KeyAddr} {t : Nat} (exists_ : s.keyExists k = true)
    (pressed : (s.key k).phase = .pressed t) (due : t ≤ s.now) :
    exec (.holdTimerExpiry k) s = .next ((s.onKey k fun r => { r with phase := .held }).takeEdge k .hold) :=
  if_pos (by unfold holdDue; rw [exists_, pressed]; simpa using due)

theorem exec_quiet {s : State} {k : KeyAddr} {t : Nat} (exists_ : s.keyExists k = true)
    (locked : (s.key k).lockout = some t) (due : t ≤ s.now) : exec (.quietTimerExpiry k) s =
      .next ((s.onKey k fun r => { r with lockout := none, phase := .none, window := none }).announce
        (.keyLockout k .cleared)) :=
  if_pos (by unfold quietDue; rw [exists_, locked]; simpa using due)

theorem exec_blink {s : State} {k : KeyAddr} {t : Nat} (exists_ : s.keyExists k = true)
    (blinks : (s.key k).blinkEnd = some t) (due : t ≤ s.now) :
    exec (.refusalBlinkExpiry k) s = .next (s.onKey k fun r => { r with blinkEnd := none }) :=
  if_pos (by unfold blinkDue; rw [exists_, blinks]; simpa using due)

theorem exec_quiet_clear {s : State} {k : KeyAddr} (free : (s.key k).lockout = none) :
    exec (.quietTimerExpiry k) s = .next s :=
  if_neg (by unfold quietDue; rw [free]; simp)

theorem exec_blink_clear {s : State} {k : KeyAddr} (free : (s.key k).blinkEnd = none) :
    exec (.refusalBlinkExpiry k) s = .next s :=
  if_neg (by unfold blinkDue; rw [free]; simp)

end State

/-- Settles O53. -/
theorem keyTimersRunOut : Obligations.KeyTimersRunOut := by
  intro s k exists_
  refine ⟨fun t locked due => exec_quiet exists_ locked due, fun t blinks due => exec_blink exists_ blinks due,
    fun t pressed due bare => ?_, exec_quiet_clear, exec_blink_clear⟩
  have bare : (s.onKey k fun r => { r with phase := .held }).liveEntries k .hold = [] := bare
  rw [exec_hold exists_ pressed due, takeEdge_plain _ k (by decide), bare]
  rfl

end Sys2Proof.Machine
end

section
/-! SUPPORT. Good reports: the keys of a station that is present, and a station regained; and with them the statement on them. -/

namespace Sys2Proof.Machine
open State
namespace State

/-! ## One key of a report -/

/-- An accepted change touches the contact state of its own key alone. -/
theorem acceptChange_downs (s : State) {k j : KeyAddr} (other : j ≠ k) (down : Bool) (w : Nat × Nat) :
    ((s.acceptChange k down w).key j).down = (s.key j).down := by
  unfold acceptChange
  split
  · rw [takeEdge_downs, key_onKey_of_ne s k j _ other]
  · dsimp only
    split
    · rw [takeEdge_downs, takeEdge_downs, key_onKey_of_ne s k j _ other]
    · rw [takeEdge_downs, key_onKey_of_ne s k j _ other]
    · rw [key_onKey_of_ne s k j _ other]

theorem lockOut_downs (s : State) {k j : KeyAddr} (other : j ≠ k) (down : Bool) :
    ((s.lockOut k down).key j).down = (s.key j).down := by
  unfold lockOut
  dsimp only
  rw [(replay_steady _).key, (announce_steady _ _).key, (countLockout_steady _).key,
    (stopRaise_claims _ k).toSteady.key, key_onKey_of_ne s k j _ other]

theorem takeKey_downs (s : State) {k j : KeyAddr} (other : j ≠ k) (down : Bool) :
    ((s.takeKey k down).key j).down = (s.key j).down := by
  unfold takeKey
  dsimp only
  split
  · rfl
  · split
    · rw [key_onKey_of_ne s k j _ other]
    · split
      · exact lockOut_downs s other down
      · exact acceptChange_downs s other down _

/-- Where one key alone has changed, a report is that key's change (R75). -/
theorem takeKeys_one {s : State} {l : LoopNo} {n : StationNo} {keys : Byte} {k : KeyAddr} (mem : k ∈ s.keysAt l n)
    (others : ∀ j ∈ s.keysAt l n, j ≠ k → (s.key j).down = keys.getLsbD j.key.val) :
    s.takeKeys l n keys = s.takeKey k (keys.getLsbD k.key.val) :=
  foldl_single _ _ _ _ k mem (keysAt_nodup s l n) rfl
    (fun j hj other => takeKey_same s j _ (others j hj other))
    (fun j hj other => takeKey_same _ j _ ((takeKey_downs s other _).trans (others j hj other)))

theorem takeKeys_none {s : State} {l : LoopNo} {n : StationNo} {keys : Byte}
    (same : ∀ k ∈ s.keysAt l n, (s.key k).down = keys.getLsbD k.key.val) : s.takeKeys l n keys = s :=
  foldl_fixed _ _ _ fun k hk => takeKey_same s k _ (same k hk)

section
variable {s : State} {k : KeyAddr} {now : Bool} (changed : (s.key k).down ≠ now)
include changed

theorem takeKey_locked {e : Nat} (locked : (s.key k).lockout = some e) : s.takeKey k now =
    s.onKey k fun r => { r with down := now, lockout := some (s.now + 5000000) } := by
  unfold takeKey
  dsimp only
  rw [if_neg changed, if_pos (by rw [locked]; rfl)]
  rfl

theorem takeKey_lockOut (free : (s.key k).lockout = none) (many : 10 < (chatterWindow (s.key k).window s.now).2) :
    s.takeKey k now = s.lockOut k now := by
  unfold takeKey
  dsimp only
  rw [if_neg changed, if_neg (by rw [free]; exact Bool.false_ne_true)]
  exact if_pos many

theorem takeKey_accepted (free : (s.key k).lockout = none) (few : (chatterWindow (s.key k).window s.now).2 ≤ 10) :
    s.takeKey k now = s.acceptChange k now (chatterWindow (s.key k).window s.now) := by
  unfold takeKey
  dsimp only
  rw [if_neg changed, if_neg (by rw [free]; exact Bool.false_ne_true)]
  exact if_neg (Nat.not_lt.mpr few)

end

/-- The count of accepted changes that a change brings (R80). -/
theorem chatterWindow_eq {window : Option (Nat × Nat)} {now : Nat} {count : Nat × Nat}
    (stands : ∀ start n, window = some (start, n) →
      (now < start + 2000000 → count = (start, n + 1)) ∧ (start + 2000000 ≤ now → count = (now, 1)))
    (fresh : window = none → count = (now, 1)) : chatterWindow window now = count := by
  unfold chatterWindow
  cases window with
  | none => exact (fresh rfl).symm
  | some w =>
    obtain ⟨start, n⟩ := w
    obtain ⟨within, past⟩ := stands start n rfl
    by_cases old : start + 2000000 ≤ now
    · exact (if_pos old).trans (past old).symm
    · exact (if_neg old).trans (within (Nat.lt_of_not_le old)).symm

/-- The key record as an accepted press leaves it, before its edge (R76, R77). -/
def pressedKey (s : State) (k : KeyAddr) (count : Nat × Nat) : State :=
  s.onKey k fun r =>
    { r with down := true, phase := .pressed (s.now + s.tables.settings.holdTime * 1000), window := some count }

/-- The key record as an accepted release leaves it, before its edges (R78). -/
def releasedKey (s : State) (k : KeyAddr) (count : Nat × Nat) : State :=
  s.onKey k fun r => { r with down := false, phase := .none, window := some count }

section
variable (s : State) (k : KeyAddr) (count : Nat × Nat)

theorem acceptChange_press : s.acceptChange k true count = (s.pressedKey k count).takeEdge k .press := rfl

theorem acceptChange_none (phase : (s.key k).phase = .none) :
    s.acceptChange k false count = s.releasedKey k count := by
  unfold acceptChange
  rw [if_neg Bool.false_ne_true, phase]
  rfl

theorem acceptChange_held (phase : (s.key k).phase = .held) :
    s.acceptChange k false count = (s.releasedKey k count).takeEdge k .release := by
  unfold acceptChange
  rw [if_neg Bool.false_ne_true, phase]
  rfl

theorem acceptChange_pressed {e : Nat} (phase : (s.key k).phase = .pressed e) :
    s.acceptChange k false count = ((s.releasedKey k count).takeEdge k .tap).takeEdge k .release := by
  unfold acceptChange
  rw [if_neg Bool.false_ne_true, phase]
  rfl

end

/-- An edge other than RELEASE without live entries is announced (R79). -/
theorem takeEdge_bare {s : State} {k : KeyAddr} {e : Edge} (other : e ≠ .release) (bare : s.liveEntries k e = []) :
    s.takeEdge k e = s.announce (.key k e) := by
  rw [takeEdge_plain s k other, bare]
  rfl

/-- A RELEASE without live entries, of a key that raises nothing, is announced (R79, R101). -/
theorem takeEdge_release_bare {s : State} {k : KeyAddr} (bare : s.liveEntries k .release = [])
    (raises : s.raiseSet k = []) (clear : s.replayOwed = false) :
    s.takeEdge k .release = s.announce (.key k .release) := by
  have stands : (s.announce (.key k .release)).stopRaise k = s.announce (.key k .release) :=
    if_pos (by rw [show (s.announce (.key k .release)).raiseSet k = [] from raises]; rfl)
  rw [takeEdge_release, stands, replay_of_clear (s.announce _) clear, bare]
  rfl

/-- A lockout, with its counter written out (R81). -/
theorem lockOut_eq (s : State) (k : KeyAddr) (now : Bool) (w : State)
    (locked : w = s.onKey k fun r =>
      { r with down := now, phase := .none, window := none, lockout := some (s.now + 5000000) }) :
    s.lockOut k now = (State.announce { w.stopRaise k with
      counters := { s.counters with keyLockouts := min (s.counters.keyLockouts + 1) 65535 } }
        (.keyLockout k .locked)).replay := by
  have counts : (w.stopRaise k).counters = s.counters := by
    rw [(stopRaise_claims w k).counts, locked]
    rfl
  have counted : (w.stopRaise k).countLockout = { w.stopRaise k with
      counters := { s.counters with keyLockouts := min (s.counters.keyLockouts + 1) 65535 } } := by
    unfold countLockout onCounters
    rw [counts]
    rfl
  rw [← counted, locked]
  rfl

/-! ## A station regained -/

/-- An update of a key's record keeps its loop and its station but for their keys. -/
theorem onKey_rest (s : State) (k : KeyAddr) (f : KeyRecord → KeyRecord) (l : LoopNo) (n : StationNo) :
    ((s.onKey k f).loop l).exchange = (s.loop l).exchange
    ∧ ((s.onKey k f).station l n).presence = (s.station l n).presence
    ∧ ((s.onKey k f).station l n).misses = (s.station l n).misses := by
  unfold onKey onStation onLoop State.station State.loop
  dsimp only
  rw [Tab.get_modify]
  split
  · rename_i here
    dsimp only
    rw [Tab.get_modify, here]
    split
    · rename_i there
      rw [there]
      exact ⟨rfl, rfl, rfl⟩
    · exact ⟨rfl, rfl, rfl⟩
  · exact ⟨rfl, rfl, rfl⟩

/-- What the taking of the baseline keeps: all but the keys of the loop. -/
structure BaselineKeeps (s t : State) (l : LoopNo) (n : StationNo) : Prop where
  exchange : (t.loop l).exchange = (s.loop l).exchange
  presence : (t.station l n).presence = (s.station l n).presence
  misses : (t.station l n).misses = (s.station l n).misses
  rest : t = { s with loops := t.loops }

theorem foldl_baseline_keeps (keys : Byte) (l : LoopNo) (n : StationNo) (ks : List KeyAddr) (s : State) :
    BaselineKeeps s (ks.foldl (fun s k => s.onKey k fun r => r.baseline (reported keys k)) s) l n :=
  foldl_keeps (fun a b => BaselineKeeps a b l n) (fun _ => ⟨rfl, rfl, rfl, rfl⟩)
    (fun _ _ _ h k => ⟨k.exchange.trans h.exchange, k.presence.trans h.presence, k.misses.trans h.misses, by
      rw [k.rest, h.rest]⟩)
    _ (fun s k => by
      obtain ⟨exchange, presence, misses⟩ := onKey_rest s k (fun r => r.baseline (reported keys k)) l n
      exact ⟨exchange, presence, misses, rfl⟩) ks s

theorem baseline_down (r : KeyRecord) (down : Bool) : (r.baseline down).down = down := by
  unfold KeyRecord.baseline
  split <;> rfl

/-- Every key taken into the baseline stands as reported, and stays so (R72). -/
theorem foldl_baseline_downs (keys : Byte) : ∀ (ks : List KeyAddr) (s : State) (k : KeyAddr),
    k ∈ ks ∨ (s.key k).down = reported keys k →
    ((ks.foldl (fun s k => s.onKey k fun r => r.baseline (reported keys k)) s).key k).down = reported keys k
  | [], _, k, h => h.elim (fun m => absurd m List.not_mem_nil) id
  | j :: ks, s, k, h => by
    refine foldl_baseline_downs keys ks _ k ?_
    by_cases same : k = j
    · right
      rw [same, key_onKey, baseline_down]
    · rw [key_onKey_of_ne s j k _ same]
      exact h.imp_left fun m => (List.mem_cons.mp m).resolve_left same

theorem goodReply_present {s : State} {l : LoopNo} {n : StationNo} (keys : Byte)
    (present : (s.station l n).presence = .present) : s.goodReply l n keys =
      (s.onStation l n fun y => { y with misses := 0 }).takeKeys l n keys := by
  unfold goodReply
  rw [present]

theorem goodReply_first {s : State} {l : LoopNo} {n : StationNo} (keys : Byte)
    (absent : (s.station l n).presence = .absent) (first : (s.station l n).goods = 0) :
    s.goodReply l n keys = s.onStation l n fun y => { y with goods := 1 } := by
  unfold goodReply
  rw [absent]
  exact if_pos first

theorem goodReply_again {s : State} {l : LoopNo} {n : StationNo} (keys : Byte)
    (absent : (s.station l n).presence = .absent) (again : (s.station l n).goods ≠ 0) :
    s.goodReply l n keys = s.regainStation l n keys := by
  unfold goodReply
  rw [absent]
  exact if_neg again

/-- The state a good report of a present station takes its keys in: the exchange closed, the misses cleared (R70). -/
def heardFrom (s : State) (l : LoopNo) (n : StationNo) : State :=
  (s.onLoop l fun y => { y with exchange := none }).onStation l n fun y => { y with misses := 0 }

theorem key_heardFrom (s : State) (l : LoopNo) (n : StationNo) (k : KeyAddr) : (s.heardFrom l n).key k = s.key k := by
  unfold heardFrom
  rw [key_onStation, key_onLoop] <;> exact fun _ => rfl

section
variable {s : State} {l : LoopNo} {x : Exchange} {type : Byte} (stands : (s.loop l).exchange = some x)
  (kept : x.removed = false) (named : NamesType (s.stationType l x.station) type) (keys : Byte)
include stands kept named

theorem exec_report_good : exec (.report l (reportOf type keys)) s =
    .next ((s.closeExchange l).goodReply l x.station keys) := by
  rw [exec_report_open stands kept, takeReport_good (s := s.closeExchange l) keys named]

theorem exec_report_present (present : (s.station l x.station).presence = .present) :
    exec (.report l (reportOf type keys)) s = .next ((s.heardFrom l x.station).takeKeys l x.station keys) := by
  have here : (s.closeExchange l).station l x.station = s.station l x.station := station_onLoop _ _ _ _ fun _ => rfl
  rw [exec_report_good stands kept named, goodReply_present keys (by rw [here]; exact present)]
  rfl

end

/-- A station regained (R72). -/
theorem regainStation_regained (s : State) (l : LoopNo) (n : StationNo) (keys : Byte) :
    ((s.regainStation l n keys).station l n).presence = .present
    ∧ ((s.regainStation l n keys).station l n).misses = 0
    ∧ ((s.regainStation l n keys).loop l).exchange = (s.loop l).exchange
    ∧ Announced (s.regainStation l n keys) (.station l n .present)
    ∧ (∀ k ∈ s.keysAt l n, ((s.regainStation l n keys).key k).down = keys.getLsbD k.key.val)
    ∧ (s.regainStation l n keys).circuits = s.circuits ∧ (s.regainStation l n keys).players = s.players
    ∧ (s.regainStation l n keys).mode = s.mode ∧ (s.regainStation l n keys).tables = s.tables := by
  let t := s.onStation l n fun x => { x with presence := .present, misses := 0, goods := 0 }
  let u := (s.keysAt l n).foldl (fun s k => s.onKey k fun r => r.baseline (reported keys k)) t
  have here : t.station l n = { s.station l n with presence := .present, misses := 0, goods := 0 } :=
    station_onStation s l n _
  have keeps : BaselineKeeps t u l n := foldl_baseline_keeps keys l n (s.keysAt l n) t
  have told : Announced (u.announce (.station l n .present)) (.station l n .present) := announce_announced _ _
  have rest := keeps.rest
  refine ⟨?_, ?_, ?_, told, fun k mem => foldl_baseline_downs keys (s.keysAt l n) t k (.inl mem), ?_, ?_, ?_, ?_⟩
  · exact keeps.presence.trans (congrArg StationState.presence here)
  · exact keeps.misses.trans (congrArg StationState.misses here)
  · refine keeps.exchange.trans ?_
    unfold t onStation
    rw [loop_onLoop]
  · show u.circuits = _
    rw [rest]
    rfl
  · show u.players = _
    rw [rest]
    rfl
  · show u.mode = _
    rw [rest]
    rfl
  · show u.tables = _
    rw [rest]
    rfl

end State

/-- One changed key of a present station, not locked out and with few changes (R76 to R79, R92, R101). -/
theorem acceptChange_carried {t : State} {k : KeyAddr} {now : Bool} (count : Nat × Nat) :
    (now = true → t.liveEntries k .press = [] →
      t.acceptChange k now count = (t.pressedKey k count).announce (.key k .press))
    ∧ (now = false →
      ((t.key k).phase = .none → t.acceptChange k now count = t.releasedKey k count)
      ∧ (t.liveEntries k .release = [] → t.raiseSet k = [] → t.replayOwed = false →
        ((t.key k).phase = .held → t.acceptChange k now count = (t.releasedKey k count).announce (.key k .release))
        ∧ (∀ e, (t.key k).phase = .pressed e → t.liveEntries k .tap = [] → t.acceptChange k now count =
            ((t.releasedKey k count).announce (.key k .tap)).announce (.key k .release)))) := by
  refine ⟨fun down bare => ?_, fun up => ⟨fun phase => ?_, fun bare raises clear => ⟨fun phase => ?_, fun e phase tap => ?_⟩⟩⟩
  · rw [down, acceptChange_press]
    exact takeEdge_bare (s := t.pressedKey k count) (by decide) bare
  · rw [up, acceptChange_none t k count phase]
  · rw [up, acceptChange_held t k count phase]
    exact takeEdge_release_bare (s := t.releasedKey k count) bare raises clear
  · rw [up, acceptChange_pressed t k count phase,
      takeEdge_bare (s := t.releasedKey k count) (e := .tap) (by decide) tap]
    exact takeEdge_release_bare (s := (t.releasedKey k count).announce (.key k .tap)) bare raises clear

/-- Settles O52: where one key has changed, the report is that key's change, judged by the key's record as it stood. -/
theorem goodReportsAreTaken : Obligations.GoodReportsAreTaken := by
  refine ⟨stopRaise_stopped, fun s l x type keys stands kept named => ?_⟩
  intro run
  have here : (s.closeExchange l).station l x.station = s.station l x.station := station_onLoop _ _ _ _ fun _ => rfl
  have good : run = .next ((s.closeExchange l).goodReply l x.station keys) := exec_report_good stands kept named keys
  refine ⟨fun present => ?_, fun absent first => ?_, fun absent again => ?_⟩
  · intro t
    have taken : run = .next (t.takeKeys l x.station keys) := exec_report_present stands kept named keys present
    have same : ∀ j, t.key j = s.key j := key_heardFrom s l x.station
    refine ⟨fun none_ => ?_, fun k mem changed others => ?_⟩
    · rw [taken, takeKeys_none (s := t) fun k hk => by rw [same]; exact none_ k hk]
    · intro now
      have one : run = .next (t.takeKey k now) := by
        rw [taken, takeKeys_one (s := t) mem fun j hj other => by rw [same]; exact others j hj other]
      have changed : (t.key k).down ≠ now := by
        rw [same]
        exact changed
      refine ⟨fun e locked => ?_, fun free => ⟨fun count within fresh few => ?_, fun start window recent => ?_,
        fun start window recent raises clear => ?_⟩⟩
      · rw [one, takeKey_locked changed (by rw [same]; exact locked)]
        rfl
      · have count_ : chatterWindow (t.key k).window t.now = count := by
          rw [same]
          exact chatterWindow_eq within fresh
        have accepted : run = .next (t.acceptChange k now count) := by
          rw [one, takeKey_accepted changed (by rw [same]; exact free) (by rw [count_]; exact few), count_]
        obtain ⟨press, release⟩ := acceptChange_carried (t := t) (k := k) (now := now) count
        rw [accepted]
        rw [same] at release
        refine ⟨fun down bare => congrArg _ (press down bare), fun up => ?_, ?_⟩
        · intro w
          obtain ⟨none_, carried⟩ := release up
          refine ⟨fun phase => congrArg _ (none_ phase), fun bare raises clear => ?_⟩
          obtain ⟨held, pressed⟩ := carried bare raises clear
          exact ⟨fun phase => congrArg _ (held phase), fun e phase tap => congrArg _ (pressed e phase tap)⟩
        · intro carried released pressed up
          refine ⟨fun down => ?_, fun gone phase => ?_, fun e gone phase => ?_⟩
          · rw [down, acceptChange_press, takeEdge_plain _ k (by decide)]
            rfl
          · rw [gone, acceptChange_held t k count (by rw [same]; exact phase), takeEdge_release]
            rfl
          · rw [gone, acceptChange_pressed t k count (by rw [same]; exact phase), takeEdge_release,
              takeEdge_plain _ k (by decide)]
            rfl
      all_goals
        have eleven : chatterWindow (t.key k).window t.now = (start, 11) := by
          rw [same, window]
          exact if_neg (Nat.not_le.mpr recent)
        have locks : run = .next (t.lockOut k now) := by
          rw [one, takeKey_lockOut changed (by rw [same]; exact free) (by rw [eleven]; exact Nat.lt_succ_self 10)]
        rw [locks]
      · intro w
        exact congrArg _ (lockOut_eq t k now w rfl)
      · exact congrArg _ (lockOut_quiet t k now raises clear)
  · rw [good, goodReply_first keys (by rw [here]; exact absent) (by rw [here]; exact first)]
    rfl
  · rw [good, goodReply_again keys (by rw [here]; exact absent) (by rw [here]; exact again)]
    obtain ⟨presence, misses, exchange, told, downs, rest⟩ := regainStation_regained (s.closeExchange l) l x.station keys
    exact ⟨_, rfl, exchange.trans (congrArg LoopState.exchange (loop_onLoop s l _)), presence, misses, told, downs, rest⟩

end Sys2Proof.Machine
end

section
/-! SUPPORT. What a field action does, by its outcome; and the fade that a raise leaves on a circuit. -/

namespace Sys2Proof.Machine
open State

/-- What a placement tells, read from another state with the same claims. -/
theorem SameClaims.told {s t v : State} {o : Owner} (h : SameClaims s t) (k : CommandTold t v o) :
    CommandTold s v o := by
  have taken : ∀ q, takenFrom t v q o = takenFrom s v q o := fun q => by
    unfold takenFrom
    simp only [h.inCommand]
  have held : ∀ c q, t.held c q = s.held c q := fun c q => by
    unfold State.held
    rw [h.claims, h.inCommand]
  have given : ∀ q, givenBack t v q = givenBack s v q := fun q => by
    unfold givenBack
    simp only [held]
  refine ⟨fun q other on some_ => ?_, fun q other on some_ => ?_⟩
  · rw [← taken] at some_ ⊢
    exact k.taken q other on some_
  · rw [← given] at some_ ⊢
    exact k.given q other on some_

namespace State

/-! ## The outcomes of a field action -/

section
variable {s : State} {d : Deferred}

theorem fieldRefusal_place {items : List PlaceItem} {rank : Rank}
    (free : s.locked .field rank (items.map PlaceItem.circuit) = false) : s.fieldRefusal (.place items rank) =
      if s.freeRecords < s.recordsNeeded .field (items.map PlaceItem.circuit) then some .poolFull else none :=
  if_neg (by rw [free]; decide)

theorem fieldRefusal_locked {w : FieldWork} {rank : Rank} (of_rank : (∃ items, w = .place items rank)
    ∨ ∃ cs time, w = .release cs time rank) (locked : s.locked .field rank w.circuits = true) :
    s.fieldRefusal w = some .locked := by
  obtain ⟨items, place⟩ | ⟨cs, time, release⟩ := of_rank
  · rw [place] at locked ⊢
    exact if_pos ((Bool.true_and _).trans locked)
  · rw [release] at locked ⊢
    exact if_pos locked

theorem fieldAction_done {w : FieldWork} (free : s.fieldRefusal w = none) : s.fieldAction w d = s.doFieldWork w := by
  unfold fieldAction
  rw [free]

theorem fieldAction_locked {w : FieldWork} (locked : s.fieldRefusal w = some .locked) :
    s.fieldAction w d = s.deferOrDrop d := by
  unfold fieldAction
  rw [locked]

theorem fieldAction_short {w : FieldWork} (short : s.fieldRefusal w = some .poolFull) :
    s.fieldAction w d = s.dropForPool d.key w.circuits := by
  unfold fieldAction
  rw [short]

theorem blink_of_exists {k : KeyAddr} (exists_ : s.keyExists k = true) : s.blink k =
    s.onKey k fun r => { r with blinkEnd := some (s.now + 3000000) } := if_pos exists_

/-- A placement of FIELD that the pool cannot supply (R22, R94). -/
theorem dropForPool_eq {k : KeyAddr} (exists_ : s.keyExists k = true) (cs : List Circuit) : s.dropForPool k cs =
    ({ s with counters := { s.counters with poolRefusals := min (s.counters.poolRefusals + 1) 65535 } }.onKey k
      fun r => { r with blinkEnd := some (s.now + 3000000) }).announce
        (.poolFull k (s.recordsNeeded .field cs) s.freeRecords) := by
  unfold dropForPool
  rw [blink_of_exists (s := s.countPoolRefusal) exists_]
  rfl

/-- A placement of FIELD carried out (R95). -/
theorem doFieldWork_placed {items : List PlaceItem} {rank : Rank}
    (free : s.fieldRefusal (.place items rank) = none) :
    PlacedAs s (s.doFieldWork (.place items rank)) .field items false none
    ∧ CommandTold s (s.doFieldWork (.place items rank)) .field
    ∧ ClaimEvent s (s.doFieldWork (.place items rank)) :=
  ⟨place_placed s (fieldPlacement items), place_told s (fieldPlacement items),
    (doFieldWork_claims s _ free).event (doFieldWork_recovers s _)⟩

/-- A release of FIELD carried out (R98). -/
theorem doFieldWork_released (cs : List Circuit) (time : Nat) (rank : Rank) :
    ReleasedAs s (s.doFieldWork (.release cs time rank)) .field cs time
    ∧ CommandTold s (s.doFieldWork (.release cs time rank)) .field
    ∧ ClaimEvent s (s.doFieldWork (.release cs time rank)) :=
  ⟨release_released s .field cs time, release_told s .field cs time, release_event s .field cs time⟩

/-- The level a TOGGLE places is that of R96. -/
theorem toggleLevel_of_above {cs : List Circuit} (level : Nat)
    (above : ∃ c ∈ cs, ∃ x ∈ s.claims c, x.owner = .field ∧ 0 < x.target) : s.toggleLevel cs level = 0 := by
  obtain ⟨c, hc, x, hx, own, lit⟩ := above
  exact if_pos (List.any_eq_true.mpr ⟨c, hc, List.any_eq_true.mpr ⟨x, hx, by simp [own, lit]⟩⟩)

theorem toggleLevel_of_dark {cs : List Circuit} (level : Nat)
    (dark : ∀ c ∈ cs, ∀ x ∈ s.claims c, x.owner = .field → x.target = 0) : s.toggleLevel cs level = level := by
  refine if_neg fun above => ?_
  obtain ⟨c, hc, some_⟩ := List.any_eq_true.mp above
  obtain ⟨x, hx, lit⟩ := List.any_eq_true.mp some_
  simp only [Bool.and_eq_true, beq_iff_eq, decide_eq_true_eq] at lit
  rw [dark c hc x hx lit.1] at lit
  exact absurd lit.2 (Nat.lt_irrefl 0)

/-! ## Raises -/

theorem claimOf_enterRank_self (x : Claim) {l : List Claim} (free : claimOf x.owner l = none) :
    claimOf x.owner (enterRank x l) = some x := by
  unfold enterRank
  rw [claimOf_append]
  have before : claimOf x.owner (l.takeWhile fun y => decide (x.rank < y.rank)) = none :=
    claimOf_eq_none.mpr fun y m => claimOf_eq_none.mp free y ((List.takeWhile_sublist _).mem m)
  rw [before, Option.none_or]
  exact List.find?_cons_of_pos (beq_self_eq_true _)

/-- The state of a claim that a placement without wait leaves where it commands (R13, R14). -/
theorem place_state {pl : Placement} {c : Circuit} {it : PlaceItem} (on : pl.on c = some it) (now : pl.wait = false)
    (commands : Commands s pl.owner c it.rank) : (claimOf pl.owner ((s.place pl).claims c)).map Claim.state =
      some (.effective (if 0 < it.fade then
        some { start := s.level c, duration := it.fade, spent := 0, event := s.event } else none)) := by
  obtain ⟨x, claims, own, _, _, enters, _⟩ := placed_claims (s.circuit c) s.tables.ranks (s.level c) pl.owner pl.wait
    pl.tracker.link s.event it
  have links := (place_circuit s pl c).state pl.owner
  rw [on] at links
  have held : claimOf pl.owner ((s.circuit c).placed s.tables.ranks (s.level c) pl.owner pl.wait pl.tracker.link
      s.event it).claims = some x := by
    rw [claims, ← own]
    exact claimOf_enterRank_self x (claimOf_without _ _)
  obtain ⟨fades, stands⟩ := enters (by rw [now]; rfl)
  have state : x.state = .effective (if 0 < it.fade then
      some { start := s.level c, duration := it.fade, spent := 0, event := s.event } else none) := by
    by_cases fade : 0 < it.fade
    · rw [if_pos fade]
      exact fades fade commands
    · rw [if_neg fade]
      exact stands (.inl (Nat.eq_zero_of_not_pos fade))
  have effective : x.isEffective = true := by
    unfold Claim.isEffective
    rw [state]
  exact links.trans ((promote_standing _ _ _ _ _ held effective).trans (congrArg some state))

/-- The fade of a claim is read from its state (R4). -/
theorem fade_isSome_of_state {l : List Claim} {o : Owner} {f : Option Fade}
    (state : (claimOf o l).map Claim.state = some (.effective f)) :
    ((claimOf o l).bind Claim.fade).isSome = f.isSome := by
  obtain ⟨x, held, stands⟩ := Option.map_eq_some_iff.mp state
  rw [held, Option.bind_some]
  unfold Claim.fade
  rw [stands]

end

end State

end Sys2Proof.Machine
end

section
/-! SUPPORT. Raises, runs, mode changes and deferrals of a field action. -/

namespace Sys2Proof.Machine
open State
namespace State

variable {s : State} {k : KeyAddr}

/-! ## Raises -/

theorem itemOn_map {f : Circuit → PlaceItem} (own : ∀ c, (f c).circuit = c) (cs : List Circuit) (c : Circuit) :
    itemOn (cs.map f) c = if c ∈ cs then some (f c) else none := by
  unfold itemOn
  induction cs with
  | nil => rfl
  | cons d cs ih =>
    rw [List.map_cons]
    by_cases here : d = c
    · rw [List.find?_cons_of_pos (by rw [own, here]; exact beq_self_eq_true c), here, if_pos List.mem_cons_self]
    · rw [List.find?_cons_of_neg (by rw [own]; simpa using here), ih]
      exact if_congr ⟨List.mem_cons_of_mem d, fun m => (List.mem_cons.mp m).resolve_left (Ne.symm here)⟩ rfl rfl

/-- A circuit that a raise selects is one on which its claim commands (R99). -/
theorem commands_of_raisable {r : Rank} {c : Circuit} (h : s.raisable r c = true) : Commands s .field c r := by
  intro y hy other effective
  have none_ : ((s.claims c).any fun x => x.isEffective && !(x.owner == .field) && decide (r < x.rank)) = false :=
    Bool.not_eq_true' _ ▸ h
  have here := List.any_eq_false.mp none_ y hy
  by_contra above
  exact here (by simp [effective, other, Fin.not_le.mp above])

theorem raisable_eq (s : State) (r : Rank) (c : Circuit) : s.raisable r c =
    (s.claims c).all fun x => !x.isEffective || x.owner == .field || decide (x.rank ≤ r) := by
  unfold raisable
  rw [List.not_any_eq_all_not]
  refine congrArg (s.claims c).all (funext fun x => ?_)
  have above : decide (r < x.rank) = !decide (x.rank ≤ r) := by
    rw [← decide_not]
    exact decide_eq_decide.mpr Fin.not_le.symm
  rw [above, Bool.not_and, Bool.not_and, Bool.not_not, Bool.not_not]

/-- The items of a raise on the circuits it selects (R99). -/
theorem raiseItems_circuits (s : State) (k : KeyAddr) (way : RaiseWay) (r : Rank) (cs : List Circuit) :
    (cs.map (s.raiseItem k way r)).map PlaceItem.circuit = cs := by
  rw [List.map_map]
  exact List.map_id cs

theorem raiseOn_claimEvent {way : RaiseWay} {r : Rank} {cs : List Circuit} (room : s.recordsNeeded .field cs ≤ s.freeRecords) :
    ClaimEvent s (s.place (fieldPlacement (cs.map (s.raiseItem k way r)))) :=
  place_event s _ (.of_room (by
    have own := raiseItems_circuits s k way r cs
    unfold fieldPlacement
    rw [own]
    exact room) fun _ _ _ h => (by cases h))

/-- The circuits of a raise that get a fade join its raise set (R100). -/
theorem raiseOn_circuit {way : RaiseWay} {r : Rank} {cs : List Circuit} (selected : ∀ c ∈ cs, s.raisable r c = true)
    (c : Circuit) : (s.raiseOn k way r cs).circuit c =
      if c ∈ cs ∧ 0 < raiseFade s.tables.settings.raiseTime way.target (s.level c) then
        { (s.place (fieldPlacement (cs.map (s.raiseItem k way r)))).circuit c with raisedBy := some k }
      else (s.place (fieldPlacement (cs.map (s.raiseItem k way r)))).circuit c := by
  refine (Tab.get_build _ c).trans (if_congr ?_ rfl rfl)
  rw [Bool.and_eq_true, List.contains_iff_mem]
  refine and_congr_right fun mem => ?_
  have on : (fieldPlacement (cs.map (s.raiseItem k way r))).on c = some (s.raiseItem k way r c) :=
    (itemOn_map (fun _ => rfl) cs c).trans (if_pos mem)
  have state := place_state on rfl (commands_of_raisable (selected c mem))
  rw [show (fieldPlacement (cs.map (s.raiseItem k way r))).owner = .field from rfl] at state
  rw [fade_isSome_of_state state]
  show Option.isSome (if 0 < raiseFade _ _ _ then _ else _) = true ↔ _
  split <;> simp [*]

section
variable {way : RaiseWay} {r : Rank} {group cs : List Circuit} (up : group.filter (s.raisable r) = cs)
include up

theorem raiseAction_none (none_ : cs = []) : s.raiseAction k way r group = s := by
  unfold raiseAction
  dsimp only
  rw [up, none_]
  rfl

theorem raiseAction_some (some_ : cs ≠ []) : s.raiseAction k way r group =
    match s.placeRefusal .field r cs true with
    | none => s.raiseOn k way r cs
    | some .locked => s.blink k
    | some _ => s.dropForPool k cs := by
  unfold raiseAction
  dsimp only
  rw [up, if_neg (by rw [List.isEmpty_iff]; exact some_)] <;> rfl

theorem raiseAction_locked (some_ : cs ≠ []) (locked : s.locked .field r cs = true) :
    s.raiseAction k way r group = s.blink k := by
  have refusal : s.placeRefusal .field r cs true = some .locked := if_pos locked
  rw [raiseAction_some up some_, refusal]

theorem raiseAction_short (some_ : cs ≠ []) (free : s.locked .field r cs = false)
    (short : s.freeRecords < s.recordsNeeded .field cs) : s.raiseAction k way r group = s.dropForPool k cs := by
  have refusal : s.placeRefusal .field r cs true = some .poolFull :=
    (if_neg (by rw [free]; decide)).trans (if_pos short)
  rw [raiseAction_some up some_, refusal]

theorem raiseAction_raised (some_ : cs ≠ []) (free : s.locked .field r cs = false)
    (room : s.recordsNeeded .field cs ≤ s.freeRecords) : s.raiseAction k way r group = s.raiseOn k way r cs := by
  have refusal : s.placeRefusal .field r cs true = none :=
    (if_neg (by rw [free]; decide)).trans (if_neg (Nat.not_lt.mpr room))
  rw [raiseAction_some up some_, refusal]

end

/-- A placement of nothing. -/
theorem placedAs_nil (s : State) : PlacedAs s s .field [] false none where
  named _ _ h := (by cases h)
  order _ _ h := (by cases h)
  others _ _ _ := rfl
  standing c q x _ held _ := by rw [held]; rfl
  elsewhere _ _ := ⟨rfl, rfl⟩
  judged _ _ h := (by cases h)
  still _ h := h
  fixed _ _ h _ := h
  raises _ := (if_neg fun h => h.2 rfl).symm

theorem commandTold_same (s : State) (o : Owner) : CommandTold s s o := by
  have taken : ∀ q, takenFrom s s q o = 0 := fun q => by
    unfold takenFrom
    rw [List.length_eq_zero_iff, List.filter_eq_nil_iff]
    intro c _
    cases s.inCommand c (.port q) <;> simp
  have given : ∀ q, givenBack s s q = 0 := fun q => by
    unfold givenBack State.held
    rw [List.length_eq_zero_iff, List.filter_eq_nil_iff]
    intro c _
    cases s.inCommand c (.port q) <;> simp
  exact ⟨fun q _ _ some_ => absurd some_ (by rw [taken]; exact Nat.lt_irrefl 0),
    fun q _ _ some_ => absurd some_ (by rw [given]; exact Nat.lt_irrefl 0)⟩

/-! ## Deferral -/

theorem defer_warns (d : Deferred) (unwarned : s.deferWarned = false)
    (level : s.tables.settings.warningLevel ≤ s.deferred.length + 1) : s.defer d =
      { s.announce (.deferWarning (s.deferred.length + 1) s.tables.settings.warningLevel) with
        deferred := s.deferred ++ [d], deferWarned := true } := by
  have length : (s.deferred ++ [d]).length = s.deferred.length + 1 := List.length_append
  unfold defer
  dsimp only
  rw [unwarned, if_pos (by rw [length]; simpa using level), length]
  rfl

theorem defer_silent (d : Deferred)
    (silent : s.deferWarned = true ∨ s.deferred.length + 1 < s.tables.settings.warningLevel) :
    s.defer d = { s with deferred := s.deferred ++ [d] } := by
  have length : (s.deferred ++ [d]).length = s.deferred.length + 1 := List.length_append
  unfold defer
  dsimp only
  rw [if_neg]
  rw [length]
  obtain warned | below := silent
  · rw [warned]
    exact Bool.false_ne_true
  · simp [below]

/-- A deferred entry changes the queue and its warning, and tells of it (R122, R124). -/
theorem defer_fields (s : State) (d : Deferred) : (s.defer d).deferred = s.deferred ++ [d]
    ∧ (s.defer d).circuits = s.circuits ∧ (s.defer d).counters = s.counters
    ∧ (s.defer d).replayOwed = s.replayOwed := by
  unfold defer
  dsimp only
  split <;> exact ⟨rfl, rfl, rfl, rfl⟩

theorem deferOrDrop_accepted {d : Deferred} (room : s.deferred.length < 16) (limit : 0 < s.tables.settings.deferLimit) :
    s.deferOrDrop d = s.defer d := if_pos (by
  unfold acceptsDeferred
  rw [Bool.and_eq_true, decide_eq_true_iff, decide_eq_true_iff]
  exact ⟨room, limit⟩)

theorem deferOrDrop_refused {d : Deferred} (refused : 16 ≤ s.deferred.length ∨ s.tables.settings.deferLimit = 0) :
    s.deferOrDrop d = s.countDropped.blink d.key := if_neg (by
  unfold acceptsDeferred
  rw [Bool.and_eq_true, decide_eq_true_iff, decide_eq_true_iff]
  rintro ⟨room, limit⟩
  obtain full | zero := refused
  · exact absurd room (Nat.not_lt.mpr full)
  · exact absurd limit (by rw [zero]; exact Nat.lt_irrefl 0))

/-! ## Players -/

theorem seqRunAction_undefined {n : PlayerNo} {q : SequenceNo} (m : RunMode) (undefined : s.sequenceDef q = none) :
    s.seqRunAction k n q m = s.blink k := by
  unfold seqRunAction
  rw [undefined]

theorem seqRunAction_defined {n : PlayerNo} {q : SequenceNo} {d : SequenceDef} (m : RunMode)
    (defined : s.sequenceDef q = some d) : s.seqRunAction k n q m =
      if (s.runRequest n q m (.key k)).2 = .badTarget ∨ (s.runRequest n q m (.key k)).2 = .poolFull then
        (s.runRequest n q m (.key k)).1.blink k
      else (s.runRequest n q m (.key k)).1 := by
  unfold seqRunAction
  rw [defined]

theorem runRequest_continued {n : PlayerNo} {q : SequenceNo} (m : RunMode) (source : RunSource)
    (on : (s.player n).mode ≠ .off) (same : (s.player n).sequence = some q) :
    s.runRequest n q m source = (s.setPlayer n { s.player n with mode := m.toPlayer }, .continued) :=
  (if_neg on).trans (if_pos same)

theorem startOutcome_refused (refused : Option StepRefusal) :
    (startOutcome refused = .badTarget ∨ startOutcome refused = .poolFull) ↔ refused ≠ none := by
  cases refused with
  | none => exact iff_of_false (fun h => h.elim (fun e => (by cases e)) fun e => (by cases e)) fun h => h rfl
  | some r => cases r <;> exact iff_of_true (by decide) (fun e => (by cases e))

/-- A run that a key begins takes its first step, and blinks the key where the step is refused (R105, R133, R138). -/
theorem seqRunAction_begins {n : PlayerNo} {q : SequenceNo} {m : RunMode} {d : SequenceDef} {x : SeqStep}
    {rest : List SeqStep} (exists_ : s.keyExists k = true) (defined : s.tables.sequences.get q = some d)
    (steps : d.steps = x :: rest) (start : (s.player n).mode = .off ∨ (s.player n).sequence ≠ some q) :
    ∃ (w v : State) (refused : Option StepRefusal), RunBegins s w n q m (.key k) ∧ StepTaken w v n d x refused
      ∧ (refused = none → s.seqRunAction k n q m = v)
      ∧ (refused ≠ none → s.seqRunAction k n q m =
          v.onKey k fun r => { r with blinkEnd := some (s.now + 3000000) }) := by
  obtain ⟨w, begins, now, _, eq⟩ := runRequest_begins s n q m (.key k) start
  obtain ⟨player, tables, _⟩ := begins.stands_at
  have runs := (takeStep_runs w n).steady
  have blinks : (w.takeStep n).1.blink k =
      (w.takeStep n).1.onKey k fun r => { r with blinkEnd := some (s.now + 3000000) } := by
    have stands : (w.takeStep n).1.keyExists k = true := by
      unfold keyExists stationType
      rw [runs.tables, tables]
      exact exists_
    rw [blink_of_exists stands, runs.now, now]
  have taken : StepTaken w (w.takeStep n).1 n d x (w.takeStep n).2 := by
    refine takeStep_taken w n d x ?_ ?_
    · unfold playerSequence sequenceDef
      rw [player, tables]
      exact defined
    · rw [player, steps]
      rfl
  have action := seqRunAction_defined (k := k) (n := n) m (show s.sequenceDef q = some d from defined)
  rw [eq] at action
  refine ⟨w, _, _, begins, taken, fun ok => ?_, fun refused => ?_⟩
  · exact action.trans (if_neg fun h => (startOutcome_refused _).mp h ok)
  · exact (action.trans (if_pos ((startOutcome_refused _).mpr refused))).trans blinks

end State

end Sys2Proof.Machine
end

section
/-! SUPPORT. The one live entry of a HOLD edge; and with it the statement on field actions. -/

namespace Sys2Proof.Machine
open State
namespace State

/-- A key held, its HOLD told, before the entries of the edge are carried out (R77, R79, R92). -/
def heldKey (s : State) (k : KeyAddr) : State := (s.onKey k fun r => { r with phase := .held }).announce (.key k .hold)

theorem sameClaims_heldKey (s : State) (k : KeyAddr) : SameClaims s (s.heldKey k) := ⟨rfl, rfl, rfl, rfl, rfl, rfl⟩

/-- The blink of a key at which an action of its HOLD edge was refused (R84, R94). -/
def blinked (s : State) (k : KeyAddr) (v : State) : State :=
  v.onKey k fun r => { r with blinkEnd := some (s.now + 3000000) }

/-- What an action of the HOLD edge leaves where the pool cannot supply it (R22, R94). -/
def shortOf (s : State) (k : KeyAddr) (cs : List Circuit) : State :=
  (s.blinked k { s.heldKey k with
    counters := { s.counters with poolRefusals := min (s.counters.poolRefusals + 1) 65535 } }).announce
      (.poolFull k (s.recordsNeeded .field cs) s.freeRecords)

section
variable {s : State} {k : KeyAddr} (exists_ : s.keyExists k = true) (clear : s.replayOwed = false)
include exists_ clear

theorem blink_heldKey : ((s.heldKey k).blink k).replay = s.blinked k (s.heldKey k) := by
  rw [blink_of_exists (s := s.heldKey k) exists_]
  exact replay_of_clear ((s.heldKey k).onKey k fun r => { r with blinkEnd := some (s.now + 3000000) }) clear

theorem dropForPool_heldKey (cs : List Circuit) : ((s.heldKey k).dropForPool k cs).replay = s.shortOf k cs := by
  have records : (s.heldKey k).recordsNeeded .field cs = s.recordsNeeded .field cs :=
    (sameClaims_heldKey s k).recordsNeeded .field cs
  have free : (s.heldKey k).freeRecords = s.freeRecords := (sameClaims_heldKey s k).freeRecords
  rw [dropForPool_eq (s := s.heldKey k) exists_, records, free]
  exact replay_of_clear (s.shortOf k cs) clear

/-- A placement of FIELD by the HOLD edge of a key, not locked (R94, R95). -/
theorem fieldAction_heldKey {items : List PlaceItem} {rank : Rank} {cs : List Circuit} {d : Deferred}
    (circuits : items.map PlaceItem.circuit = cs) (free : s.locked .field rank cs = false) (key : d.key = k) :
    (s.recordsNeeded .field cs ≤ s.freeRecords → ∃ v : State,
      (s.heldKey k).fieldAction (.place items rank) d = v
      ∧ PlacedAs s v .field items false none ∧ CommandTold s v .field ∧ ClaimEvent (s.heldKey k) v)
    ∧ (s.freeRecords < s.recordsNeeded .field cs →
      ((s.heldKey k).fieldAction (.place items rank) d).replay = s.shortOf k cs) := by
  have same := sameClaims_heldKey s k
  have refusal : (s.heldKey k).fieldRefusal (.place items rank) =
      if s.freeRecords < s.recordsNeeded .field cs then some .poolFull else none := by
    rw [fieldRefusal_place (by rw [circuits, same.locked]; exact free), circuits, same.freeRecords, same.recordsNeeded]
  refine ⟨fun room => ?_, fun short => ?_⟩
  · rw [if_neg (Nat.not_lt.mpr room)] at refusal
    obtain ⟨placed, told, event⟩ := doFieldWork_placed refusal
    exact ⟨_, fieldAction_done refusal, same.placed placed, same.told told, event⟩
  · rw [if_pos short] at refusal
    rw [fieldAction_short refusal, key]
    show ((s.heldKey k).dropForPool k (items.map PlaceItem.circuit)).replay = _
    rw [circuits]
    exact dropForPool_heldKey exists_ clear cs

end

section
variable {s : State} {k : KeyAddr} {t : Nat} {b : Binding} (exists_ : s.keyExists k = true)
  (pressed : (s.key k).phase = .pressed t) (due : t ≤ s.now) (live : s.liveEntries k .hold = [b])
include exists_ pressed due live

theorem exec_hold_one : exec (.holdTimerExpiry k) s = .next ((s.heldKey k).doBinding b).replay := by
  have live : (s.onKey k fun r => { r with phase := .held }).liveEntries k .hold = [b] := live
  rw [exec_hold exists_ pressed due, takeEdge_plain _ k (by decide), live]
  rfl

end

theorem key_of_live {s : State} {k : KeyAddr} {e : Edge} {b : Binding} (live : b ∈ s.liveEntries k e) : b.key = k := by
  have bound := (List.mem_filter.mp (List.mem_of_mem_filter live)).2
  rw [Bool.and_eq_true] at bound
  exact eq_of_beq bound.1

/-! ## The entry's meaning by its action -/

section
variable {s : State} {b : Binding} {g : GroupNo} {cs : List Circuit} {level fade : Nat} {rank : Rank}

section
variable (defined : s.members g = some cs)
include defined

theorem doBinding_on (action : b.action = .on g level fade rank) : s.doBinding b =
    s.fieldAction (levelWork b.key cs level fade rank) (s.snapshot b (.on cs level) fade rank) := by
  unfold doBinding
  rw [action]
  dsimp only
  rw [defined]

theorem doBinding_off (action : b.action = .off g fade rank) : s.doBinding b =
    s.fieldAction (levelWork b.key cs 0 fade rank) (s.snapshot b (.off cs) fade rank) := by
  unfold doBinding
  rw [action]
  dsimp only
  rw [defined]

theorem doBinding_toggle (action : b.action = .toggle g level fade rank) : s.doBinding b =
    s.fieldAction (levelWork b.key cs (s.toggleLevel cs level) fade rank)
      (s.snapshot b (.toggle cs level) fade rank) := by
  unfold doBinding
  rw [action]
  dsimp only
  rw [defined]

theorem doBinding_raise (action : b.action = .raise g rank) :
    s.doBinding b = s.raiseAction b.key .up rank cs := by
  unfold doBinding
  rw [action]
  dsimp only
  rw [defined]

theorem doBinding_lower (action : b.action = .lower g rank) :
    s.doBinding b = s.raiseAction b.key .down rank cs := by
  unfold doBinding
  rw [action]
  dsimp only
  rw [defined]

theorem doBinding_release (action : b.action = .release g fade rank) : s.doBinding b =
    s.fieldAction (.release cs fade rank) (s.snapshot b (.release cs) fade rank) := by
  unfold doBinding
  rw [action]
  dsimp only
  rw [defined]

end

theorem doBinding_recall {a : PresetNo} {d : PresetDef} (defined : s.presetDef a = some d)
    (action : b.action = .recall a fade rank) : s.doBinding b =
      s.fieldAction (.place (recallItems d fade rank (some b.key)) rank) (s.snapshot b (.recall a) fade rank) := by
  unfold doBinding
  rw [action]
  dsimp only
  rw [defined]

theorem doBinding_recall_undefined {a : PresetNo} (undefined : s.presetDef a = none)
    (action : b.action = .recall a fade rank) : s.doBinding b = s.blink b.key := by
  unfold doBinding
  rw [action]
  dsimp only
  rw [undefined]

theorem doBinding_seqRun {n : PlayerNo} {q : SequenceNo} {m : RunMode} (action : b.action = .seqRun n q m) :
    s.doBinding b = s.seqRunAction b.key n q m := by
  unfold doBinding
  rw [action]

theorem doBinding_seqStop {n : PlayerNo} (action : b.action = .seqStop n) :
    s.doBinding b = s.offRequest n (.key b.key) := by
  unfold doBinding
  rw [action]

theorem doBinding_setMode {m : HouseMode} (action : b.action = .setMode m) :
    s.doBinding b = (s.requestMode m (.key b.key)).1 := by
  unfold doBinding
  rw [action]

/-- An action on a group that is not defined blinks the key (R94). -/
theorem doBinding_undefined (undefined : s.members g = none)
    (action : (∃ level fade rank, b.action = .on g level fade rank) ∨ (∃ fade rank, b.action = .off g fade rank)
      ∨ (∃ level fade rank, b.action = .toggle g level fade rank) ∨ (∃ rank, b.action = .raise g rank)
      ∨ (∃ rank, b.action = .lower g rank) ∨ ∃ fade rank, b.action = .release g fade rank) :
    s.doBinding b = s.blink b.key := by
  unfold doBinding
  obtain ⟨_, _, _, a⟩ | ⟨_, _, a⟩ | ⟨_, _, _, a⟩ | ⟨_, a⟩ | ⟨_, a⟩ | ⟨_, _, a⟩ := action <;>
  · rw [a]
    dsimp only
    rw [undefined]

end

theorem levelWork_circuits (k : KeyAddr) (cs : List Circuit) (level fade : Nat) (rank : Rank) :
    (levelWork k cs level fade rank).circuits = cs := by
  unfold levelWork FieldWork.circuits
  dsimp only
  rw [List.map_map]
  exact List.map_id cs

/-- The work of an entry that the cue lock can hold back, and the snapshot deferred for it (R94, R102). -/
structure HoldableWork (s : State) (b : Binding) (cs : List Circuit) (act : DeferredAction) (fade : Nat) (rank : Rank)
    (w : FieldWork) : Prop where
  action : s.doBinding b = s.fieldAction w (s.snapshot b act fade rank)
  circuits : w.circuits = cs
  form : (∃ items, w = .place items rank) ∨ ∃ cs time, w = .release cs time rank

theorem holdableWork {s : State} {b : Binding} {cs : List Circuit} {act : DeferredAction} {fade : Nat} {rank : Rank}
    (actions : (∃ g level, b.action = .on g level fade rank ∧ s.members g = some cs ∧ act = .on cs level)
      ∨ (∃ g, b.action = .off g fade rank ∧ s.members g = some cs ∧ act = .off cs)
      ∨ (∃ g level, b.action = .toggle g level fade rank ∧ s.members g = some cs ∧ act = .toggle cs level)
      ∨ (∃ a d, b.action = .recall a fade rank ∧ s.presetDef a = some d ∧ cs = d.pairs.map Prod.fst ∧ act = .recall a)
      ∨ (∃ g, b.action = .release g fade rank ∧ s.members g = some cs ∧ act = .release cs)) :
    ∃ w, HoldableWork s b cs act fade rank w := by
  obtain ⟨g, level, action, defined, rfl⟩ | ⟨g, action, defined, rfl⟩ | ⟨g, level, action, defined, rfl⟩
    | ⟨a, d, action, defined, rfl, rfl⟩ | ⟨g, action, defined, rfl⟩ := actions
  · exact ⟨_, doBinding_on defined action, levelWork_circuits _ _ _ _ _, .inl ⟨_, rfl⟩⟩
  · exact ⟨_, doBinding_off defined action, levelWork_circuits _ _ _ _ _, .inl ⟨_, rfl⟩⟩
  · exact ⟨_, doBinding_toggle defined action, levelWork_circuits _ _ _ _ _, .inl ⟨_, rfl⟩⟩
  · exact ⟨_, doBinding_recall defined action, recallItems_circuits _ _ _ _, .inl ⟨_, rfl⟩⟩
  · exact ⟨_, doBinding_release defined action, rfl, .inr ⟨_, _, rfl⟩⟩

end State

end Sys2Proof.Machine
end

section
/-! SUPPORT. The statement on field actions, clause by clause. -/

namespace Sys2Proof.Machine
open State
namespace State

section
variable {s : State} {k : KeyAddr} {t : Nat} {b : Binding} (exists_ : s.keyExists k = true)
  (clear : s.replayOwed = false) (run : exec (.holdTimerExpiry k) s = .next ((s.heldKey k).doBinding b).replay)
  (key : b.key = k)
include exists_ clear run key

/-- The items of one level on a list of circuits, with the key as cause (R95). -/
theorem hold_level {g : GroupNo} {level fade placed : Nat} {rank : Rank} {cs : List Circuit}
    (defined : s.members g = some cs) (free : s.locked .field rank cs = false)
    (action : b.action = .on g level fade rank ∧ placed = level
      ∨ b.action = .off g fade rank ∧ placed = 0
      ∨ b.action = .toggle g level fade rank ∧ placed = 0 ∧ (∃ c ∈ cs, ∃ x ∈ s.claims c, x.owner = .field ∧ 0 < x.target)
      ∨ b.action = .toggle g level fade rank ∧ placed = level
        ∧ (∀ c ∈ cs, ∀ x ∈ s.claims c, x.owner = .field → x.target = 0)) :
    (s.recordsNeeded .field cs ≤ s.freeRecords → ∃ v : State, exec (.holdTimerExpiry k) s = .next v.replay
      ∧ PlacedAs s v .field (cs.map fun c =>
          { circuit := c, target := placed, fade := fade, rank := rank, cause := some k }) false none
      ∧ CommandTold s v .field ∧ ClaimEvent (s.heldKey k) v)
    ∧ (s.freeRecords < s.recordsNeeded .field cs → exec (.holdTimerExpiry k) s = .next (s.shortOf k cs)) := by
  have defined : (s.heldKey k).members g = some cs := defined
  have work : ∃ d : Deferred, d.key = k
      ∧ (s.heldKey k).doBinding b = (s.heldKey k).fieldAction (levelWork k cs placed fade rank) d := by
    obtain ⟨action, rfl⟩ | ⟨action, rfl⟩ | ⟨action, rfl, above⟩ | ⟨action, rfl, dark⟩ := action
    · exact ⟨_, key, (doBinding_on defined action).trans (by rw [key])⟩
    · exact ⟨_, key, (doBinding_off defined action).trans (by rw [key])⟩
    · have level_ : (s.heldKey k).toggleLevel cs level = 0 := toggleLevel_of_above (s := s.heldKey k) level above
      exact ⟨_, key, (doBinding_toggle defined action).trans (by rw [key, level_])⟩
    · have level_ : (s.heldKey k).toggleLevel cs placed = placed := toggleLevel_of_dark (s := s.heldKey k) placed dark
      exact ⟨_, key, (doBinding_toggle defined action).trans (by rw [key, level_])⟩
  obtain ⟨d, own, work⟩ := work
  obtain ⟨placed_, short⟩ := fieldAction_heldKey (d := d) exists_ clear (levelWork_circuits k cs placed fade rank) free own
  rw [run, work]
  refine ⟨fun room => ?_, fun lacks => congrArg _ (short lacks)⟩
  obtain ⟨v, done, rest⟩ := placed_ room
  exact ⟨v, congrArg (fun u => Host.Outcome.next u.replay) done, rest⟩

theorem hold_recall {a : PresetNo} {fade : Nat} {rank : Rank} {d : PresetDef} (action : b.action = .recall a fade rank)
    (defined : s.presetDef a = some d) (free : s.locked .field rank (d.pairs.map Prod.fst) = false) :
    (s.recordsNeeded .field (d.pairs.map Prod.fst) ≤ s.freeRecords → ∃ v : State,
      exec (.holdTimerExpiry k) s = .next v.replay
      ∧ PlacedAs s v .field (recallItems d fade rank (some k)) false none
      ∧ CommandTold s v .field ∧ ClaimEvent (s.heldKey k) v)
    ∧ (s.freeRecords < s.recordsNeeded .field (d.pairs.map Prod.fst) →
      exec (.holdTimerExpiry k) s = .next (s.shortOf k (d.pairs.map Prod.fst))) := by
  have work := doBinding_recall (s := s.heldKey k) defined action
  rw [key] at work
  obtain ⟨placed, short⟩ := fieldAction_heldKey (d := (s.heldKey k).snapshot b (.recall a) fade rank) exists_ clear
    (recallItems_circuits d fade rank (some k)) free key
  rw [run, work]
  refine ⟨fun room => ?_, fun lacks => congrArg _ (short lacks)⟩
  obtain ⟨v, done, rest⟩ := placed room
  exact ⟨v, congrArg (fun u => Host.Outcome.next u.replay) done, rest⟩

omit key in
/-- A RAISE or LOWER by the HOLD edge of a key (R99, R100). -/
theorem hold_raise {way : RaiseWay} {rank : Rank} {group up : List Circuit}
    (action : (s.heldKey k).doBinding b = (s.heldKey k).raiseAction k way rank group)
    (selected : group.filter (s.raisable rank) = up) :
    (up = [] → exec (.holdTimerExpiry k) s = .next (s.heldKey k))
    ∧ (up ≠ [] → s.locked .field rank up = true → exec (.holdTimerExpiry k) s = .next (s.blinked k (s.heldKey k)))
    ∧ (up ≠ [] → s.locked .field rank up = false → s.freeRecords < s.recordsNeeded .field up →
        exec (.holdTimerExpiry k) s = .next (s.shortOf k up))
    ∧ (s.locked .field rank up = false → s.recordsNeeded .field up ≤ s.freeRecords →
      ∃ w v : State, exec (.holdTimerExpiry k) s = .next v.replay
        ∧ PlacedAs s w .field (up.map (s.raiseItem k way rank)) false none ∧ CommandTold s w .field
        ∧ ClaimEvent (s.heldKey k) w ∧ v = { w with circuits := v.circuits }
        ∧ ∀ c, v.circuit c =
          if c ∈ up ∧ 0 < raiseFade s.tables.settings.raiseTime way.target (s.level c) then
            { w.circuit c with raisedBy := some k }
          else w.circuit c) := by
  have same := sameClaims_heldKey s k
  have selected : group.filter ((s.heldKey k).raisable rank) = up := selected
  have bare : up = [] → exec (.holdTimerExpiry k) s = .next (s.heldKey k) := fun none_ => by
    rw [run, action, raiseAction_none selected none_]
    exact congrArg _ (replay_of_clear (s.heldKey k) clear)
  refine ⟨bare, fun some_ locked => ?_, fun some_ free short => ?_, fun free room => ?_⟩
  · rw [run, action, raiseAction_locked selected some_ (by rw [same.locked]; exact locked)]
    exact congrArg _ (blink_heldKey exists_ clear)
  · rw [run, action, raiseAction_short selected some_ (by rw [same.locked]; exact free)
      (by rw [same.freeRecords, same.recordsNeeded]; exact short)]
    exact congrArg _ (dropForPool_heldKey exists_ clear up)
  · by_cases none_ : up = []
    · refine ⟨s.heldKey k, s.heldKey k, ?_, ?_, same.told (commandTold_same _ _),
        (ClaimsOnly.refl _).event (.refl _), rfl, fun c => ?_⟩
      · rw [bare none_, replay_of_clear (s.heldKey k) clear]
      · rw [none_]
        exact same.placed (placedAs_nil _)
      · rw [if_neg fun h => by rw [none_] at h; exact absurd h.1 List.not_mem_nil]
    · have room : (s.heldKey k).recordsNeeded .field up ≤ (s.heldKey k).freeRecords := by
        rw [same.freeRecords, same.recordsNeeded]
        exact room
      have chosen : ∀ c ∈ up, (s.heldKey k).raisable rank c = true := fun c mem => by
        rw [← selected] at mem
        exact List.of_mem_filter mem
      refine ⟨_, (s.heldKey k).raiseOn k way rank up, ?_,
        same.placed (place_placed _ (fieldPlacement (up.map ((s.heldKey k).raiseItem k way rank)))),
        same.told (place_told _ (fieldPlacement (up.map ((s.heldKey k).raiseItem k way rank)))),
        raiseOn_claimEvent room, rfl, raiseOn_circuit chosen⟩
      rw [run, action, raiseAction_raised selected none_ (by rw [same.locked]; exact free) room]

omit exists_ clear key in
theorem hold_release {g : GroupNo} {fade : Nat} {rank : Rank} {cs : List Circuit} (defined : s.members g = some cs)
    (free : s.locked .field rank cs = false) (action : b.action = .release g fade rank) :
    ∃ v : State, exec (.holdTimerExpiry k) s = .next v.replay ∧ ReleasedAs s v .field cs fade
      ∧ CommandTold s v .field ∧ ClaimEvent (s.heldKey k) v := by
  have same := sameClaims_heldKey s k
  have refusal : (s.heldKey k).fieldRefusal (.release cs fade rank) = none :=
    if_neg (by rw [same.locked, free]; exact Bool.false_ne_true)
  obtain ⟨released, told, event⟩ := doFieldWork_released (s := s.heldKey k) cs fade rank
  refine ⟨_, ?_, same.released released, same.told told, event⟩
  rw [run, doBinding_release (s := s.heldKey k) defined action, fieldAction_done refusal]

theorem hold_blinks (refused : (s.heldKey k).doBinding b = (s.heldKey k).blink b.key) :
    exec (.holdTimerExpiry k) s = .next (s.blinked k (s.heldKey k)) := by
  rw [run, refused, key]
  exact congrArg _ (blink_heldKey exists_ clear)

theorem hold_seqRun {n : PlayerNo} {m : RunMode} {q : SequenceNo} (action : b.action = .seqRun n q m) :
    (s.tables.sequences.get q = none → exec (.holdTimerExpiry k) s = .next (s.blinked k (s.heldKey k)))
    ∧ (∀ d, s.tables.sequences.get q = some d → (s.player n).mode ≠ .off → (s.player n).sequence = some q →
        exec (.holdTimerExpiry k) s = .next ((s.heldKey k).setPlayer n { s.player n with mode := m.toPlayer }))
    ∧ (∀ d x rest, s.tables.sequences.get q = some d → d.steps = x :: rest →
        ((s.player n).mode = .off ∨ (s.player n).sequence ≠ some q) →
        ∃ (w v : State) (refused : Option StepRefusal), RunBegins (s.heldKey k) w n q m (.key k)
          ∧ Announced w (.seq n (some q) (.started (.key k)) 0 1) ∧ StepTaken w v n d x refused
          ∧ (refused = none → exec (.holdTimerExpiry k) s = .next v.replay)
          ∧ (refused ≠ none → exec (.holdTimerExpiry k) s = .next (s.blinked k v).replay)) := by
  have work := doBinding_seqRun (s := s.heldKey k) action
  refine ⟨fun undefined => ?_, fun d defined on same => ?_, fun d x rest defined steps start => ?_⟩
  · exact hold_blinks exists_ clear run key (work.trans (seqRunAction_undefined (s := s.heldKey k) m undefined |>.trans
      (by rw [key])))
  · have continued := runRequest_continued (s := s.heldKey k) m (.key k) on same
    have act := seqRunAction_defined (s := s.heldKey k) (k := k) (n := n) m
      (show (s.heldKey k).sequenceDef q = some d from defined)
    rw [continued, if_neg (show ¬ (SequenceOutcome.continued = .badTarget ∨ SequenceOutcome.continued = .poolFull) by
      decide)] at act
    rw [run, work, key, act]
    exact congrArg _ (replay_of_clear ((s.heldKey k).setPlayer n _) clear)
  · obtain ⟨w, v, refused, begins, taken, ok, fails⟩ :=
      seqRunAction_begins (s := s.heldKey k) (m := m) exists_ defined steps start
    refine ⟨w, v, refused, begins, begins.told, taken, fun none_ => ?_, fun some_ => ?_⟩
    · rw [run, work, key, ok none_]
    · rw [run, work, key, fails some_]
      rfl

omit exists_ in
theorem hold_seqStop {n : PlayerNo} (action : b.action = .seqStop n) :
    ((s.player n).mode = .off → exec (.holdTimerExpiry k) s = .next (s.heldKey k))
    ∧ ((s.player n).mode ≠ .off → ∃ v : State, exec (.holdTimerExpiry k) s = .next v.replay
      ∧ Stopped (s.heldKey k) v n (.key k)) := by
  have work := doBinding_seqStop (s := s.heldKey k) action
  rw [key] at work
  rw [run, work]
  refine ⟨fun off => ?_, fun on => ?_⟩
  · have stays : (s.heldKey k).offRequest n (.key k) = s.heldKey k := if_pos off
    rw [stays]
    exact congrArg _ (replay_of_clear (s.heldKey k) clear)
  · have stops : (s.heldKey k).offRequest n (.key k) = (s.heldKey k).stopPlayer n (.key k) := if_neg on
    rw [stops]
    exact ⟨_, rfl, (stopPlayer_stopped (s.heldKey k) n (.key k)).1⟩

omit exists_ in
theorem hold_setMode {m : HouseMode} (action : b.action = .setMode m) :
    (s.mode = some m → exec (.holdTimerExpiry k) s = .next (s.heldKey k))
    ∧ (s.mode ≠ some m → ∃ (v : State) (preset : PresetOutcome) (sequence : SequenceOutcome),
      exec (.holdTimerExpiry k) s = .next v.replay
      ∧ ModeEntered (s.heldKey k) v m (.key k) preset sequence ∧ v.mode = some m) := by
  have work := doBinding_setMode (s := s.heldKey k) action
  rw [key] at work
  rw [run, work]
  refine ⟨fun same => ?_, fun other => ?_⟩
  · have stays : (s.heldKey k).requestMode m (.key k) = (s.heldKey k, .none, .none) := if_pos same
    rw [stays]
    exact congrArg _ (replay_of_clear (s.heldKey k) clear)
  · have change : (s.heldKey k).requestMode m (.key k) = (s.heldKey k).changeMode m (.key k) := if_neg other
    rw [change]
    exact ⟨_, _, _, rfl, changeMode_entered (s.heldKey k) m (.key k), changeMode_mode (s.heldKey k) m (.key k)⟩

/-- A locked entry is deferred, or dropped where the queue refuses it (R102, R103, R122, R124). -/
theorem hold_locked {cs : List Circuit} {act : DeferredAction} {fade : Nat} {rank : Rank}
    (locked : s.locked .field rank cs = true)
    (actions : (∃ g level, b.action = .on g level fade rank ∧ s.members g = some cs ∧ act = .on cs level)
      ∨ (∃ g, b.action = .off g fade rank ∧ s.members g = some cs ∧ act = .off cs)
      ∨ (∃ g level, b.action = .toggle g level fade rank ∧ s.members g = some cs ∧ act = .toggle cs level)
      ∨ (∃ a d, b.action = .recall a fade rank ∧ s.presetDef a = some d ∧ cs = d.pairs.map Prod.fst ∧ act = .recall a)
      ∨ (∃ g, b.action = .release g fade rank ∧ s.members g = some cs ∧ act = .release cs)) :
    (s.deferred.length < 16 → 0 < s.tables.settings.deferLimit → ∃ v, exec (.holdTimerExpiry k) s = .next v
      ∧ v.deferred = s.deferred ++
          [⟨k, act, fade, rank, b.gate, s.now, s.now + s.tables.settings.deferLimit * 1000000⟩]
      ∧ v.circuits = s.circuits ∧ v.counters = s.counters
      ∧ (s.deferWarned = false → s.tables.settings.warningLevel ≤ s.deferred.length + 1 →
          v = { (s.heldKey k).announce (.deferWarning (s.deferred.length + 1) s.tables.settings.warningLevel) with
            deferred := v.deferred, deferWarned := true })
      ∧ (s.deferWarned = true ∨ s.deferred.length + 1 < s.tables.settings.warningLevel →
          v = { s.heldKey k with deferred := v.deferred }))
    ∧ (16 ≤ s.deferred.length ∨ s.tables.settings.deferLimit = 0 → exec (.holdTimerExpiry k) s =
        .next (s.blinked k { s.heldKey k with
          counters := { s.counters with deferredDropped := min (s.counters.deferredDropped + 1) 65535 } })) := by
  obtain ⟨w, work⟩ := holdableWork (s := s.heldKey k) (act := act) (cs := cs) actions
  have refusal : (s.heldKey k).fieldRefusal w = some .locked :=
    fieldRefusal_locked work.form (by rw [work.circuits, (sameClaims_heldKey s k).locked]; exact locked)
  let d : Deferred := ⟨k, act, fade, rank, b.gate, s.now, s.now + s.tables.settings.deferLimit * 1000000⟩
  have shot : (s.heldKey k).snapshot b act fade rank = d := by
    unfold snapshot
    rw [key]
    rfl
  have deferred : (s.heldKey k).doBinding b = (s.heldKey k).deferOrDrop d := by
    rw [work.action, fieldAction_locked refusal, shot]
  obtain ⟨queue, circuits, counters, owed⟩ := defer_fields (s.heldKey k) d
  rw [run, deferred]
  refine ⟨fun room limit => ⟨(s.heldKey k).defer d, ?_, queue, circuits, counters, fun unwarned level => ?_,
    fun silent => ?_⟩, fun refused => ?_⟩
  · rw [deferOrDrop_accepted (s := s.heldKey k) room limit]
    exact congrArg _ (replay_of_clear _ (owed.trans clear))
  · rw [queue]
    exact defer_warns (s := s.heldKey k) d unwarned level
  · rw [queue]
    exact defer_silent (s := s.heldKey k) d silent
  · rw [deferOrDrop_refused (s := s.heldKey k) refused, blink_of_exists (s := (s.heldKey k).countDropped) exists_]
    exact congrArg _ (replay_of_clear (s.blinked k (s.heldKey k).countDropped) clear)

end

/-- The way of a raise takes each circuit from its level to the way's target (R99). -/
theorem raiseFade_up (raiseTime : Nat) {level : Nat} (low : level ≤ 1000) :
    raiseFade raiseTime RaiseWay.up.target level = (1000 - level) * (raiseTime * 10) / 1000 := by
  unfold raiseFade
  rw [if_pos (show level ≤ RaiseWay.up.target from low)]
  rfl

theorem raiseFade_down (raiseTime level : Nat) :
    raiseFade raiseTime RaiseWay.down.target level = level * (raiseTime * 10) / 1000 := by
  unfold raiseFade
  show (if level ≤ 0 then 0 - level else level - 0) * (raiseTime * 10) / 1000 = _
  split
  · rename_i zero
    rw [Nat.le_zero.mp zero]
  · rfl

end State

/-- Settles O54. -/
theorem fieldActionsAreCarriedOut : Obligations.FieldActionsAreCarriedOut := by
  intro s k t b exists_ pressed due clear live told run_ item blinked short
  have key : b.key = k := key_of_live (by rw [live]; exact List.mem_singleton_self b)
  have run : exec (.holdTimerExpiry k) s = .next ((s.heldKey k).doBinding b).replay :=
    exec_hold_one exists_ pressed due live
  refine ⟨fun g level fade rank cs placed defined free action => hold_level exists_ clear run key defined free action,
    fun a fade rank d action defined free => hold_recall exists_ clear run key action defined free,
    fun g rank cs way aim up defined action aims chosen => ?_,
    fun g fade rank cs defined free action => hold_release run defined free action,
    fun n m q action => hold_seqRun exists_ clear run key action,
    fun n action => hold_seqStop clear run key action,
    fun m action => hold_setMode clear run key action,
    fun cs act fade rank locked actions => hold_locked exists_ clear run key locked actions,
    fun g undefined action => hold_blinks exists_ clear run key
      (doBinding_undefined (s := s.heldKey k) undefined action),
    fun a fade rank action undefined => hold_blinks exists_ clear run key
      (doBinding_recall_undefined (s := s.heldKey k) undefined action)⟩
  have selected : cs.filter (s.raisable rank) = up :=
    (List.filter_congr fun c _ => raisable_eq s rank c).trans chosen.symm
  obtain ⟨action, rfl⟩ | ⟨action, rfl⟩ := action
  · have work := doBinding_raise (s := s.heldKey k) defined action
    rw [key] at work
    obtain ⟨none_, locked, lacks, raised⟩ := hold_raise exists_ clear run work selected
    refine ⟨none_, locked, lacks, fun free room => ?_⟩
    obtain ⟨w, v, runs, placed, told_, event, frame, circuits⟩ := raised free room
    refine ⟨w, v, _, runs, placed, told_, event, frame, circuits, fun c low => ?_⟩
    rw [aims c low]
    exact raiseFade_up _ low
  · have work := doBinding_lower (s := s.heldKey k) defined action
    rw [key] at work
    obtain ⟨none_, locked, lacks, raised⟩ := hold_raise exists_ clear run work selected
    refine ⟨none_, locked, lacks, fun free room => ?_⟩
    obtain ⟨w, v, runs, placed, told_, event, frame, circuits⟩ := raised free room
    refine ⟨w, v, _, runs, placed, told_, event, frame, circuits, fun c low => ?_⟩
    rw [aims c low]
    exact raiseFade_down _ _

end Sys2Proof.Machine
end

section
/-! SUPPORT. What the entry actions of a mode leave of a part without slots, clause by clause. -/

namespace Sys2Proof.Machine
open State

/-- What events of the owners MODE and SEQ change, where no slot is in use: the claims of those owners, on the circuits
`touched`; trackers, slots, deferred queue and the replay owed stand. -/
structure EntryEvent (touched : List Circuit) (s t : State) : Prop where
  steady : Steady s t
  recovers : Recovers s t
  spares : SparesAbsent s t
  deferred : t.deferred = s.deferred
  warned : t.deferWarned = s.deferWarned
  counters : t.counters = { s.counters with poolRefusals := t.counters.poolRefusals }
  owed : (∀ n, s.slot n = none) → t.replayOwed = s.replayOwed
  raises : ∀ c, (t.circuit c).raisedBy = (s.circuit c).raisedBy
  owners : ∀ c q, q ≠ .mode → (∀ n, q ≠ .seq n) →
    (claimOf q (t.claims c)).map Claim.wish = (claimOf q (s.claims c)).map Claim.wish
  bare : ∀ c, c ∉ touched → s.claims c = [] →
    t.claims c = [] ∧ (t.circuit c).transition = (s.circuit c).transition

namespace EntryEvent

theorem of_circuits {touched : List Circuit} {s t : State} (steady : Steady s t) (recovers : Recovers s t)
    (spares : SparesAbsent s t) (deferred : t.deferred = s.deferred) (warned : t.deferWarned = s.deferWarned)
    (counters : t.counters = { s.counters with poolRefusals := t.counters.poolRefusals })
    (owed : t.replayOwed = s.replayOwed) (circuits : t.circuits = s.circuits) : EntryEvent touched s t := by
  have circuit : ∀ c, t.circuit c = s.circuit c := fun c => by
    unfold State.circuit
    rw [circuits]
  have claims : ∀ c, t.claims c = s.claims c := fun c => by
    unfold State.claims
    rw [circuit]
  exact ⟨steady, recovers, spares, deferred, warned, counters, fun _ => owed, fun c => by rw [circuit],
    fun c q _ _ => by rw [claims], fun c _ empty => ⟨(claims c).trans empty, by rw [circuit]⟩⟩

theorem refl (touched : List Circuit) (s : State) : EntryEvent touched s s :=
  of_circuits (.refl s) (.refl s) (.refl s) rfl rfl rfl rfl rfl

theorem slots_none {touched : List Circuit} {s t : State} (h : EntryEvent touched s t) (free : ∀ n, s.slot n = none)
    (n : SlotNo) : t.slot n = none := by
  cases held : t.slot n with
  | none => rfl
  | some y =>
    obtain ⟨x, stands, _⟩ := h.steady.slots n y held
    have gone : s.slots.get n = none := free n
    rw [gone] at stands
    cases stands

theorem trans {touched : List Circuit} {a b c : State} (h : EntryEvent touched a b) (k : EntryEvent touched b c) :
    EntryEvent touched a c where
  steady := h.steady.trans k.steady
  recovers := h.recovers.trans k.recovers
  spares := h.spares.trans k.spares
  deferred := k.deferred.trans h.deferred
  warned := k.warned.trans h.warned
  counters := k.counters.trans (by rw [h.counters])
  owed free := (k.owed (h.slots_none free)).trans (h.owed free)
  raises i := (k.raises i).trans (h.raises i)
  owners i q mode seq := (k.owners i q mode seq).trans (h.owners i q mode seq)
  bare i out empty := by
    obtain ⟨claims, transition⟩ := h.bare i out empty
    obtain ⟨claims', transition'⟩ := k.bare i out claims
    exact ⟨claims', transition'.trans transition⟩

end EntryEvent

namespace State

/-- No slot ends where none is in use. -/
theorem endSlots_free {s : State} (free : ∀ n, s.slot n = none) (which : Slot → Bool) (r : EndReason) :
    s.endSlots which r = s :=
  foldl_fixed _ _ _ fun n _ => if_neg (by rw [free n]; exact Bool.false_ne_true)

theorem freeZeroTrackers_slots (s : State) :
    s.freeZeroTrackers.slots = s.slots ∧ s.freeZeroTrackers.replayOwed = s.replayOwed :=
  foldl_keeps (fun a b : State => b.slots = a.slots ∧ b.replayOwed = a.replayOwed) (fun _ => ⟨rfl, rfl⟩)
    (fun _ _ _ h k => ⟨k.1.trans h.1, k.2.trans h.2⟩) (fun s (t : Tracker) => s.notify t.port (.fadeDone t.tag))
    (fun _ _ => ⟨rfl, rfl⟩) (s.trackers.filter fun t => t.count == 0) s

theorem reportRecoveries_slots (s : State) (cs : List Circuit) :
    (s.reportRecoveries cs).slots = s.slots ∧ (s.reportRecoveries cs).replayOwed = s.replayOwed := by
  unfold reportRecoveries
  split
  · dsimp only
    split <;> exact ⟨rfl, rfl⟩
  · exact ⟨rfl, rfl⟩

/-- Where no slot is in use, what follows an event asks for no replay (R116, R117). -/
theorem settle_owed {s : State} (free : ∀ n, s.slot n = none) (drops : List TrackerLink) (reports : List Circuit) :
    (s.settle drops reports).replayOwed = s.replayOwed := by
  have slots : ∀ n, (((s.decrement drops).freeZeroTrackers).reportRecoveries reports).slot n = none := fun n => by
    unfold State.slot
    rw [(reportRecoveries_slots _ _).1, (freeZeroTrackers_slots _).1]
    refine (Tab.get_build _ n).trans ?_
    rw [free n]
    rfl
  unfold settle endDoneSlots
  rw [endSlots_free slots, (reportRecoveries_slots _ _).2, (freeZeroTrackers_slots _).2]
  rfl

theorem commandNotices_slots (s : State) (t : Standings) (actor : Option Owner) :
    (s.commandNotices t actor).slots = s.slots := (commandNotices_same s t actor).2.1

theorem release_owed {s : State} (free : ∀ n, s.slot n = none) (o : Owner) (cs : List Circuit) (time : Nat) :
    (s.release o cs time).replayOwed = s.replayOwed := by
  unfold release
  dsimp only
  rw [settle_owed fun n => ?_, commandNotices_owed]
  unfold State.slot
  rw [commandNotices_slots]
  exact free n

theorem place_owed {s : State} (free : ∀ n, s.slot n = none) {pl : Placement} (untracked : pl.tracker = .untracked) :
    (s.place pl).replayOwed = s.replayOwed := by
  have start : (s.placeStart pl).slots = s.slots ∧ (s.placeStart pl).replayOwed = s.replayOwed := by
    unfold placeStart
    rw [untracked]
    exact ⟨rfl, rfl⟩
  rw [place_eq, settle_owed fun n => ?_, commandNotices_owed, start.2]
  unfold State.slot
  rw [commandNotices_slots, start.1]
  exact free n

end State

/-- The owners of entry actions (R150, R151). -/
def EntryOwner (o : Owner) : Prop := o = .mode ∨ ∃ n, o = .seq n

theorem EntryOwner.ne {o q : Owner} (h : EntryOwner o) (mode : q ≠ .mode) (seq : ∀ n, q ≠ .seq n) : q ≠ o := by
  obtain rfl | ⟨n, rfl⟩ := h
  · exact mode
  · exact seq n

theorem EntryOwner.ne_field {o : Owner} (h : EntryOwner o) : o ≠ .field :=
  (h.ne (q := .field) (fun e => by cases e) fun _ e => by cases e).symm

/-- A list whose links gone leave nothing is empty. -/
theorem nil_of_unlinked {l m : List Claim} (h : m.map Claim.unlinked = l.map Claim.unlinked) (empty : l = []) : m = [] := by
  rw [empty] at h
  exact List.map_eq_nil_iff.mp h

namespace State

theorem announce_entry (touched : List Circuit) (s : State) (n : Notice) : EntryEvent touched s (s.announce n) :=
  .of_circuits (announce_steady s n) (announce_quiet s n).recovers (announce_spares s n) rfl rfl rfl rfl rfl

theorem setPlayer_entry (touched : List Circuit) (s : State) (n : PlayerNo) (p : Player) :
    EntryEvent touched s (s.setPlayer n p) :=
  .of_circuits (setPlayer_steady s n p) (Quiet.of_ports (s := s) (t := s.setPlayer n p) rfl rfl rfl).recovers
    (setPlayer_spares s n p) rfl rfl rfl rfl rfl

theorem countPoolRefusal_entry (touched : List Circuit) (s : State) : EntryEvent touched s s.countPoolRefusal :=
  .of_circuits (countPoolRefusal_steady s) (Quiet.of_ports (s := s) (t := s.countPoolRefusal) rfl rfl rfl).recovers
    (.of_eq rfl rfl) rfl rfl rfl rfl rfl

/-- A release of all an entry owner holds touches no circuit without claims. -/
theorem releaseAll_entry (touched : List Circuit) (s : State) {o : Owner} (own : EntryOwner o) (time : Nat) :
    EntryEvent touched s (s.releaseAll o time) := by
  have claims := releaseAll_claims s o time
  have released := releaseAll_released s o time
  refine ⟨claims.toSteady, releaseAll_recovers s o time, releaseAll_spares s o time, claims.queue, claims.deferWarned, ?_,
    fun free => release_owed free o _ time, fun c => ?_, fun c q mode seq => released.others c q (own.ne mode seq),
    fun c _ empty => ?_⟩
  · rw [claims.counts]
  · rw [released.raises, if_neg fun h => own.ne_field h.1]
  · have out : c ∉ s.circuitsOf o := fun mem => by
      have held := List.of_mem_filter mem
      rw [empty] at held
      cases held
    obtain ⟨links, transition⟩ := released.elsewhere c out
    exact ⟨nil_of_unlinked links empty, transition⟩

theorem place_entry {touched : List Circuit} {s : State} {pl : Placement} (own : EntryOwner pl.owner)
    (untracked : pl.tracker = .untracked) (supplied : Supplied s pl)
    (inside : ∀ c ∈ pl.items.map PlaceItem.circuit, c ∈ touched) : EntryEvent touched s (s.place pl) := by
  have claims := place_claims s pl supplied
  have placed := place_placed s pl
  refine ⟨claims.toSteady, place_recovers s pl, place_spares s pl untracked, claims.queue, claims.deferWarned, ?_,
    fun free => place_owed free untracked, fun c => ?_, fun c q mode seq => placed.others c q (own.ne mode seq),
    fun c out empty => ?_⟩
  · rw [claims.counts]
  · rw [placed.raises, if_neg fun h => own.ne_field h.1]
  · have absent : itemOn pl.items c = none := List.find?_eq_none.mpr fun it mem here => by
      refine out (inside c (List.mem_map.mpr ⟨it, mem, ?_⟩))
      exact eq_of_beq here
    obtain ⟨links, transition⟩ := placed.elsewhere c absent
    exact ⟨nil_of_unlinked links empty, transition⟩

/-! ## Players -/

theorem entryOwner_seq (n : PlayerNo) : EntryOwner (.seq n) := .inr ⟨n, rfl⟩

theorem faultPlayer_entry (touched : List Circuit) (s : State) (n : PlayerNo) (r : StepRefusal) :
    EntryEvent touched s (s.faultPlayer n r) :=
  ((setPlayer_entry touched s n _).trans (announce_entry touched _ _)).trans
    (releaseAll_entry touched _ (entryOwner_seq n) _)

theorem stopPlayer_entry (touched : List Circuit) (s : State) (n : PlayerNo) (r : RunSource) :
    EntryEvent touched s (s.stopPlayer n r) :=
  ((setPlayer_entry touched s n _).trans (announce_entry touched _ _)).trans
    (releaseAll_entry touched _ (entryOwner_seq n) _)

theorem takeAction_entry {touched : List Circuit} {s : State} {n : PlayerNo}
    (inside : ∀ q x a d, s.currentStep n = some (q, x) → x.kind = .recall a → s.presetDef a = some d →
      ∀ c ∈ PresetDef.circuits d, c ∈ touched) : EntryEvent touched s (s.takeAction n).1 := by
  unfold takeAction
  split
  · exact EntryEvent.refl touched s
  · rename_i q x current
    split
    · dsimp only
      exact (releaseAll_entry touched s (entryOwner_seq n) _).trans (setPlayer_entry touched _ n _)
    · rename_i a kind
      split
      · dsimp only
        exact faultPlayer_entry touched s n _
      · rename_i d defined
        split
        · rename_i free
          dsimp only
          refine (place_entry (pl := stepPlacement n q x d) (entryOwner_seq n) rfl (stepPlacement_supplied free)
            fun c mem => ?_).trans (setPlayer_entry touched _ n _)
          unfold stepPlacement at mem
          dsimp only at mem
          rw [recallItems_circuits] at mem
          exact inside q x a d current kind defined c mem
        · dsimp only
          exact (setPlayer_entry touched s n _).trans (announce_entry touched _ _)
        · dsimp only
          exact (countPoolRefusal_entry touched s).trans (faultPlayer_entry touched _ n _)

theorem releaseHeld_entry (touched : List Circuit) (s : State) (n : PlayerNo) (q : SequenceNo) :
    EntryEvent touched s (s.releaseHeld n q) := by
  unfold releaseHeld
  split
  · exact .refl touched s
  · split
    · exact .refl touched s
    · exact releaseAll_entry touched s (entryOwner_seq n) _

/-- The circuits that step 1 of a sequence recalls (R138). -/
def firstCircuits (s : State) (q : SequenceNo) : List Circuit :=
  match ((s.tables.sequences.get q).bind fun d => d.steps.head?).map SeqStep.kind with
  | some (.recall a) => (pairsOf (s.presetDef a)).map Prod.fst
  | some .release => []
  | none => []

/-- A start takes step 1, whose circuits are those it can touch (R133, R138). -/
theorem startRun_entry (s : State) (n : PlayerNo) (q : SequenceNo) (m : RunMode) (source : RunSource) :
    EntryEvent (s.firstCircuits q) s (s.startRun n q m source).1 := by
  have tables := (releaseHeld_steady s n q).tables
  unfold startRun
  dsimp only
  generalize (s.releaseHeld n q).player n = old
  let p : Player :=
    { old with mode := m.toPlayer, run := .idle, sequence := some q, step := 1, passes := 0, heldRelease := none }
  let u := (((s.releaseHeld n q).setPlayer n p).announceSeq n (.started source)).takeRate n
  have begun : EntryEvent (s.firstCircuits q) s u :=
    (((releaseHeld_entry _ s n q).trans (setPlayer_entry _ _ n p)).trans (announce_entry _ _ _)).trans
      (setPlayer_entry _ _ n _)
  have stands : (u.player n).sequence = some q ∧ (u.player n).step = 1 := by
    have here : (((s.releaseHeld n q).setPlayer n p).announceSeq n (.started source)).player n = p := Tab.get_set_self _ _ _
    have rate := takeRate_player (((s.releaseHeld n q).setPlayer n p).announceSeq n (.started source)) n
    rw [here] at rate
    rw [show u.player n = _ from rate]
    exact ⟨rfl, rfl⟩
  have same : u.tables = s.tables := tables
  refine begun.trans (takeAction_entry fun d x a y current kind defined c mem => ?_)
  unfold currentStep playerSequence sequenceDef at current
  rw [stands.1, stands.2, same] at current
  have defined : s.presetDef a = some y := by
    unfold State.presetDef at defined ⊢
    rw [← same]
    exact defined
  obtain ⟨e, he, step⟩ := Option.bind_eq_some_iff.mp current
  obtain ⟨z, first, pair⟩ := Option.map_eq_some_iff.mp step
  cases pair
  have he : s.tables.sequences.get q = some d := he
  have first : d.steps.head? = some x := by
    rw [List.head?_eq_getElem?]
    exact first
  unfold firstCircuits
  rw [he, Option.bind_some, first, Option.map_some, kind]
  show c ∈ (pairsOf (s.presetDef a)).map Prod.fst
  rw [defined]
  exact mem

theorem entryEvent_mono {touched more : List Circuit} {s t : State} (h : EntryEvent touched s t)
    (sub : ∀ c ∈ touched, c ∈ more) : EntryEvent more s t :=
  { h with bare := fun c out => h.bare c fun mem => out (sub c mem) }

theorem firstCircuits_of_tables {s t : State} (tables : t.tables = s.tables) (q : SequenceNo) :
    t.firstCircuits q = s.firstCircuits q := by
  unfold firstCircuits State.presetDef
  rw [tables]

theorem runRequest_entry (s : State) (n : PlayerNo) (q : SequenceNo) (m : RunMode) (source : RunSource) :
    EntryEvent (s.firstCircuits q) s (s.runRequest n q m source).1 := by
  unfold runRequest
  split
  · exact startRun_entry s n q m source
  · split
    · dsimp only
      exact setPlayer_entry _ s n _
    · dsimp only
      have start := startRun_entry (s.stopPlayer n source) n q m source
      rw [firstCircuits_of_tables (stopPlayer_steady s n source).tables] at start
      exact (stopPlayer_entry _ s n source).trans start

/-- The circuits an entry preset names (R150). -/
def presetCircuits (s : State) (r : ModeRecord) : List Circuit :=
  match r.entryPreset with
  | some a => (pairsOf (s.presetDef a)).map Prod.fst
  | none => []

/-- The circuits an entry sequence can touch (R151). -/
def sequenceCircuits (s : State) (r : ModeRecord) : List Circuit :=
  match r.entrySequence with
  | some (.run _ _ q) => s.firstCircuits q
  | some (.off _) => []
  | none => []

theorem entryCircuits_eq (s : State) (r : ModeRecord) :
    entryCircuits s r = s.presetCircuits r ++ s.sequenceCircuits r := rfl

theorem enterPreset_entry (s : State) (r : ModeRecord) : EntryEvent (s.presetCircuits r) s (s.enterPreset r).1 := by
  unfold enterPreset
  cases preset : r.entryPreset with
  | none => exact EntryEvent.refl _ s
  | some a =>
    dsimp only
    cases defined : s.presetDef a with
    | none =>
      dsimp only
      exact EntryEvent.refl _ s
    | some d =>
      dsimp only
      cases refusal : s.placeRefusal .mode r.entryRank (PresetDef.circuits d) false with
      | none =>
        dsimp only
        refine place_entry (.inl rfl) rfl (entryPlacement_supplied refusal) fun c mem => ?_
        unfold entryPlacement at mem
        dsimp only at mem
        rw [recallItems_circuits] at mem
        unfold presetCircuits
        rw [preset]
        dsimp only
        rw [defined]
        exact mem
      | some _ =>
        dsimp only
        exact countPoolRefusal_entry _ s

theorem enterSequence_entry (s : State) (r : ModeRecord) :
    EntryEvent (s.sequenceCircuits r) s (s.enterSequence r).1 := by
  unfold enterSequence
  cases sequence : r.entrySequence with
  | none => exact EntryEvent.refl _ s
  | some e =>
    cases e with
    | off n =>
      dsimp only
      split
      · exact EntryEvent.refl _ s
      · dsimp only
        exact stopPlayer_entry _ s n .mode
    | run n m q =>
      have inside : s.sequenceCircuits r = s.firstCircuits q := by
        unfold sequenceCircuits
        rw [sequence]
      rw [inside]
      dsimp only
      cases s.sequenceDef q with
      | none =>
        dsimp only
        exact EntryEvent.refl _ s
      | some d =>
        dsimp only
        exact runRequest_entry s n q m .mode

end State

end Sys2Proof.Machine
end

section
/-! SUPPORT. The mode re-entered, and the clearing of a restart. -/

namespace Sys2Proof.Machine
open State
namespace State

/-! ## The mode re-entered -/

/-- The mode as it stands, entered again, ends no slot (R119, R149). -/
theorem enterMode_same {s : State} {m : HouseMode} (mode : s.mode = some m) : s.enterMode m = s := by
  have stands : ({ s with mode := some m } : State) = s := by rw [← mode]
  unfold enterMode
  dsimp only
  rw [stands, if_neg]
  intro leaves
  unfold inShow at leaves
  rw [mode] at leaves
  cases m <;> cases leaves

theorem presetCircuits_of_tables {s t : State} (tables : t.tables = s.tables) (r : ModeRecord) :
    t.presetCircuits r = s.presetCircuits r := by
  unfold presetCircuits State.presetDef
  rw [tables]

theorem sequenceCircuits_of_tables {s t : State} (tables : t.tables = s.tables) (r : ModeRecord) :
    t.sequenceCircuits r = s.sequenceCircuits r := by
  unfold sequenceCircuits
  simp only [firstCircuits_of_tables tables]

/-- The state in which the entry actions of the mode as it stands begin (R149). -/
def modeReleased (s : State) (m : HouseMode) : State := s.releaseAll .mode (s.modeRecord m).entryFade

/-- The state that the entry preset leaves (R150). -/
def presetDone (s : State) (m : HouseMode) : State := ((s.modeReleased m).enterPreset (s.modeRecord m)).1

/-- The state that the entry sequence leaves (R151). -/
def sequenceDone (s : State) (m : HouseMode) : State := ((s.presetDone m).enterSequence (s.modeRecord m)).1

theorem changeMode_same {s : State} {m : HouseMode} (mode : s.mode = some m) (source : ModeSource) :
    ∃ preset sequence, PresetEntered (s.modeReleased m) (s.presetDone m) (s.modeRecord m) preset
      ∧ SequenceEntered (s.presetDone m) (s.sequenceDone m) (s.modeRecord m) sequence
      ∧ (s.changeMode m source).1 = (s.sequenceDone m).announce
          (.mode m (some m) source preset sequence (entryRefused preset sequence)) := by
  refine ⟨_, _, enterPreset_entered _ _, enterSequence_entered _ _, ?_⟩
  unfold changeMode
  dsimp only
  rw [enterMode_same mode, mode, entryFailed_eq]
  rfl

theorem modeReleased_entry (s : State) (m : HouseMode) (touched : List Circuit) :
    EntryEvent touched s (s.modeReleased m) := releaseAll_entry touched s (.inl rfl) _

theorem presetDone_entry (s : State) (m : HouseMode) :
    EntryEvent (s.presetCircuits (s.modeRecord m)) s (s.presetDone m) := by
  have released := modeReleased_entry s m (s.presetCircuits (s.modeRecord m))
  have preset := enterPreset_entry (s.modeReleased m) (s.modeRecord m)
  rw [presetCircuits_of_tables released.steady.tables] at preset
  exact released.trans preset

theorem sequenceDone_entry (s : State) (m : HouseMode) :
    EntryEvent (entryCircuits s (s.modeRecord m)) s (s.sequenceDone m) := by
  have preset := presetDone_entry s m
  have sequence := enterSequence_entry (s.presetDone m) (s.modeRecord m)
  rw [sequenceCircuits_of_tables preset.steady.tables] at sequence
  rw [entryCircuits_eq]
  exact (entryEvent_mono preset fun c mem => List.mem_append_left _ mem).trans
    (entryEvent_mono sequence fun c mem => List.mem_append_right _ mem)

theorem changeMode_same_entry {s : State} {m : HouseMode} (mode : s.mode = some m) (source : ModeSource) :
    EntryEvent (entryCircuits s (s.modeRecord m)) s (s.changeMode m source).1 := by
  obtain ⟨preset, sequence, _, _, change⟩ := changeMode_same mode source
  rw [change]
  exact (sequenceDone_entry s m).trans (announce_entry _ _ _)

/-- The entry preset starts no player. -/
theorem presetDone_players (s : State) (m : HouseMode) : (s.presetDone m).players = s.players := by
  have preset : ∀ (s : State) r, (s.enterPreset r).1.players = s.players := fun s r => by
    unfold enterPreset
    cases r.entryPreset with
    | none => rfl
    | some a =>
      dsimp only
      cases s.presetDef a with
      | none => rfl
      | some d =>
        dsimp only
        cases free : s.placeRefusal .mode r.entryRank (PresetDef.circuits d) false with
        | none =>
          dsimp only
          exact (place_claims s _ (entryPlacement_supplied free)).players
        | some _ => rfl
  exact (preset _ _).trans (releaseAll_claims _ _ _).players

/-- Where every player is OFF, the entry sequence changes none but the one it runs (R151). -/
theorem sequenceDone_player {s : State} {m : HouseMode} (off : ∀ n, (s.player n).mode = .off) (n : PlayerNo)
    (runs : ∀ mode q, (s.modeRecord m).entrySequence ≠ some (.run n mode q)) :
    (s.sequenceDone m).player n = s.player n := by
  have players : ∀ i, (s.presetDone m).player i = s.player i := fun i => by
    unfold State.player
    rw [presetDone_players]
  refine Eq.trans ?_ (players n)
  unfold sequenceDone enterSequence
  cases sequence : (s.modeRecord m).entrySequence with
  | none => rfl
  | some e =>
    cases e with
    | off i =>
      dsimp only
      rw [if_pos (by rw [players]; exact off i)]
    | run i mode q =>
      dsimp only
      cases (s.presetDone m).sequenceDef q with
      | none => rfl
      | some d =>
        dsimp only
        exact (runRequest_runs _ i q mode .mode).others n fun same => runs mode q (by rw [same]; exact sequence)

/-! ## A release of nothing -/

/-- Where no circuit had a claim, no command was lost or given back (R23, R24). -/
theorem commandNotices_silent {s : State} {t : Standings} (bare : ∀ c, (t.before.get c).claims = []) (actor : Option Owner) :
    s.commandNotices t actor = s := by
  have lost : ∀ modes p c, t.lost modes actor p c = false := fun modes p c => by
    unfold Standings.lost
    rw [bare c]
    rfl
  have preempted : ∀ modes p o, t.preempted modes actor p o = 0 := fun modes p o => by
    have none_ : t.lostOn modes actor p = [] :=
      List.filter_eq_nil_iff.mpr fun c _ => by rw [lost]; exact Bool.false_ne_true
    unfold Standings.preempted
    rw [none_]
    rfl
  have restored : ∀ modes p, t.restored modes actor p = 0 := fun modes p => by
    unfold Standings.restored
    split
    · rfl
    · rw [List.filter_eq_nil_iff.mpr fun c _ => by rw [bare c]; exact Bool.false_ne_true]
      rfl
  refine foldl_fixed _ _ _ fun p _ => ?_
  have none_ : Owner.all.foldl (fun s o => s.notifyPreempted t actor p o) s = s := foldl_fixed _ _ _ fun o _ => by
    unfold notifyPreempted
    dsimp only
    rw [preempted, if_neg (Nat.lt_irrefl 0)]
  rw [none_]
  unfold notifyRestored
  dsimp only
  rw [restored, if_neg (Nat.lt_irrefl 0)]

theorem reportRecoveries_nothing (s : State) : (s.reportRecoveries []).ports = s.ports := by
  have all : (s.emergency.recovery.filter fun c => !([] : List Circuit).contains c) = s.emergency.recovery :=
    List.filter_eq_self.mpr fun c _ => rfl
  unfold reportRecoveries
  rw [all]
  split
  · dsimp only
    rw [if_neg (by cases s.emergency.recovery <;> exact Bool.false_ne_true)]
    rfl
  · rfl

/-- A release where no circuit has a claim, no tracker is taken and no slot in use tells nobody anything. -/
theorem releaseAll_nothing {s : State} (bare : ∀ c, s.claims c = []) (free : ∀ n, s.slot n = none)
    (untracked : s.trackers = []) (o : Owner) (time : Nat) : (s.releaseAll o time).ports = s.ports := by
  have none_ : s.circuitsOf o = [] := List.filter_eq_nil_iff.mpr fun c _ => by
    rw [bare c]
    exact Bool.false_ne_true
  have settled : ∀ (u : State) (drops : List TrackerLink), (∀ n, u.slot n = none) → u.trackers = [] →
      (u.settle drops []).ports = u.ports := fun u drops free untracked => by
    have zero : ((u.decrement drops).freeZeroTrackers).ports = u.ports := by
      have none_ : (u.decrement drops).trackers = [] := by
        show u.trackers.map _ = []
        rw [untracked]
        rfl
      unfold freeZeroTrackers
      dsimp only
      rw [none_]
      rfl
    have slots : ∀ n, (((u.decrement drops).freeZeroTrackers).reportRecoveries []).slot n = none := fun n => by
      unfold State.slot
      rw [(reportRecoveries_slots _ _).1, (freeZeroTrackers_slots _).1]
      refine (Tab.get_build _ n).trans ?_
      rw [free n]
      rfl
    unfold settle endDoneSlots
    rw [endSlots_free slots, reportRecoveries_nothing, zero]
  unfold releaseAll release
  rw [none_]
  dsimp only
  rw [commandNotices_silent]
  · exact settled _ _ free untracked
  · exact bare

end State

end Sys2Proof.Machine
end

section
/-! SUPPORT. The restart; and with it the statement on it. -/

namespace Sys2Proof.Machine
open State
namespace State

/-! ## The ports at a restart -/

/-- What a restart keeps of a port, and what it clears (R183). -/
structure RestartedPort (now lease : Nat) (rate : LinkRate) (x y : PortState) : Prop where
  edit : y.edit = none
  orphanEnd : y.orphanEnd = none
  subscriptions : y.subscriptions = x.subscriptions
  badFrames : y.badFrames = x.badFrames
  busyReplies : y.busyReplies = x.busyReplies
  leaseLosses : y.leaseLosses = x.leaseLosses
  noticesDropped : y.noticesDropped = x.noticesDropped
  lastReply : y.lastReply = x.lastReply
  link : y.link = match x.link with
    | .online _ => .online (now + lease * 1000000)
    | .lost _ => .offline
    | .offline => .offline
  linkRate : y.linkRate = match x.link with
    | .online _ => x.linkRate
    | .lost _ => rate
    | .offline => x.linkRate
  fresh : y.isOnline = true → y.queue = [] ∧ y.overflow = false

theorem restartPort_restarted (s : State) (p : Port) (x : PortState) :
    RestartedPort s.now (s.role p).lease (s.role p).linkRate x (s.restartPort p x) := by
  unfold restartPort
  cases link : x.link with
  | online e => exact ⟨rfl, rfl, rfl, rfl, rfl, rfl, rfl, rfl, (by rw [link]; rfl), by rw [link],
    fun _ => ⟨rfl, rfl⟩⟩
  | lost e => exact ⟨rfl, rfl, rfl, rfl, rfl, rfl, rfl, rfl, by rw [link], by rw [link],
    fun on => (by cases on)⟩
  | offline => exact ⟨rfl, rfl, rfl, rfl, rfl, rfl, rfl, rfl, by rw [link], by rw [link],
    fun on => (by cases on)⟩

/-! ## The clearing of a restart -/

/-- The state that a restart's clearing brings, the recoveries it overtakes not yet reported (R29, R44, R87). -/
def clearedState (s : State) : State :=
  { s with
    circuits := s.restartCircuits, trackers := [], slots := .const none, deferred := [], deferWarned := false,
    players := .const .clear, loops := s.loops.each restartLoop }

/-- The recoveries that a restart overtakes (R164). -/
def overtaken (s : State) : List Circuit := (indices 192).filter fun c => !s.forced c && (s.circuit c).recovering

theorem clearForRestart_eq (s : State) : s.clearForRestart = s.clearedState.reportRecoveries s.overtaken := rfl

theorem reportRecoveries_frame (s : State) (cs : List Circuit) : ∃ emergency ports,
    s.reportRecoveries cs = { s with emergency := emergency, ports := ports } := by
  unfold reportRecoveries
  split
  · dsimp only
    split <;> exact ⟨_, _, rfl⟩
  · exact ⟨s.emergency, s.ports, rfl⟩

theorem clearForRestart_frame (s : State) : ∃ emergency ports,
    s.clearForRestart = { s.clearedState with emergency := emergency, ports := ports } :=
  reportRecoveries_frame _ _

/-- A port at the clearing hears of nothing but the recovery that it ends (R161). -/
theorem reportRecoveries_port (s : State) (cs : List Circuit) :
    (∀ q, (s.reportRecoveries cs).port q = s.port q)
    ∨ s.emergency.state = .recovering ∧ (s.reportRecoveries cs).emergency.state = .normal
      ∧ ∀ q, (s.reportRecoveries cs).port q =
        (s.port q).hear (.emergency .normal s.emergency.accepted .recoveryComplete 0) := by
  have none_ : (s.setEmergency .normal []).forcedCount = 0 :=
    forcedCount_eq (s := s) (t := s.setEmergency .normal []) (e := .normal) rfl rfl
  unfold reportRecoveries
  split
  · rename_i recovering
    dsimp only
    split
    · refine .inr ⟨recovering, rfl, fun q => ?_⟩
      unfold announceEmergency
      rw [none_]
      exact Tab.get_each _ _ _
    · exact .inl fun q => rfl
  · exact .inl fun q => rfl

/-- The clearing ends every recovery of a circuit that is not forced, and reports it (R40, R161). -/
theorem clearedState_recovering (s : State) (c : Circuit) :
    (s.clearedState.circuit c).recovering = (s.forced c && (s.circuit c).recovering) := by
  have circuit : s.clearedState.circuit c = s.restartCircuits.get c := rfl
  unfold CircuitState.recovering
  rw [circuit]
  unfold restartCircuits
  rw [Tab.get_build]
  by_cases forced : s.forced c = true
  · rw [forced]
    rfl
  · rw [Bool.eq_false_iff.mpr forced]
    unfold CircuitState.startTransition
    dsimp only
    by_cases zero : s.tables.settings.restartFade = 0
    · rw [if_pos zero]
      rfl
    · rw [if_neg zero]
      rfl

theorem clearForRestart_recovers (s : State) : Recovers s s.clearForRestart := by
  rw [clearForRestart_eq]
  refine Recovers.report (s := s) (u := s.clearedState) (.of_ports rfl) rfl (fun c h => ?_) s.overtaken fun _ c => ?_
  · rw [clearedState_recovering] at h
    exact ((Bool.and_eq_true _ _).mp h).2
  · rw [clearedState_recovering]
    unfold overtaken
    rw [List.mem_filter]
    cases s.forced c <;> cases (s.circuit c).recovering <;> simp

/-- No circuit is forced while a recovery runs (R157). -/
theorem forced_of_recovering {s : State} (recovering : s.emergency.state = .recovering) (c : Circuit) :
    s.forced c = false := by
  unfold State.forced forcedLevel
  rw [recovering]
  rfl

/-- A recovery that the clearing overtakes whole is complete (R161). -/
theorem clearForRestart_completes {s : State} (recovering : s.emergency.state = .recovering)
    (some_ : s.emergency.recovery ≠ []) (runs : ∀ c ∈ s.emergency.recovery, (s.circuit c).recovering = true) :
    s.clearForRestart.emergency.state = .normal ∧ s.clearForRestart.emergency.recovery = []
      ∧ Announced s.clearForRestart (.emergency .normal s.emergency.accepted .recoveryComplete 0) := by
  refine (clearForRestart_recovers s).ends recovering some_ (List.filter_eq_nil_iff.mpr fun c mem => ?_)
  have circuit : (s.clearForRestart.circuit c).recovering = (s.clearedState.circuit c).recovering := by
    rw [clearForRestart_eq]
    unfold State.circuit
    rw [reportRecoveries_circuits]
  rw [circuit, clearedState_recovering, forced_of_recovering recovering, runs c mem]
  exact Bool.false_ne_true

theorem recovering_of_cause {x : CircuitState} {y : Transition} (runs : x.transition = some y)
    (cause : y.cause = .recovery) : x.recovering = true := by
  unfold CircuitState.recovering
  rw [runs]
  dsimp only
  rw [cause]
  rfl

theorem key_clearForRestart (s : State) (k : KeyAddr) :
    s.clearForRestart.key k = { s.key k with phase := .none, blinkEnd := none } := by
  obtain ⟨emergency, ports, frame⟩ := clearForRestart_frame s
  have loops : s.clearForRestart.loops = s.loops.each restartLoop := by rw [frame]; rfl
  unfold State.key State.station State.loop
  rw [loops, Tab.get_each]
  unfold restartLoop
  dsimp only
  rw [Tab.get_each]
  dsimp only
  rw [Tab.get_each]
  rfl

theorem loop_clearForRestart (s : State) (l : LoopNo) :
    (s.clearForRestart.loop l).pollMisses = (s.loop l).pollMisses
    ∧ (s.clearForRestart.loop l).typeMismatches = (s.loop l).typeMismatches
    ∧ (s.clearForRestart.loop l).exchange = (s.loop l).exchange := by
  obtain ⟨emergency, ports, frame⟩ := clearForRestart_frame s
  have loops : s.clearForRestart.loops = s.loops.each restartLoop := by rw [frame]; rfl
  unfold State.loop
  rw [loops, Tab.get_each]
  exact ⟨rfl, rfl, rfl⟩

end State

end Sys2Proof.Machine
end

section
/-! SUPPORT. What the clearing of a restart leaves, before the entry actions of the mode kept. -/

namespace Sys2Proof.Machine
open State
namespace State

/-! ## Notices at a port with room -/

theorem hear_dropped {x : PortState} (room : x.isOnline = true → x.queue.length < Config.queueSlots) (n : Notice) :
    (x.hear n).noticesDropped = x.noticesDropped := by
  unfold PortState.hear
  split
  · rename_i hears
    unfold PortState.enqueue
    rw [if_pos (room ((Bool.and_eq_true _ _).mp hears).1)]
  · rfl

theorem hear_empty {x : PortState} (queue : x.queue = []) (overflow : x.overflow = false) (n : Notice) :
    (x.hear n).overflow = false ∧ ((x.hear n).queue = [] ∨ (x.hear n).queue = [n]) := by
  unfold PortState.hear
  split
  · unfold PortState.enqueue
    rw [queue, if_pos (by decide)]
    exact ⟨overflow, .inr rfl⟩
  · exact ⟨overflow, .inl queue⟩

/-! ## A mode without entry actions -/

theorem sequenceDone_nothing {s : State} {m : HouseMode} (preset : (s.modeRecord m).entryPreset = none)
    (sequence : (s.modeRecord m).entrySequence = none) : s.sequenceDone m = s.modeReleased m := by
  have bare : s.presetDone m = s.modeReleased m := by
    unfold presetDone enterPreset
    rw [preset]
  unfold sequenceDone enterSequence
  rw [sequence]
  exact bare

/-! ## The ports passed -/

/-- `b` is `s` with a request of port `p` answered by `reply` and the ports then passed by a restart (R183, R200). -/
structure PortsPassed (s b : State) (p : Port) (reply : Reply) : Prop where
  same : ∃ ports, b = { s with ports := ports }
  edit : ∀ q, (b.port q).edit = none
  orphanEnd : ∀ q, (b.port q).orphanEnd = none
  subscriptions : ∀ q, (b.port q).subscriptions = (s.port q).subscriptions
  badFrames : ∀ q, (b.port q).badFrames = (s.port q).badFrames
  busyReplies : ∀ q, (b.port q).busyReplies = (s.port q).busyReplies
  leaseLosses : ∀ q, (b.port q).leaseLosses = (s.port q).leaseLosses
  noticesDropped : ∀ q, (b.port q).noticesDropped = (s.port q).noticesDropped
  fresh : ∀ q, (b.port q).isOnline = true → (b.port q).queue = [] ∧ (b.port q).overflow = false
  others : ∀ q, q ≠ p → RestartedPort s.now (s.role q).lease (s.role q).linkRate (s.port q) (b.port q)
  online : (b.port p).isOnline = true
  lastReply : (b.port p).lastReply = some reply

theorem portsPassed (s : State) (p : Port) (tag : Byte) :
    PortsPassed s (answered s p 0x43 tag .ok .empty).restartPorts p (replyFrom s p 0x43 tag .ok .empty) := by
  have passed : ∀ q, RestartedPort s.now (s.role q).lease (s.role q).linkRate
      ((answered s p 0x43 tag .ok .empty).port q) ((answered s p 0x43 tag .ok .empty).restartPorts.port q) := fun q => by
    rw [port_restartPorts]
    exact restartPort_restarted _ q _
  have port := fun q => port_onPort_ite s p q fun x => { x with
    link := .online (s.now + (s.role p).lease * Config.second)
    orphanEnd := none
    lastReply := some (replyFrom s p 0x43 tag .ok .empty) }
  have kept {α : Type} (f : PortState → α) (free : ∀ x link orphanEnd lastReply,
      f { x with link := link, orphanEnd := orphanEnd, lastReply := lastReply } = f x) (q : Port) :
      f ((answered s p 0x43 tag .ok .empty).port q) = f (s.port q) := by
    unfold answered
    rw [port]
    split
    · exact free _ _ _ _
    · rfl
  have self := passed p
  have here : (answered s p 0x43 tag .ok .empty).port p = { s.port p with
      link := .online (s.now + (s.role p).lease * Config.second)
      orphanEnd := none
      lastReply := some (replyFrom s p 0x43 tag .ok .empty) } := (port p).trans (if_pos rfl)
  rw [here] at self
  refine ⟨?_, fun q => (passed q).edit, fun q => (passed q).orphanEnd,
    fun q => (passed q).subscriptions.trans (kept PortState.subscriptions (fun _ _ _ _ => rfl) q),
    fun q => (passed q).badFrames.trans (kept PortState.badFrames (fun _ _ _ _ => rfl) q),
    fun q => (passed q).busyReplies.trans (kept PortState.busyReplies (fun _ _ _ _ => rfl) q),
    fun q => (passed q).leaseLosses.trans (kept PortState.leaseLosses (fun _ _ _ _ => rfl) q),
    fun q => (passed q).noticesDropped.trans (kept PortState.noticesDropped (fun _ _ _ _ => rfl) q),
    fun q => (passed q).fresh, fun q other => ?_, ?_, self.lastReply⟩
  · obtain ⟨ports, eq⟩ := restartPorts_eq (answered s p 0x43 tag .ok .empty)
    exact ⟨ports, eq⟩
  · have there : (answered s p 0x43 tag .ok .empty).port q = s.port q := (port q).trans (if_neg other)
    have other := passed q
    rw [there] at other
    exact other
  · unfold PortState.isOnline
    rw [self.link]

/-! ## The state cleared -/

/-- `c` is what the clearing of a restart leaves of `s`, circuits, Emergency Plane and ports apart (R29, R44, R87). -/
structure Swept (s c : State) : Prop where
  trackers : c.trackers = []
  free : ∀ n, c.slot n = none
  deferred : c.deferred = []
  warned : c.deferWarned = false
  players : ∀ n, c.player n = .clear
  tables : c.tables = s.tables
  versions : c.versions = s.versions
  configState : c.configState = s.configState
  memory : c.memory = s.memory
  mode : c.mode = s.mode
  lines : c.lines = s.lines
  frameCount : c.frameCount = s.frameCount
  rackDue : c.rackDue = s.rackDue
  counters : c.counters = s.counters
  owed : c.replayOwed = s.replayOwed

section
variable {s b : State} {p : Port} {reply : Reply} (passed : PortsPassed s b p reply)
include passed

theorem PortsPassed.sameClaims : SameClaims s b := by
  obtain ⟨ports, eq⟩ := passed.same
  rw [eq]
  exact ⟨rfl, rfl, rfl, rfl, rfl, rfl⟩

theorem PortsPassed.emergency : b.emergency = s.emergency := by
  obtain ⟨ports, eq⟩ := passed.same
  rw [eq]

theorem PortsPassed.loops : b.loops = s.loops := by
  obtain ⟨ports, eq⟩ := passed.same
  rw [eq]

theorem PortsPassed.swept : Swept s b.clearForRestart := by
  obtain ⟨ports, eq⟩ := passed.same
  obtain ⟨emergency, heard, frame⟩ := clearForRestart_frame b
  rw [frame, eq]
  exact ⟨rfl, fun n => Tab.get_const _ n, rfl, rfl, fun n => Tab.get_const _ n, rfl, rfl, rfl, rfl, rfl, rfl, rfl, rfl,
    rfl, rfl⟩

theorem PortsPassed.contact : b.clearForRestart.emergency.accepted = s.emergency.accepted
    ∧ b.clearForRestart.emergency.debounce = s.emergency.debounce := by
  obtain ⟨_, accepted, debounce⟩ := (clearForRestart_claims b).contact
  have emergency : b.clearedState.emergency = s.emergency := passed.emergency
  rw [← emergency]
  exact ⟨accepted, debounce⟩

/-- The relay of a circuit stands; its claims and raise set are gone (R29, R200). -/
theorem PortsPassed.circuit (c : Circuit) : b.clearForRestart.claims c = []
    ∧ (b.clearForRestart.circuit c).raisedBy = none
    ∧ (b.clearForRestart.circuit c).relay = (s.circuit c).relay := by
  refine ⟨claims_clearForRestart b c, ?_, ?_⟩
  · rw [circuit_clearForRestart]
    split <;> rfl
  · rw [circuit_clearForRestart, ← passed.sameClaims.circuit c]
    split <;> rfl

/-- A circuit not forced starts a RESTART transition (R44). -/
theorem PortsPassed.transition (c : Circuit) :
    (s.forced c = true → (b.clearForRestart.circuit c).transition = (s.circuit c).transition)
    ∧ (s.forced c = false → (b.clearForRestart.circuit c).transition =
      started .restart none (s.level c) s.tables.settings.restartFade) := by
  have same := passed.sameClaims
  rw [circuit_clearForRestart, same.forced c, same.level c, same.circuit c, same.tables]
  refine ⟨fun forced => ?_, fun free => ?_⟩
  · rw [if_pos forced]
  · rw [if_neg (by rw [free]; exact Bool.false_ne_true)]
    rfl

/-- A port at the clearing hears of nothing but the recovery that it overtakes (R161). -/
theorem PortsPassed.port : (∀ q, b.clearForRestart.port q = b.port q)
    ∨ s.emergency.state = .recovering ∧ b.clearForRestart.emergency.state = .normal
      ∧ ∀ q, b.clearForRestart.port q =
        (b.port q).hear (.emergency .normal s.emergency.accepted .recoveryComplete 0) := by
  have emergency : b.clearedState.emergency = s.emergency := passed.emergency
  have heard := reportRecoveries_port b.clearedState b.overtaken
  rw [emergency] at heard
  exact heard

theorem PortsPassed.dropped (q : Port) :
    (b.clearForRestart.port q).noticesDropped = (s.port q).noticesDropped := by
  rw [← passed.noticesDropped q]
  obtain same | ⟨_, _, heard⟩ := passed.port
  · rw [same q]
  · rw [heard q]
    refine hear_dropped (fun on => ?_) _
    rw [(passed.fresh q on).1]
    decide

theorem PortsPassed.queues (q : Port) (on : (b.clearForRestart.port q).isOnline = true) :
    (b.clearForRestart.port q).overflow = false
    ∧ ((b.clearForRestart.port q).queue = []
      ∨ s.emergency.state = .recovering ∧ b.clearForRestart.emergency.state = .normal
        ∧ (b.clearForRestart.port q).queue = [.emergency .normal s.emergency.accepted .recoveryComplete 0]) := by
  have online : (b.port q).isOnline = true := ((clearForRestart_recovers b).heard.online q).symm.trans on
  obtain ⟨queue, overflow⟩ := passed.fresh q online
  obtain same | ⟨recovering, ended, heard⟩ := passed.port
  · rw [same q]
    exact ⟨overflow, .inl queue⟩
  · rw [heard q]
    obtain ⟨clear, quiet | told⟩ := hear_empty queue overflow
      (.emergency .normal s.emergency.accepted .recoveryComplete 0)
    · exact ⟨clear, .inl quiet⟩
    · exact ⟨clear, .inr ⟨recovering, ended, told⟩⟩

/-- The release with which the entry actions begin finds nothing to release, and tells nobody (R149). -/
theorem PortsPassed.modeReleased_ports (m : HouseMode) :
    (b.clearForRestart.modeReleased m).ports = b.clearForRestart.ports :=
  releaseAll_nothing (fun c => (passed.circuit c).1) passed.swept.free passed.swept.trackers _ _

theorem PortsPassed.modeReleased_port (m : HouseMode) (q : Port) :
    (b.clearForRestart.modeReleased m).port q = b.clearForRestart.port q := by
  unfold State.port
  rw [passed.modeReleased_ports]

theorem PortsPassed.modeReleased_player (m : HouseMode) (n : PlayerNo) :
    (b.clearForRestart.modeReleased m).player n = .clear := by
  refine Eq.trans ?_ (passed.swept.players n)
  unfold State.player modeReleased
  rw [(releaseAll_claims _ _ _).players]

/-- The state in which the entry actions begin is `s` cleared (R200). -/
theorem PortsPassed.restartCleared (m : HouseMode) : RestartCleared s (b.clearForRestart.modeReleased m) := by
  have swept := passed.swept
  have released := modeReleased_entry b.clearForRestart m []
  have emergency : b.clearForRestart.emergency.state = .normal →
      (b.clearForRestart.modeReleased m).emergency.state = .normal := fun normal =>
    (released.recovers.still (by rw [normal]; decide)).1.trans normal
  have bare := fun c => released.bare c List.not_mem_nil (passed.circuit c).1
  refine ⟨fun c => ?_, fun c forced => ?_, fun c free => ?_, fun n => ?_, fun q on => ?_, ?_⟩
  · obtain ⟨_, raised, relay⟩ := passed.circuit c
    exact ⟨(bare c).1, (released.raises c).trans raised, (released.steady.circuits c).relay.trans relay⟩
  · exact (bare c).2.trans ((passed.transition c).1 forced)
  · exact (bare c).2.trans ((passed.transition c).2 free)
  · exact passed.modeReleased_player m n
  · rw [passed.modeReleased_port] at on ⊢
    obtain ⟨clear, empty | ⟨recovering, normal, told⟩⟩ := passed.queues q on
    · exact ⟨clear, passed.dropped q, .inl empty⟩
    · exact ⟨clear, passed.dropped q, .inr ⟨recovering, emergency normal, told⟩⟩
  · refine ⟨released.steady.tables.trans swept.tables, released.steady.mode.trans swept.mode, ?_,
      released.slots_none swept.free, released.deferred.trans swept.deferred⟩
    refine List.eq_nil_iff_forall_not_mem.mpr fun x mem => ?_
    obtain ⟨y, held, _⟩ := released.spares.held x mem
    rw [swept.trackers] at held
    cases held

end

end State

end Sys2Proof.Machine
end

section
/-! SUPPORT. The restart whole: the clearing, then the entry actions of the mode kept; with it the statement on it. -/

namespace Sys2Proof.Machine
open State
namespace State

/-! ## The restart taken -/

theorem reenterMode_none {s : State} (mode : s.mode = none) : s.reenterMode = s := by
  unfold reenterMode
  rw [mode]

theorem reenterMode_some {s : State} {m : HouseMode} (mode : s.mode = some m) :
    s.reenterMode = (s.changeMode m .restart).1 := by
  unfold reenterMode
  rw [mode]

theorem reenterMode_entry (s : State) : ∃ touched, EntryEvent touched s s.reenterMode := by
  cases mode : s.mode with
  | none =>
    rw [reenterMode_none mode]
    exact ⟨[], EntryEvent.refl [] s⟩
  | some m =>
    rw [reenterMode_some mode]
    exact ⟨_, changeMode_same_entry mode .restart⟩

theorem port_entered {b t : State} {touched : List Circuit} (entry : EntryEvent touched b.clearForRestart t) (q : Port) :
    SamePort (b.port q) (t.port q) :=
  ((clearForRestart_claims b).ports q.ix).trans (entry.steady.ports q.ix)

theorem port_announce (s : State) (n : Notice) (q : Port) : (s.announce n).port q = (s.port q).hear n :=
  Tab.get_each _ _ _

theorem counters_modeReleased (s : State) (m : HouseMode) : (s.modeReleased m).counters = s.counters := by
  unfold modeReleased
  rw [(releaseAll_claims _ _ _).counts]

theorem counters_announce (s : State) (n : Notice) : (s.announce n).counters = s.counters := rfl

theorem player_announce (s : State) (n : Notice) (i : PlayerNo) : (s.announce n).player i = s.player i := rfl

section
variable {s b : State} {p : Port} {reply : Reply} (passed : PortsPassed s b p reply)
include passed

/-- The clearing leaves no slot, so that the entry actions owe no replay (R116, R117). -/
theorem PortsPassed.replay (settled : s.replayOwed = false) :
    b.clearForRestart.reenterMode.replay = b.clearForRestart.reenterMode := by
  obtain ⟨touched, entry⟩ := reenterMode_entry b.clearForRestart
  exact replay_of_clear _ ((entry.owed passed.swept.free).trans (passed.swept.owed.trans settled))

/-! ## What holds whatever the entry actions are -/

section
variable {touched : List Circuit} {t : State} (entry : EntryEvent touched b.clearForRestart t)
include entry

theorem PortsPassed.entered_trackers : t.trackers = [] :=
  List.eq_nil_iff_forall_not_mem.mpr fun x mem => by
    obtain ⟨y, held, _⟩ := entry.spares.held x mem
    rw [passed.swept.trackers] at held
    cases held

theorem PortsPassed.entered_still (still : s.emergency.state ≠ .recovering) :
    t.emergency.state = s.emergency.state := by
  have emergency := passed.emergency
  have recovers := (clearForRestart_recovers b).trans entry.recovers
  rw [← emergency] at still ⊢
  exact (recovers.still still).1

/-- A recovery overtaken whole is complete, and the entry actions leave it so (R161). -/
theorem PortsPassed.entered_completes (recovering : s.emergency.state = .recovering) (left : s.emergency.recovery ≠ [])
    (runs : ∀ c ∈ s.emergency.recovery, ∃ y, (s.circuit c).transition = some y ∧ y.cause = .recovery) :
    t.emergency.state = .normal ∧ t.emergency.recovery = []
      ∧ Announced t (.emergency .normal s.emergency.accepted .recoveryComplete 0) := by
  have emergency := passed.emergency
  have circuit := passed.sameClaims.circuit
  rw [← emergency] at recovering left runs ⊢
  obtain ⟨normal, empty, announced⟩ := clearForRestart_completes recovering left fun c mem => by
    obtain ⟨y, run, cause⟩ := runs c mem
    rw [circuit]
    exact recovering_of_cause run cause
  obtain ⟨state, recovery⟩ := entry.recovers.still (by rw [normal]; decide)
  exact ⟨state.trans normal, recovery.trans empty, entry.recovers.heard.announced announced⟩

theorem PortsPassed.entered_circuit (c : Circuit) :
    (t.circuit c).relay = (s.circuit c).relay ∧ (t.circuit c).raisedBy = none := by
  obtain ⟨_, raised, relay⟩ := passed.circuit c
  exact ⟨(entry.steady.circuits c).relay.trans relay, (entry.raises c).trans raised⟩

/-- The claims a restart leaves are those of the entry actions (R150, R151). -/
theorem PortsPassed.entered_owner (c : Circuit) : ∀ x ∈ t.claims c, x.owner = .mode ∨ ∃ n, x.owner = .seq n := by
  intro x mem
  by_contra other
  obtain ⟨mode, seq⟩ := not_or.mp other
  have wish := entry.owners c x.owner mode fun n same => seq ⟨n, same⟩
  rw [(passed.circuit c).1] at wish
  exact claimOf_eq_none.mp (Option.map_eq_none_iff.mp wish) x mem rfl

theorem PortsPassed.entered_key (k : KeyAddr) : t.key k = { s.key k with phase := .none, blinkEnd := none } := by
  rw [key_of_loops entry.steady.loops, key_clearForRestart, key_of_loops passed.loops]

theorem PortsPassed.entered_loop (l : LoopNo) : (t.loop l).pollMisses = (s.loop l).pollMisses
    ∧ (t.loop l).typeMismatches = (s.loop l).typeMismatches ∧ (t.loop l).exchange = (s.loop l).exchange := by
  have loop : t.loop l = b.clearForRestart.loop l := by
    unfold State.loop
    rw [entry.steady.loops]
  have stands : b.loop l = s.loop l := by
    unfold State.loop
    rw [passed.loops]
  rw [loop, ← stands]
  exact loop_clearForRestart b l

theorem PortsPassed.entered_counters (q : Port) : (t.port q).badFrames = (s.port q).badFrames
    ∧ (t.port q).busyReplies = (s.port q).busyReplies ∧ (t.port q).leaseLosses = (s.port q).leaseLosses := by
  have same := port_entered entry q
  exact ⟨same.badFrames.trans (passed.badFrames q), same.busyReplies.trans (passed.busyReplies q),
    same.leaseLosses.trans (passed.leaseLosses q)⟩

/-- A circuit that no entry action touches stands as the clearing left it (R44). -/
theorem PortsPassed.entered_untouched {c : Circuit} (out : c ∉ touched) : t.claims c = []
    ∧ (s.forced c = true → (t.circuit c).transition = (s.circuit c).transition)
    ∧ (s.forced c = false →
      (t.circuit c).transition = started .restart none (s.level c) s.tables.settings.restartFade) := by
  obtain ⟨claims, transition⟩ := entry.bare c out (passed.circuit c).1
  obtain ⟨forced, free⟩ := passed.transition c
  exact ⟨claims, fun h => transition.trans (forced h), fun h => transition.trans (free h)⟩

end

/-! ## The entry actions -/

theorem PortsPassed.record (m : HouseMode) : b.clearForRestart.modeRecord m = s.tables.modes.get m.ix := by
  unfold modeRecord
  rw [passed.swept.tables]

theorem PortsPassed.entryCircuits (r : ModeRecord) : entryCircuits b.clearForRestart r = entryCircuits s r := by
  rw [entryCircuits_eq, entryCircuits_eq, presetCircuits_of_tables passed.swept.tables,
    sequenceCircuits_of_tables passed.swept.tables]

variable {m : HouseMode} (mode : s.mode = some m)
include mode

theorem PortsPassed.mode_kept : b.clearForRestart.mode = some m := passed.swept.mode.trans mode

theorem PortsPassed.entered_actions : ∃ (w u x : State) (preset : PresetOutcome) (sequence : SequenceOutcome),
    RestartCleared s w ∧ PresetEntered w u (s.tables.modes.get m.ix) preset
      ∧ SequenceEntered u x (s.tables.modes.get m.ix) sequence
      ∧ b.clearForRestart.reenterMode =
        x.announce (.mode m (some m) .restart preset sequence (entryRefused preset sequence)) := by
  obtain ⟨preset, sequence, entered, ran, change⟩ := changeMode_same (passed.mode_kept mode) .restart
  rw [passed.record] at entered ran
  exact ⟨_, _, _, preset, sequence, passed.restartCleared m, entered, ran,
    (reenterMode_some (passed.mode_kept mode)).trans change⟩

theorem PortsPassed.entered_named : EntryEvent (Machine.entryCircuits s (s.tables.modes.get m.ix)) b.clearForRestart
    b.clearForRestart.reenterMode := by
  have entry := changeMode_same_entry (passed.mode_kept mode) .restart
  rw [← reenterMode_some (passed.mode_kept mode), passed.record, passed.entryCircuits] at entry
  exact entry

theorem PortsPassed.entered_player (n : PlayerNo)
    (runs : ∀ mode q, (s.tables.modes.get m.ix).entrySequence ≠ some (.run n mode q)) :
    b.clearForRestart.reenterMode.player n = .clear := by
  obtain ⟨preset, sequence, _, _, change⟩ := changeMode_same (passed.mode_kept mode) .restart
  rw [← passed.record] at runs
  rw [reenterMode_some (passed.mode_kept mode), change, player_announce]
  have stands := sequenceDone_player (s := b.clearForRestart) (m := m)
    (fun i => by rw [passed.swept.players]; rfl) n runs
  exact stands.trans (passed.swept.players n)

/-- Where the record of the mode names no action, the clearing is announced with the mode, and no more. -/
theorem PortsPassed.entered_nothing (preset : (s.tables.modes.get m.ix).entryPreset = none)
    (sequence : (s.tables.modes.get m.ix).entrySequence = none) :
    ∃ n, b.clearForRestart.reenterMode = (b.clearForRestart.modeReleased m).announce n := by
  obtain ⟨_, _, _, _, change⟩ := changeMode_same (passed.mode_kept mode) .restart
  rw [← passed.record] at preset sequence
  rw [sequenceDone_nothing preset sequence] at change
  exact ⟨_, (reenterMode_some (passed.mode_kept mode)).trans change⟩

theorem PortsPassed.entered_nothing_counters (preset : (s.tables.modes.get m.ix).entryPreset = none)
    (sequence : (s.tables.modes.get m.ix).entrySequence = none) :
    b.clearForRestart.reenterMode.counters = s.counters := by
  obtain ⟨n, eq⟩ := passed.entered_nothing mode preset sequence
  rw [eq, counters_announce, counters_modeReleased, passed.swept.counters]

theorem PortsPassed.entered_nothing_dropped (preset : (s.tables.modes.get m.ix).entryPreset = none)
    (sequence : (s.tables.modes.get m.ix).entrySequence = none) (q : Port) :
    (b.clearForRestart.reenterMode.port q).noticesDropped = (s.port q).noticesDropped := by
  obtain ⟨n, eq⟩ := passed.entered_nothing mode preset sequence
  rw [eq, port_announce, passed.modeReleased_port, ← passed.dropped q]
  refine hear_dropped (fun on => ?_) n
  obtain ⟨_, queue | ⟨_, _, queue⟩⟩ := passed.queues q on
  · rw [queue, List.length_nil]
    decide
  · rw [queue, List.length_singleton]
    decide

end

end State

/-! ## RESTART -/

theorem exec_restart_denied {s : State} {p : Port} (ready : Ready s p) (tag : Byte)
    (denied : s.permits p .admin = false) :
    exec (.restart p tag (.fields ())) s = .next (answered s p 0x43 tag .denied .empty) := by
  have refused : (s.refreshLease p).permits p .admin = false := denied
  show execRestart p tag (.fields ()) s = _
  unfold execRestart
  rw [receive_ready 0x43 tag ready rfl]
  dsimp only
  rw [refused, ← respond_refreshLease]
  rfl

theorem exec_restart_saving {s : State} {p : Port} (ready : Ready s p) (tag : Byte)
    (admin : s.permits p .admin = true) (saves : s.save ≠ none) :
    exec (.restart p tag (.fields ())) s = .next (answered s p 0x43 tag .busySaving .empty) := by
  have allowed : (s.refreshLease p).permits p .admin = true := admin
  have saving : (s.refreshLease p).saving = true := Option.isSome_iff_ne_none.mpr saves
  show execRestart p tag (.fields ()) s = _
  unfold execRestart
  rw [receive_ready 0x43 tag ready rfl]
  dsimp only
  rw [allowed, saving, ← respond_refreshLease]
  rfl

/-- Settles O47: the ports are passed, the rest is cleared, and the mode kept is entered where nothing holds anything. -/
theorem restartClearsAndKeeps : Obligations.RestartClearsAndKeeps := by
  refine fun s p tag ready => ⟨fun admin saves => ?_, exec_restart_saving ready tag, exec_restart_denied ready tag⟩
  have passed := portsPassed s p tag
  have taken : (answered s p 0x43 tag .ok .empty).restart =
      (answered s p 0x43 tag .ok .empty).restartPorts.clearForRestart.reenterMode := passed.replay ready.settled
  refine ⟨_, (exec_restart_ready ready tag admin saves).trans (congrArg Host.Outcome.next taken), ?_⟩
  clear taken
  generalize (answered s p 0x43 tag .ok .empty).restartPorts = b at passed
  have swept := passed.swept
  obtain ⟨touched, entry⟩ := reenterMode_entry b.clearForRestart
  have steady := entry.steady
  have port := port_entered entry
  refine ⟨passed.entered_trackers entry, entry.slots_none swept.free, entry.deferred.trans swept.deferred,
    entry.warned.trans swept.warned, steady.tables.trans swept.tables, steady.versions.trans swept.versions,
    steady.configState.trans swept.configState, steady.memory.trans swept.memory, steady.mode.trans swept.mode,
    steady.contact.2.1.trans passed.contact.1, steady.contact.2.2.trans passed.contact.2, passed.entered_still entry,
    passed.entered_completes entry, passed.entered_circuit entry, passed.entered_owner entry, passed.entered_key entry,
    passed.entered_counters entry, passed.entered_loop entry, ?counters, fun m mode => ⟨passed.entered_actions mode,
      fun c => passed.entered_untouched (passed.entered_named mode), passed.entered_player mode⟩,
    fun m mode preset sequence => ⟨fun c => ?untouched, fun n => ?players,
      passed.entered_nothing_counters mode preset sequence, passed.entered_nothing_dropped mode preset sequence⟩,
    steady.lines.trans swept.lines, steady.frameCount.trans swept.frameCount, steady.rackDue.trans swept.rackDue,
    fun q other => (port q).link.trans (passed.others q other).link,
    fun q other => (port q).linkRate.trans (passed.others q other).linkRate,
    fun q => ⟨(port q).orphanEnd.trans (passed.orphanEnd q), (port q).edit.trans (passed.edit q),
      (port q).subscriptions.trans (passed.subscriptions q)⟩,
    (port p).lastReply.trans passed.lastReply, ?online⟩
  case counters => exact entry.counters.trans (by rw [swept.counters])
  case untouched =>
    refine passed.entered_untouched (passed.entered_named mode) ?_
    rw [entryCircuits_eq]
    unfold presetCircuits sequenceCircuits
    rw [preset, sequence]
    exact List.not_mem_nil
  case players => exact passed.entered_player mode n fun _ _ => by rw [sequence]; exact nofun
  case online =>
    exact ((entry.recovers.heard.online p).trans ((clearForRestart_recovers b).heard.online p)).trans passed.online

end Sys2Proof.Machine
end
